-- ==== Sys2Proof/Word.lean ====
section
/-! DEFINITION. The word widths of the Gantrel FD-24 as its manual uses them: octets of the drop line and of host RAM,
and the 16-, 32- and 64-bit fields of requests, registers and frames. Counts, offsets, sizes and editions, which the
manual compares as plain integers (R23), are `Nat` wherever they are held. -/

namespace Sys2Proof

/-- One octet, of host RAM or of the drop line. -/
abbrev Octet := BitVec 8

/-- A two-octet field. -/
abbrev Half := BitVec 16

/-- A four-octet field or a 32-bit register. -/
abbrev Word32 := BitVec 32

/-- An eight-octet field. -/
abbrev Word64 := BitVec 64

end Sys2Proof
end

