-- ==== Sys2Proof/Syntax.lean ====
section
/-! DEFINITION. The commands of the part: one constructor of `Instr` for each row of the table of operations and events,
with the operands its rules read. A command is a register write, a request of a work slot, a timer's expiry, or something
that happens on the drop line; operands taken from host RAM or from a frame have the widths of their fields
(R96, R97, R198) and are checked by the machine, not here. -/

namespace Sys2Proof

/-- What brought a device reset: power-on, or a low level on RST# (R189, R197). -/
inductive ResetSource where
  | power
  | pin
  deriving DecidableEq, Repr

/-- A run of host addresses, both ends included, whose reads report a bus error while the command acts. -/
structure HostRange where
  first : Nat
  last : Nat
  deriving DecidableEq, Repr

/-- The parameters of a POST as they stand in the slot (R198). -/
structure PostFields where
  stream : Octet
  form : Octet
  base : Half
  edition : Half
  fragments : Octet
  size : Word32
  footprint : Word32
  check : Word32
  gather : Word64
  deriving DecidableEq, Repr

/-- The parameters of a TARGET as they stand in the slot (R198). -/
structure TargetFields where
  stream : Octet
  timed : Bool
  edition : Half
  activation : Word32
  lead : Half
  hold : Half
  deriving DecidableEq, Repr

/-- One entry of a HOT_ADD as it stands in the slot (R198). -/
structure HotFields where
  card : Word64
  action : Octet
  tier : Octet
  edition : Half
  deriving DecidableEq, Repr

/-- The eleven fields of a LINE_SET as they stand in the slot (R123, R198). -/
structure LineFields where
  rate : Half
  cycleLength : Half
  payloadLimit : Half
  replyTimeout : Half
  guardTime : Half
  probeInterval : Octet
  burst : Octet
  retryLimit : Octet
  silence : Octet
  quietEntry : Octet
  keepalive : Octet
  deriving DecidableEq, Repr

/-- The payload of a STATUS frame (R96). `heldFare` is the FARE position of the held editions, which is not read (R52). -/
structure StatusFields where
  serial : Word32
  maxPayload : Half
  openSlots : Octet
  hotCapacity : Octet
  fareCapacity : BitVec 24
  blockCapacity : BitVec 24
  heldT0 : Half
  heldFare : Half
  heldT1 : Half
  heldT2 : Half
  heldT3 : Half
  activeFare : Half
  pendingFare : Half
  armed : Bool
  noticePending : Bool
  hotEpoch : Octet
  hotHighWater : Half
  deriving DecidableEq, Repr

/-- The commands, in the order of the table. `slot` is the work slot that holds a request and `ref` its software
reference. `host` lists the octets that software has written into host RAM before the part reads it, `bus` the host
addresses whose reads fail while the command acts, `free` whether the line is free when a frame would begin (R86),
`attnLow` the level of ATTN# when it is judged, and `octets` what has been received since the frame of the exchange was sent
(assumption log 47). -/
inductive Instr where
  | deviceReset (source : ResetSource)
  | softReset
  | run (value : Bool)
  | lineEnable (value : Bool)
  | prompt
  | cancel
  | xbaseWrite (value : Word64)
  | causeClear (value : Word32)
  | xmaskWrite (value : Word32)
  | xclockWrite (value : Word32)
  | registerWriteOther (offset : Nat) (value : Word32)
  | starting (host : List Host.Cell)
  | stoppingEnd
  /-- The operation `op` was under way, `n` of its accesses to the exchange area landed, and the next one reported a
  bus error (R195). -/
  | areaFault (op : Instr) (n : Nat)
  | sweepTimerExpiry
  | sweep (host : List Host.Cell)
  | post (slot : Fin 32) (ref : Half) (fields : PostFields)
  | withdraw (slot : Fin 32) (ref : Half) (index generation : Octet)
  | target (slot : Fin 32) (ref : Half) (fields : TargetFields)
  | hotAdd (slot : Fin 32) (ref : Half) (count : Octet) (first second third : HotFields)
  | enrol (slot : Fin 32) (ref : Half) (address : Octet) (flag : Bool) (weight : Octet)
  | exclude (slot : Fin 32) (ref : Half) (address : Octet)
  | readmit (slot : Fin 32) (ref : Half) (address : Octet)
  | lineSet (slot : Fin 32) (ref : Half) (fields : LineFields)
  | badKind (slot : Fin 32) (ref : Half) (kind : Octet)
  | verificationStart
  | verificationEnd (bus : List HostRange)
  | clockStep
  | silenceExpiry (address : Nat)
  | cycleEnd (attnLow : Bool)
  | keepaliveExpiry
  | attentionEvent
  | rollCallPoll (free : Bool)
  | transferGrant (free : Bool) (bus : List HostRange)
  | lineFree
  | deferralExpiry
  | frameSent (free : Bool) (bus : List HostRange)
  | replyTimeout
  | frameIncomplete
  | malformedReply
  | contention
  | guardTimeExpiry (attnLow : Bool)
  | replyCheckFailed (octets : List Octet)
  | status (fields : StatusFields)
  | notice (kind : Octet) (text : List Octet)
  | ack (offset : BitVec 24)
  | nak (cause detail : Octet) (offset : BitVec 24)
  | verdict (code stream : Octet) (held : Half)
  | syncOctetReceived
  deriving DecidableEq, Repr

end Sys2Proof
end

