-- ==== Sys2Proof/Decode.lean ====
section
/-! DEFINITION. Commands spelled by words. The table of operations and events gives no row any bits, so no word spells a
command. -/

namespace Sys2Proof

/-- The command a word spells by the table's bits: no row of the table has bits, so none. -/
def decodeTableWord (_nbits _w : Nat) : Option Instr := none

end Sys2Proof
end

