-- ==== Sys2Proof/Config.lean ====
section
/-! DEFINITION. What is fixed for one part: the constants the manual gives by number, and the one value it leaves open. -/

namespace Sys2Proof.Config

/-- FREE VALUE (assumption log 3). Where a gather-list record whose address, gather list address + 16 × i, runs past
the end of the 64-bit host address space is read from: R200 bounds a fragment's octets by that end and says nothing of
a record's. No body: nothing can be proved of it. -/
opaque gatherRecordPastEnd : Nat → Nat

/-- Part code in XID (R189). -/
def partCode : Nat := 0x0F24
/-- Revision in XID (R189). -/
def revision : Nat := 1
/-- Signature of the exchange-area header (R181). -/
def signature : Nat := 0x47544C31
/-- Layout version of the exchange-area header (R181). -/
def layoutVersion : Nat := 1
/-- Default sweep interval, ms (R181). -/
def defaultSweep : Nat := 20
/-- Number of host addresses (64-bit). -/
def hostSpace : Nat := 2 ^ 64
/-- Size of the exchange area in octets (R180). -/
def areaSize : Nat := 8192
/-- Octet-times a deferred frame waits at most (R86). -/
def deferralOctets : Nat := 1034

end Sys2Proof.Config
end

