-- ==== Sys2Proof/Machine/State.lean ====
section
/-! DEFINITION. The state of the part, block by block as the manual's block overview divides it, host RAM as the part
reads and writes it, and the queue of waiting commands; and the state after a device reset at power-on. -/

namespace Sys2Proof.Machine

/-- Reasons for which a step could stop the machine with a fault. There is none: the manual gives every command an
effect in every state (an area fault, R195, is a change of state), so no meaning raises a fault. -/
inductive Fault where
  deriving DecidableEq, Repr

/-- Reasons for which a step refuses. -/
inductive Refusal where
  /-- Raised by an arm of `exec` whose command has no meaning yet, under the command's mnemonic. No arm is so any more.
  Safe: nothing is claimed of a refused command. -/
  | notModelled (mnemonic : String)
  deriving DecidableEq, Repr

/-! ## Indices and codes -/

/-- A drop-line address 1 to 12, counted from 0 (R39): address a is the index a − 1. -/
abbrev Addr := Fin 12
/-- A work slot 0 to 31 (R180). -/
abbrev Slot := Fin 32
/-- A catalogue index 0 to 47 (R1). -/
abbrev CatIndex := Fin 48
/-- A set of drop-line addresses: for each address, whether it is in the set. -/
abbrev AddrSet := Vector Bool 12

/-- The five streams (R22). -/
inductive Stream where
  | blockT0
  | fare
  | blockT1
  | blockT2
  | blockT3
  deriving DecidableEq, Repr

/-- WHOLE or DELTA (R1). -/
inductive Form where
  | whole
  | delta
  deriving DecidableEq, Repr

/-- Device states (R192). -/
inductive DeviceState where
  | off
  | starting
  | running
  | stopping
  | halted
  deriving DecidableEq, Repr

/-- Reset causes shown in XID (R189). -/
inductive ResetCause where
  | power
  | pin
  | soft
  deriving DecidableEq, Repr

/-! ## EXP, the Exchange Port -/

/-- Status of a returned or taken work slot (R198); PENDING is software's. -/
inductive SlotStatus where
  | taken
  | done
  | posted
  | refused
  deriving DecidableEq, Repr

/-- Outcome codes of returns (R185). -/
inductive SlotOutcome where
  | done
  | posted
  | badKind
  | badField
  | duplicate
  | catalogueFull
  | badGather
  | fetchFault
  | checkMismatch
  | staleHandle
  | withdrawn
  | retiring
  | hotFull
  | notEnrolled
  | aborted
  deriving DecidableEq, Repr

/-- What the part keeps of a slot it holds: the kind and software reference read at the take (R184, R186). -/
structure HeldSlot where
  kind : Octet
  ref : Half
  deriving DecidableEq, Repr

/-- A return of a work slot: a record of the returns owed list, or a return about to be written (R186, R187). The kind,
which R186 writes back, stands in the record beside what R187 names. -/
structure Return where
  slot : Slot
  status : SlotStatus
  outcome : SlotOutcome
  detail : Word32
  kind : Octet
  ref : Half
  deriving DecidableEq, Repr

/-- EXP: the six registers' stored fields, device state, counts, sweep and slot state (R181 to R197). -/
structure Port where
  /-- XBASE bits 63 to 13: the exchange area begins at `xbase` × 8192 (R180, R189). -/
  xbase : BitVec 51
  /-- RUN of XCTL. -/
  run : Bool
  /-- Line enable of XCTL. -/
  lineEnable : Bool
  /-- Cause flags of XSTAT, bit n being XSTAT bit 8 + n (R189). -/
  causes : BitVec 7
  /-- Cause enables of XMASK, bit n being XMASK bit 8 + n (R189). -/
  mask : BitVec 7
  /-- The interrupt line (R191). -/
  interrupt : Bool
  resetCause : ResetCause
  device : DeviceState
  /-- The software count a sweep last acted on (R181). -/
  seenCount : Word32
  deviceCount : Word32
  /-- Sweep interval in force, ms (R181, R182). -/
  sweepInterval : Nat
  /-- The sweep timer: µs left, or stopped (R182). -/
  sweepTimer : Option Nat
  sweepInProgress : Bool
  promptOwed : Bool
  sweepOwed : Bool
  /-- The slot rotation pointer (R183). -/
  rotation : Slot
  /-- For each slot, what the part keeps of it while it holds it (R184). -/
  held : Vector (Option HeldSlot) 32
  /-- The returns owed list, oldest first (R187). -/
  returnsOwed : List Return
  /-- Update counts of the catalogue mirror records (R188). -/
  catCounts : Vector Word32 48
  /-- Update counts of the roster mirror records (R188). -/
  rosCounts : Vector Word32 12
  /-- Update count of the coordinator record (R188). -/
  coordCount : Word32
  deriving DecidableEq, Repr

/-! ## CAT and VFY, the Catalogue and the Verifier -/

/-- States of a catalogue entry (R3). -/
inductive EntryState where
  | free
  | verifying
  | ready
  | reverifying
  | retiring
  deriving DecidableEq, Repr

/-- Fault causes of an entry (R1). -/
inductive FaultCause where
  | none
  | checkMismatch
  | fetchFault
  | withdrawn
  deriving DecidableEq, Repr

/-- A catalogue entry (R1); its index is its place in the catalogue. -/
structure Entry where
  generation : Nat
  state : EntryState
  stream : Stream
  form : Form
  base : Nat
  edition : Nat
  size : Nat
  footprint : Nat
  check : Word32
  gather : Nat
  fragments : Nat
  inUse : Nat
  fault : FaultCause
  pendingSlot : Option Slot
  rejecters : AddrSet
  deriving DecidableEq, Repr

/-- A FREE entry: its generation and the fault cause of its last use; its other fields show 0 (R20). -/
def Entry.blank (generation : Nat) (fault : FaultCause) : Entry where
  generation := generation
  state := .free
  stream := .blockT0
  form := .whole
  base := 0
  edition := 0
  size := 0
  footprint := 0
  check := 0
  gather := 0
  fragments := 0
  inUse := 0
  fault := fault
  pendingSlot := Option.none
  rejecters := Vector.replicate 12 false

/-- CAT (R1). -/
structure Catalogue where
  entries : Vector Entry 48
  deriving DecidableEq, Repr

/-- VFY: the verify queue, and whether the entry at its head is being read (R8). -/
structure Verifier where
  queue : List CatIndex
  inFlight : Bool
  deriving DecidableEq, Repr

/-! ## TGT, the Target Table -/

/-- The timing of a timed FARE target (R24). -/
structure Timing where
  activation : Nat
  lead : Nat
  hold : Nat
  deriving DecidableEq, Repr

/-- A FARE target: an edition, 0 for none, and its timing when it is timed (R24). -/
structure FareTarget where
  edition : Nat
  timing : Option Timing
  deriving DecidableEq, Repr

/-- TGT (R24). -/
structure TargetTable where
  fare : FareTarget
  block : Nat
  heldFare : Option FareTarget
  deriving DecidableEq, Repr

/-! ## ROS, the Roster -/

/-- Presences of a validator record (R39, R42). -/
inductive Presence where
  | unused
  | absent
  | present
  | silent
  | clash
  | excluded
  deriving DecidableEq, Repr

/-- Per-stream statuses (R39). -/
inductive StreamStatus where
  | idle
  | current
  | planned
  | sending
  | suspended
  | waiting
  | short
  | held
  | beyond
  deriving DecidableEq, Repr

/-- Hot statuses (R41, R153). -/
inductive HotStatus where
  | ok
  | short
  | none
  deriving DecidableEq, Repr

/-- What the roster keeps for each stream of one validator, in stream-code order (R39 to R41). -/
structure StreamCell where
  status : StreamStatus
  /-- Held edition (R40). -/
  held : Nat
  rejects : Nat
  hold : Bool
  /-- Room shortfall (R58). -/
  room : Bool
  deriving DecidableEq, Repr

/-- Whether the mirror record shows the last valid reply time, and if not, whether the time changed in the scan cycle that
runs or in an earlier one (R61, R118). -/
inductive ReplyTimeShown where
  | shown
  | changedInCycle
  | changedBefore
  deriving DecidableEq, Repr

/-- A validator record (R39 to R41). -/
structure ValRecord where
  presence : Presence
  weight : Nat
  reach : Nat
  streams : Vector StreamCell 5
  serial : Nat
  maxPayload : Nat
  openSlots : Nat
  hotCapacity : Nat
  fareCapacity : Nat
  blockCapacity : Nat
  activeFare : Nat
  pendingFare : Nat
  armedEdition : Nat
  hotEpochSeen : Nat
  hotHighWater : Nat
  noticePending : Bool
  misses : Nat
  contentions : Nat
  unitChanges : Nat
  /-- Last valid reply time, fleet seconds. -/
  lastReply : Nat
  /-- Whether the mirror record shows the last valid reply time (R61, R118). -/
  replyTime : ReplyTimeShown
  /-- The silence timer: µs since the last valid reply, when one is being timed (R48, R62). -/
  silenceTimer : Option Nat
  statusOwed : Bool
  hotStatus : HotStatus
  /-- Notice cell state: FILLED when set, FREE when clear (R59). -/
  cellFilled : Bool
  deriving DecidableEq, Repr

/-- The reset values of a validator record (R62). -/
def ValRecord.reset : ValRecord where
  presence := .unused
  weight := 1
  reach := 0
  streams := Vector.replicate 5
    { status := .idle, held := 0, rejects := 0, hold := false, room := false }
  serial := 0
  maxPayload := 0
  openSlots := 0
  hotCapacity := 0
  fareCapacity := 0
  blockCapacity := 0
  activeFare := 0
  pendingFare := 0
  armedEdition := 0
  hotEpochSeen := 0
  hotHighWater := 0
  noticePending := false
  misses := 0
  contentions := 0
  unitChanges := 0
  lastReply := 0
  replyTime := .shown
  silenceTimer := Option.none
  statusOwed := false
  hotStatus := .ok
  cellFilled := false

/-- ROS (R39). -/
structure Roster where
  records : Vector ValRecord 12
  deriving DecidableEq, Repr

/-! ## PLN, the Planner -/

/-- A job of a delivery plan (R63); a SEND names its entry by index and generation. -/
inductive Job where
  | send (stream : Stream) (index : CatIndex) (generation : Nat) (link : Nat)
  | drop (stream : Stream)
  deriving DecidableEq, Repr

/-- PLN (R63). -/
structure Planner where
  plans : Vector (List Job) 12
  deriving DecidableEq, Repr

/-! ## XFR, the Transfer Engine -/

/-- Phases of a transfer record (R126). -/
inductive TransferPhase where
  | opening
  | sending
  | sealing
  | storing
  deriving DecidableEq, Repr

/-- A transfer record (R126); its handle is the index and generation. -/
structure TransferRecord where
  tag : Nat
  index : CatIndex
  generation : Nat
  stream : Stream
  size : Nat
  sent : Nat
  acked : Nat
  phase : TransferPhase
  holdSent : Bool
  marked : Bool
  deriving DecidableEq, Repr

/-- What XFR holds for one validator (R127); the stack has its top first. -/
structure Transfers where
  active : Option TransferRecord
  stack : List TransferRecord
  abandonAll : Bool
  deriving DecidableEq, Repr

/-- XFR (R127). -/
structure TransferEngine where
  validators : Vector Transfers 12
  deriving DecidableEq, Repr

/-! ## HTQ, the Hot Queue -/

/-- A hot entry's action (R149). -/
inductive HotAction where
  | block
  | lift
  deriving DecidableEq, Repr

/-- A hot entry (R149). -/
structure HotEntry where
  sequence : Nat
  card : Word64
  action : HotAction
  tier : Nat
  edition : Nat
  deriving DecidableEq, Repr

/-- HTQ (R149). -/
structure HotQueue where
  queue : List HotEntry
  nextSequence : Nat
  newest : Nat
  epoch : Option Nat
  evicted : Nat
  restartOwed : AddrSet
  deriving DecidableEq, Repr

/-! ## ACT, the Activation Coordinator -/

/-- Coordinator states (R165). -/
inductive CoordState where
  | idle
  | loading
  | arming
  | committing
  | settled
  deriving DecidableEq, Repr

/-- Progress of the COMMIT broadcast (R165). -/
inductive Broadcast where
  | notOwed
  | owed
  | made
  deriving DecidableEq, Repr

/-- Why the commit was decided (R165). -/
inductive CommitCause where
  | none
  | allArmed
  | holdExpired
  deriving DecidableEq, Repr

/-- Standings (R165). -/
inductive Standing where
  | notCounted
  | unarmed
  | armed
  | unconfirmed
  | late
  | confirmed
  | lagging
  deriving DecidableEq, Repr

/-- ACT's standing record of one address (R165). -/
structure StandingRecord where
  standing : Standing
  disarmOwed : Bool
  armRefused : Bool
  attempts : Nat
  deriving DecidableEq, Repr

/-- ACT: the coordinator record and the standing records (R165). The confirmed and lagging counts are the numbers of
addresses of those standings (R177) and are computed; `armedKept` is the armed count once the broadcast is MADE, 0
before it. -/
structure Coordinator where
  state : CoordState
  edition : Nat
  activation : Nat
  lead : Nat
  hold : Nat
  opens : Nat
  holdEnds : Nat
  broadcast : Broadcast
  commitCause : CommitCause
  commitTime : Nat
  armedKept : Nat
  standings : Vector StandingRecord 12
  deriving DecidableEq, Repr

/-! ## LNC, the Line Controller with the Line Arbiter -/

/-- Line states (R108, R109). RECOVER keeps the state it left, and for QUIET whether an exit event was taken in it
(R120, R122). -/
inductive LineState where
  | idle
  | cycle
  | quiet
  | recoverCycle
  | recoverQuiet (exitTaken : Bool)
  deriving DecidableEq, Repr

/-- Cycle phases (R108). -/
inductive CyclePhase where
  | rollCall
  | transfer
  | closed
  deriving DecidableEq, Repr

/-- The eleven LINE_SET fields after clamping (R123). -/
structure LineConfig where
  /-- kbit/s -/
  rate : Nat
  /-- ms -/
  cycleLength : Nat
  /-- cycles -/
  probeInterval : Nat
  /-- octets -/
  payloadLimit : Nat
  /-- frames -/
  burst : Nat
  /-- µs -/
  replyTimeout : Nat
  /-- misses -/
  retryLimit : Nat
  /-- s -/
  silence : Nat
  /-- cycles, 0 = never -/
  quietEntry : Nat
  /-- s -/
  keepalive : Nat
  /-- µs -/
  guardTime : Nat
  deriving DecidableEq, Repr

/-- The defaults of R123. -/
def LineConfig.default : LineConfig where
  rate := 500
  cycleLength := 100
  probeInterval := 8
  payloadLimit := 256
  burst := 4
  replyTimeout := 500
  retryLimit := 3
  silence := 10
  quietEntry := 4
  keepalive := 15
  guardTime := 200

/-- The blocks that own exchanges (R100). -/
inductive Owner where
  | ros
  | xfr
  | htq
  | act
  deriving DecidableEq, Repr

/-- What the frame of an exchange is, with what its owner keeps for the exchange: for a DROP its tier, for a HOT the
first and last sequences carried and the restart flag (R156). An ABANDON with the all flag, a disarm and a COMMIT to
ALL are told apart from their kin. -/
inductive ExchangeKind where
  | poll
  | collect
  | openSegment
  | cont
  | seal
  | abandon
  | abandonAll
  | drop (stream : Stream)
  | hot (first last : Nat) (restart : Bool)
  | arm
  | disarm
  | commit
  | commitAll
  deriving DecidableEq, Repr

/-- Phases of the exchange in flight (R98). -/
inductive ExchangePhase where
  | sending
  | awaiting
  | receiving
  deriving DecidableEq, Repr

/-- Whether the outcome of the exchange in flight is to be discarded: a request has changed the addressed record's
presence (R50), or the record went ABSENT by silence, after which only a STATUS is taken (R48). -/
inductive Voided where
  | no
  | byRequest
  | bySilence
  deriving DecidableEq, Repr

/-- The exchange-in-flight record (R98). -/
structure Exchange where
  /-- The address, or none for ALL. -/
  dest : Option Addr
  kind : ExchangeKind
  tag : Nat
  owner : Owner
  /-- Frames of the burst, or of the three COMMITs, still to be sent after the one being sent. -/
  framesLeft : Nat
  phase : ExchangePhase
  /-- The octets of the frame being sent, or sent last (R87). -/
  frame : List Octet
  voided : Voided
  /-- Set when ACT has started over since the exchange began, so that it discards the reply (R166). -/
  actStale : Bool
  deriving DecidableEq, Repr

/-- LNC (R98, R108). -/
structure LineController where
  line : LineState
  phase : CyclePhase
  /-- The cycle timer, µs since the cycle began. -/
  cycleTimer : Nat
  /-- Roll-call position, 0 to 12. -/
  rollPosition : Nat
  probeCount : Nat
  idleCount : Nat
  grantMade : Bool
  heldOver : AddrSet
  /-- The turn in progress: its address and its exchanges left. -/
  turn : Option (Addr × Nat)
  /-- The round-robin pointer, 0 to 12. -/
  pointer : Nat
  /-- The keepalive timer: µs left, or stopped. -/
  keepaliveTimer : Option Nat
  config : LineConfig
  pendingConfig : Option LineConfig
  exchange : Option Exchange
  /-- The reply timer: µs left, or stopped. -/
  replyTimer : Option Nat
  /-- The guard time of RECOVER: µs left, or stopped. -/
  guardTimer : Option Nat
  /-- The deferral of R86: µs left while the frame of the exchange waits for the line, or absent. -/
  deferral : Option Nat
  /-- Level of ATTN# when it was last judged: set when low (R106). -/
  attnLow : Bool
  deriving DecidableEq, Repr

/-! ## FCK, the Fleet Clock -/

/-- FCK (R164); `micros` is the part of the current second that has passed, in µs. -/
structure FleetClock where
  seconds : Word32
  valid : Bool
  micros : Nat
  deriving DecidableEq, Repr

/-! ## The part, host RAM and the queue -/

/-- What the blocks hand to EXP while a command acts: returns, notices, the mirror records and the hot summary to be
rewritten (R20, R61, R161, R177), and the copies in the header. -/
inductive Publication where
  | slotReturn (r : Return)
  | noticeFill (a : Addr) (kind : Octet) (text : List Octet)
  | catRewrite (i : CatIndex)
  | rosterRewrite (a : Addr)
  | coordRewrite
  | summaryRewrite
  | clockCopy
  | stateCopy
  deriving DecidableEq, Repr

/-- The eleven blocks. `outbox` and `exitEvent` are the model's own: what has been handed to EXP, and whether an exit
event of R120 has been reported to LNC, by the command being acted on. They are empty between commands. -/
structure Device where
  port : Port
  cat : Catalogue
  vfy : Verifier
  tgt : TargetTable
  ros : Roster
  pln : Planner
  xfr : TransferEngine
  htq : HotQueue
  act : Coordinator
  lnc : LineController
  fck : FleetClock
  outbox : List Publication
  exitEvent : Bool
  deriving DecidableEq, Repr

/-- Host RAM: the octets that differ from what an unlisted address reads as, by rising address. -/
abbrev Ram := List Host.Cell

/-- The state of the machine: the part, host RAM as the part reaches it, and the commands that wait, oldest first. -/
structure State where
  dev : Device
  ram : Ram
  pending : List Instr
  deriving DecidableEq, Repr

/-- EXP after a device reset (R197). -/
def Port.reset (cause : ResetCause) : Port where
  xbase := 0
  run := false
  lineEnable := false
  causes := 0
  mask := 0
  interrupt := false
  resetCause := cause
  device := .off
  seenCount := 0
  deviceCount := 0
  sweepInterval := Config.defaultSweep
  sweepTimer := Option.none
  sweepInProgress := false
  promptOwed := false
  sweepOwed := false
  rotation := 0
  held := Vector.replicate 32 Option.none
  returnsOwed := []
  catCounts := Vector.replicate 48 0
  rosCounts := Vector.replicate 12 0
  coordCount := 0

/-- ACT after either reset (R179). -/
def Coordinator.reset : Coordinator where
  state := .idle
  edition := 0
  activation := 0
  lead := 0
  hold := 0
  opens := 0
  holdEnds := 0
  broadcast := .notOwed
  commitCause := .none
  commitTime := 0
  armedKept := 0
  standings := Vector.replicate 12
    { standing := .notCounted, disarmOwed := false, armRefused := false, attempts := 0 }

/-- LNC after either reset (R107, R125). -/
def LineController.reset : LineController where
  line := .idle
  phase := .closed
  cycleTimer := 0
  rollPosition := 0
  probeCount := 0
  idleCount := 0
  grantMade := false
  heldOver := Vector.replicate 12 false
  turn := Option.none
  pointer := 0
  keepaliveTimer := Option.none
  config := .default
  pendingConfig := Option.none
  exchange := Option.none
  replyTimer := Option.none
  guardTimer := Option.none
  deferral := Option.none
  attnLow := false

/-- The part after a device reset (R21, R38, R62, R84, R107, R125, R148, R163, R179, R197). -/
def Device.reset (cause : ResetCause) : Device where
  port := .reset cause
  cat := { entries := Vector.replicate 48 (.blank 1 .none) }
  vfy := { queue := [], inFlight := false }
  tgt := { fare := { edition := 0, timing := Option.none }, block := 0, heldFare := Option.none }
  ros := { records := Vector.replicate 12 .reset }
  pln := { plans := Vector.replicate 12 [] }
  xfr := { validators := Vector.replicate 12 { active := Option.none, stack := [], abandonAll := false } }
  htq := { queue := [], nextSequence := 1, newest := 0, epoch := Option.none, evicted := 0,
           restartOwed := Vector.replicate 12 false }
  act := .reset
  lnc := .reset
  fck := { seconds := 0, valid := false, micros := 0 }
  outbox := []
  exitEvent := false

/-- The machine right after power-on: a device reset with reset cause POWER, host RAM with nothing listed, and no command
waiting. -/
def State.reset : State where
  dev := .reset .power
  ram := []
  pending := []

end Sys2Proof.Machine
end

