-- ==== Sys2Proof/Machine/Ops.lean ====
section
/-! DEFINITION. The named operations that every block uses: reading and writing host RAM, little-endian fields, and
reading and changing one record of each block's table. -/

namespace Sys2Proof.Machine

/-! ## Numbers and octets -/

/-- The `n` octets of a value, least significant first (both sides of the part are little-endian). -/
def leOctets : Nat → Nat → List Octet
  | 0, _ => []
  | n + 1, v => BitVec.ofNat 8 v :: leOctets n (v / 256)

/-- The value of octets, least significant first. -/
def leValue : List Octet → Nat
  | [] => 0
  | b :: bs => b.toNat + 256 * leValue bs

/-- ceil(a / b). -/
def ceilDiv (a b : Nat) : Nat := (a + b - 1) / b

/-- A flag as the octet 1 or 0. -/
def flagOctet (b : Bool) : Octet := if b then 1 else 0

/-- A register or record flag as a number, 1 when set. -/
def flagNat (b : Bool) : Nat := if b then 1 else 0

/-! ## Host RAM -/

/-- What an address that is not listed reads as (assumption log 2). -/
def unlistedOctet : Octet := 0

/-- Host RAM is in canonical form: addresses strictly rising, each in the 64-bit host address space, and no entry equal
to what an unlisted address reads as. -/
abbrev Ram.wf (m : Ram) : Prop :=
  m.Pairwise (fun c d => c.1 < d.1) ∧ ∀ c ∈ m, c.2 ≠ unlistedOctet ∧ c.1 < Config.hostSpace

/-- The octet of host RAM at an address. -/
def Ram.octet (m : Ram) (a : Nat) : Octet :=
  match m.find? (fun c => c.1 == a) with
  | some c => c.2
  | none => unlistedOctet

/-- `n` octets of host RAM from an address. -/
def Ram.octets (m : Ram) : Nat → Nat → List Octet
  | _, 0 => []
  | a, n + 1 => m.octet a :: m.octets (a + 1) n

/-- A little-endian field of `n` octets of host RAM. -/
def Ram.field (m : Ram) (a n : Nat) : Nat := leValue (m.octets a n)

/-- The entries that octets written from an address make. There is no host octet at or above 2^64. -/
def Ram.cells : Nat → List Octet → Ram
  | _, [] => []
  | a, b :: bs =>
    if b = unlistedOctet ∨ Config.hostSpace ≤ a then Ram.cells (a + 1) bs else (a, b) :: Ram.cells (a + 1) bs

/-- Host RAM after one write of octets from an address. -/
def Ram.write (m : Ram) (a : Nat) (bs : List Octet) : Ram :=
  m.filter (fun c => c.1 < a) ++ Ram.cells a bs ++ m.filter (fun c => a + bs.length ≤ c.1)

/-- Host RAM after software's writes, in their order. -/
def Ram.hostWrites (m : Ram) (host : List Host.Cell) : Ram :=
  host.foldl (fun m c => m.write c.1 [c.2]) m

/-- Whether two runs of addresses, each given by its start and length, share an address. -/
def overlaps (a n b k : Nat) : Bool := a < b + k && b < a + n && 0 < n && 0 < k

/-- Whether a read of `n` octets from `a` meets a bus error. -/
def busError (bus : List HostRange) (a n : Nat) : Bool :=
  bus.any (fun r => overlaps a n r.first (r.last + 1 - r.first))

/-! ## Addresses -/

/-- The twelve drop-line addresses, lowest first. -/
def allAddrs : List Addr := [0, 1, 2, 3, 4, 5, 6, 7, 8, 9, 10, 11]

/-- The record index of a drop-line address 1 to 12. -/
def addrOf? (n : Nat) : Option Addr :=
  if h : 1 ≤ n ∧ n ≤ 12 then some ⟨n - 1, by omega⟩ else none

/-- The drop-line address of a record, 1 to 12. -/
def Addr.number (a : Addr) : Nat := a.val + 1

def AddrSet.empty : AddrSet := Vector.replicate 12 false
def AddrSet.insert (s : AddrSet) (a : Addr) : AddrSet := s.set a true
def AddrSet.erase (s : AddrSet) (a : Addr) : AddrSet := s.set a false
def AddrSet.has (s : AddrSet) (a : Addr) : Bool := s[a]

/-! ## Streams -/

/-- A stream's code, which is its priority (R22). -/
def Stream.code : Stream → Fin 5
  | .blockT0 => 0
  | .fare => 1
  | .blockT1 => 2
  | .blockT2 => 3
  | .blockT3 => 4

/-- The stream of a code (R22). -/
def Stream.ofCode? : Nat → Option Stream
  | 0 => some .blockT0
  | 1 => some .fare
  | 2 => some .blockT1
  | 3 => some .blockT2
  | 4 => some .blockT3
  | _ => none

/-- The five streams in priority order (R22). -/
def allStreams : List Stream := [.blockT0, .fare, .blockT1, .blockT2, .blockT3]

/-- The streams of the four BLOCK tiers, T0 first. -/
def tierStreams : List Stream := [.blockT0, .blockT1, .blockT2, .blockT3]

/-- The stream of tier k; a number above 3 gives T3. -/
def tierStream : Nat → Stream
  | 0 => .blockT0
  | 1 => .blockT1
  | 2 => .blockT2
  | _ => .blockT3

/-- The tier of a BLOCK stream, absent for FARE. -/
def Stream.tier? : Stream → Option Nat
  | .blockT0 => some 0
  | .fare => none
  | .blockT1 => some 1
  | .blockT2 => some 2
  | .blockT3 => some 3

def Form.code : Form → Nat
  | .whole => 0
  | .delta => 1

/-! ## Records of the blocks -/

/-- An entry with the fields that its mirror record does not carry left out (R20). -/
def Entry.shown (e : Entry) : Entry :=
  { e with gather := 0, fragments := 0, pendingSlot := none, rejecters := AddrSet.empty }

/-- A validator record with its times left out: a change of the last valid reply time alone brings no rewriting at once
(R61). -/
def ValRecord.shown (r : ValRecord) : ValRecord :=
  { r with lastReply := 0, replyTime := .shown, silenceTimer := none }

/-- Hands something to EXP. -/
def Device.handOver (d : Device) (p : Publication) : Device := { d with outbox := d.outbox ++ [p] }

/-- What is handed to EXP when what a mirror shows goes from one value to another: nothing while it stays. -/
def rewriteOf {α : Type} [BEq α] (before after : α) (p : Publication) : List Publication :=
  if before != after then [p] else []

def Device.entry (d : Device) (i : CatIndex) : Entry := d.cat.entries[i]
/-- An entry changed, and handed to EXP when a field changed that its mirror record carries (R20). -/
def Device.setEntry (d : Device) (i : CatIndex) (e : Entry) : Device :=
  { d with
    cat.entries := d.cat.entries.set i e
    outbox := d.outbox ++ rewriteOf (d.entry i).shown e.shown (.catRewrite i) }

def Device.record (d : Device) (a : Addr) : ValRecord := d.ros.records[a]
/-- A validator record replaced, and nothing handed to EXP. -/
def Device.putRecord (d : Device) (a : Addr) (r : ValRecord) : Device :=
  { d with ros.records := d.ros.records.set a r }
/-- A validator record as it stood before a change, the change being made: handed to EXP when a field changed other than the
last valid reply time (R61). -/
def Device.rosterChanged (d : Device) (a : Addr) (before : ValRecord) : Device :=
  { d with outbox := d.outbox ++ rewriteOf before.shown (d.record a).shown (.rosterRewrite a) }
/-- A validator record changed (R61). -/
def Device.setRecord (d : Device) (a : Addr) (r : ValRecord) : Device :=
  { d with
    ros.records := d.ros.records.set a r
    outbox := d.outbox ++ rewriteOf (d.record a).shown r.shown (.rosterRewrite a) }

/-- The same change of every validator record (R61). -/
def Device.mapRecords (d : Device) (f : Addr → ValRecord → ValRecord) : Device :=
  { d with
    ros.records := Vector.ofFn fun a => f a (d.record a)
    outbox := d.outbox ++ allAddrs.flatMap fun a =>
      rewriteOf (d.record a).shown (f a (d.record a)).shown (.rosterRewrite a) }

def ValRecord.cell (r : ValRecord) (s : Stream) : StreamCell := r.streams[s.code]
def ValRecord.setCell (r : ValRecord) (s : Stream) (c : StreamCell) : ValRecord :=
  { r with streams := r.streams.set s.code c }
/-- The same change of every stream of a record. -/
def ValRecord.mapCells (r : ValRecord) (f : StreamCell → StreamCell) : ValRecord :=
  { r with streams := Vector.ofFn fun k => f r.streams[k] }

def ValRecord.heldOf (r : ValRecord) (s : Stream) : Nat := (r.cell s).held
def ValRecord.setHeld (r : ValRecord) (s : Stream) (edition : Nat) : ValRecord :=
  r.setCell s { r.cell s with held := edition }
def ValRecord.setStatus (r : ValRecord) (s : Stream) (st : StreamStatus) : ValRecord :=
  r.setCell s { r.cell s with status := st }

def Device.plan (d : Device) (a : Addr) : List Job := d.pln.plans[a]
def Device.setPlan (d : Device) (a : Addr) (p : List Job) : Device :=
  { d with pln.plans := d.pln.plans.set a p }

def Device.transfers (d : Device) (a : Addr) : Transfers := d.xfr.validators[a]
def Device.setTransfers (d : Device) (a : Addr) (t : Transfers) : Device :=
  { d with xfr.validators := d.xfr.validators.set a t }

def Device.standing (d : Device) (a : Addr) : StandingRecord := d.act.standings[a]

/-- The exchange area begins at XBASE (R180). -/
def Device.areaBase (d : Device) : Nat := d.port.xbase.toNat * Config.areaSize

/-- A validator's effective payload P (R69). -/
def Device.payload (d : Device) (a : Addr) : Nat :=
  min d.lnc.config.payloadLimit (d.record a).maxPayload

/-- An octet-time of the rate in force, µs (R85). -/
def LineConfig.octetMicros (c : LineConfig) : Nat := 10000 / c.rate

/-- Hands EXP the return of a slot, with the kind and software reference kept since the take (R186). -/
def Device.giveBack (d : Device) (slot : Slot) (status : SlotStatus) (outcome : SlotOutcome) (detail : Nat) : Device :=
  match d.port.held[slot] with
  | some h =>
    d.handOver (.slotReturn { slot, status, outcome, detail := BitVec.ofNat 32 detail, kind := h.kind, ref := h.ref })
  | none => d

/-- Reports an exit event to LNC (R120). -/
def Device.reportExit (d : Device) : Device := { d with exitEvent := true }

end Sys2Proof.Machine
end

