-- ==== Sys2Proof/Machine/Frames.lean ====
section
/-! DEFINITION. Frames of the drop line: the CRC of R88, the layout of R87 for every frame the part sends (R89 to R95)
and for every reply (R96, R97), and the judgement of a complete reply (R99, R100). -/

namespace Sys2Proof.Machine

/-- The CRC register after one bit: divisor x^16 + x^12 + x^5 + 1 (R88). -/
def crcBit (crc : BitVec 16) (bit : Bool) : BitVec 16 :=
  if crc.msb != bit then (crc <<< 1) ^^^ 0x1021 else crc <<< 1

/-- The CRC register after one octet, fed most significant bit first (R88). -/
def crcOctet (crc : BitVec 16) (o : Octet) : BitVec 16 :=
  [7, 6, 5, 4, 3, 2, 1, 0].foldl (fun c n => crcBit c (o.getLsbD n)) crc

/-- The CRC of a frame's octets from octet 1 to the end of its payload (R88). -/
def crc16 (octets : List Octet) : BitVec 16 := octets.foldl crcOctet 0xFFFF

/-- The sync octet (R87). -/
def syncOctet : Octet := 0xA5

/-- Octet 1 of a frame: address in bits 7 to 4, origin in bit 3, reply-wanted in bit 2, tag in bits 1 and 0 (R87). -/
def headOctet (address : Nat) (origin replyWanted : Bool) (tag : Nat) : Octet :=
  BitVec.ofNat 8 (address % 16 * 16 + 8 * flagNat origin + 4 * flagNat replyWanted + tag % 4)

/-- The octets that the CRC of a frame covers (R87, R88). -/
def frameBody (head kind : Octet) (offset : Nat) (payload : List Octet) : List Octet :=
  head :: kind :: (leOctets 3 offset ++ leOctets 2 payload.length ++ payload)

/-- A frame (R87), its CRC sent low octet first (R88). -/
def layFrame (head kind : Octet) (offset : Nat) (payload : List Octet) : List Octet :=
  let body := frameBody head kind offset payload
  syncOctet :: (body ++ leOctets 2 (crc16 body).toNat)

/-! ## Frames from the part -/

/-- The kind code of the frame of an exchange (R90). -/
def ExchangeKind.code : ExchangeKind → Octet
  | .poll => 0x01
  | .collect => 0x02
  | .openSegment => 0x10
  | .cont => 0x11
  | .seal => 0x12
  | .abandon => 0x13
  | .abandonAll => 0x13
  | .drop _ => 0x14
  | .hot _ _ _ => 0x20
  | .arm => 0x30
  | .disarm => 0x30
  | .commit => 0x31
  | .commitAll => 0x31

/-- The block to which an exchange's reply or miss goes (R100). -/
def ExchangeKind.owner : ExchangeKind → Owner
  | .poll | .collect => .ros
  | .openSegment | .cont | .seal | .abandon | .abandonAll | .drop _ => .xfr
  | .hot _ _ _ => .htq
  | .arm | .disarm | .commit | .commitAll => .act

/-- The address field for a destination: 1 to 12, or 15 for ALL (R89). -/
def destNumber : Option Addr → Nat
  | some a => Addr.number a
  | none => 15

/-- A frame from the part (R87, R89, R90). -/
def partFrame (dest : Option Addr) (kind : ExchangeKind) (tag offset : Nat) (replyWanted : Bool)
    (payload : List Octet) : List Octet :=
  layFrame (headOctet (destNumber dest) false replyWanted tag) kind.code offset payload

/-- The payload of an OPEN (R91). -/
def openPayload (e : Entry) : List Octet :=
  [BitVec.ofNat 8 e.stream.code.val, BitVec.ofNat 8 e.form.code] ++ leOctets 2 e.base ++ leOctets 2 e.edition ++
    leOctets 3 e.size ++ leOctets 4 e.check.toNat ++ leOctets 3 e.footprint

def HotAction.code : HotAction → Nat
  | .block => 1
  | .lift => 2

/-- One entry of a HOT's payload (R94). -/
def hotEntryOctets (e : HotEntry) : List Octet :=
  leOctets 8 e.card.toNat ++ [BitVec.ofNat 8 e.action.code, BitVec.ofNat 8 e.tier] ++ leOctets 2 e.edition

/-- The payload of a HOT (R94). -/
def hotPayload (epoch : Nat) (restart : Bool) (entries : List HotEntry) : List Octet :=
  [BitVec.ofNat 8 epoch, flagOctet restart, BitVec.ofNat 8 entries.length] ++
    leOctets 2 ((entries.head?.map (·.sequence)).getD 0) ++ entries.flatMap hotEntryOctets

/-- The payload of an ARM, or of a disarm with edition and activation time 0 (R95). -/
def armPayload (edition activation : Nat) : List Octet := leOctets 2 edition ++ leOctets 4 activation

/-- The payload of a COMMIT (R95). -/
def commitPayload (edition : Nat) : List Octet := leOctets 2 edition

/-! ## Replies -/

/-- A reply, by its kind and what it carries (R96, R97). -/
inductive Reply where
  | status (fields : StatusFields)
  | notice (kind : Octet) (text : List Octet)
  | ack (offset : BitVec 24)
  | nak (cause detail : Octet) (offset : BitVec 24)
  | verdict (code stream : Octet) (held : Half)
  deriving DecidableEq, Repr

/-- The NAK causes (R104). -/
inductive NakCause where
  | check
  | order
  | kind
  | tag
  | length
  | room
  | slot
  | busy
  deriving DecidableEq, Repr

/-- A NAK cause's meaning by its code (R104). -/
def NakCause.ofCode? : Nat → Option NakCause
  | 1 => some .check
  | 2 => some .order
  | 3 => some .kind
  | 4 => some .tag
  | 5 => some .length
  | 6 => some .room
  | 7 => some .slot
  | 8 => some .busy
  | _ => none

/-- The NAK causes valid for each frame (R100). -/
def ExchangeKind.nakCauses : ExchangeKind → List NakCause
  | .poll | .collect | .commitAll => []
  | .openSegment => [.check, .kind, .room, .slot, .busy]
  | .cont => [.check, .order, .tag, .length, .room, .busy]
  | .seal => [.check, .tag, .busy]
  | .abandon | .abandonAll => [.check, .tag, .busy]
  | .drop _ => [.check, .kind, .busy]
  | .hot _ _ _ => [.check, .kind, .length, .room, .busy]
  | .arm | .disarm | .commit => [.check, .kind, .busy]

/-- Test 6 of R99: the reply's kind is valid for the frame answered (R100). -/
def replyKindValid (k : ExchangeKind) : Reply → Bool
  | .status _ => k == .poll
  | .notice _ _ => k == .collect
  | .ack _ =>
    match k with
    | .poll | .collect | .seal | .commitAll => false
    | _ => true
  | .nak _ _ _ =>
    match k with
    | .poll | .collect | .commitAll => false
    | _ => true
  | .verdict _ _ _ => k == .seal

/-- Test 7 of R99 for a reply whose payload is of free length: a NOTICE carries 1 to 49 octets (R96). -/
def replyLengthValid : Reply → Bool
  | .notice _ text => text.length ≤ 48
  | _ => true

/-- Test 8 of R99: a NAK's cause is valid for the frame and its detail is the frame's kind code; a VERDICT's code is 1
to 5. -/
def replyCodeValid (k : ExchangeKind) : Reply → Bool
  | .nak cause detail _ =>
    match NakCause.ofCode? cause.toNat with
    | none => false
    | some c => k.nakCauses.contains c && detail == k.code
  | .verdict code _ _ => 1 ≤ code.toNat && code.toNat ≤ 5
  | _ => true

/-- Tests 6 to 8 of R99. -/
def replyValid (k : ExchangeKind) (r : Reply) : Bool :=
  replyKindValid k r && replyLengthValid r && replyCodeValid k r

/-- Kind code of a reply (R96). -/
def Reply.code : Reply → Octet
  | .status _ => 0x81
  | .notice _ _ => 0x82
  | .ack _ => 0x90
  | .nak _ _ _ => 0x91
  | .verdict _ _ _ => 0x92

/-- Offset field of a reply (R97). -/
def Reply.offset : Reply → Nat
  | .ack o => o.toNat
  | .nak _ _ o => o.toNat
  | _ => 0

/-- The payload of a STATUS (R96). -/
def statusPayload (f : StatusFields) : List Octet :=
  leOctets 4 f.serial.toNat ++ leOctets 2 f.maxPayload.toNat ++ [f.openSlots, f.hotCapacity] ++
    leOctets 3 f.fareCapacity.toNat ++ leOctets 3 f.blockCapacity.toNat ++ leOctets 2 f.heldT0.toNat ++
    leOctets 2 f.heldFare.toNat ++ leOctets 2 f.heldT1.toNat ++ leOctets 2 f.heldT2.toNat ++
    leOctets 2 f.heldT3.toNat ++ leOctets 2 f.activeFare.toNat ++ leOctets 2 f.pendingFare.toNat ++
    [BitVec.ofNat 8 (flagNat f.armed + 2 * flagNat f.noticePending), f.hotEpoch] ++ leOctets 2 f.hotHighWater.toNat

/-- The payload of a reply (R96, R97). -/
def Reply.payload : Reply → List Octet
  | .status f => statusPayload f
  | .notice kind text => kind :: text
  | .ack _ => []
  | .nak cause detail _ => [cause, detail]
  | .verdict code stream held => [code, stream] ++ leOctets 2 held.toNat

/-- The octets of a reply from an address under a tag: origin 1, reply-wanted clear (R87, R89). -/
def replyFrame (address tag : Nat) (r : Reply) : List Octet :=
  layFrame (headOctet address true false tag) r.code r.offset r.payload

/-- `n` octets of a list from a place, as a little-endian number. -/
def fieldAt (l : List Octet) (i n : Nat) : Nat := leValue ((l.drop i).take n)

/-- The fields of a STATUS payload of 32 octets (R96). -/
def readStatus (p : List Octet) : StatusFields where
  serial := BitVec.ofNat 32 (fieldAt p 0 4)
  maxPayload := BitVec.ofNat 16 (fieldAt p 4 2)
  openSlots := BitVec.ofNat 8 (fieldAt p 6 1)
  hotCapacity := BitVec.ofNat 8 (fieldAt p 7 1)
  fareCapacity := BitVec.ofNat 24 (fieldAt p 8 3)
  blockCapacity := BitVec.ofNat 24 (fieldAt p 11 3)
  heldT0 := BitVec.ofNat 16 (fieldAt p 14 2)
  heldFare := BitVec.ofNat 16 (fieldAt p 16 2)
  heldT1 := BitVec.ofNat 16 (fieldAt p 18 2)
  heldT2 := BitVec.ofNat 16 (fieldAt p 20 2)
  heldT3 := BitVec.ofNat 16 (fieldAt p 22 2)
  activeFare := BitVec.ofNat 16 (fieldAt p 24 2)
  pendingFare := BitVec.ofNat 16 (fieldAt p 26 2)
  armed := (BitVec.ofNat 8 (fieldAt p 28 1)).getLsbD 0
  noticePending := (BitVec.ofNat 8 (fieldAt p 28 1)).getLsbD 1
  hotEpoch := BitVec.ofNat 8 (fieldAt p 29 1)
  hotHighWater := BitVec.ofNat 16 (fieldAt p 30 2)

/-- The reply that a kind code, offset field and payload make; none when the code is no reply kind or the payload is
not of the kind's length (tests 6 and 7 of R99). -/
def readReply (kind : Octet) (offset : Nat) (p : List Octet) : Option Reply :=
  if kind = 0x81 then (if p.length = 32 then some (.status (readStatus p)) else none)
  else if kind = 0x82 then
    match p with
    | [] => none
    | k :: text => some (.notice k text)
  else if kind = 0x90 then (if p.length = 0 then some (.ack (BitVec.ofNat 24 offset)) else none)
  else if kind = 0x91 then
    match p with
    | [cause, detail] => some (.nak cause detail (BitVec.ofNat 24 offset))
    | _ => none
  else if kind = 0x92 then
    match p with
    | [code, stream, lo, hi] => some (.verdict code stream (BitVec.ofNat 16 (leValue [lo, hi])))
    | _ => none
  else none

/-- The misses of R99. -/
inductive MissKind where
  | malformed
  | timeout
  | crcError
  | wrongOrigin
  | protocol
  deriving DecidableEq, Repr

/-- A reply judged against the exchange it answers, from its sync octet on, by the tests of R99 in their order: the reply handed
on, or the miss. The frame is complete with the octets that its length field states, and those after it, received while no
reply is awaited, are discarded (R86); with fewer it is incomplete (test 2). -/
def judgeReply (dest : Option Addr) (kind : ExchangeKind) (tag : Nat) (octets : List Octet) : Except MissKind Reply :=
  let length := fieldAt octets 6 2
  let head := (octets.drop 1).headD 0
  let body := (octets.drop 1).take (7 + length)
  if 1024 < length then .error .malformed
  else if octets.length < 10 + length then .error .timeout
  else if fieldAt octets (8 + length) 2 ≠ (crc16 body).toNat then .error .crcError
  else if head.toNat / 16 ≠ destNumber dest || !head.getLsbD 3 then .error .wrongOrigin
  else if head.getLsbD 2 || head.toNat % 4 ≠ tag then .error .protocol
  else
    match readReply ((octets.drop 2).headD 0) (fieldAt octets 3 3) ((octets.drop 8).take length) with
    | none => .error .protocol
    | some r => if replyValid kind r then .ok r else .error .protocol

end Sys2Proof.Machine
end

