-- ==== Sys2Proof/Machine/Flags.lean ====
section
/-! DEFINITION. The cause flags of XSTAT, the interrupt line, and the six registers as the host reads them (R189, R191). -/

namespace Sys2Proof.Machine

/-- The causes, in the order of their bits in XSTAT (R189). -/
inductive Cause where
  | slot
  | notice
  | roster
  | catalogue
  | activation
  | hotq
  | area
  deriving DecidableEq, Repr

/-- The cause's flag alone, bit n standing for XSTAT bit 8 + n (R189). -/
def Cause.flag : Cause → BitVec 7
  | .slot => 0x01
  | .notice => 0x02
  | .roster => 0x04
  | .catalogue => 0x08
  | .activation => 0x10
  | .hotq => 0x20
  | .area => 0x40

/-- Raises a cause: its flag is set, or left set (R191). -/
def Device.raise (d : Device) (c : Cause) : Device :=
  { d with port.causes := d.port.causes ||| c.flag }

/-- Whether the interrupt is to be asserted: some cause flag is set whose enable is set (R191). -/
def Port.interruptDue (p : Port) : Bool := (p.causes &&& p.mask) != 0

/-- The interrupt line judged (R191). -/
def Device.judgeInterrupt (d : Device) : Device :=
  { d with port.interrupt := d.port.interruptDue }

/-- Device state codes (R192). -/
def DeviceState.code : DeviceState → Nat
  | .off => 0
  | .starting => 1
  | .running => 2
  | .stopping => 3
  | .halted => 4

/-- Reset cause codes (R189). -/
def ResetCause.code : ResetCause → Nat
  | .power => 1
  | .pin => 2
  | .soft => 3

/-- XID (R189). -/
def Device.xid (d : Device) : Nat :=
  Config.partCode + Config.revision * 2 ^ 16 + d.port.resetCause.code * 2 ^ 24

/-- XCTL as read: PROMPT, CANCEL and RESET read 0 (R189). -/
def Device.xctl (d : Device) : Nat := flagNat d.port.run + 16 * flagNat d.port.lineEnable

/-- XSTAT as read (R189). -/
def Device.xstat (d : Device) : Nat :=
  d.port.device.code + 8 * flagNat d.fck.valid + 256 * d.port.causes.toNat

/-- XMASK as read (R189). -/
def Device.xmask (d : Device) : Nat := 256 * d.port.mask.toNat

/-- The four octets that a read of the register window at an offset returns, in any device state (R189). An offset
without a register reads 0; XBASE stands at 08h (low half) and 0Ch (high half; assumption log 32). -/
def Device.readRegister (d : Device) (offset : Nat) : Word32 :=
  match offset with
  | 0x00 => BitVec.ofNat 32 d.xid
  | 0x08 => BitVec.ofNat 32 d.areaBase
  | 0x0C => BitVec.ofNat 32 (d.areaBase / 2 ^ 32)
  | 0x10 => BitVec.ofNat 32 d.xctl
  | 0x14 => BitVec.ofNat 32 d.xstat
  | 0x18 => BitVec.ofNat 32 d.xmask
  | 0x1C => d.fck.seconds
  | _ => 0

/-- The commands that one write of XCTL amounts to, in the order RUN, line enable, PROMPT, CANCEL: a write with RESET
set is a soft reset and its other bits have no effect (R190). The order of those a single write brings is the model's
(assumption log 14). -/
def xctlWrite (w : Word32) : List Instr :=
  if w.getLsbD 3 then [.softReset]
  else
    [.run (w.getLsbD 0), .lineEnable (w.getLsbD 4)] ++ (if w.getLsbD 1 then [.prompt] else []) ++
      (if w.getLsbD 2 then [.cancel] else [])

end Sys2Proof.Machine
end

