-- ==== Sys2Proof/Machine/Layout.lean ====
section
/-! DEFINITION. Where everything stands in the exchange area (R180, R198) what the part writes into its mirror records
(R199), and the changes of the coordinator and of the hot queue, whose rewriting is told by what is written (R161, R177). -/

namespace Sys2Proof.Machine

/-! ## Regions (R180) -/

/-- Slot s begins at 0040h + 64 × s. -/
def slotOffset (s : Slot) : Nat := 0x40 + 64 * s.val
/-- Catalogue mirror records, 32 octets each, from 0840h. -/
def catOffset (i : CatIndex) : Nat := 0x840 + 32 * i.val
/-- Roster mirror records, 128 octets each, from 0E40h. -/
def rosOffset (a : Addr) : Nat := 0xE40 + 128 * a.val
/-- The coordinator record. -/
def coordOffset : Nat := 0x1440
/-- Notice cells, 64 octets each, from 1480h. -/
def cellOffset (a : Addr) : Nat := 0x1480 + 64 * a.val

/-! ## Codes -/

def SlotStatus.code : SlotStatus → Nat
  | .taken => 1
  | .done => 2
  | .posted => 3
  | .refused => 4

def SlotOutcome.code : SlotOutcome → Nat
  | .done => 1
  | .posted => 2
  | .badKind => 3
  | .badField => 4
  | .duplicate => 5
  | .catalogueFull => 6
  | .badGather => 7
  | .fetchFault => 8
  | .checkMismatch => 9
  | .staleHandle => 10
  | .withdrawn => 11
  | .retiring => 12
  | .hotFull => 13
  | .notEnrolled => 14
  | .aborted => 15

def EntryState.code : EntryState → Nat
  | .free => 0
  | .verifying => 1
  | .ready => 2
  | .reverifying => 3
  | .retiring => 4

def FaultCause.code : FaultCause → Nat
  | .none => 0
  | .checkMismatch => 1
  | .fetchFault => 2
  | .withdrawn => 3

def Presence.code : Presence → Nat
  | .unused => 0
  | .absent => 1
  | .present => 2
  | .silent => 3
  | .clash => 4
  | .excluded => 5

def StreamStatus.code : StreamStatus → Nat
  | .idle => 0
  | .current => 1
  | .planned => 2
  | .sending => 3
  | .suspended => 4
  | .waiting => 5
  | .short => 6
  | .held => 7
  | .beyond => 8

def HotStatus.code : HotStatus → Nat
  | .ok => 0
  | .short => 1
  | .none => 2

def CoordState.code : CoordState → Nat
  | .idle => 0
  | .loading => 1
  | .arming => 2
  | .committing => 3
  | .settled => 4

def Broadcast.code : Broadcast → Nat
  | .notOwed => 0
  | .owed => 1
  | .made => 2

def CommitCause.code : CommitCause → Nat
  | .none => 0
  | .allArmed => 1
  | .holdExpired => 2

def Standing.code : Standing → Nat
  | .notCounted => 0
  | .unarmed => 1
  | .armed => 2
  | .unconfirmed => 3
  | .late => 4
  | .confirmed => 5
  | .lagging => 6

/-! ## Bodies of the mirror records (R199), from octet 4 on -/

/-- Octet of a small number. -/
def num (n : Nat) : Octet := BitVec.ofNat 8 n

/-- The body of a catalogue mirror record. -/
def catBody (e : Entry) : List Octet :=
  [num e.state.code, num e.generation, num e.stream.code.val, num e.form.code] ++ leOctets 2 e.base ++
    leOctets 2 e.edition ++ leOctets 4 e.size ++ leOctets 4 e.footprint ++ leOctets 4 e.check.toNat ++
    [num e.inUse, num e.fault.code] ++ List.replicate 6 0

/-- Flags of the five streams as the bits of an octet. -/
def streamBits (r : ValRecord) (f : StreamCell → Bool) : Nat :=
  (allStreams.map fun s => flagNat (f (r.cell s)) * 2 ^ s.code.val).sum

/-- The body of a roster mirror record. -/
def rosBody (r : ValRecord) : List Octet :=
  [num r.presence.code, num r.weight, num r.reach, num r.hotStatus.code] ++
    allStreams.map (fun s => num (r.cell s).status.code) ++ allStreams.map (fun s => num (r.cell s).rejects) ++
    [num (streamBits r (·.hold)), num (streamBits r (·.room))] ++ leOctets 4 r.serial ++ leOctets 2 r.maxPayload ++
    [num r.openSlots, num r.hotCapacity] ++ leOctets 4 r.fareCapacity ++ leOctets 4 r.blockCapacity ++
    allStreams.flatMap (fun s => leOctets 2 (r.cell s).held) ++ leOctets 2 r.activeFare ++
    leOctets 2 r.pendingFare ++ leOctets 2 r.armedEdition ++
    [num r.hotEpochSeen,
     num (flagNat r.noticePending + 2 * flagNat r.statusOwed + 4 * flagNat r.cellFilled)] ++
    leOctets 2 r.hotHighWater ++ [num r.misses, num r.contentions] ++ leOctets 2 r.unitChanges ++
    leOctets 4 r.lastReply ++ List.replicate 64 0

/-- How many addresses have a standing (R177). -/
def Coordinator.countOf (c : Coordinator) (s : Standing) : Nat :=
  (allAddrs.filter fun a => c.standings[a].standing == s).length

/-- The armed count: the ARMED addresses until the broadcast is MADE, and then the count it had (R177). -/
def Coordinator.armedCount (c : Coordinator) : Nat :=
  if c.broadcast = .made then c.armedKept else c.countOf .armed

/-- The body of the coordinator record. -/
def coordBody (c : Coordinator) : List Octet :=
  [num c.state.code, num c.broadcast.code, num c.commitCause.code, num c.armedCount,
   num (c.countOf .confirmed), num (c.countOf .lagging)] ++ leOctets 2 c.edition ++ leOctets 4 c.activation ++
    leOctets 2 c.lead ++ leOctets 2 c.hold ++ leOctets 4 c.commitTime ++
    allAddrs.map (fun a => num c.standings[a].standing.code) ++ List.replicate 28 0

/-- The hot summary: count, oldest, newest and evicted count, two octets each (R161, R198). -/
def hotSummary (h : HotQueue) : List Octet :=
  leOctets 2 h.queue.length ++ leOctets 2 ((h.queue.head?.map (·.sequence)).getD 0) ++ leOctets 2 h.newest ++
    leOctets 2 h.evicted

/-! ## Changes of the coordinator record and of the hot queue, with their rewriting (R161, R177) -/

/-- The coordinator changed, and its record handed to EXP when a field changed that it carries (R177). -/
def Device.setAct (d : Device) (c : Coordinator) : Device :=
  { d with act := c, outbox := d.outbox ++ rewriteOf (coordBody d.act) (coordBody c) .coordRewrite }

/-- A standing record changed (R171, R177). -/
def Device.setStanding (d : Device) (a : Addr) (s : StandingRecord) : Device :=
  d.setAct { d.act with standings := d.act.standings.set a s }

/-- The hot queue changed, and its summary handed to EXP when a field of it changed (R161). -/
def Device.setHot (d : Device) (q : HotQueue) : Device :=
  { d with htq := q, outbox := d.outbox ++ rewriteOf (hotSummary d.htq) (hotSummary q) .summaryRewrite }

/-! ## Octets of cells and slots -/

/-- A notice cell's octets 1 to 63: kind, length and text, the text filled out with 0, and the octets not named, which
are written 0 (R60, R198). -/
def cellBody (kind : Octet) (text : List Octet) : List Octet :=
  [kind, num text.length, 0] ++ text.take 60 ++ List.replicate (60 - text.length) 0

/-- Octets 1 to 11 of a slot at its return (R186, R198). -/
def returnBody (r : Return) : List Octet :=
  [num r.status.code, r.kind, num r.outcome.code] ++ leOctets 2 r.ref.toNat ++ [0, 0] ++ leOctets 4 r.detail.toNat

end Sys2Proof.Machine
end

