-- ==== Sys2Proof/Machine/Catalogue.lean ====
section
/-! DEFINITION. The Catalogue's own operations (R1 to R3, R8, R15): handles, freeing an entry, the in-use count, and taking
an entry out of the verify queue. -/

namespace Sys2Proof.Machine

/-- The generation after the one an entry carried (R2). -/
def stepGeneration (g : Nat) : Nat := if g = 255 then 1 else g + 1

/-- A handle as one number (R2). -/
def handle (i : CatIndex) (generation : Nat) : Nat := i.val + 256 * generation

/-- The forty-eight catalogue indices, lowest first. -/
def allIndices : List CatIndex := List.finRange 48

/-- The entry becomes FREE with a fault cause, its generation stepped (R2, R10, R11, R13, R15). -/
def Device.freeEntry (d : Device) (i : CatIndex) (fault : FaultCause) : Device :=
  d.setEntry i (.blank (stepGeneration (d.entry i).generation) fault)

/-- Whether two entries' identities are the same: stream, form, base edition and edition (R1). -/
def sameIdentity (e f : Entry) : Bool :=
  e.stream == f.stream && e.form == f.form && e.base == f.base && e.edition == f.edition

/-- The entry, not FREE, that holds an identity already (R5). -/
def Device.duplicateOf (d : Device) (e : Entry) : Option CatIndex :=
  allIndices.find? fun i => (d.entry i).state != .free && sameIdentity (d.entry i) e

/-- The lowest FREE index (R5). -/
def Device.lowestFree (d : Device) : Option CatIndex :=
  allIndices.find? fun i => (d.entry i).state == .free

/-- An entry is taken out of the verify queue, those behind it keeping their order; when it is the head, its read is
stopped (R8, R11, R14, R19). -/
def Device.unqueue (d : Device) (i : CatIndex) : Device :=
  { d with
    vfy.queue := d.vfy.queue.filter (· ≠ i)
    vfy.inFlight := d.vfy.inFlight && d.vfy.queue.head? != some i }

/-- A RETIRING entry whose in-use count is 0 becomes FREE and its fault cause is kept; a WITHDRAW waiting on it is
returned DONE; cause CATALOGUE is raised for a fault (R15). Any other entry is left as it is. -/
def Device.freeIfRetired (d : Device) (i : CatIndex) : Device :=
  let e := d.entry i
  if e.state = .retiring ∧ e.inUse = 0 then
    let d := d.freeEntry i e.fault
    let d := match e.pendingSlot with
      | some slot => d.giveBack slot .done .done 0
      | none => d
    if e.fault = .checkMismatch ∨ e.fault = .fetchFault then d.raise .catalogue else d
  else d

/-- XFR reports a record naming the entry opened (R15). -/
def Device.entryOpened (d : Device) (i : CatIndex) : Device :=
  d.setEntry i { d.entry i with inUse := (d.entry i).inUse + 1 }

/-- XFR reports a record naming the entry closed (R15). -/
def Device.entryClosed (d : Device) (i : CatIndex) : Device :=
  (d.setEntry i { d.entry i with inUse := (d.entry i).inUse - 1 }).freeIfRetired i

end Sys2Proof.Machine
end

