-- ==== Sys2Proof/Machine/Transfer.lean ====
section
/-! DEFINITION. The Transfer Engine's records (R126 to R131, R133, R141): closing, dropping and marking them, the plan
taken over from the Planner, and the exchange a validator is offered. -/

namespace Sys2Proof.Machine

/-! ## The records of one validator -/

/-- A validator's records: the active one, then the stack from its top (R127). -/
def Transfers.records (t : Transfers) : List TransferRecord := t.active.toList ++ t.stack

/-- The record under a tag. -/
def Transfers.byTag (t : Transfers) (tag : Nat) : Option TransferRecord := t.records.find? (·.tag == tag)

/-- The records without the one under a tag, the others keeping their order (R142). -/
def Transfers.remove (t : Transfers) (tag : Nat) : Transfers :=
  { t with active := t.active.filter (·.tag != tag), stack := t.stack.filter (·.tag != tag) }

/-- The same change of every record that a test picks, each in its place. -/
def Transfers.change (t : Transfers) (pick : TransferRecord → Bool) (f : TransferRecord → TransferRecord) : Transfers :=
  let g r := if pick r then f r else r
  { t with active := t.active.map g, stack := t.stack.map g }

/-- Whether a record stands for a stream. -/
def Transfers.hasStream (t : Transfers) (s : Stream) : Bool := t.records.any (·.stream == s)

/-- Whether a plan names a record's entry (R63). -/
def planNames (plan : List Job) (r : TransferRecord) : Bool :=
  plan.any fun j =>
    match j with
    | .send _ i g _ => i == r.index && g == r.generation
    | .drop _ => false

/-- Whether a plan holds a SEND job of a stream. -/
def planSends (plan : List Job) (s : Stream) : Bool :=
  plan.any fun j =>
    match j with
    | .send s' _ _ _ => s' == s
    | .drop _ => false

/-- A stream's status by the record that stands for it (R128): SENDING or SUSPENDED for a record not marked whose entry is in
the plan; PLANNED for one closed or marked when a SEND job of the stream stands; else as it is. -/
def Device.statusByRecord (d : Device) (a : Addr) (s : Stream) : StreamStatus :=
  let t := d.transfers a
  let stands (r : TransferRecord) : Bool := r.stream == s && !r.marked && planNames (d.plan a) r
  if t.active.any stands then .sending
  else if t.stack.any stands then .suspended
  else if planSends (d.plan a) s then .planned
  else ((d.record a).cell s).status

/-- A stream's status set by the record that stands for it (R128). -/
def Device.fixStatus (d : Device) (a : Addr) (s : Stream) : Device :=
  d.setRecord a ((d.record a).setStatus s (d.statusByRecord a s))

/-- A record of a validator is closed: it leaves its place, the close is reported to CAT, and the stream's status
follows (R128). -/
def Device.closeRecord (d : Device) (a : Addr) (r : TransferRecord) : Device :=
  ((d.setTransfers a ((d.transfers a).remove r.tag)).entryClosed r.index).fixStatus a r.stream

/-- Records of a validator that a test picks are dropped without frames, each close reported: from the bottom of the stack up,
the active record last (R128, R131). Where no rule gives the order it is the model's choice (assumption log 45). -/
def Device.dropRecords (d : Device) (a : Addr) (pick : TransferRecord → Bool) : Device :=
  ((d.transfers a).records.filter pick).reverse.foldl (fun d r => d.closeRecord a r) d

/-- Every record of a validator is dropped without frames, and the ABANDON-all owed flag takes a value (R140, R143,
R145). -/
def Device.dropAll (d : Device) (a : Addr) (abandonAll : Bool) : Device :=
  let d := d.dropRecords a (fun _ => true)
  d.setTransfers a { active := none, stack := [], abandonAll }

/-- Marked records of a validator that is not PRESENT are dropped at once (R141). -/
def Device.dropMarkedIfAway (d : Device) (a : Addr) : Device :=
  if (d.record a).presence = .present then d else d.dropRecords a (·.marked)

/-- The records of a validator that a test picks are marked for abandonment (R141), and stream statuses follow
(R128). -/
def Device.markRecords (d : Device) (a : Addr) (pick : TransferRecord → Bool) : Device :=
  let t := d.transfers a
  let d := d.setTransfers a (t.change pick fun r => { r with marked := true })
  let d := (t.records.filter pick).foldl (fun d r => d.fixStatus a r.stream) d
  d.dropMarkedIfAway a

/-- CAT reports an entry for abandonment: every record naming it, on every validator, is marked (R16, R141). -/
def Device.markEntry (d : Device) (i : CatIndex) : Device :=
  allAddrs.foldl (fun d a => d.markRecords a (·.index == i)) d

/-- The hold flag that a FARE OPEN carries now (R132). -/
def Device.holdFlag (d : Device) (s : Stream) : Bool := s == .fare && d.tgt.fare.timing.isSome

/-- XFR takes over the plan handed to it (R68 step 6): records whose entry it does not name are marked (R80), and so is
a FARE record past OPENING whose hold flag sent no longer agrees with the FARE target (R133); the streams of the records
that stand are set SENDING or SUSPENDED, and the record is handed over at the end of the replan (R68 step 7). -/
def Device.takePlan (d : Device) (a : Addr) : Device :=
  let d := d.markRecords a fun r =>
    !planNames (d.plan a) r || (r.stream == .fare && r.phase != .opening && r.holdSent != d.holdFlag .fare)
  (d.transfers a).records.foldl
    (fun d r => d.putRecord a ((d.record a).setStatus r.stream (d.statusByRecord a r.stream))) d

/-- A record of a validator is changed, found by its tag. -/
def Device.changeRecord (d : Device) (a : Addr) (tag : Nat) (f : TransferRecord → TransferRecord) : Device :=
  d.setTransfers a ((d.transfers a).change (·.tag == tag) f)

/-- Both offsets of a record set to a value, with the phase that follows from it: SEALING when it equals the size,
SENDING otherwise (R132, R134, R139). -/
def TransferRecord.at (r : TransferRecord) (x : Nat) : TransferRecord :=
  { r with sent := x, acked := x, phase := if x = r.size then .sealing else .sending }

/-- Offset sent goes back to offset acknowledged (R130). -/
def TransferRecord.goBack (r : TransferRecord) : TransferRecord := { r with sent := r.acked }

/-- Records dropped when a STATUS lowers the open slots value: from the bottom of the stack, until the count equals the
value; the active record stays while the value is at least 1 (R131). -/
def Device.openSlotsLowered (d : Device) (a : Addr) (slots : Nat) : Device :=
  let t := d.transfers a
  let keep := t.records.take slots
  d.dropRecords a fun r => !keep.any (·.tag == r.tag)

/-! ## The exchange offered (R129) -/

/-- What XFR offers a validator: an ABANDON-all, the ABANDON of a record, a DROP, or the next exchange of a record as it
would stand active, with the arrangement of records that the offer would make. -/
inductive Offer where
  | abandonAll
  | abandon (r : TransferRecord)
  | drop (s : Stream)
  | next (arranged : Transfers) (created : Bool) (r : TransferRecord)
  deriving DecidableEq, Repr

/-- The send head: the stream and entry of the first SEND job of a plan (R129). -/
def sendHead : List Job → Option (Stream × CatIndex × Nat)
  | [] => none
  | .send s i g _ :: _ => some (s, i, g)
  | .drop _ :: rest => sendHead rest

/-- The tier of the first DROP job of a plan (R129). -/
def firstDrop : List Job → Option Stream
  | [] => none
  | .drop s :: _ => some s
  | .send _ _ _ _ :: rest => firstDrop rest

/-- The lowest tag 0 to 3 that no record of the validator holds (R127). -/
def Transfers.freeTag (t : Transfers) : Nat :=
  ([0, 1, 2, 3].find? fun n => (t.byTag n).isNone).getD 0

/-- A new record for an entry of a stream (R129). -/
def Device.newRecord (d : Device) (t : Transfers) (s : Stream) (i : CatIndex) (g : Nat) : TransferRecord where
  tag := t.freeTag
  index := i
  generation := g
  stream := s
  size := (d.entry i).size
  sent := 0
  acked := 0
  phase := .opening
  holdSent := false
  marked := false

/-- The stacked record of an entry. -/
def Transfers.stacked (t : Transfers) (i : CatIndex) (g : Nat) : Option TransferRecord :=
  t.stack.find? fun r => r.index == i && r.generation == g

/-- Steps 4 and 5 of R129: the record whose exchange is offered, and the arrangement that makes it active. A new record
is made only where no record of its stream stands (R127; assumption log 10). -/
def Device.arrange (d : Device) (a : Addr) : Option Offer :=
  let t := d.transfers a
  let slots := (d.record a).openSlots
  match t.active, sendHead (d.plan a) with
  | none, none => none
  | some r, none => some (.next t false r)
  | some r, some (s, i, g) =>
    if s.code < r.stream.code then
      match t.stacked i g with
      | some q => some (.next { t with active := some q, stack := r :: t.stack.filter (·.tag != q.tag) } false q)
      | none =>
        if !t.hasStream s && t.stack.length < min 3 (slots - 1) then
          let n := d.newRecord t s i g
          some (.next { t with active := some n, stack := r :: t.stack } true n)
        else some (.next t false r)
    else some (.next t false r)
  | none, some (s, i, g) =>
    match t.stacked i g with
    | some q => some (.next { t with active := some q, stack := t.stack.filter (·.tag != q.tag) } false q)
    | none =>
      if !t.hasStream s && t.stack.length < slots then
        let n := d.newRecord t s i g
        some (.next { t with active := some n } true n)
      else none

/-- The exchange XFR offers a PRESENT validator, or none when it has no transfer work (R129). -/
def Device.offer (d : Device) (a : Addr) : Option Offer :=
  let t := d.transfers a
  if t.abandonAll then some .abandonAll
  else
    match t.records.find? (·.marked) with
    | some r => some (.abandon r)
    | none =>
      match firstDrop (d.plan a) with
      | some s => if t.hasStream s then d.arrange a else some (.drop s)
      | none => d.arrange a

/-- The pushes, takings from the stack and creation that belong to an offer, made when its exchange is granted, with the
report of opening and the stream statuses (R128, R129). -/
def Device.makeOffer (d : Device) (a : Addr) : Offer → Device
  | .next arranged created r =>
    let d := d.setTransfers a arranged
    let d := if created then d.entryOpened r.index else d
    arranged.records.foldl (fun d r => d.fixStatus a r.stream) d
  | _ => d

end Sys2Proof.Machine
end

