-- ==== Sys2Proof/Machine/Planner.lean ====
section
/-! DEFINITION. The Planner: reach (R33, R34), link cost (R69 to R71), path candidates and choice (R72 to R79), per-stream
statuses (R35, R36), and a replan with its handing over to the Transfer Engine (R64 to R68). -/

namespace Sys2Proof.Machine

/-- The target edition of a stream, 0 for none (R24). -/
def Device.targetOf (d : Device) (s : Stream) : Nat :=
  if s = .fare then d.tgt.fare.edition else d.tgt.block

/-! ## Reach -/

/-- The target footprint of tier k: of the lowest-index READY entry of the tier at the BLOCK target; none when unknown
(R33). -/
def Device.targetFootprint (d : Device) (k : Nat) : Option Nat :=
  if d.tgt.block = 0 then none
  else
    (allIndices.find? fun i =>
      let e := d.entry i
      e.state == .ready && e.stream == tierStream k && e.edition == d.tgt.block).map fun i => (d.entry i).footprint

/-- Why the walk of R34 stopped. -/
inductive ReachStop where
  | none
  | unknown
  | over
  deriving DecidableEq, Repr

/-- The walk of R34 over the target footprints from T0 on: the number of tiers taken and the stop. -/
def reachWalk (capacity : Nat) : List (Option Nat) → (sum taken : Nat) → Nat × ReachStop
  | [], _, taken => (taken, .none)
  | none :: _, _, taken => (taken, .unknown)
  | some c :: rest, sum, taken =>
    if sum + c ≤ capacity then reachWalk capacity rest (sum + c) (taken + 1) else (taken, .over)

/-- A validator's reach and the stop, its presence being PRESENT or SILENT (R34). -/
def Device.computeReach (d : Device) (a : Addr) : Nat × ReachStop :=
  if d.tgt.block = 0 then (0, .none)
  else reachWalk (d.record a).blockCapacity ([0, 1, 2, 3].map d.targetFootprint) 0 0

/-! ## Cost -/

/-- The resume offset of an entry for a validator: the offset acknowledged of its record naming the entry, not marked,
or 0 (R70). -/
def Device.resumeOffset (d : Device) (a : Addr) (i : CatIndex) : Nat :=
  match (d.transfers a).records.find? fun r =>
      r.index == i && r.generation == (d.entry i).generation && !r.marked with
  | some r => r.acked
  | none => 0

/-- The cost of a link of a size with a resume offset, at effective payload P and burst B (R71). -/
def linkCost (size resume payload burst : Nat) : Nat :=
  let rest := size - resume
  let frames := ceilDiv rest payload
  68 + 10 * frames + rest + 14 * ceilDiv frames burst

/-- The cost of a path: the sum of its links' costs (R71). -/
def Device.pathCost (d : Device) (a : Addr) (path : List CatIndex) : Nat :=
  (path.map fun i =>
    linkCost (d.entry i).size (d.resumeOffset a i) (d.payload a) d.lnc.config.burst).sum

/-! ## Candidates and choice -/

/-- The WHOLE candidate of a stream for its target (R72). -/
def Device.wholeCandidate (d : Device) (s : Stream) (target : Nat) : Option CatIndex :=
  allIndices.find? fun i =>
    let e := d.entry i
    e.state == .ready && e.stream == s && e.form == .whole && e.edition == target

/-- The READY DELTA entries of a stream that start at an edition. -/
def Device.deltasFrom (d : Device) (s : Stream) (base : Nat) : List CatIndex :=
  allIndices.filter fun i =>
    let e := d.entry i
    e.state == .ready && e.stream == s && e.form == .delta && e.base == base

/-- The chains of at most `links` links from an edition to the target (R73). -/
def Device.chains (d : Device) (s : Stream) (target : Nat) : (links base : Nat) → List (List CatIndex)
  | 0, _ => []
  | links + 1, base =>
    (d.deltasFrom s base).flatMap fun i =>
      let e := (d.entry i).edition
      if e = target then [[i]]
      else if e < target then (d.chains s target links e).map (i :: ·)
      else []

/-- The chain candidates of a stream for a held edition and a target (R73, R74). -/
def Device.chainCandidates (d : Device) (s : Stream) (held target : Nat) : List (List CatIndex) :=
  if 0 < held ∧ held < target then d.chains s target 4 held else []

/-- Indices compared link by link, first link first (R75 tests 3 and 4). -/
def indicesBefore : List CatIndex → List CatIndex → Bool
  | [], _ => false
  | _ :: _, [] => false
  | i :: is, j :: js => i < j || (i == j && indicesBefore is js)

/-- Whether one chain is chosen before another by the tests of R75. -/
def Device.chainBefore (d : Device) (a : Addr) (p q : List CatIndex) : Bool :=
  let cp := d.pathCost a p
  let cq := d.pathCost a q
  cp < cq || (cp == cq && (p.length < q.length || (p.length == q.length && indicesBefore p q)))

/-- The chain chosen (R75). -/
def Device.bestChain (d : Device) (a : Addr) (candidates : List (List CatIndex)) : Option (List CatIndex) :=
  candidates.foldl (fun best p =>
    match best with
    | none => some p
    | some q => if d.chainBefore a p q then some p else some q) none

/-- The path chosen for a stream (R76). -/
def Device.choosePath (d : Device) (a : Addr) (s : Stream) (held target : Nat) : Option (List CatIndex) :=
  match d.bestChain a (d.chainCandidates s held target), d.wholeCandidate s target with
  | some chain, some whole => if d.pathCost a chain ≤ d.pathCost a [whole] then some chain else some [whole]
  | some chain, none => some chain
  | none, some whole => some [whole]
  | none, none => none

/-- The SEND jobs of a path's links, numbered from a link number on (R63). -/
def Device.sendJobs (d : Device) (s : Stream) : List CatIndex → (link : Nat) → List Job
  | [], _ => []
  | i :: rest, link => .send s i (d.entry i).generation link :: d.sendJobs s rest (link + 1)

/-- Whether a path fits: a FARE path whose final entry's footprint does not exceed the fare capacity (R78); a BLOCK
tier within reach fits (R79). -/
def Device.pathFits (d : Device) (a : Addr) (s : Stream) (path : List CatIndex) : Bool :=
  if s = .fare then
    match path.getLast? with
    | some i => (d.entry i).footprint ≤ (d.record a).fareCapacity
    | none => false
  else true

/-- The status and jobs of a stream that reaches line 6 of R36. -/
def Device.pathStatus (d : Device) (a : Addr) (s : Stream) : StreamStatus × List Job :=
  match d.choosePath a s ((d.record a).heldOf s) (d.targetOf s) with
  | none => (.waiting, [])
  | some path => if d.pathFits a s path then (.planned, d.sendJobs s path 1) else (.short, [])

/-- The status and jobs of a BLOCK tier outside reach (R35). -/
def outsideReach (s : Stream) (k held : Nat) : ReachStop → StreamStatus × List Job
  | .over => if k = 0 then (.short, []) else (.beyond, if held = 0 then [] else [.drop s])
  | _ => (.waiting, [])

/-- The status and jobs of a stream (R36). -/
def Device.streamPlan (d : Device) (a : Addr) (reach : Nat × ReachStop) (s : Stream) : StreamStatus × List Job :=
  let c := (d.record a).cell s
  let outside : Option Nat :=
    match s.tier? with
    | some k => if reach.1 ≤ k then some k else none
    | none => none
  if d.targetOf s = 0 then (.idle, [])
  else
    match outside with
    | some k => outsideReach s k c.held reach.2
    | none =>
      if c.held = d.targetOf s then (.current, [])
      else if c.hold then (.held, [])
      else if c.room then (.short, [])
      else d.pathStatus a s

/-! ## Replanning -/

/-- The DROP jobs of a list. -/
def isDrop : Job → Bool
  | .drop _ => true
  | .send _ _ _ _ => false

/-- Reach, the five statuses in stream-code order and the plan of a validator in PRESENT or SILENT (R64, R68). -/
def Device.computePlan (d : Device) (a : Addr) : Nat × List StreamStatus × List Job :=
  let reach := d.computeReach a
  let per := allStreams.map (d.streamPlan a reach)
  let jobs := per.flatMap (·.2)
  let drops := (jobs.filter isDrop).reverse
  let sends := jobs.filter fun j => !isDrop j
  (reach.1, per.map (·.1), (drops ++ sends).take 8)

/-- A record with reach and the five statuses in stream-code order (R68 step 5). -/
def ValRecord.planned (r : ValRecord) (reach : Nat) (statuses : List StreamStatus) : ValRecord :=
  { r with
    reach := reach
    streams := Vector.ofFn fun k => { r.streams[k] with status := statuses[k.val]?.getD .idle } }

/-- Whether a plan holds a job that another did not (R68). -/
def hasNewJob (old new : List Job) : Bool := new.any fun j => !old.contains j

/-- A validator's plan emptied, its reach 0 and every status IDLE (R42, R82). -/
def Device.emptyPlan (d : Device) (a : Addr) : Device :=
  (d.setPlan a []).setRecord a ((d.record a).planned 0 [])

/-- A replan of one validator, its record handed over at the end when reach or a status differs from what it was before
(R66, R68). -/
def Device.replan (d : Device) (a : Addr) : Device :=
  let p := (d.record a).presence
  if p = .present ∨ p = .silent then
    let old := d.plan a
    let before := d.record a
    let c := d.computePlan a
    let d := (((d.setPlan a c.2.2).putRecord a (before.planned c.1 c.2.1)).takePlan a).rosterChanged a before
    if hasNewJob old c.2.2 then d.reportExit else d
  else (d.emptyPlan a).takePlan a

/-- A replan of every validator (R67). -/
def Device.replanAll (d : Device) : Device := allAddrs.foldl (fun d a => d.replan a) d

/-- The SEND job of a record's entry is removed from the plan, if it is there (R81). -/
def Device.removeSend (d : Device) (a : Addr) (r : TransferRecord) : Device :=
  d.setPlan a ((d.plan a).filter fun j =>
    match j with
    | .send _ i g _ => !(i == r.index && g == r.generation)
    | .drop _ => true)

/-- The DROP job of a tier is removed from the plan, if it is there (R81). -/
def Device.removeDrop (d : Device) (a : Addr) (s : Stream) : Device :=
  d.setPlan a ((d.plan a).filter (· != .drop s))

end Sys2Proof.Machine
end

