-- ==== Sys2Proof/Machine/Hot.lean ====
section
/-! DEFINITION. The Hot Queue (R149 to R160): serial arithmetic of hot sequences, adding and evicting entries, what a
STATUS and the replies to HOT decide, the frame owed, and retirement. -/

namespace Sys2Proof.Machine

/-! ## Sequences (R150) -/

/-- The distance from one sequence to another. -/
def seqDistance (a b : Nat) : Nat := (b + 65535 - a) % 65535

/-- Sequence `b` follows `a`. A high-water of 0 precedes every sequence. -/
def seqFollows (b a : Nat) : Bool :=
  if a = 0 then b ≠ 0 else 1 ≤ seqDistance a b && seqDistance a b ≤ 32767 && b ≠ 0

/-- Sequence `b` is at or above `a`, `a` being a sequence. -/
def seqAtOrAbove (b a : Nat) : Bool := b == a || seqFollows b a

/-- The sequence after one. -/
def seqNext (a : Nat) : Nat := if a = 65535 then 1 else a + 1

/-- The sequence `n` steps after one. -/
def seqAdd : Nat → Nat → Nat
  | a, 0 => a
  | a, n + 1 => seqAdd (seqNext a) n

/-! ## Retirement (R160) -/

/-- Whether a record is counted for retirement (R153, R160). -/
def hotCounted (r : ValRecord) : Bool :=
  (r.presence == .present || r.presence == .silent || r.presence == .absent) && r.hotStatus != .none

/-- Whether a record no longer needs an entry: it has acknowledged it or holds the edition that absorbs it (R160). -/
def hotServed (r : ValRecord) (e : HotEntry) : Bool :=
  seqAtOrAbove r.hotHighWater e.sequence || e.edition ≤ r.heldOf (tierStream e.tier)

/-- Whether an entry may be retired (R160). -/
def Device.retirable (d : Device) (e : HotEntry) : Bool :=
  allAddrs.all fun a => !hotCounted (d.record a) || hotServed (d.record a) e

/-- Retirement judged: entries leave from the head while the head is retirable (R160). -/
def Device.judgeRetirement (d : Device) : Device :=
  d.setHot { d.htq with queue := d.htq.queue.dropWhile d.retirable }

/-! ## Adding (R151, R152) -/

/-- Whether an entry is evictable: its absorbing edition does not exceed the BLOCK target, which is not 0 (R152). -/
def Device.evictable (d : Device) (e : HotEntry) : Bool := d.tgt.block ≠ 0 && e.edition ≤ d.tgt.block

/-- The queue without its first `n` entries that a test picks. -/
def removeFirst (pick : HotEntry → Bool) : Nat → List HotEntry → List HotEntry
  | 0, q => q
  | _, [] => []
  | n + 1, e :: q => if pick e then removeFirst pick n q else e :: removeFirst pick (n + 1) q

/-- The window rule of R150 at the issue of a sequence. -/
def windowHighWater (s h : Nat) : Nat := if h ≠ 0 ∧ 32768 ≤ seqDistance h s then 0 else h

/-- One entry appended with the next sequence (R150, R151). -/
def Device.appendHot (d : Device) (e : HotEntry) : Device :=
  let s := d.htq.nextSequence
  let d := d.mapRecords fun _ r => { r with hotHighWater := windowHighWater s r.hotHighWater }
  d.setHot
    { d.htq with
      queue := d.htq.queue ++ [{ e with sequence := s }]
      nextSequence := seqNext s
      newest := s }

/-- Whether a request of `n` entries would span too many sequences (R152). -/
def Device.hotSpanExceeded (d : Device) (n : Nat) : Bool :=
  match d.htq.queue with
  | [] => false
  | e :: _ => 32767 < seqDistance e.sequence (seqAdd d.htq.nextSequence (n - 1))

/-- `n` evictions, each stepping the evicted count and raising HOTQ, then the judgement of retirement (R152). -/
def Device.evict (d : Device) (n : Nat) : Device :=
  let d := d.setHot
    { d.htq with
      queue := removeFirst d.evictable n d.htq.queue
      evicted := (d.htq.evicted + n) % 65536 }
  (d.raise .hotq).judgeRetirement

/-- Room for `n` entries judged and made (R152): none when the request is refused HOT_FULL. -/
def Device.makeRoom (d : Device) (n : Nat) : Option Device :=
  let free := 64 - d.htq.queue.length
  if d.hotSpanExceeded n then none
  else if n ≤ free then some d
  else if n ≤ free + (d.htq.queue.filter d.evictable).length then some (d.evict (n - free))
  else none

/-! ## Hot status and high-water (R153, R154) -/

/-- A hot status set, a change from OK to SHORT or NONE raising HOTQ (R153). -/
def Device.setHotStatus (d : Device) (a : Addr) (st : HotStatus) : Device :=
  let r := d.record a
  let d := d.setRecord a { r with hotStatus := st }
  if r.hotStatus = .ok ∧ st ≠ .ok then d.raise .hotq else d

/-- A held BLOCK edition has changed: a SHORT status becomes OK (R153). -/
def Device.heldBlockChanged (d : Device) (a : Addr) : Device :=
  if (d.record a).hotStatus = .short then d.setHotStatus a .ok else d

/-- What an accepted STATUS makes of the hot status, the record holding what the STATUS reported and `before` what it
held before (R153). -/
def Device.hotStatusOnStatus (d : Device) (a : Addr) (before : ValRecord) : Device :=
  let r := d.record a
  if r.hotCapacity = 0 then d.setHotStatus a .none
  else if r.hotCapacity ≠ before.hotCapacity then d.setHotStatus a .ok
  else if tierStreams.any fun s => r.heldOf s != before.heldOf s then d.heldBlockChanged a
  else d

/-- What an accepted STATUS decides of the kept high-water, the epoch seen and restart owed (R154). -/
def Device.hotReported (d : Device) (a : Addr) (epoch highWater : Nat) : Device :=
  let q := d.htq
  let joins : Bool :=
    some epoch ≠ q.epoch || (highWater ≠ 0 && (q.newest = 0 || seqFollows highWater q.newest))
  let keep : Nat :=
    if q.restartOwed.has a || joins then 0 else highWater
  let d := d.setRecord a { d.record a with hotEpochSeen := epoch, hotHighWater := keep }
  if joins then { d with htq.restartOwed := q.restartOwed.insert a } else d

/-- An address leaves restart owed (R154, R157). -/
def Device.restartDone (d : Device) (a : Addr) : Device :=
  { d with htq.restartOwed := d.htq.restartOwed.erase a }

/-! ## Delivery (R155, R156) -/

/-- Whether HTQ owes a validator a HOT (R155). -/
def Device.hotOwed (d : Device) (a : Addr) : Bool :=
  let r := d.record a
  r.presence == .present && r.hotStatus == .ok && d.htq.queue.any fun e => seqFollows e.sequence r.hotHighWater

/-- The entries of a list up to the first gap in their sequences, the first having to carry `next` (R156). -/
def consecutive : Nat → List HotEntry → List HotEntry
  | _, [] => []
  | next, e :: rest => if e.sequence = next then e :: consecutive (seqNext next) rest else []

/-- The run of queued entries that a HOT to a validator begins with (R156). -/
def Device.hotRun (d : Device) (a : Addr) : List HotEntry :=
  let q := d.htq.queue.dropWhile fun e => !seqFollows e.sequence (d.record a).hotHighWater
  match q with
  | [] => []
  | e :: _ => consecutive e.sequence q

/-- The most entries a frame to a validator fits (R156). -/
def Device.hotFit (d : Device) (a : Addr) : Nat := min 8 ((d.payload a - 5) / 12)

/-- The entries of a HOT frame, at most `e` of them (R156). -/
def Device.hotFrameEntries (d : Device) (a : Addr) (e : Nat) : List HotEntry :=
  (d.hotRun a).take (min e (d.hotFit a))

/-- Whether a sequence is one of those from `first` to `last` (R157). -/
def seqBetween (first last x : Nat) : Bool :=
  1 ≤ x && x ≤ 65535 && seqDistance first x ≤ seqDistance first last

/-! ## Epoch (R159) -/

/-- The epoch rule at STARTING (R159), with the judgement of retirement when the queue is kept (R160). -/
def Device.epochRule (d : Device) (epoch : Nat) : Device :=
  if d.htq.epoch = some epoch then d.judgeRetirement
  else
    let d := d.mapRecords fun _ r => { r with hotHighWater := 0 }
    d.setHot
      { queue := []
        nextSequence := 1
        newest := 0
        epoch := some epoch
        evicted := 0
        restartOwed := Vector.ofFn fun a => d.htq.restartOwed[a] || (d.record a).presence != .unused }

end Sys2Proof.Machine
end

