-- ==== Sys2Proof/Machine/Operands.lean ====
section
/-! DEFINITION. The operands of requests: what a slot's parameters are for each kind (R185, R198), which values of them
are in range (R4, R25, R43, R151), and what LINE_SET makes of its fields (R123). -/

namespace Sys2Proof.Machine

/-- A request as it is handed to the block that owns its kind (R184, R185). -/
inductive Request where
  | post (fields : PostFields)
  | withdraw (index generation : Octet)
  | target (fields : TargetFields)
  | hotAdd (count : Octet) (first second third : HotFields)
  | enrol (address : Octet) (flag : Bool) (weight : Octet)
  | exclude (address : Octet)
  | readmit (address : Octet)
  | lineSet (fields : LineFields)
  | unknown (kind : Octet)
  deriving DecidableEq, Repr

/-- The kind code of a request (R185). -/
def Request.kind : Request → Octet
  | .post _ => 1
  | .withdraw _ _ => 2
  | .target _ => 3
  | .hotAdd _ _ _ _ => 4
  | .enrol _ _ _ => 5
  | .exclude _ => 6
  | .readmit _ => 7
  | .lineSet _ => 8
  | .unknown k => k

/-- A field of `n` octets of host RAM as a bit vector of the width that holds it. -/
def Ram.bits (m : Ram) (w a n : Nat) : BitVec w := BitVec.ofNat w (m.field a n)

/-- One entry of a HOT_ADD slot at its offset (R198). -/
def readHotFields (m : Ram) (a : Nat) : HotFields where
  card := m.bits 64 a 8
  action := m.octet (a + 8)
  tier := m.octet (a + 9)
  edition := m.bits 16 (a + 10) 2

/-- The request that a slot beginning at `a` holds, by its kind code at octet 2 (R185, R198). -/
def readRequest (m : Ram) (a : Nat) : Request :=
  match (m.octet (a + 2)).toNat with
  | 1 => .post
      { stream := m.octet (a + 16), form := m.octet (a + 17), base := m.bits 16 (a + 18) 2,
        edition := m.bits 16 (a + 20) 2, fragments := m.octet (a + 22), size := m.bits 32 (a + 24) 4,
        footprint := m.bits 32 (a + 28) 4, check := m.bits 32 (a + 32) 4, gather := m.bits 64 (a + 40) 8 }
  | 2 => .withdraw (m.octet (a + 16)) (m.octet (a + 17))
  | 3 => .target
      { stream := m.octet (a + 16), timed := (m.octet (a + 17)).getLsbD 0, edition := m.bits 16 (a + 18) 2,
        activation := m.bits 32 (a + 20) 4, lead := m.bits 16 (a + 24) 2, hold := m.bits 16 (a + 26) 2 }
  | 4 => .hotAdd (m.octet (a + 16)) (readHotFields m (a + 20)) (readHotFields m (a + 32)) (readHotFields m (a + 44))
  | 5 => .enrol (m.octet (a + 16)) ((m.octet (a + 17)).getLsbD 0) (m.octet (a + 18))
  | 6 => .exclude (m.octet (a + 16))
  | 7 => .readmit (m.octet (a + 16))
  | 8 => .lineSet
      { rate := m.bits 16 (a + 16) 2, cycleLength := m.bits 16 (a + 18) 2, payloadLimit := m.bits 16 (a + 20) 2,
        replyTimeout := m.bits 16 (a + 22) 2, guardTime := m.bits 16 (a + 24) 2, probeInterval := m.octet (a + 26),
        burst := m.octet (a + 27), retryLimit := m.octet (a + 28), silence := m.octet (a + 29),
        quietEntry := m.octet (a + 30), keepalive := m.octet (a + 31) }
  | _ => .unknown (m.octet (a + 2))

/-- The octets of a work slot in which software has left a request, owned by DEVICE and PENDING, with its software reference and
its parameters where the layout has them; the octets not named are 0 (R183, R198). -/
def Request.layout (q : Request) (ref : Half) : List Octet :=
  let hot (f : HotFields) : List Octet := leOctets 8 f.card.toNat ++ [f.action, f.tier] ++ leOctets 2 f.edition.toNat
  let parameters : List Octet :=
    match q with
    | .post f =>
      [f.stream, f.form] ++ leOctets 2 f.base.toNat ++ leOctets 2 f.edition.toNat ++ [f.fragments, 0] ++
        leOctets 4 f.size.toNat ++ leOctets 4 f.footprint.toNat ++ leOctets 4 f.check.toNat ++ [0, 0, 0, 0] ++
        leOctets 8 f.gather.toNat
    | .withdraw index generation => [index, generation]
    | .target f =>
      [f.stream, flagOctet f.timed] ++ leOctets 2 f.edition.toNat ++ leOctets 4 f.activation.toNat ++
        leOctets 2 f.lead.toNat ++ leOctets 2 f.hold.toNat
    | .hotAdd count first second third => [count, 0, 0, 0] ++ hot first ++ hot second ++ hot third
    | .enrol address flag weight => [address, flagOctet flag, weight]
    | .exclude address => [address]
    | .readmit address => [address]
    | .lineSet f =>
      leOctets 2 f.rate.toNat ++ leOctets 2 f.cycleLength.toNat ++ leOctets 2 f.payloadLimit.toNat ++
        leOctets 2 f.replyTimeout.toNat ++ leOctets 2 f.guardTime.toNat ++
        [f.probeInterval, f.burst, f.retryLimit, f.silence, f.quietEntry, f.keepalive]
    | .unknown _ => []
  [1, 0, q.kind, 0] ++ leOctets 2 ref.toNat ++ List.replicate 10 0 ++ parameters ++
    List.replicate (48 - parameters.length) 0

/-! ## POST (R4) -/

/-- The stream and form of a POST all of whose fields are in range (R4). -/
def postInRange? (f : PostFields) : Option (Stream × Form) :=
  match Stream.ofCode? f.stream.toNat with
  | none => none
  | some s =>
    let formOk : Option Form :=
      if f.form.toNat = 0 then (if f.base.toNat = 0 then some .whole else none)
      else if f.form.toNat = 1 then
        (if 1 ≤ f.base.toNat ∧ f.base.toNat < f.edition.toNat then some .delta else none)
      else none
    match formOk with
    | none => none
    | some form =>
      if 1 ≤ f.edition.toNat ∧ 1 ≤ f.size.toNat ∧ f.size.toNat ≤ 4194304 ∧ f.footprint.toNat ≤ 16777215 ∧
          f.gather.toNat % 16 = 0 ∧ 1 ≤ f.fragments.toNat ∧ f.fragments.toNat ≤ 64 then
        some (s, form)
      else none

/-! ## TARGET (R25) -/

/-- What a TARGET that passes R25 asks for. -/
inductive TargetRequest where
  | fare (t : FareTarget)
  | block (edition : Nat)
  deriving DecidableEq, Repr

/-- A field in which FFFFh stands for a default (R25): its value when it is in range. -/
def defaulted (v : Half) (limit standing : Nat) : Option Nat :=
  if v.toNat = 0xFFFF then some standing else if v.toNat ≤ limit then some v.toNat else none

/-- The checks of R25, with the defaults put in; none when one of them fails. -/
def targetChecked? (f : TargetFields) : Option TargetRequest :=
  if f.stream.toNat = 0 then
    if f.timed then none else some (.block f.edition.toNat)
  else if f.stream.toNat = 1 then
    if f.timed then
      if f.edition.toNat = 0 then none
      else
        match defaulted f.lead 3600 30, defaulted f.hold 600 60 with
        | some lead, some hold =>
          some (.fare { edition := f.edition.toNat, timing := some { activation := f.activation.toNat, lead, hold } })
        | _, _ => none
    else some (.fare { edition := f.edition.toNat, timing := none })
  else none

/-! ## HOT_ADD (R151) -/

/-- The entry that hot fields in range stand for, its sequence not yet given; none when a field is out of range
(R151). -/
def hotChecked? (f : HotFields) : Option HotEntry :=
  let action : Option HotAction :=
    if f.action.toNat = 1 then some .block else if f.action.toNat = 2 then some .lift else none
  match action with
  | none => none
  | some action =>
    if f.tier.toNat ≤ 3 ∧ f.edition.toNat ≠ 0 then
      some { sequence := 0, card := f.card, action, tier := f.tier.toNat, edition := f.edition.toNat }
    else none

/-- The entries counted of a HOT_ADD, checked; none when the count or one of them is out of range (R151). -/
def hotAddEntries? (count : Octet) (first second third : HotFields) : Option (List HotEntry) :=
  match count.toNat with
  | 1 => [first].mapM hotChecked?
  | 2 => [first, second].mapM hotChecked?
  | 3 => [first, second, third].mapM hotChecked?
  | _ => none

/-! ## LINE_SET (R123) -/

/-- A value clamped to a range. -/
def clamp (low high v : Nat) : Nat := max low (min high v)

/-- The next listed rate at or below a value, 250 below all of them (R123). -/
def selectRate (v : Nat) : Nat := if 1000 ≤ v then 1000 else if 500 ≤ v then 500 else 250

/-- The eleven values after clamping, rounding and rate selection (R123). -/
def lineClamped (f : LineFields) : LineConfig where
  rate := selectRate f.rate.toNat
  cycleLength := clamp 10 1000 f.cycleLength.toNat
  probeInterval := clamp 1 16 f.probeInterval.toNat
  payloadLimit := clamp 64 1024 f.payloadLimit.toNat / 16 * 16
  burst := clamp 1 8 f.burst.toNat
  replyTimeout := clamp 100 5000 f.replyTimeout.toNat
  retryLimit := clamp 1 7 f.retryLimit.toNat
  silence := clamp 1 60 f.silence.toNat
  quietEntry := clamp 0 32 f.quietEntry.toNat
  keepalive := clamp 1 60 f.keepalive.toNat
  guardTime := clamp 50 1000 f.guardTime.toNat

/-- The clamp mask: a bit for each field whose value was changed (R123). -/
def lineClampMask (f : LineFields) : Nat :=
  let c := lineClamped f
  let bit (n given taken : Nat) : Nat := if given = taken then 0 else 2 ^ n
  bit 0 f.rate.toNat c.rate + bit 1 f.cycleLength.toNat c.cycleLength +
    bit 2 f.probeInterval.toNat c.probeInterval + bit 3 f.payloadLimit.toNat c.payloadLimit +
    bit 4 f.burst.toNat c.burst + bit 5 f.replyTimeout.toNat c.replyTimeout +
    bit 6 f.retryLimit.toNat c.retryLimit + bit 7 f.silence.toNat c.silence +
    bit 8 f.quietEntry.toNat c.quietEntry + bit 9 f.keepalive.toNat c.keepalive +
    bit 10 f.guardTime.toNat c.guardTime

end Sys2Proof.Machine
end

