-- ==== Sys2Proof/Machine/Activation.lean ====
section
/-! DEFINITION. The Activation Coordinator (R165 to R176) and the Target Table (R24 to R30), which call on each other when an
activation settles: standings, the time and commit judgements, starting over, and the outcomes of ACT's exchanges. -/

namespace Sys2Proof.Machine

/-! ## What the coordinator reads -/

/-- Whether an address is counted: ABSENT, PRESENT, SILENT or CLASH (R165). -/
def presenceCounted (p : Presence) : Bool :=
  match p with
  | .absent | .present | .silent | .clash => true
  | .unused | .excluded => false

/-- Whether the clock is valid and at or above a moment. -/
def Device.clockReached (d : Device) (moment : Nat) : Bool := d.fck.valid && moment ≤ d.fck.seconds.toNat

/-- Whether the broadcast has been MADE (R170). -/
def Device.made (d : Device) : Bool := d.act.broadcast == .made

/-- Whether ARMs are due: in ARMING, and in COMMITTING before the broadcast is MADE (R168). -/
def Device.armingOpen (d : Device) : Bool :=
  d.act.state == .arming || (d.act.state == .committing && !d.made)

/-- Whether ACT owes the broadcast (R170). -/
def Device.broadcastOwed (d : Device) : Bool :=
  d.act.broadcast == .owed && d.clockReached d.act.activation

/-- ACT's exchanges with one address (R165). -/
inductive ActExchange where
  | disarm
  | arm
  | confirmPoll
  | commit
  deriving DecidableEq, Repr

/-- The exchange ACT owes an address (R165, R168 to R172). -/
def Device.actOwed (d : Device) (a : Addr) : Option ActExchange :=
  let s := d.standing a
  let r := d.record a
  if r.presence ≠ .present then none
  else if s.disarmOwed then some .disarm
  else
    match s.standing with
    | .unarmed => if d.armingOpen && !s.armRefused && r.pendingFare == d.act.edition then some .arm else none
    | .unconfirmed => some .confirmPoll
    | .late => some .commit
    | _ => none

/-- Whether ACT has come to owe an exchange it did not owe before, or the broadcast (R165). -/
def newActWork (before after : Device) : Bool :=
  (after.broadcastOwed && !before.broadcastOwed) ||
    allAddrs.any fun a => (after.actOwed a).isSome && after.actOwed a != before.actOwed a

/-- ACT reports to LNC what it has come to owe since `before` (R165). -/
def Device.actWorkReported (d before : Device) : Device := if newActWork before d then d.reportExit else d

/-! ## Starting over (R166) -/

/-- A standing record at a start-over (R166 steps 1 and 2). -/
def startOverStanding (r : ValRecord) (s : StandingRecord) : StandingRecord :=
  if presenceCounted r.presence then
    { standing := .unarmed, disarmOwed := s.disarmOwed || s.standing == .armed || r.armedEdition != 0,
      armRefused := false, attempts := 0 }
  else { standing := .notCounted, disarmOwed := s.disarmOwed, armRefused := false, attempts := 0 }

/-- Commit decided: COMMITTING with a cause, the broadcast OWED (R167). -/
def Device.decideCommit (d : Device) (cause : CommitCause) : Device :=
  (d.setAct { d.act with state := .committing, commitCause := cause, broadcast := .owed }).raise .activation

/-- In ARMING the commit is judged (R167). -/
def Device.judgeCommit (d : Device) : Device :=
  let allArmed := allAddrs.all fun a =>
    (d.record a).presence != .present || (d.standing a).standing == .armed
  if d.act.state = .arming then
    if d.clockReached d.act.activation && allArmed then d.decideCommit .allArmed
    else if d.clockReached d.act.holdEnds && !allArmed then d.decideCommit .holdExpired
    else d
  else d

/-- The time judgement, on each step and write of the clock and on starting over (R167, R176). -/
def Device.judgeTime (d : Device) : Device :=
  match d.act.state with
  | .loading =>
    if d.clockReached d.act.opens then
      ((d.setAct { d.act with state := .arming }).raise .activation).judgeCommit
    else d
  | .arming =>
    if d.clockReached d.act.opens then d.judgeCommit
    else
      (d.setAct
        { d.act with
          state := .loading
          standings := Vector.ofFn fun (a : Addr) =>
            let s : StandingRecord := d.standing a
            if s.standing = Standing.armed then { s with standing := .unarmed, disarmOwed := true } else s }).raise
        .activation
  | _ => d

/-- The coordinator started over by its fields, from an edition and its timing (R165, R166 steps 3 and 4). -/
def Coordinator.startedOver (c : Coordinator) (t : FareTarget) : Coordinator :=
  match t.timing with
  | some w =>
    if t.edition = 0 then
      { c with state := .idle, edition := 0, activation := 0, lead := 0, hold := 0, opens := 0, holdEnds := 0,
               broadcast := .notOwed, commitCause := .none, commitTime := 0, armedKept := 0 }
    else
      { c with state := .loading, edition := t.edition, activation := w.activation, lead := w.lead, hold := w.hold,
               opens := w.activation - w.lead, holdEnds := min 4294967295 (w.activation + w.hold),
               broadcast := .notOwed, commitCause := .none, commitTime := 0, armedKept := 0 }
  | none =>
    { c with state := .idle, edition := t.edition, activation := 0, lead := 0, hold := 0, opens := 0, holdEnds := 0,
             broadcast := .notOwed, commitCause := .none, commitTime := 0, armedKept := 0 }

/-- Whether an exchange is one whose reply ACT discards when it starts over: ARM, disarm or addressed COMMIT (R166). -/
def ExchangeKind.actAddressed : ExchangeKind → Bool
  | .arm | .disarm | .commit => true
  | _ => false

/-- ACT starts over on a change of the FARE target: its record is rewritten whatever has changed (R166 step 5). What the new
activation comes to owe at the time judgement is reported, be it what the old one owed (R165). -/
def Device.startOver (d : Device) : Device :=
  let standings := Vector.ofFn fun (a : Addr) => startOverStanding (d.record a) (d.standing a)
  let d := { d with
    act := ({ d.act with standings := standings } : Coordinator).startedOver d.tgt.fare
    lnc.exchange := d.lnc.exchange.map fun (e : Exchange) =>
      if e.kind.actAddressed then { e with actStale := true } else e }
  ((d.handOver .coordRewrite).raise .activation).judgeTime.actWorkReported d

/-! ## Targets (R26, R28 to R30) -/

/-- A record after a target change for a set of streams: reject counts 0, holds lifted, room shortfalls cleared (R30). -/
def ValRecord.retargeted (r : ValRecord) (streams : List Stream) : ValRecord :=
  streams.foldl (fun r s => r.setCell s { r.cell s with rejects := 0, hold := false, room := false }) r

/-- A validator replanned for what a target change takes off its record: once when a hold is lifted, once when a room shortfall
is cleared, each a trigger with a replan of its own (R57, R58, R66, R67; assumption log 51). -/
def Device.replanLifted (d : Device) (a : Addr) (before : ValRecord) (streams : List Stream) : Device :=
  let d := if streams.any fun s => (before.cell s).hold then d.replan a else d
  if streams.any fun s => (before.cell s).room then d.replan a else d

/-- ROS applies a target change to a set of streams in every record (R30), and PLN replans the validators whose holds were lifted
or shortfalls cleared, before it takes the target change itself (R26, R29, R57, R58, R66). -/
def Device.targetChanged (d : Device) (streams : List Stream) : Device :=
  allAddrs.foldl (fun e a => e.replanLifted a (d.record a) streams)
    (d.mapRecords fun _ r => r.retargeted streams)

/-- The FARE target replaced, with the reports of R26. -/
def Device.setFareTarget (d : Device) (t : FareTarget) : Device :=
  (({ d with tgt.fare := t }.targetChanged [.fare]).replanAll).startOver

/-- The BLOCK target replaced, with the reports of R29. -/
def Device.setBlockTarget (d : Device) (edition : Nat) : Device :=
  ({ d with tgt.block := edition }.targetChanged tierStreams).replanAll

/-- A held FARE target applied when the coordinator enters SETTLED (R28). -/
def Device.applyHeldTarget (d : Device) : Device :=
  match d.tgt.heldFare with
  | none => d
  | some t =>
    let d := { d with tgt.heldFare := none }
    if t = d.tgt.fare then d else d.setFareTarget t

/-! ## Settling (R173) and the broadcast (R170) -/

/-- In COMMITTING with the broadcast MADE, entry into SETTLED is judged (R173). -/
def Device.judgeSettled (d : Device) : Device :=
  let settled := allAddrs.all fun a =>
    !presenceCounted (d.record a).presence || (d.standing a).standing == .confirmed ||
      (d.standing a).standing == .lagging
  if d.act.state = .committing ∧ d.made ∧ settled then
    ((d.setAct { d.act with state := .settled }).raise .activation).applyHeldTarget
  else d

/-- Both judgements that follow a change of standing, presence or enrolment (R167, R173, R174). -/
def Device.judgeActivation (d : Device) : Device := d.judgeCommit.judgeSettled

/-- The broadcast becomes MADE, and the record is rewritten (R170 step 3). -/
def Device.broadcastMade (d : Device) : Device :=
  let act :=
    { d.act with
      broadcast := .made
      commitTime := d.fck.seconds.toNat
      armedKept := d.act.countOf .armed
      standings := Vector.ofFn fun (a : Addr) =>
        let s : StandingRecord := d.standing a
        match (d.record a).presence with
        | .present | .silent => { s with standing := .unconfirmed, attempts := 0 }
        | .absent | .clash => { s with standing := .lagging, attempts := 0 }
        | .unused | .excluded => { s with attempts := 0 } }
  ({ d with act := act }.handOver .coordRewrite).judgeSettled

/-! ## Reports from ROS (R168, R169, R171, R172, R174, R175) -/

/-- The standing after a report of the address's fare editions, the broadcast being MADE (R171). -/
def confirmJudged (edition limit : Nat) (r : ValRecord) (s : StandingRecord) : Standing :=
  match s.standing with
  | .unconfirmed =>
    if r.activeFare = edition then .confirmed else if r.pendingFare = edition then .late else .lagging
  | .lagging =>
    if r.activeFare = edition then .confirmed
    else if r.pendingFare = edition ∧ s.attempts < limit then .late
    else .lagging
  | other => other

/-- The standing record after a report of the address's fare editions, its record showing them (R168, R169, R171,
R172). -/
def Device.fareJudged (d : Device) (r : ValRecord) (s : StandingRecord) : StandingRecord :=
  let c := d.act
  let limit := d.lnc.config.retryLimit
  let s := { s with armRefused := false }
  match c.state with
  | .idle =>
    let s := if r.armedEdition ≠ 0 then { s with disarmOwed := true } else s
    if c.edition ≠ 0 ∧ r.presence = .present ∧ r.pendingFare = c.edition ∧ r.activeFare ≠ c.edition ∧
        s.attempts < limit then { s with standing := .late } else s
  | .loading => if r.armedEdition ≠ 0 then { s with disarmOwed := true } else s
  | .arming =>
    let s := if s.standing = .armed ∧ (r.pendingFare ≠ c.edition ∨ r.armedEdition ≠ c.edition) then
      { s with standing := .unarmed } else s
    if r.armedEdition ≠ 0 ∧ r.armedEdition ≠ c.edition then { s with disarmOwed := true } else s
  | .committing =>
    if c.broadcast = .made then { s with standing := confirmJudged c.edition limit r s }
    else if s.standing = .armed ∧ (r.pendingFare ≠ c.edition ∨ r.armedEdition ≠ c.edition) then
      { s with standing := .unarmed }
    else s
  | .settled => { s with standing := confirmJudged c.edition limit r s }

/-- ROS reports an address's fare editions to ACT, the record showing them (R54, R55). That the report of a VERDICT shows the armed
edition too, as the last STATUS left it, is the model's choice (assumption log 52). -/
def Device.fareReport (d : Device) (a : Addr) : Device :=
  (d.setStanding a (d.fareJudged (d.record a) (d.standing a))).judgeActivation

/-- ROS reports a unit change to ACT (R175). -/
def Device.actUnitChange (d : Device) (a : Addr) : Device :=
  d.setStanding a
    { standing := if d.made then .unconfirmed else .unarmed, disarmOwed := false, armRefused := false, attempts := 0 }

/-- The standing record after a presence or enrolment change (R169, R174). -/
def presenceJudged (made : Bool) (old new : Presence) (s : StandingRecord) : StandingRecord :=
  match new with
  | .unused | .excluded => { standing := .notCounted, disarmOwed := false, armRefused := false, attempts := 0 }
  | .absent =>
    match old with
    | .unused | .excluded => { s with standing := if made then .lagging else .unarmed, disarmOwed := false }
    | .clash => { s with disarmOwed := false }
    | _ =>
      { s with
        disarmOwed := false
        standing :=
          if made then (if s.standing = .unconfirmed ∨ s.standing = .late then .lagging else s.standing)
          else if s.standing = .armed then .unarmed else s.standing }
  | .clash =>
    { s with
      disarmOwed := false
      standing :=
        if made then (if s.standing = .unconfirmed ∨ s.standing = .late then .lagging else s.standing)
        else if s.standing = .armed then .unarmed else s.standing }
  | .silent => s
  | .present => { s with attempts := 0 }

/-- ROS reports a presence or enrolment change to ACT (R174). -/
def Device.actPresence (d : Device) (a : Addr) (old new : Presence) : Device :=
  (d.setStanding a (presenceJudged d.made old new (d.standing a))).judgeActivation

/-! ## Outcomes of ACT's exchanges (R168, R169, R172) -/

/-- An ACK of the edition to an ARM makes an UNARMED address ARMED while arming is open (R165, R168; assumption log
11). -/
def Device.armAcked (d : Device) (a : Addr) : Device :=
  let s := d.standing a
  if d.armingOpen ∧ s.standing = .unarmed then
    (d.setStanding a { s with standing := .armed }).judgeActivation
  else d

/-- An ACK of 0 to an ARM (R168). -/
def Device.armRefusedBy (d : Device) (a : Addr) : Device :=
  d.setStanding a { d.standing a with armRefused := true }

/-- A disarm acknowledged (R169). -/
def Device.disarmAcked (d : Device) (a : Addr) : Device :=
  d.setStanding a { d.standing a with disarmOwed := false }

/-- An addressed COMMIT acknowledged with the edition: CONFIRMED, in IDLE UNARMED (R172). -/
def Device.commitAcked (d : Device) (a : Addr) : Device :=
  let s := d.standing a
  if s.standing = .late then
    (d.setStanding a { s with standing := if d.act.state = .idle then .unarmed else .confirmed }).judgeActivation
  else d

/-- An addressed COMMIT that did not bring the edition: attempts rise by 1, and at the retry limit the address is
LAGGING, in IDLE UNARMED (R172). -/
def Device.commitFailed (d : Device) (a : Addr) : Device :=
  let s := d.standing a
  let n := s.attempts + 1
  if s.standing = .late then
    (d.setStanding a
      { s with
        attempts := n
        standing :=
          if n < d.lnc.config.retryLimit then .late else if d.act.state = .idle then .unarmed else .lagging })
      |>.judgeActivation
  else d

end Sys2Proof.Machine
end

