-- ==== Sys2Proof/Machine/Roster.lean ====
section
/-! DEFINITION. The Roster (R42 to R60): presence changes with their reports, the outcomes of exchanges, the application of
a STATUS, what XFR and CAT report, and the changes that requests make. -/

namespace Sys2Proof.Machine

/-! ## Presence (R42, R46 to R50) -/

/-- What a record's leaving PRESENT brings at the arbiter: the address is held over, and its turn ends (R114, R115). -/
def Device.leftPresent (d : Device) (a : Addr) : Device :=
  { d with
    lnc.heldOver := d.lnc.heldOver.insert a
    lnc.turn := d.lnc.turn.filter fun (t : Addr × Nat) => t.1 != a }

/-- The reports of a presence change, the record holding the new presence (R42). -/
def Device.presenceChanged (d : Device) (a : Addr) (old : Presence) : Device :=
  let new := (d.record a).presence
  let d := if old = .present then d.leftPresent a else d
  let d :=
    match new with
    | .present => d.replan a
    | .silent => d.dropMarkedIfAway a
    | .unused | .absent | .clash | .excluded => (d.dropAll a false).emptyPlan a
  d.judgeRetirement.actPresence a old new

/-- The outcome of the exchange in flight to an address is to be discarded from here on: all of it after a request (R50),
all but a STATUS or a miss after the entry into ABSENT by silence (R48). -/
def Device.voidExchange (d : Device) (a : Addr) (v : Voided) : Device :=
  { d with
    lnc.exchange := d.lnc.exchange.map fun (e : Exchange) =>
      if e.dest = some a ∧ e.voided ≠ .byRequest then { e with voided := v } else e }

/-- A record as it stands in ABSENT, entered by silence or by READMIT (R48). -/
def ValRecord.madeAbsent (r : ValRecord) : ValRecord :=
  let r := r.mapCells fun c => { c with held := 0 }
  { r with
    presence := .absent
    activeFare := 0
    pendingFare := 0
    armedEdition := 0
    hotHighWater := 0
    noticePending := false
    statusOwed := false
    silenceTimer := none }

/-- A record enters ABSENT by silence (R48). -/
def Device.silenceOver (d : Device) (a : Addr) : Device :=
  let old := (d.record a).presence
  (((d.setRecord a (d.record a).madeAbsent).voidExchange a .bySilence).presenceChanged a old).raise .roster

/-- Whether the silence period in force has passed since a record's last valid reply (R48). -/
def Device.silencePassed (d : Device) (a : Addr) : Bool :=
  match (d.record a).silenceTimer with
  | some t => d.lnc.config.silence * 1000000 ≤ t
  | none => false

/-- The silence expiry judged: a SILENT record whose period has passed enters ABSENT while the line is not IDLE
(R48). -/
def Device.judgeSilence (d : Device) (a : Addr) : Device :=
  if (d.record a).presence = .silent ∧ d.silencePassed a ∧ d.lnc.line ≠ .idle then d.silenceOver a else d

/-! ## Outcomes of exchanges (R47, R49) -/

/-- A record's last valid reply time set to the clock, and its silence period timed afresh (R47). -/
def Device.replyTimed (d : Device) (a : Addr) : Device :=
  let r := d.record a
  d.setRecord a
    { r with
      lastReply := d.fck.seconds.toNat
      replyTime := if r.lastReply = d.fck.seconds.toNat then r.replyTime else .changedInCycle
      silenceTimer := some 0 }

/-- The counters of a clean exchange (R47). -/
def Device.counted0 (d : Device) (a : Addr) : Device :=
  d.setRecord a { d.record a with misses := 0, contentions := 0 }

/-- The entry into PRESENT of a record that was ABSENT or SILENT (R46). -/
def Device.enterPresent (d : Device) (a : Addr) : Device :=
  let old := (d.record a).presence
  if old = .absent ∨ old = .silent then
    ((d.setRecord a { d.record a with presence := .present }).presenceChanged a old).raise .roster
  else d

/-- A miss counted, the record's presence following it (R47, R48). -/
def Device.miss (d : Device) (a : Addr) : Device :=
  let r := d.record a
  let n := min 7 (r.misses + 1)
  let d := d.setRecord a { r with misses := n }
  if r.presence = .present ∧ d.lnc.config.retryLimit ≤ n then
    (((d.setRecord a { d.record a with presence := .silent }).presenceChanged a .present).raise .roster).judgeSilence a
  else d

/-- A valid reply other than STATUS, which is clean unless its owner counts it as a miss (R47). -/
def Device.validReply (d : Device) (a : Addr) (clean : Bool) : Device :=
  let d := d.replyTimed a
  let d := if clean then d.counted0 a else d
  let d := if (d.record a).presence = .silent then d.enterPresent a else d
  if clean then d else d.miss a

/-- A contention counted: the third in succession brings CLASH, any other is counted as a miss too (R49). -/
def Device.contended (d : Device) (a : Addr) : Device :=
  let r := d.record a
  let n := min 3 (r.contentions + 1)
  let d := d.setRecord a { r with contentions := n }
  if n = 3 ∧ (r.presence = .present ∨ r.presence = .silent ∨ r.presence = .absent) then
    let d := d.setRecord a { d.record a with presence := .clash, statusOwed := false, noticePending := false }
    (d.presenceChanged a r.presence).raise .roster
  else d.miss a

/-! ## What XFR reports (R55 to R58) -/

/-- A change of the held edition of a stream, reported to HTQ when a BLOCK edition changed by it (R55, R153, R160). -/
def Device.heldChanged (d : Device) (a : Addr) (s : Stream) (before : Nat) : Device :=
  if s ≠ .fare ∧ (d.record a).heldOf s ≠ before then (d.heldBlockChanged a).judgeRetirement else d

/-- VERDICT STORED reported (R55, R57), for FARE to ACT too, whatever it changes (assumption log 53). -/
def Device.stored (d : Device) (a : Addr) (s : Stream) (edition : Nat) : Device :=
  let before := (d.record a).heldOf s
  let r := d.record a
  let r := r.setCell s { r.cell s with held := edition, rejects := 0 }
  let r := if s = .fare then { r with activeFare := edition, pendingFare := 0 } else r
  let d := ((d.setRecord a r).replan a).heldChanged a s before
  if s = .fare then d.fareReport a else d

/-- VERDICT STORED_PENDING reported (R55); the reject count is cleared as for STORED (R137; assumption log 44), and
it is reported to ACT whatever it changes (assumption log 53). -/
def Device.storedPending (d : Device) (a : Addr) (edition : Nat) : Device :=
  let r := d.record a
  let r := r.setCell .fare { r.cell .fare with held := edition, rejects := 0 }
  ((d.setRecord a { r with pendingFare := edition }).replan a).fareReport a

/-- A DROP acknowledged (R55). -/
def Device.tierDropped (d : Device) (a : Addr) (s : Stream) : Device :=
  let before := (d.record a).heldOf s
  ((d.setRecord a ((d.record a).setHeld s 0)).replan a).heldChanged a s before

/-- Status owed set (R56). -/
def Device.oweStatus (d : Device) (a : Addr) : Device :=
  d.setRecord a { d.record a with statusOwed := true }

/-- A room shortfall set, with the replan that follows (R58). -/
def Device.roomShort (d : Device) (a : Addr) (s : Stream) : Device :=
  let r := d.record a
  (d.setRecord a (r.setCell s { r.cell s with room := true })).replan a

/-- A REJECT_CHECK counted (R57). -/
def Device.rejectCounted (d : Device) (a : Addr) (s : Stream) : Device :=
  let r := d.record a
  d.setRecord a (r.setCell s { r.cell s with rejects := min 3 ((r.cell s).rejects + 1) })

/-- The outcome of a reverification applied to a validator's stream (R57, R138). -/
def Device.reverified (d : Device) (a : Addr) (s : Stream) (confirmed : Bool) : Device :=
  let r := d.record a
  let c := r.cell s
  if confirmed then
    if c.rejects = 3 ∧ !c.hold then
      ((d.setRecord a (r.setCell s { c with hold := true })).raise .roster).replan a
    else d
  else d.setRecord a (r.setCell s { c with rejects := c.rejects - 1 })

/-- The outcome of a reverification reported for every address of a set (R18). -/
def Device.reverifiedAll (d : Device) (set : AddrSet) (s : Stream) (confirmed : Bool) : Device :=
  allAddrs.foldl (fun d a => if set.has a then d.reverified a s confirmed else d) d

/-! ## STATUS (R51 to R54) -/

/-- Whether a STATUS is accepted (R51). -/
def statusInRange (f : StatusFields) : Bool :=
  32 ≤ f.maxPayload.toNat && f.maxPayload.toNat ≤ 1024 && 1 ≤ f.openSlots.toNat && f.openSlots.toNat ≤ 4

/-- A record cleared of everything learned from the old unit (R53). -/
def ValRecord.unitCleared (r : ValRecord) : ValRecord :=
  let r := r.mapCells fun c => { c with held := 0, rejects := 0, hold := false, room := false }
  { r with
    activeFare := 0
    pendingFare := 0
    armedEdition := 0
    hotHighWater := 0
    hotEpochSeen := 0
    fareCapacity := 0
    blockCapacity := 0
    maxPayload := 0
    openSlots := 0
    hotCapacity := 0
    statusOwed := false
    noticePending := false
    hotStatus := .ok
    unitChanges := (r.unitChanges + 1) % 65536 }

/-- A unit change (R53, R154). -/
def Device.unitChanged (d : Device) (a : Addr) : Device :=
  let d := (d.dropAll a false).emptyPlan a
  ((d.setRecord a (d.record a).unitCleared).restartDone a).raise .roster

/-- A record filled from an accepted STATUS (R52); the hot epoch and high-water are HTQ's to decide (R154). -/
def ValRecord.filled (r : ValRecord) (f : StatusFields) : ValRecord :=
  let pending := f.pendingFare.toNat
  let active := f.activeFare.toNat
  let r := r.setHeld .blockT0 f.heldT0.toNat
  let r := r.setHeld .blockT1 f.heldT1.toNat
  let r := r.setHeld .blockT2 f.heldT2.toNat
  let r := r.setHeld .blockT3 f.heldT3.toNat
  let r := r.setHeld .fare (if pending ≠ 0 then pending else active)
  { r with
    serial := f.serial.toNat
    maxPayload := f.maxPayload.toNat
    openSlots := f.openSlots.toNat
    hotCapacity := f.hotCapacity.toNat
    fareCapacity := f.fareCapacity.toNat
    blockCapacity := f.blockCapacity.toNat
    activeFare := active
    pendingFare := pending
    armedEdition := if f.armed then pending else 0
    noticePending := f.noticePending
    statusOwed := false }

/-- Whether a field whose change brings a replan differs between two states of a record (R54). -/
def planFieldsDiffer (r q : ValRecord) : Bool :=
  (allStreams.any fun s => r.heldOf s != q.heldOf s) || r.activeFare != q.activeFare ||
    r.pendingFare != q.pendingFare || r.fareCapacity != q.fareCapacity || r.blockCapacity != q.blockCapacity ||
    r.maxPayload != q.maxPayload

/-- The room shortfalls that a STATUS clears (R54, R58): FARE's when the fare capacity changed, the BLOCK tiers' when the
block capacity changed. -/
def ValRecord.roomsCleared (r before : ValRecord) : ValRecord :=
  let r := if r.fareCapacity ≠ before.fareCapacity then r.setCell .fare { r.cell .fare with room := false } else r
  if r.blockCapacity ≠ before.blockCapacity then
    tierStreams.foldl (fun r s => r.setCell s { r.cell s with room := false }) r
  else r

/-- An accepted STATUS applied, in the order of R51. That an entry into PRESENT brings a replan at step 3 (R42, R46) and another at
step 5 (R54) is the model's choice (assumption log 54). -/
def Device.applyStatus (d : Device) (a : Addr) (f : StatusFields) : Device :=
  let before := d.record a
  let unit : Bool := before.serial ≠ 0 && f.serial.toNat ≠ before.serial
  let entered : Bool := before.presence == .absent || before.presence == .silent
  let d := if unit then d.unitChanged a else d
  let d := ((d.setRecord a ((d.record a).filled f)).replyTimed a).counted0 a
  let d := (if entered then d.enterPresent a else d).handOver (.rosterRewrite a)
  let d := d.setRecord a ((d.record a).roomsCleared before)
  let d := if entered || unit || before.statusOwed || planFieldsDiffer (d.record a) before then d.replan a else d
  let d :=
    if (d.record a).openSlots ≠ before.openSlots then d.openSlotsLowered a (d.record a).openSlots else d
  let d := ((d.hotStatusOnStatus a before).hotReported a f.hotEpoch.toNat f.hotHighWater.toNat).judgeRetirement
  let d := if unit then d.actUnitChange a else d
  d.fareReport a

/-! ## Notices (R59, R60) -/

/-- Whether a validator is owed a COLLECT (R59). -/
def Device.collectOwed (d : Device) (a : Addr) : Bool :=
  let r := d.record a
  r.presence == .present && r.noticePending && !r.cellFilled

/-- A valid NOTICE taken: its cell is handed to EXP (R60). -/
def Device.noticeTaken (d : Device) (a : Addr) (kind : Octet) (text : List Octet) : Device :=
  (d.setRecord a { d.record a with cellFilled := true, noticePending := false }).handOver (.noticeFill a kind text)

/-! ## Requests (R43 to R45) -/

/-- ENROL with the flag set, of an UNUSED record (R43). -/
def Device.enrolled (d : Device) (a : Addr) (weight : Nat) : Device :=
  let r := { ValRecord.reset with cellFilled := (d.record a).cellFilled, weight := weight, presence := .absent }
  ((d.setRecord a r).presenceChanged a .unused).reportExit

/-- ENROL with the flag clear, of an enrolled record (R43, R154). -/
def Device.unenrolled (d : Device) (a : Addr) : Device :=
  let old := (d.record a).presence
  let d := ((d.setRecord a { d.record a with presence := .unused }).voidExchange a .byRequest).presenceChanged a old
  (d.setRecord a { ValRecord.reset with cellFilled := (d.record a).cellFilled }).restartDone a

/-- EXCLUDE of a record that is neither UNUSED nor EXCLUDED (R44). -/
def Device.excluded (d : Device) (a : Addr) : Device :=
  let old := (d.record a).presence
  ((d.setRecord a { d.record a with presence := .excluded, statusOwed := false }).voidExchange a .byRequest)
    |>.presenceChanged a old

/-- Reject counts 0 and holds lifted on every stream of a record (R45). -/
def ValRecord.readmitted (r : ValRecord) : ValRecord :=
  r.mapCells fun c => { c with rejects := 0, hold := false }

/-- READMIT of a record in CLASH or EXCLUDED (R45). -/
def Device.readmittedToAbsent (d : Device) (a : Addr) : Device :=
  let old := (d.record a).presence
  let r := { (d.record a).madeAbsent.readmitted with misses := 0, contentions := 0 }
  (((d.setRecord a r).voidExchange a .byRequest).presenceChanged a old).reportExit

/-- READMIT of a record in ABSENT, PRESENT or SILENT (R45). -/
def Device.readmittedInPlace (d : Device) (a : Addr) : Device :=
  let r := d.record a
  let hadHold := allStreams.any fun s => (r.cell s).hold
  let d := d.setRecord a r.readmitted
  if hadHold then d.replan a else d

end Sys2Proof.Machine
end

