-- ==== Sys2Proof/Machine/Segment.lean ====
section
/-! DEFINITION. Reading a segment from host RAM through its gather list: the two walks of R6 and R7 with the checks of
R200, and the check value of R9. -/

namespace Sys2Proof.Machine

/-- A fragment record of a gather list (R6). -/
structure Fragment where
  address : Nat
  length : Nat
  last : Bool
  deriving DecidableEq, Repr

/-- The fragment record whose 16 octets begin at `a` (R6). -/
def readFragment (m : Ram) (a : Nat) : Fragment where
  address := m.field a 8
  length := m.field (a + 8) 4
  last := (m.octet (a + 12)).getLsbD 0

/-- Where fragment record `i` of a list is read from (R6). Past the end of the host address space it is a free value
(assumption log 3). -/
def recordAddress (gather i : Nat) : Nat :=
  if gather + 16 * i + 16 ≤ Config.hostSpace then gather + 16 * i else Config.gatherRecordPastEnd (gather + 16 * i)

/-- Whether a run of octets lies wholly outside the exchange area (R200). -/
def outsideArea (area a n : Nat) : Bool := !overlaps a n area Config.areaSize

/-- Whether a fragment may be read: its octets lie outside the exchange area and do not run past the end of the host
address space (R200). -/
def fragmentReadable (area : Nat) (f : Fragment) : Bool :=
  outsideArea area f.address f.length && f.address + f.length ≤ Config.hostSpace

/-- A fragment length in range (R6, R7). -/
def lengthInRange (n : Nat) : Bool := 1 ≤ n && n ≤ 65536

/-- How a walk ends short of the segment: a break of R7, or a bus error. -/
inductive WalkStop where
  | gatherBreak
  | busError
  deriving DecidableEq, Repr

/-- The Verifier's walk over the records from `i` on, `left` of them still to read, after records of total length
`total`: the rest of the segment's octets, or how the walk stops (R7, R200). -/
def verifierWalk (m : Ram) (bus : List HostRange) (area gather size : Nat) :
    (left i total : Nat) → Except WalkStop (List Octet)
  | 0, _, _ => .ok []
  | left + 1, i, total =>
    let a := recordAddress gather i
    if !outsideArea area a 16 then .error .gatherBreak
    else if busError bus a 16 then .error .busError
    else
      let f := readFragment m a
      let total := total + f.length
      if !lengthInRange f.length || size < total || (f.last && left ≠ 0) || (left = 0 && !f.last) ||
          (left = 0 && total < size) then .error .gatherBreak
      else if !fragmentReadable area f then .error .gatherBreak
      else if busError bus f.address f.length then .error .busError
      else
        match verifierWalk m bus area gather size left (i + 1) total with
        | .error e => .error e
        | .ok rest => .ok (m.octets f.address f.length ++ rest)

/-- XFR's walk for a CONT frame: the `need` octets of the segment from offset `offset`, over the records from `i` on,
`left` of them still to read, after records of total length `total`; or how the fetch stops (R7, R134, R200). Records
before the fragment that holds the offset are read for their lengths, and no octet of their fragments is; the conditions on
length and running total are applied to each record read, the last record's total being the size. -/
def fetchWalk (m : Ram) (bus : List HostRange) (area gather size : Nat) :
    (left i total offset need : Nat) → Except WalkStop (List Octet)
  | _, _, _, _, 0 => .ok []
  | 0, _, _, _, _ + 1 => .error .gatherBreak
  | left + 1, i, total, offset, need + 1 =>
    let a := recordAddress gather i
    if !outsideArea area a 16 then .error .gatherBreak
    else if busError bus a 16 then .error .busError
    else
      let f := readFragment m a
      let before := total
      let total := total + f.length
      if !lengthInRange f.length || size < total || (left = 0 && total < size) then .error .gatherBreak
      else if total ≤ offset then fetchWalk m bus area gather size left (i + 1) total offset (need + 1)
      else
        let here := min (need + 1) (total - offset)
        let start := f.address + (offset - before)
        if !fragmentReadable area f then .error .gatherBreak
        else if busError bus start here then .error .busError
        else
          match fetchWalk m bus area gather size left (i + 1) total (offset + here) (need + 1 - here) with
          | .error e => .error e
          | .ok rest => .ok (m.octets start here ++ rest)

/-- The sums S1 and S2 of R9 after the octets of a segment taken in pairs, low octet first, an odd last octet standing
alone. -/
def checkSums : List Octet → Nat → Nat → Nat × Nat
  | [], s1, s2 => (s1, s2)
  | [a], s1, s2 =>
    let s1 := (s1 + a.toNat) % 65535
    (s1, (s2 + s1) % 65535)
  | a :: b :: rest, s1, s2 =>
    let s1 := (s1 + (a.toNat + 256 * b.toNat)) % 65535
    checkSums rest s1 ((s2 + s1) % 65535)

/-- The check value of a segment's octets (R9). -/
def checkValue (octets : List Octet) : Word32 :=
  let s := checkSums octets 0 0
  BitVec.ofNat 32 (s.2 * 65536 + s.1)

/-- Results of a verification (R8, R10). -/
inductive Verification where
  | matched
  | mismatch
  | busError
  | gatherBreak
  deriving DecidableEq, Repr

/-- The result of reading an entry's segment whole (R7, R9, R10). -/
def verify (m : Ram) (bus : List HostRange) (area : Nat) (e : Entry) : Verification :=
  match verifierWalk m bus area e.gather e.size e.fragments 0 0 with
  | .error .gatherBreak => .gatherBreak
  | .error .busError => .busError
  | .ok octets => if checkValue octets = e.check then .matched else .mismatch

/-- The payload of a CONT frame: `n` octets of the entry's segment from an offset (R134). -/
def fetchPayload (m : Ram) (bus : List HostRange) (area : Nat) (e : Entry) (offset n : Nat) :
    Except WalkStop (List Octet) :=
  fetchWalk m bus area e.gather e.size e.fragments 0 0 offset n

end Sys2Proof.Machine
end

