-- ==== Sys2Proof/Machine/Reports.lean ====
section
/-! DEFINITION. What the Catalogue makes of the Verifier's results and of XFR's reports (R10, R16 to R19). -/

namespace Sys2Proof.Machine

/-- An entry becomes RETIRING with a fault cause, is reported to XFR for abandonment (R16), and is freed at once when no
record names it (R15, R18). -/
def Device.retire (d : Device) (i : CatIndex) (fault : FaultCause) (slot : Option Slot) : Device :=
  (d.setEntry i { d.entry i with state := .retiring, fault := fault, pendingSlot := slot, rejecters := AddrSet.empty }
    |>.markEntry i)

/-! ## Verification (R10, R18) -/

/-- The end of a first verification that fails: the entry FREE with a fault cause, the POST returned REFUSED (R10). -/
def Device.postFailed (d : Device) (i : CatIndex) (fault : FaultCause) (outcome : SlotOutcome) : Device :=
  let slot := (d.entry i).pendingSlot
  let d := d.freeEntry i fault
  match slot with
  | some slot => d.giveBack slot .refused outcome 0
  | none => d

/-- The end of a first verification that matches: the entry READY, the POST returned POSTED with the handle, every
validator replanned (R3, R10). -/
def Device.postVerified (d : Device) (i : CatIndex) : Device :=
  let e := d.entry i
  let d := (d.setEntry i { e with state := .ready, pendingSlot := none }).replanAll
  match e.pendingSlot with
  | some slot => d.giveBack slot .posted .posted (handle i e.generation)
  | none => d

/-- The end of the verification of an entry in VERIFYING (R10). -/
def Device.firstVerified (d : Device) (i : CatIndex) : Verification → Device
  | .matched => d.postVerified i
  | .mismatch => d.postFailed i .checkMismatch .checkMismatch
  | .busError => d.postFailed i .fetchFault .fetchFault
  | .gatherBreak => d.postFailed i .checkMismatch .badGather

/-- A reverification that fails: the entry RETIRING, its rejecters not confirmed (R18). -/
def Device.reverifyFailed (d : Device) (i : CatIndex) (fault : FaultCause) : Device :=
  let e := d.entry i
  let d := d.reverifiedAll e.rejecters e.stream false
  let d := d.setEntry i { e with state := .retiring, fault := fault, rejecters := AddrSet.empty }
  (d.raise .catalogue).freeIfRetired i

/-- A reverification that matches: its rejecters are confirmed while the entry is REVERIFYING still, then the set is emptied and the
entry READY, which is reported to PLN (R3, R18). -/
def Device.reverifyPassed (d : Device) (i : CatIndex) : Device :=
  let d := d.reverifiedAll (d.entry i).rejecters (d.entry i).stream true
  let d := d.setEntry i { d.entry i with state := .ready, rejecters := AddrSet.empty }
  d.replanAll.raise .catalogue

/-- The end of the verification of an entry in REVERIFYING (R18). -/
def Device.reverifyEnded (d : Device) (i : CatIndex) : Verification → Device
  | .matched => d.reverifyPassed i
  | .mismatch => d.reverifyFailed i .checkMismatch
  | .gatherBreak => d.reverifyFailed i .checkMismatch
  | .busError => d.reverifyFailed i .fetchFault

/-! ## Reports from XFR -/

/-- A VERDICT of REJECT_CHECK from a validator, the entry having been in a state when the verdict came (R17). -/
def Device.rejectReported (d : Device) (i : CatIndex) (a : Addr) (stream : Stream) : EntryState → Device
  | .ready =>
    let d := d.setEntry i { d.entry i with state := .reverifying, rejecters := AddrSet.empty.insert a }
    let d := { d with vfy.queue := d.vfy.queue ++ [i] }
    ((d.markEntry i).replanAll).raise .catalogue
  | .reverifying => d.setEntry i { d.entry i with rejecters := (d.entry i).rejecters.insert a }
  | .retiring => d.reverified a stream false
  | .free | .verifying => d

/-- A fetch fault met while a CONT frame was fetched (R19). -/
def Device.fetchFaultReported (d : Device) (i : CatIndex) : Device :=
  let e := d.entry i
  match e.state with
  | .ready => ((d.retire i .fetchFault none).replanAll).raise .catalogue
  | .reverifying =>
    let d := (d.unqueue i).reverifiedAll e.rejecters e.stream false
    (d.retire i .fetchFault none).raise .catalogue
  | .free | .verifying | .retiring => d

end Sys2Proof.Machine
end

