-- ==== Sys2Proof/Machine/Line.lean ====
section
/-! DEFINITION. The Line Controller: cycles, QUIET and IDLE (R109 to R112, R118 to R124), and the beginning and end of
exchanges (R86, R98, R101, R103, R114). -/

namespace Sys2Proof.Machine

/-! ## Ending an exchange -/

/-- The exchange in flight becomes absent, its timers stopped (R98). -/
def Device.clearExchange (d : Device) : Device :=
  { d with lnc.exchange := none, lnc.replyTimer := none, lnc.deferral := none }

/-- Offset sent of the record of a CONT burst goes back to offset acknowledged (R130, R145). -/
def Device.burstBack (d : Device) (e : Exchange) : Device :=
  match e.dest with
  | some a => if e.kind = .cont then d.changeRecord a e.tag (·.goBack) else d
  | none => d

/-- The exchange in flight ended without an outcome (R103, R145); a broadcast so cut becomes MADE (R170). -/
def Device.cutExchange (d : Device) : Device :=
  match d.lnc.exchange with
  | none => d
  | some e =>
    let d := d.clearExchange.burstBack e
    if e.kind = .commitAll then d.broadcastMade else d

/-- The line enters IDLE, with the exchange in flight ended without outcome (R109, R121). -/
def Device.lineToIdle (d : Device) : Device :=
  { d.cutExchange with lnc.line := .idle, lnc.idleCount := 0, lnc.keepaliveTimer := none, lnc.guardTimer := none }

/-- In STOPPING the line enters IDLE once no exchange is in flight (R109, R121). -/
def Device.idleIfStopping (d : Device) : Device :=
  if d.port.device = .stopping ∧ d.lnc.exchange = none then d.lineToIdle else d

/-! ## Cycles -/

/-- The probe count of a cycle (R112). -/
def nextProbe (count interval : Nat) (fresh : Bool) : Nat :=
  if fresh || interval ≤ count + 1 then 0 else count + 1

/-- A record as a scan cycle begins: a reply time that changed in the cycle before it, and is not shown, is not handed over for
that at the new cycle's end (R61). -/
def ValRecord.cycleOver (r : ValRecord) : ValRecord :=
  { r with replyTime := if r.replyTime = .changedInCycle then .changedBefore else r.replyTime }

/-- Every record as a scan cycle begins. -/
def Device.cycleOver (d : Device) : Device := { d with ros.records := d.ros.records.map ValRecord.cycleOver }

/-- A cycle begins (R110, R124), `fresh` when it begins on leaving IDLE or QUIET. -/
def Device.cycleStart (d : Device) (fresh : Bool) : Device :=
  let old := d.lnc.config
  let new := d.lnc.pendingConfig.getD old
  let d := { d with
    lnc.config := new
    lnc.pendingConfig := none
    lnc.line := .cycle
    lnc.keepaliveTimer := none
    lnc.guardTimer := none }
  let d := if new.payloadLimit ≠ old.payloadLimit ∨ new.burst ≠ old.burst then d.replanAll else d
  let d := allAddrs.foldl (fun d a => d.judgeSilence a) d
  let d := d.cycleOver
  { d with
    lnc.probeCount := nextProbe d.lnc.probeCount new.probeInterval (fresh || new.probeInterval != old.probeInterval)
    lnc.cycleTimer := 0
    lnc.heldOver := AddrSet.empty
    lnc.turn := none
    lnc.grantMade := false
    lnc.rollPosition := 0
    lnc.phase := .rollCall }

/-- The line leaves IDLE when the device is RUNNING with line enable set (R109). -/
def Device.lineMayStart (d : Device) : Device :=
  if d.port.device = .running ∧ d.port.lineEnable ∧ d.lnc.line = .idle then d.cycleStart true else d

/-- Whether some record is SILENT. -/
def Device.someSilent (d : Device) : Bool := allAddrs.any fun a => (d.record a).presence == .silent

/-- The line in QUIET judges ATTN#: an attention event is taken when it is low (R106, R119, R122). -/
def Device.judgeAttention (d : Device) (attnLow : Bool) : Device :=
  let d := { d with lnc.attnLow := attnLow }
  if attnLow then d.cycleStart true else d

/-- The mirror records whose last valid reply time changed in the cycle are handed over at its end (R61, R118 step 1). One that has
been rewritten for another cause since the change is not, which is the model's reading of R61 (assumption log 55). -/
def Device.handReplyTimes (d : Device) : Device :=
  allAddrs.foldl
    (fun d a => if (d.record a).replyTime = .changedInCycle then d.handOver (.rosterRewrite a) else d) d

/-- QUIET entered or the next cycle begun at a cycle's end (R118, R119). The idle-cycle count is held at 32, the top of the range
that R108 gives it, which with quiet entry 0 is the model's choice (assumption log 48). -/
def Device.judgeQuiet (d : Device) (attnLow : Bool) : Device :=
  let c := d.lnc.config
  let n := if !d.lnc.grantMade && !d.someSilent then min 32 (d.lnc.idleCount + 1) else 0
  if c.quietEntry ≠ 0 ∧ c.quietEntry ≤ n then
    { d with
      lnc.line := .quiet
      lnc.idleCount := 0
      lnc.keepaliveTimer := some (c.keepalive * 1000000) }.judgeAttention attnLow
  else { d with lnc.idleCount := n }.cycleStart false

/-! ## Beginning an exchange -/

/-- The deferral of a frame that would begin now: absent when the line is free, else the octet-times of the longest frame
(R86). -/
def Device.deferralFor (d : Device) (free : Bool) : Option Nat :=
  if free then none else some (Config.deferralOctets * d.lnc.config.octetMicros)

/-- An exchange begins in SENDING with its first frame (R98). -/
def Device.beginExchange (d : Device) (free : Bool) (dest : Option Addr) (kind : ExchangeKind) (tag framesLeft : Nat)
    (frame : List Octet) : Device :=
  { d with
    lnc.exchange := some
      { dest, kind, tag, owner := kind.owner, framesLeft, phase := .sending, frame, voided := .no, actStale := false }
    lnc.deferral := d.deferralFor free }

/-- An exchange of one frame to a validator, a reply wanted (R89, R98). -/
def Device.beginOne (d : Device) (free : Bool) (a : Addr) (kind : ExchangeKind) (tag offset : Nat)
    (payload : List Octet) : Device :=
  d.beginExchange free (some a) kind tag 0 (partFrame (some a) kind tag offset true payload)

/-- A POLL begins (R90). -/
def Device.beginPoll (d : Device) (free : Bool) (a : Addr) : Device := d.beginOne free a .poll 0 0 []

/-! ## The outcome of an exchange at ROS and at the arbiter (R101, R114) -/

/-- How an exchange with a reply asked ended, as LNC reports it to ROS (R47, R101): a clean valid reply, a valid reply that
also counts as a miss, a miss, a miss with contention; or nothing to report. -/
inductive Ending where
  | clean
  | counted
  | miss
  | contention
  | unreported
  deriving DecidableEq, Repr

/-- The address is held over, and its turn ends (R114, R115); so does a turn in progress when the exchange was none of the turn's,
which is the model's choice (assumption log 46). -/
def Device.holdOver (d : Device) (a : Addr) : Device := d.leftPresent a

/-- What an ending brings at ROS, and then at the arbiter: a miss of any kind or a NAK BUSY holds the address over
(R101, R114). -/
def Device.reportEnding (d : Device) (a : Addr) (busy : Bool) : Ending → Device
  | .clean => if busy then (d.validReply a true).holdOver a else d.validReply a true
  | .counted => (d.validReply a false).holdOver a
  | .miss => (d.miss a).holdOver a
  | .contention => (d.contended a).holdOver a
  | .unreported => d

/-- Whether the outcome of an exchange to an address is discarded: a request has changed the record's presence (R50), or
the record is UNUSED, in CLASH or EXCLUDED (R51). -/
def Device.outcomeVoid (d : Device) (e : Exchange) (a : Addr) : Bool :=
  e.voided == .byRequest || (d.record a).presence == .unused || (d.record a).presence == .clash ||
    (d.record a).presence == .excluded

end Sys2Proof.Machine
end

