-- ==== Sys2Proof/Machine/Arbiter.lean ====
section
/-! DEFINITION. The Line Arbiter: roll call (R111), the grant order (R113), status owed in place of an exchange (R114), turns
(R115), estimates and fit (R116, R117), and the frames of the exchanges granted (R91 to R95, R132, R134, R156). -/

namespace Sys2Proof.Machine

/-! ## Roll call (R111) -/

/-- Whether a presence is polled in roll call, in a probe cycle or not (R111). -/
def polled (probe : Bool) : Presence → Bool
  | .present | .silent => true
  | .absent => probe
  | .unused | .clash | .excluded => false

/-- The next address of the roll call (R111). -/
def Device.nextPolled (d : Device) : Option Addr :=
  allAddrs.find? fun a => d.lnc.rollPosition < a.number && polled (d.lnc.probeCount = 0) (d.record a).presence

/-! ## Fit (R116, R117) -/

/-- The time left in the cycle, µs (R117). -/
def Device.timeLeft (d : Device) : Nat := d.lnc.config.cycleLength * 1000 - d.lnc.cycleTimer

/-- Whether an estimate in octet-times fits the time left (R117). -/
def Device.fits (d : Device) (estimate : Nat) : Bool := estimate * d.lnc.config.octetMicros ≤ d.timeLeft

/-- The largest number from `n` down to 1 that a test accepts, 0 when none is. -/
def largest (ok : Nat → Bool) : Nat → Nat
  | 0 => 0
  | n + 1 => if ok (n + 1) then n + 1 else largest ok n

/-- The sum of 10 + payload over the first `k` frames of a segment's rest, in frames of at most P octets (R116). -/
def burstOctets (rest payload : Nat) : Nat → Nat
  | 0 => 0
  | k + 1 => burstOctets rest payload k + (10 + min payload (rest - k * payload))

/-- The estimate of a CONT burst of `k` frames (R116). -/
def burstEstimate (rest payload k : Nat) : Nat := burstOctets rest payload k + 14

/-- The frames of the CONT burst to be granted for a record, 0 when not even one fits (R117). -/
def Device.burstFrames (d : Device) (a : Addr) (r : TransferRecord) : Nat :=
  let rest := r.size - r.sent
  let p := d.payload a
  largest (fun k => d.fits (burstEstimate rest p k)) (min d.lnc.config.burst (ceilDiv rest p))

/-- The most entries a HOT may carry by the time left, 0 when not even one fits (R117). -/
def Device.hotEntriesFitting (d : Device) : Nat := largest (fun e => d.fits (29 + 12 * e)) 8

/-! ## What a grant does -/

/-- What the arbiter makes of an exchange chosen: the part as the grant leaves it, or the phase CLOSED (R117). -/
def Device.closePhase (d : Device) : Device := { d with lnc.phase := .closed, lnc.turn := none }

/-- A grant of the transfer phase is noted (R113). -/
def Device.noteGrant (d : Device) : Device := { d with lnc.grantMade := true }

/-- An exchange granted if its estimate fits, the phase closed if not (R117). -/
def Device.grantIfFits (d : Device) (estimate : Nat) (granted : Device → Device) : Device :=
  if d.fits estimate then granted d.noteGrant else d.closePhase

/-- The estimate of a POLL (R116). -/
def pollEstimate : Nat := 56

/-- The exchange of a kind to a validator, or a POLL in its place when status is owed (R114). -/
def Device.orPoll (d : Device) (free : Bool) (a : Addr) (exchange : Device) : Device :=
  if (d.record a).statusOwed then d.grantIfFits pollEstimate fun d => d.beginPoll free a else exchange

/-- Whether an address may be granted kinds 2 to 5 (R113, R114). -/
def Device.notHeldOver (d : Device) (a : Addr) : Bool := !d.lnc.heldOver.has a

/-! ### Kind 1 (R113, R170) -/

/-- The three COMMIT frames to ALL granted, the first begun (R95, R170). -/
def Device.grantBroadcast (d : Device) (free : Bool) : Device :=
  d.grantIfFits 36 fun d =>
    d.beginExchange free none .commitAll 0 2
      (partFrame none .commitAll 0 0 false (commitPayload d.act.edition))

/-! ### Kind 2 (R156) -/

/-- A HOT with at most `e` entries begun (R94, R156). -/
def Device.beginHot (d : Device) (free : Bool) (a : Addr) (e : Nat) : Device :=
  let entries := d.hotFrameEntries a e
  let restart := d.htq.restartOwed.has a
  let first := (entries.head?.map (·.sequence)).getD 0
  let last := (entries.getLast?.map (·.sequence)).getD 0
  d.beginOne free a (.hot first last restart) 0 0 (hotPayload (d.htq.epoch.getD 0) restart entries)

/-- A HOT granted (R114, R117). -/
def Device.grantHot (d : Device) (free : Bool) (a : Addr) : Device :=
  d.orPoll free a
    (if d.hotEntriesFitting = 0 then d.closePhase else d.noteGrant.beginHot free a d.hotEntriesFitting)

/-! ### Kinds 3 and 4 -/

/-- An addressed ACT exchange granted (R95, R113, R168 to R172). -/
def Device.grantAct (d : Device) (free : Bool) (a : Addr) (x : ActExchange) : Device :=
  d.orPoll free a
    (match x with
     | .disarm => d.grantIfFits 30 fun d => d.beginOne free a .disarm 0 0 (armPayload 0 0)
     | .arm => d.grantIfFits 30 fun d => d.beginOne free a .arm 0 0 (armPayload d.act.edition d.act.activation)
     | .confirmPoll => d.grantIfFits pollEstimate fun d => d.beginPoll free a
     | .commit => d.grantIfFits 26 fun d => d.beginOne free a .commit 0 0 (commitPayload d.act.edition))

/-- A COLLECT granted (R113). -/
def Device.grantCollect (d : Device) (free : Bool) (a : Addr) : Device :=
  d.orPoll free a (d.grantIfFits 73 fun d => d.beginOne free a .collect 0 0 [])

/-! ### Kind 5: CONT frames (R92, R134, R135) -/

/-- A fetch fault in the burst of a record: the exchange ends without an outcome, offset sent goes back, the fault is
reported to CAT and the record is marked (R103, R135). -/
def Device.fetchFaulted (d : Device) (a : Addr) (tag : Nat) (i : CatIndex) : Device :=
  let d := d.clearExchange.changeRecord a tag (·.goBack)
  (d.fetchFaultReported i).markRecords a (·.tag == tag)

/-- One CONT frame of a record built and begun, `left` frames of the burst following it unless the segment ends sooner; or
the fetch fault that prevents it (R134, R135). -/
def Device.beginCont (d : Device) (m : Ram) (bus : List HostRange) (free : Bool) (a : Addr) (r : TransferRecord)
    (left : Nat) : Device :=
  let n := min (d.payload a) (r.size - r.sent)
  let last := left = 0 ∨ r.sent + n = r.size
  match fetchPayload m bus d.areaBase (d.entry r.index) r.sent n with
  | .error _ => d.fetchFaulted a r.tag r.index
  | .ok payload =>
    let d := d.changeRecord a r.tag fun q => { q with sent := r.sent + n }
    d.beginExchange free (some a) .cont r.tag (if last then 0 else left)
      (partFrame (some a) .cont r.tag r.sent last payload)

/-! ### Kind 5: the exchange of a turn (R129, R130) -/

/-- The next exchange of a record made active, by its phase (R130). The arrangement of records belongs to the grant. -/
def Device.grantRecord (d : Device) (m : Ram) (bus : List HostRange) (free : Bool) (a : Addr) (o : Offer)
    (r : TransferRecord) : Device :=
  match r.phase with
  | .opening =>
    d.grantIfFits 40 fun d =>
      let hold := d.holdFlag r.stream
      let d := (d.makeOffer a o).changeRecord a r.tag fun q => { q with holdSent := hold }
      d.beginOne free a .openSegment r.tag (flagNat hold) (openPayload (d.entry r.index))
  | .sending =>
    let k := d.burstFrames a r
    if k = 0 then d.closePhase else (d.noteGrant.makeOffer a o).beginCont m bus free a r (k - 1)
  | .sealing | .storing =>
    d.grantIfFits 28 fun d => (d.makeOffer a o).beginOne free a .seal r.tag r.size []

/-- The exchange XFR offers, granted (R93, R129, R130). -/
def Device.grantOffer (d : Device) (m : Ram) (bus : List HostRange) (free : Bool) (a : Addr) (o : Offer) : Device :=
  match o with
  | .abandonAll => d.grantIfFits 24 fun d => d.beginOne free a .abandonAll 0 1 []
  | .abandon r => d.grantIfFits 24 fun d => d.beginOne free a .abandon r.tag 0 []
  | .drop s => d.grantIfFits 25 fun d => d.beginOne free a (.drop s) 0 0 [BitVec.ofNat 8 s.code.val]
  | .next _ _ r => d.grantRecord m bus free a o r

/-! ### Kind 5: turns (R115) -/

/-- Whether an address may have a turn: PRESENT, not held over, with transfer work (R115). -/
def Device.mayTurn (d : Device) (a : Addr) : Bool :=
  (d.record a).presence == .present && d.notHeldOver a && (d.offer a).isSome

/-- The addresses in ascending order from the one after the round-robin pointer, wrapping from 12 to 1 (R115). -/
def Device.turnOrder (d : Device) : List Addr :=
  allAddrs.filter (fun a => d.lnc.pointer < a.number) ++ allAddrs.filter (fun a => a.number ≤ d.lnc.pointer)

/-- The turn in progress with its exchanges left, or a new turn begun, which moves the pointer; none when kind 5 has
nothing owed (R115; assumption log 23). A turn whose address has no transfer work left ends here, when a grant reaches kind 5,
and not before: it stands through grants of kinds 1 to 4, which is the model's choice (assumption log 49). -/
def Device.turnBegun (d : Device) : Option (Device × Addr) :=
  let fresh : Option (Device × Addr) :=
    (d.turnOrder.find? d.mayTurn).map fun a =>
      ({ d with lnc.pointer := Addr.number a, lnc.turn := some (a, (d.record a).weight) }, a)
  match d.lnc.turn with
  | some (a, _) => if d.mayTurn a then some (d, a) else fresh
  | none => fresh

/-- One exchange of the turn has been granted (R115). -/
def turnLowered : Option (Addr × Nat) → Option (Addr × Nat)
  | some (a, n) => if n ≤ 1 then none else some (a, n - 1)
  | none => none

/-- The turn's next exchange granted, which lowers its exchanges left (R115). -/
def Device.grantTurn (d : Device) (m : Ram) (bus : List HostRange) (free : Bool) (a : Addr) : Device :=
  match d.offer a with
  | none => d
  | some o =>
    let lowered := { d with lnc.turn := turnLowered d.lnc.turn }
    let granted := lowered.orPoll free a (lowered.grantOffer m bus free a o)
    granted

/-! ## The grant order (R113) -/

/-- The first kind for which an exchange is owed decides the grant (R113). -/
def Device.grant (d : Device) (m : Ram) (bus : List HostRange) (free : Bool) : Device :=
  if d.broadcastOwed then d.grantBroadcast free
  else
    match allAddrs.find? fun a => d.notHeldOver a && d.hotOwed a with
    | some a => d.grantHot free a
    | none =>
      match allAddrs.find? fun a => d.notHeldOver a && (d.actOwed a).isSome with
      | some a =>
        match d.actOwed a with
        | some x => d.grantAct free a x
        | none => d
      | none =>
        match allAddrs.find? fun a => d.notHeldOver a && d.collectOwed a with
        | some a => d.grantCollect free a
        | none =>
          match d.turnBegun with
          | some (d, a) => d.grantTurn m bus free a
          | none => { d with lnc.turn := none }

end Sys2Proof.Machine
end

