-- ==== Sys2Proof/Machine/Port.lean ====
section
/-! DEFINITION. The Exchange Port: accesses to the exchange area one by one, so that any of them can fault (R195); mirror
writes (R188), returns (R186, R187), notice fills (R60) and header fields (R181); entry into STOPPING and HALTED (R194, R195);
and how every command is concluded. -/

namespace Sys2Proof.Machine

/-! ## Accesses -/

/-- The bus towards the exchange area while a command acts: sound, failing at the access after `n` more, or failed. -/
inductive AreaBus where
  | sound
  | failsAfter (n : Nat)
  | failed
  deriving DecidableEq, Repr

/-- The machine in the middle of a command, with the bus towards the area. -/
structure Run where
  state : State
  bus : AreaBus
  deriving DecidableEq, Repr

/-- No access has faulted yet. -/
def Run.alive (r : Run) : Bool := r.bus != .failed

/-- One access to the area, with what it does when it does not fault (R195). -/
def Run.access (r : Run) (f : State → State) : Run :=
  match r.bus with
  | .sound => { r with state := f r.state }
  | .failsAfter 0 => { r with bus := .failed }
  | .failsAfter (n + 1) => { state := f r.state, bus := .failsAfter n }
  | .failed => r

/-- A change inside the part that follows an access, made when that access did not fault. -/
def Run.inside (r : Run) (f : Device → Device) : Run :=
  if r.alive then { r with state := { r.state with dev := f r.state.dev } } else r

/-- A change inside the part made whether or not an access has faulted. -/
def Run.always (r : Run) (f : Device → Device) : Run :=
  { r with state := { r.state with dev := f r.state.dev } }

/-- A write of octets at an offset of the area. -/
def Run.write (r : Run) (offset : Nat) (octets : List Octet) : Run :=
  r.access fun s => { s with ram := s.ram.write (s.dev.areaBase + offset) octets }

/-- A read of the area: what it reads is taken from host RAM where it is used. -/
def Run.read (r : Run) : Run := r.access fun s => s

/-- Whether blocks' publications are written: the area is accessed in RUNNING and STOPPING, and in STARTING by its own
steps (R180). -/
def Device.areaOpen (d : Device) : Bool := d.port.device == .running || d.port.device == .stopping

/-! ## Header fields (R181, R198) -/

/-- The device state copy written. -/
def Run.writeState (r : Run) : Run := r.write 24 [num r.state.dev.port.device.code]

/-- The seen count written. -/
def Run.writeSeen (r : Run) : Run := r.write 16 (leOctets 4 r.state.dev.port.seenCount.toNat)

/-- The device count written. -/
def Run.writeDeviceCount (r : Run) : Run := r.write 20 (leOctets 4 r.state.dev.port.deviceCount.toNat)

/-- The fleet clock copy written (R164, R181): clock-valid, then the seconds by a second access, which is the model's choice
(assumption log 43). -/
def Run.writeClock (r : Run) : Run :=
  (r.write 25 [flagOctet r.state.dev.fck.valid]).write 28 (leOctets 4 r.state.dev.fck.seconds.toNat)

/-- The hot summary written, in one bus write (R188). -/
def Run.writeSummary (r : Run) : Run := r.write 32 (hotSummary r.state.dev.htq)

/-! ## Mirror records (R188) -/

/-- A catalogue mirror record written: its body, then its update count stepped and written. -/
def Run.writeCat (r : Run) (i : CatIndex) : Run :=
  let r := r.write (catOffset i + 4) (catBody (r.state.dev.entry i))
  let r := r.inside fun d => { d with port.catCounts := d.port.catCounts.set i (d.port.catCounts[i] + 1) }
  r.write (catOffset i) (leOctets 4 (r.state.dev.port.catCounts[i]).toNat)

/-- A roster mirror record written: its body, which shows the last valid reply time, then its update count stepped and
written (R61). -/
def Run.writeRos (r : Run) (a : Addr) : Run :=
  let r := r.write (rosOffset a + 4) (rosBody (r.state.dev.record a))
  let r := r.inside fun d =>
    let d := d.putRecord a { d.record a with replyTime := .shown }
    { d with port.rosCounts := d.port.rosCounts.set a (d.port.rosCounts[a] + 1) }
  r.write (rosOffset a) (leOctets 4 (r.state.dev.port.rosCounts[a]).toNat)

/-- The coordinator record written: its body, then its update count stepped and written. -/
def Run.writeCoord (r : Run) : Run :=
  let r := r.write (coordOffset + 4) (coordBody r.state.dev.act)
  let r := r.inside fun d => { d with port.coordCount := d.port.coordCount + 1 }
  r.write coordOffset (leOctets 4 r.state.dev.port.coordCount.toNat)

/-- Whether a mirror is to be written at the end of a command: its block has handed it over, be it for a change that a later one
has undone, or what it shows differs from what it showed before (R188; assumption log 12). -/
def mirrorDue {α : Type} [BEq α] (out : List Publication) (p : Publication) (before after : α) : Bool :=
  out.contains p || before != after

/-- Whether a catalogue mirror record is to be rewritten (R20). -/
def catDirty (before after : Device) (out : List Publication) (i : CatIndex) : Bool :=
  mirrorDue out (.catRewrite i) (before.entry i).shown (after.entry i).shown

/-- Whether a roster mirror record is to be rewritten: a field of it other than the last valid reply time has changed, or
an accepted STATUS or the cycle's end has handed it over (R51, R61). -/
def rosDirty (before after : Device) (out : List Publication) (a : Addr) : Bool :=
  mirrorDue out (.rosterRewrite a) (before.record a).shown (after.record a).shown

/-- The mirror records and the hot summary that a command has changed, written (R20, R61, R161, R177, R188): the catalogue
records by index, the roster records by address, the coordinator record, the hot summary, an order that is the model's
(assumption log 13). -/
def Run.writeMirrors (r : Run) (before : Device) (out : List Publication) : Run :=
  let after := r.state.dev
  let r := (allIndices.filter (catDirty before after out)).foldl Run.writeCat r
  let r := (allAddrs.filter (rosDirty before after out)).foldl Run.writeRos r
  let r := if mirrorDue out .coordRewrite (coordBody before.act) (coordBody after.act) then r.writeCoord else r
  if mirrorDue out .summaryRewrite (hotSummary before.htq) (hotSummary after.htq) then r.writeSummary else r

/-! ## Returns (R186, R187) and notice fills (R60) -/

/-- A slot is no longer held. -/
def Device.release (d : Device) (slot : Slot) : Device := { d with port.held := d.port.held.set slot none }

/-- The device count stepped (R181). -/
def Device.stepDeviceCount (d : Device) : Device := { d with port.deviceCount := d.port.deviceCount + 1 }

/-- A return joins the returns owed list (R187). -/
def Device.oweReturn (d : Device) (ret : Return) : Device :=
  { d with port.returnsOwed := d.port.returnsOwed ++ [ret] }

/-- Steps 2 to 5 of a return; a fault at any of them ends it, and the slot is no longer held (R186). -/
def Run.returnSlot (r : Run) (ret : Return) : Run :=
  let r := r.write (slotOffset ret.slot + 1) (returnBody ret)
  let r := r.write (slotOffset ret.slot) [0]
  let r := (r.inside Device.stepDeviceCount).writeDeviceCount
  (r.inside (·.raise .slot)).always (·.release ret.slot)

/-- The cell of an address taken as FREE, its validator keeping its message (R60). -/
def Device.noticeKept (d : Device) (a : Addr) : Device :=
  d.putRecord a { d.record a with cellFilled := false, noticePending := true }

/-- A notice cell filled (R60). -/
def Run.fillNotice (r : Run) (a : Addr) (kind : Octet) (text : List Octet) : Run :=
  let r := (r.write (cellOffset a + 1) (cellBody kind text)).write (cellOffset a) [0]
  if r.alive then ((r.inside Device.stepDeviceCount).writeDeviceCount).inside (·.raise .notice)
  else r.always (·.noticeKept a)

/-- One thing handed to EXP, carried out while no access has faulted; mirrors have been written before (R186). -/
def Run.carryOut (r : Run) : Publication → Run
  | .slotReturn ret => r.returnSlot ret
  | .noticeFill a kind text => r.fillNotice a kind text
  | .catRewrite _ | .rosterRewrite _ | .coordRewrite | .summaryRewrite => r
  | .clockCopy => r.writeClock
  | .stateCopy => r.writeState

/-- One thing handed to EXP that can no longer be written: a return joins the returns owed list, a cell is taken as FREE,
and a copy is dropped (R187, R188, R195). -/
def Device.leave (d : Device) : Publication → Device
  | .slotReturn ret => d.oweReturn ret
  | .noticeFill a _ _ => d.noticeKept a
  | .catRewrite _ | .rosterRewrite _ | .coordRewrite | .summaryRewrite | .clockCopy | .stateCopy => d

/-- The returns of a list of publications lose their first: a fault at step 1 of a return ends that return (R186). -/
def Device.loseFirst (d : Device) : List Publication → Device
  | [] => d
  | .slotReturn ret :: rest => rest.foldl Device.leave (d.release ret.slot)
  | p :: rest => (d.leave p).loseFirst rest

/-- The publications carried out in their order; once one has faulted, those after it are left. -/
def Run.carryOutAll (r : Run) : List Publication → Run
  | [] => r
  | p :: rest => if r.alive then (r.carryOut p).carryOutAll rest else r.always fun d => rest.foldl Device.leave (d.leave p)

/-- What the blocks have handed to EXP since `before` is published: mirrors first, then the rest in its order; while the
area is not accessed, returns join the returns owed list (R186 to R188). That the fleet clock copy, too, comes after the mirrors is
the model's choice (assumption log 50). -/
def Run.publish (r : Run) (before : Device) : Run :=
  let out := r.state.dev.outbox
  let wasAlive := r.alive
  let r := r.always fun d => { d with outbox := [] }
  if r.state.dev.areaOpen && wasAlive then
    let r := r.writeMirrors before out
    if r.alive then r.carryOutAll out else r.always (·.loseFirst out)
  else r.always fun d => out.foldl Device.leave d

/-! ## Exit events (R120, R165) -/

/-- An exit event takes the line out of QUIET into a cycle, and is remembered in a RECOVER entered from QUIET; in any other
line state it has no effect (R120). -/
def Device.takeExit (d : Device) (before : Device) : Device :=
  let taken := d.exitEvent || newActWork before d
  let d :=
    match d.lnc.line with
    | .quiet => if taken then d.cycleStart true else d
    | .recoverQuiet e => { d with lnc.line := .recoverQuiet (e || taken) }
    | .idle | .cycle | .recoverCycle => d
  { d with exitEvent := false }

/-- What a command has changed since `before` is settled: exit events, then publication. -/
def Run.settle (r : Run) (before : Device) : Run := (r.always (·.takeExit before)).publish before

/-! ## Entry into HALTED (R195) -/

/-- The sweep timer stopped, both sweep flags cleared and the sweep in progress ended, on leaving RUNNING (R182). -/
def Device.stopSweeps (d : Device) : Device :=
  { d with
    port.sweepTimer := none
    port.sweepInProgress := false
    port.promptOwed := false
    port.sweepOwed := false }

/-- An entry of the verify queue at HALTED: one in VERIFYING becomes FREE, its POST slot no longer held and left TAKEN
(R12). -/
def Device.abandonFirst (d : Device) (i : CatIndex) : Device :=
  let e := d.entry i
  if e.state = .verifying then
    let d := d.freeEntry i .none
    match e.pendingSlot with
    | some slot => d.release slot
    | none => d
  else d

/-- The Verifier at HALTED: the verification in flight abandoned, VERIFYING entries freed, REVERIFYING entries kept in the
queue in their order (R12). -/
def Device.haltVerifier (d : Device) : Device :=
  let queue := d.vfy.queue
  let kept := queue.filter fun i => (d.entry i).state != .verifying
  { queue.foldl Device.abandonFirst d with vfy := { queue := kept, inFlight := false } }

/-- The device enters HALTED (R195). -/
def Device.enterHalted (d : Device) : Device :=
  let d := (({ d with port.device := .halted }.stopSweeps).lineToIdle).haltVerifier.raise .area
  { d.outbox.foldl Device.leave d with outbox := [], exitEvent := false }

/-! ## Concluding a command -/

/-- The end of a command: HALTED entered when an access has faulted, and the interrupt line judged (R191, R195). -/
def Run.finish (r : Run) : State :=
  let d := if r.alive then r.state.dev else r.state.dev.enterHalted
  { r.state with dev := d.judgeInterrupt }

/-- A command that is one change inside the part, with what follows from it. -/
def State.act (s : State) (bus : AreaBus) (f : Device → Device) : State :=
  (({ state := { s with dev := f s.dev }, bus } : Run).settle s.dev).finish

/-! ## Sweeps begun (R182), entry into STOPPING (R194) -/

/-- A sweep begins: the timer restarts (R182). -/
def Device.beginSweep (d : Device) : Device :=
  { d with port.sweepInProgress := true, port.sweepTimer := some (d.port.sweepInterval * 1000) }

/-- An expiry of the sweep timer or a PROMPT: a sweep begins, or one is owed when a sweep is in progress (R182). -/
def Device.callSweep (d : Device) : Device :=
  if d.port.sweepInProgress then { d with port.sweepOwed := true } else d.beginSweep

/-- The sweep in progress ends; one that is owed begins (R182). -/
def Device.endSweep (d : Device) : Device :=
  let d := { d with port.sweepInProgress := false }
  if d.port.sweepOwed then { d with port.sweepOwed := false }.beginSweep else d

/-- The device enters STOPPING (R109, R194). -/
def Device.enterStopping (d : Device) : Device :=
  let d := (({ d with port.device := .stopping }.stopSweeps).handOver .stateCopy)
  d.idleIfStopping

/-- The sweep interval in force for a field of the header (R181). -/
def sweepIntervalOf (field : Nat) : Nat := if field = 0 then Config.defaultSweep else min 1000 field

end Sys2Proof.Machine
end

