-- ==== Sys2Proof/Machine/Requests.lean ====
section
/-! DEFINITION. The requests of work slots: what each does at the block that owns its kind (R4 to R14, R25 to R29, R43 to R45,
R123, R151, R152, R185), the take of a slot (R184), and the meanings of the request commands. -/

namespace Sys2Proof.Machine

/-! ## CAT: POST and WITHDRAW -/

/-- The entry that a POST in range describes, created at an index of the generation the index carries (R5). -/
def postedEntry (f : PostFields) (s : Stream) (form : Form) (generation : Nat) (slot : Slot) : Entry where
  generation := generation
  state := .verifying
  stream := s
  form := form
  base := f.base.toNat
  edition := f.edition.toNat
  size := f.size.toNat
  footprint := f.footprint.toNat
  check := f.check
  gather := f.gather.toNat
  fragments := f.fragments.toNat
  inUse := 0
  fault := .none
  pendingSlot := some slot
  rejecters := AddrSet.empty

/-- A slot returned REFUSED with an outcome and detail. -/
def Device.refuse (d : Device) (slot : Slot) (outcome : SlotOutcome) (detail : Nat) : Device :=
  d.giveBack slot .refused outcome detail

/-- A slot returned DONE with a detail. -/
def Device.done (d : Device) (slot : Slot) (detail : Nat) : Device := d.giveBack slot .done .done detail

/-- POST at CAT (R4, R5). -/
def Device.postRequest (d : Device) (slot : Slot) (f : PostFields) : Device :=
  match postInRange? f with
  | none => d.refuse slot .badField 0
  | some (s, form) =>
    match d.duplicateOf (postedEntry f s form 1 slot) with
    | some i => d.refuse slot .duplicate (handle i (d.entry i).generation)
    | none =>
      match d.lowestFree with
      | none => d.refuse slot .catalogueFull 0
      | some i =>
        let d := d.setEntry i (postedEntry f s form (d.entry i).generation slot)
        { d with vfy.queue := d.vfy.queue ++ [i] }

/-- The check of a handle (R2): the index of the entry it names, or the outcome that refuses it. -/
def Device.checkHandle (d : Device) (index generation : Octet) : Except SlotOutcome CatIndex :=
  if h : index.toNat < 48 ∧ generation.toNat ≠ 0 then
    let i : CatIndex := ⟨index.toNat, h.1⟩
    let e := d.entry i
    if e.state = .free ∨ e.generation ≠ generation.toNat then .error .staleHandle else .ok i
  else .error .badField

/-- WITHDRAW of an entry in VERIFYING (R11). -/
def Device.withdrawVerifying (d : Device) (slot : Slot) (i : CatIndex) : Device :=
  let post := (d.entry i).pendingSlot
  let d := (d.unqueue i).freeEntry i .withdrawn
  let d := match post with
    | some p => d.refuse p .withdrawn 0
    | none => d
  d.done slot 0

/-- WITHDRAW of an entry in READY (R13). -/
def Device.withdrawReady (d : Device) (slot : Slot) (i : CatIndex) : Device :=
  if (d.entry i).inUse = 0 then ((d.freeEntry i .withdrawn).replanAll).done slot 0
  else (d.retire i .withdrawn (some slot)).replanAll

/-- WITHDRAW of an entry in REVERIFYING (R14). -/
def Device.withdrawReverifying (d : Device) (slot : Slot) (i : CatIndex) : Device :=
  let e := d.entry i
  let d := (d.unqueue i).reverifiedAll e.rejecters e.stream false
  if e.inUse = 0 then (d.freeEntry i .withdrawn).done slot 0 else d.retire i .withdrawn (some slot)

/-- WITHDRAW at CAT (R2, R11, R13, R14). -/
def Device.withdrawRequest (d : Device) (slot : Slot) (index generation : Octet) : Device :=
  match d.checkHandle index generation with
  | .error outcome => d.refuse slot outcome 0
  | .ok i =>
    match (d.entry i).state with
    | .verifying => d.withdrawVerifying slot i
    | .ready => d.withdrawReady slot i
    | .reverifying => d.withdrawReverifying slot i
    | .free | .retiring => d.refuse slot .retiring 0

/-! ## TGT: TARGET -/

/-- A FARE TARGET that has passed R25 (R26, R27). -/
def Device.fareTargetRequest (d : Device) (slot : Slot) (t : FareTarget) : Device :=
  if d.act.state = .committing then
    if t = d.tgt.fare then ({ d with tgt.heldFare := none }).done slot 2
    else ({ d with tgt.heldFare := some t }).done slot 1
  else if t = d.tgt.fare then d.done slot 2
  else (d.setFareTarget t).done slot 0

/-- A BLOCK TARGET that has passed R25 (R29). -/
def Device.blockTargetRequest (d : Device) (slot : Slot) (edition : Nat) : Device :=
  if edition = d.tgt.block then d.done slot 2 else (d.setBlockTarget edition).done slot 0

/-- TARGET at TGT (R25 to R29). -/
def Device.targetRequest (d : Device) (slot : Slot) (f : TargetFields) : Device :=
  match targetChecked? f with
  | none => d.refuse slot .badField 0
  | some (.fare t) => d.fareTargetRequest slot t
  | some (.block edition) => d.blockTargetRequest slot edition

/-! ## HTQ: HOT_ADD -/

/-- HOT_ADD at HTQ (R151, R152). -/
def Device.hotAddRequest (d : Device) (slot : Slot) (count : Octet) (first second third : HotFields) : Device :=
  match hotAddEntries? count first second third with
  | none => d.refuse slot .badField 0
  | some entries =>
    match d.makeRoom entries.length with
    | none => d.refuse slot .hotFull 0
    | some d =>
      let sequence := d.htq.nextSequence
      ((entries.foldl Device.appendHot d).reportExit).done slot sequence

/-! ## ROS: ENROL, EXCLUDE, READMIT -/

/-- ENROL at ROS (R43). -/
def Device.enrolRequest (d : Device) (slot : Slot) (address : Octet) (flag : Bool) (weight : Octet) : Device :=
  match addrOf? address.toNat with
  | none => d.refuse slot .badField 0
  | some a =>
    let old := (d.record a).presence
    if flag then
      if weight.toNat < 1 ∨ 4 < weight.toNat then d.refuse slot .badField 0
      else
        (if old = .unused then d.enrolled a weight.toNat
         else d.setRecord a { d.record a with weight := weight.toNat }).done slot old.code
    else (if old = .unused then d else d.unenrolled a).done slot old.code

/-- EXCLUDE at ROS (R44). -/
def Device.excludeRequest (d : Device) (slot : Slot) (address : Octet) : Device :=
  match addrOf? address.toNat with
  | none => d.refuse slot .badField 0
  | some a =>
    let old := (d.record a).presence
    match old with
    | .unused => d.refuse slot .notEnrolled 0
    | .excluded => d.done slot old.code
    | .absent | .present | .silent | .clash => (d.excluded a).done slot old.code

/-- READMIT at ROS (R45). -/
def Device.readmitRequest (d : Device) (slot : Slot) (address : Octet) : Device :=
  match addrOf? address.toNat with
  | none => d.refuse slot .badField 0
  | some a =>
    let old := (d.record a).presence
    match old with
    | .unused => d.refuse slot .notEnrolled 0
    | .clash | .excluded => (d.readmittedToAbsent a).done slot old.code
    | .absent | .present | .silent => (d.readmittedInPlace a).done slot old.code

/-! ## LNC: LINE_SET, and EXP: unknown kinds -/

/-- LINE_SET at LNC (R123). -/
def Device.lineSetRequest (d : Device) (slot : Slot) (f : LineFields) : Device :=
  ({ d with lnc.pendingConfig := some (lineClamped f) }.reportExit).done slot (lineClampMask f)

/-- A slot of unknown kind at EXP (R185). -/
def Device.badKindRequest (d : Device) (slot : Slot) : Device := d.refuse slot .badKind 0

/-! ## Takes (R184, R185) -/

/-- A request handed to the block that owns its kind (R185). -/
def Device.request (d : Device) (slot : Slot) : Request → Device
  | .post f => d.postRequest slot f
  | .withdraw index generation => d.withdrawRequest slot index generation
  | .target f => d.targetRequest slot f
  | .hotAdd count first second third => d.hotAddRequest slot count first second third
  | .enrol address flag weight => d.enrolRequest slot address flag weight
  | .exclude address => d.excludeRequest slot address
  | .readmit address => d.readmitRequest slot address
  | .lineSet f => d.lineSetRequest slot f
  | .unknown _ => d.badKindRequest slot

/-- A slot becomes held, and the rotation pointer names the slot after it (R183, R184). -/
def Device.hold (d : Device) (slot : Slot) (h : HeldSlot) : Device :=
  { d with port.held := d.port.held.set slot (some h), port.rotation := slot + 1 }

/-- The TAKEN write of a slot, with outcome code 0 (R184, R185). -/
def Run.writeTaken (r : Run) (slot : Slot) : Run :=
  r.access fun s =>
    let a := s.dev.areaBase + slotOffset slot
    { s with ram := (s.ram.write (a + 1) [num SlotStatus.taken.code]).write (a + 3) [0] }

/-- A slot taken and its request handled: the TAKEN write, the read of the slot, the handing over, and what follows from it
(R184). -/
def Run.take (r : Run) (slot : Slot) (ref : Half) (q : Request) : Run :=
  let before := r.state.dev
  let r := (r.writeTaken slot).read
  if r.alive then (r.inside fun d => (d.hold slot { kind := q.kind, ref }).request slot q).settle before else r

/-- Whether the part takes a slot that software hands over: the device takes slots, and does not hold this one (R183,
R184). -/
def Device.mayTake (d : Device) (slot : Slot) : Bool :=
  d.port.device == .running && d.port.held[slot] == none

/-- Where a slot begins in host RAM. -/
def State.slotBase (s : State) (slot : Slot) : Nat := s.dev.areaBase + slotOffset slot

/-- An owner field reads DEVICE at 01h, and SOFTWARE at any other value (R198). -/
def ownerIsDevice (o : Octet) : Bool := o == 1

/-- Whether a slot is owned by DEVICE with a status code (R183, R193). -/
def State.slotReads (s : State) (slot : Slot) (status : Octet) : Bool :=
  ownerIsDevice (s.ram.octet (s.slotBase slot)) && s.ram.octet (s.slotBase slot + 1) == status

/-- The software reference that a slot shows (R198). -/
def State.slotRef (s : State) (slot : Slot) : Half := s.ram.bits 16 (s.slotBase slot + 4) 2

/-- Whether software has left a request in a slot: owned by DEVICE, PENDING, with the request's kind, reference and parameters
(R183, R198). -/
def State.showsRequest (s : State) (slot : Slot) (ref : Half) (q : Request) : Bool :=
  s.slotReads slot 0 && s.slotRef slot == ref && readRequest s.ram (s.slotBase slot) == q

/-- The machine once software has left a request in a slot: as it is where the slot shows the request already, else with the slot
laid out in host RAM (assumption log 19). -/
def State.withRequest (s : State) (slot : Slot) (ref : Half) (q : Request) : State :=
  if s.showsRequest slot ref q then s else { s with ram := s.ram.write (s.slotBase slot) (q.layout ref) }

/-- A request command: software leaves the request in the slot, and the part takes the slot, which then reads DEVICE and PENDING,
and handles its request; no effect where no slot is taken (R183, R184; assumption log 19). -/
def State.takeRequest (s : State) (bus : AreaBus) (slot : Slot) (ref : Half) (q : Request) : State :=
  if s.dev.mayTake slot then (({ state := s.withRequest slot ref q, bus } : Run).take slot ref q).finish else s

/-! ## Meanings -/

def doPost (slot : Slot) (ref : Half) (f : PostFields) (bus : AreaBus) (s : State) : State :=
  s.takeRequest bus slot ref (.post f)
/-- POST (R4, R5, R184). -/
def execPost (slot : Slot) (ref : Half) (f : PostFields) (s : State) : Host.Outcome State Fault Refusal :=
  .next (doPost slot ref f .sound s)

def doWithdraw (slot : Slot) (ref : Half) (index generation : Octet) (bus : AreaBus) (s : State) : State :=
  s.takeRequest bus slot ref (.withdraw index generation)
/-- WITHDRAW (R11, R13, R14, R184). -/
def execWithdraw (slot : Slot) (ref : Half) (index generation : Octet) (s : State) :
    Host.Outcome State Fault Refusal :=
  .next (doWithdraw slot ref index generation .sound s)

def doTarget (slot : Slot) (ref : Half) (f : TargetFields) (bus : AreaBus) (s : State) : State :=
  s.takeRequest bus slot ref (.target f)
/-- TARGET (R25 to R29, R184). -/
def execTarget (slot : Slot) (ref : Half) (f : TargetFields) (s : State) : Host.Outcome State Fault Refusal :=
  .next (doTarget slot ref f .sound s)

def doHotAdd (slot : Slot) (ref : Half) (count : Octet) (first second third : HotFields) (bus : AreaBus) (s : State) :
    State :=
  s.takeRequest bus slot ref (.hotAdd count first second third)
/-- HOT_ADD (R151, R152, R184). -/
def execHotAdd (slot : Slot) (ref : Half) (count : Octet) (first second third : HotFields) (s : State) :
    Host.Outcome State Fault Refusal :=
  .next (doHotAdd slot ref count first second third .sound s)

def doEnrol (slot : Slot) (ref : Half) (address : Octet) (flag : Bool) (weight : Octet) (bus : AreaBus) (s : State) :
    State :=
  s.takeRequest bus slot ref (.enrol address flag weight)
/-- ENROL (R43, R184). -/
def execEnrol (slot : Slot) (ref : Half) (address : Octet) (flag : Bool) (weight : Octet) (s : State) :
    Host.Outcome State Fault Refusal :=
  .next (doEnrol slot ref address flag weight .sound s)

def doExclude (slot : Slot) (ref : Half) (address : Octet) (bus : AreaBus) (s : State) : State :=
  s.takeRequest bus slot ref (.exclude address)
/-- EXCLUDE (R44, R184). -/
def execExclude (slot : Slot) (ref : Half) (address : Octet) (s : State) : Host.Outcome State Fault Refusal :=
  .next (doExclude slot ref address .sound s)

def doReadmit (slot : Slot) (ref : Half) (address : Octet) (bus : AreaBus) (s : State) : State :=
  s.takeRequest bus slot ref (.readmit address)
/-- READMIT (R45, R184). -/
def execReadmit (slot : Slot) (ref : Half) (address : Octet) (s : State) : Host.Outcome State Fault Refusal :=
  .next (doReadmit slot ref address .sound s)

def doLineSet (slot : Slot) (ref : Half) (f : LineFields) (bus : AreaBus) (s : State) : State :=
  s.takeRequest bus slot ref (.lineSet f)
/-- LINE_SET (R123, R184). -/
def execLineSet (slot : Slot) (ref : Half) (f : LineFields) (s : State) : Host.Outcome State Fault Refusal :=
  .next (doLineSet slot ref f .sound s)

def doBadKind (slot : Slot) (ref : Half) (kind : Octet) (bus : AreaBus) (s : State) : State :=
  s.takeRequest bus slot ref (.unknown kind)
/-- BAD_KIND (R185). -/
def execBadKind (slot : Slot) (ref : Half) (kind : Octet) (s : State) : Host.Outcome State Fault Refusal :=
  .next (doBadKind slot ref kind .sound s)

end Sys2Proof.Machine
end

