-- ==== Sys2Proof/Machine/Replies.lean ====
section
/-! DEFINITION. The ends of exchanges: what each reply does at the owner of the exchange (R101, R104, R105, R132, R134, R136 to
R144, R157, R158, R168, R169, R172), misses and contention (R99, R102), and the meanings of the reply commands. -/

namespace Sys2Proof.Machine

/-- What the owner of an exchange makes of its reply: the part after it, how the exchange counts at ROS, and whether the
reply was a NAK BUSY (R101, R104, R114). -/
structure Judged where
  device : Device
  ending : Ending
  busy : Bool
  deriving DecidableEq, Repr

/-- A reply accepted (R101). -/
def accepted (d : Device) : Judged := { device := d, ending := .clean, busy := false }
/-- A reply accepted as a miss (R101). -/
def countedAsMiss (d : Device) : Judged := { device := d, ending := .counted, busy := false }
/-- A reply refused: a protocol miss (R101). -/
def refusedReply (d : Device) : Judged := { device := d, ending := .miss, busy := false }
/-- A NAK BUSY (R104). -/
def busyReply (d : Device) : Judged := { device := d, ending := .clean, busy := true }

/-! ## ACK -/

/-- ACK to OPEN (R132). -/
def Device.openAcked (d : Device) (a : Addr) (r : TransferRecord) (x : Nat) : Judged :=
  if x ≤ r.size then accepted (d.changeRecord a r.tag (·.at x)) else refusedReply d

/-- ACK to a CONT burst (R134). -/
def Device.contAcked (d : Device) (a : Addr) (r : TransferRecord) (x : Nat) : Judged :=
  if x ≤ r.sent then accepted (d.changeRecord a r.tag (·.at x))
  else refusedReply (d.changeRecord a r.tag (·.goBack))

/-- ABANDON-all owed cleared (R143). -/
def Device.abandonAllDone (d : Device) (a : Addr) : Device :=
  d.setTransfers a { d.transfers a with abandonAll := false }

/-- ACK, or NAK TAG, to an ABANDON of one record (R142). -/
def Device.abandoned (d : Device) (a : Addr) (tag : Nat) : Judged :=
  match (d.transfers a).byTag tag with
  | some r => accepted (d.closeRecord a r)
  | none => accepted d

/-- ACK to HOT (R157). -/
def Device.hotAcked (d : Device) (a : Addr) (first last : Nat) (restart : Bool) (x : Nat) : Judged :=
  if seqBetween first last x then
    let d := d.setRecord a
      { d.record a with hotHighWater := x, hotEpochSeen := d.htq.epoch.getD (d.record a).hotEpochSeen }
    let d := if restart then d.restartDone a else d
    accepted d.judgeRetirement
  else refusedReply d

/-- ACK to ARM (R168). -/
def Device.armAck (d : Device) (a : Addr) (x : Nat) : Judged :=
  if x = d.act.edition then accepted (d.armAcked a)
  else if x = 0 then accepted (d.armRefusedBy a)
  else refusedReply d

/-- ACK to a disarm (R169). -/
def Device.disarmAck (d : Device) (a : Addr) (x : Nat) : Judged :=
  if x = 0 then accepted (d.disarmAcked a) else refusedReply d

/-- ACK to an addressed COMMIT (R172). -/
def Device.commitAck (d : Device) (a : Addr) (x : Nat) : Judged :=
  if x = d.act.edition then accepted (d.commitAcked a) else accepted (d.commitFailed a)

/-- ACK at the owner of the exchange (R97, R101). A reply to a record that has been dropped acts at ROS alone (R146), and so
does a reply to an ACT exchange begun before ACT started over (R166). -/
def Device.ackJudged (d : Device) (e : Exchange) (a : Addr) (x : Nat) : Judged :=
  match e.kind with
  | .openSegment =>
    match (d.transfers a).byTag e.tag with
    | some r => d.openAcked a r x
    | none => accepted d
  | .cont =>
    match (d.transfers a).byTag e.tag with
    | some r => d.contAcked a r x
    | none => accepted d
  | .abandon => d.abandoned a e.tag
  | .abandonAll => accepted (d.abandonAllDone a)
  | .drop s => accepted ((d.removeDrop a s).tierDropped a s)
  | .hot first last restart => d.hotAcked a first last restart x
  | .arm => if e.actStale then accepted d else d.armAck a x
  | .disarm => if e.actStale then accepted d else d.disarmAck a x
  | .commit => if e.actStale then accepted d else d.commitAck a x
  | .poll | .collect | .seal | .commitAll => refusedReply d

/-! ## NAK -/

/-- The record must be opened again under its tag (R139). -/
def TransferRecord.reopened (r : TransferRecord) : TransferRecord := { r.goBack with phase := .opening }

/-- NAK ROOM to OPEN or CONT: the record is closed, and the stream's room shortfall set (R140). -/
def Device.noRoom (d : Device) (a : Addr) (r : TransferRecord) : Device :=
  (d.closeRecord a r).roomShort a r.stream

/-- NAK SLOT to OPEN: every record dropped, ABANDON-all owed, the validator replanned (R140). -/
def Device.noSlot (d : Device) (a : Addr) : Device := (d.dropAll a true).replan a

/-- NAK to OPEN, CONT or SEAL, the record standing (R139, R140). -/
def Device.nakRecord (d : Device) (a : Addr) (k : ExchangeKind) (r : TransferRecord) (x : Nat) : NakCause → Judged
  | .check => countedAsMiss (d.changeRecord a r.tag (·.goBack))
  | .order =>
    if x ≤ r.sent then accepted (d.changeRecord a r.tag (·.at x))
    else refusedReply (d.changeRecord a r.tag (·.goBack))
  | .kind => countedAsMiss d
  | .tag => accepted (d.changeRecord a r.tag (·.reopened))
  | .length => accepted ((d.changeRecord a r.tag (·.goBack)).oweStatus a)
  | .room => accepted (d.noRoom a r)
  | .slot => accepted (d.noSlot a)
  | .busy =>
    busyReply
      (if k = .seal then d.changeRecord a r.tag fun q => { q with phase := .storing }
       else d.changeRecord a r.tag (·.goBack))

/-- NAK to HOT (R158). -/
def Device.nakHot (d : Device) (a : Addr) : NakCause → Judged
  | .kind => accepted (d.setHotStatus a .none).judgeRetirement
  | .room =>
    accepted (if (d.record a).hotStatus = .ok then d.setHotStatus a .short else d).judgeRetirement
  | .length => accepted (d.oweStatus a)
  | .busy => busyReply d
  | .check | .order | .tag | .slot => countedAsMiss d

/-- NAK to an addressed ACT exchange (R168, R169, R172); one begun before ACT started over is discarded at ACT (R166). -/
def Device.nakAct (d : Device) (e : Exchange) (a : Addr) (c : NakCause) : Judged :=
  let d := if e.kind = .commit ∧ !e.actStale then d.commitFailed a else d
  if c = .busy then busyReply d else countedAsMiss d

/-- NAK at the owner of the exchange, its cause valid for the frame (R104). -/
def Device.nakJudged (d : Device) (e : Exchange) (a : Addr) (c : NakCause) (x : Nat) : Judged :=
  match e.kind with
  | .openSegment | .cont | .seal =>
    match (d.transfers a).byTag e.tag with
    | some r => d.nakRecord a e.kind r x c
    | none => if c = .busy then busyReply d else accepted d
  | .abandon =>
    match c with
    | .tag => d.abandoned a e.tag
    | .busy => busyReply d
    | _ => countedAsMiss d
  | .abandonAll =>
    match c with
    | .tag => accepted (d.abandonAllDone a)
    | .busy => busyReply d
    | _ => countedAsMiss d
  | .drop _ => if c = .busy then busyReply d else countedAsMiss d
  | .hot _ _ _ => d.nakHot a c
  | .arm | .disarm | .commit => d.nakAct e a c
  | .poll | .collect | .commitAll => refusedReply d

/-! ## VERDICT (R105, R136 to R138) -/

/-- A VERDICT of REJECT_CHECK: the record closed, the reject counted and reported to CAT (R138). The entry's state is that in
which the VERDICT found it (assumption log 27). -/
def Device.rejectedCheck (d : Device) (a : Addr) (r : TransferRecord) : Device :=
  let found := (d.entry r.index).state
  ((d.closeRecord a r).rejectCounted a r.stream).rejectReported r.index a r.stream found

/-- A VERDICT at XFR for a standing record, by its code (R105, R137, R138). -/
def Device.verdictOn (d : Device) (a : Addr) (r : TransferRecord) (code stream held : Nat) : Judged :=
  if stream ≠ r.stream.code.val then refusedReply d
  else
    match code with
    | 1 => accepted (((d.closeRecord a r).removeSend a r).stored a r.stream held)
    | 2 =>
      if r.stream = .fare then accepted (((d.closeRecord a r).removeSend a r).storedPending a held)
      else refusedReply d
    | 3 => accepted (d.rejectedCheck a r)
    | 4 => accepted ((d.closeRecord a r).oweStatus a)
    | 5 => accepted (d.noRoom a r)
    | _ => refusedReply d

/-- A VERDICT at XFR (R105, R146). -/
def Device.verdictJudged (d : Device) (e : Exchange) (a : Addr) (code stream held : Nat) : Judged :=
  match (d.transfers a).byTag e.tag with
  | some r => d.verdictOn a r code stream held
  | none => accepted d

/-! ## STATUS and NOTICE -/

/-- A STATUS at ROS, which counts its own valid reply (R51). -/
def Device.statusJudged (d : Device) (a : Addr) (f : StatusFields) : Judged :=
  if statusInRange f then { device := d.applyStatus a f, ending := .unreported, busy := false } else refusedReply d

/-- A NOTICE at ROS (R60). -/
def Device.noticeJudged (d : Device) (a : Addr) (kind : Octet) (text : List Octet) : Judged :=
  if text.length ≤ 48 then accepted (d.noticeTaken a kind text) else refusedReply d

/-! ## The end of an exchange -/

/-- A reply that has passed R99, at the owner of the exchange (R101). -/
def Device.judged (d : Device) (e : Exchange) (a : Addr) : Reply → Judged
  | .status f => d.statusJudged a f
  | .notice kind text => d.noticeJudged a kind text
  | .ack x => d.ackJudged e a x.toNat
  | .nak cause _ x =>
    match NakCause.ofCode? cause.toNat with
    | some c => d.nakJudged e a c x.toNat
    | none => refusedReply d
  | .verdict code stream held => d.verdictJudged e a code.toNat stream.toNat held.toNat

/-- The owner of an exchange is told that it missed: XFR's burst goes back (R130), ACT's addressed COMMIT has failed
(R172). -/
def Device.ownerMissed (d : Device) (e : Exchange) (a : Addr) : Device :=
  let d := d.burstBack e
  if e.kind = .commit ∧ !e.actStale then d.commitFailed a else d

/-- A reply that has passed R99 ends its exchange: the owner, ROS and the arbiter in turn (R101, R114). Whatever ended the
record's presence meanwhile, R50 and R48 say what is discarded. -/
def Device.replyEnds (d : Device) (e : Exchange) (a : Addr) (reply : Reply) : Device :=
  let isStatus : Bool :=
    match reply with
    | .status _ => true
    | _ => false
  let d := d.clearExchange
  if d.outcomeVoid e a || (e.voided == .bySilence && !isStatus) then d.idleIfStopping
  else
    let j := d.judged e a reply
    (j.device.reportEnding a j.busy j.ending).idleIfStopping

/-- A miss, or a miss with contention, ends an exchange: the owner, ROS and the arbiter in turn (R101, R114). -/
def Device.missEnds (d : Device) (e : Exchange) (a : Addr) (ending : Ending) : Device :=
  let d := d.clearExchange
  if d.outcomeVoid e a then d.idleIfStopping
  else ((d.ownerMissed e a).reportEnding a false ending).idleIfStopping

/-- Whether a reply is awaited or arriving (R98; assumption log 29). -/
def Exchange.replyDue (e : Exchange) : Bool := e.phase == .awaiting || e.phase == .receiving

/-- A complete reply whose address, tag, origin and CRC are right: judged by its kind, length and codes (R99 tests 6 to 8), and
handed to the owner. Octets that no exchange awaits are discarded (R86). -/
def Device.reply (d : Device) (reply : Reply) : Device :=
  match d.lnc.exchange with
  | some e =>
    match e.dest with
    | some a =>
      if e.replyDue then
        (if replyValid e.kind reply then d.replyEnds e a reply else d.missEnds e a .miss)
      else d
    | none => d
  | none => d

/-- A miss of the exchange in flight, whose phase must pass a test. -/
def Device.missed (d : Device) (due : Exchange → Bool) : Device :=
  match d.lnc.exchange with
  | some e =>
    match e.dest with
    | some a => if due e then d.missEnds e a .miss else d
    | none => d
  | none => d

/-! ## Meanings -/

def doStatus (f : StatusFields) (bus : AreaBus) (s : State) : State := s.act bus (·.reply (.status f))
/-- STATUS (R51 to R54). -/
def execStatus (f : StatusFields) (s : State) : Host.Outcome State Fault Refusal := .next (doStatus f .sound s)

def doNotice (kind : Octet) (text : List Octet) (bus : AreaBus) (s : State) : State :=
  s.act bus (·.reply (.notice kind text))
/-- NOTICE (R60). -/
def execNotice (kind : Octet) (text : List Octet) (s : State) : Host.Outcome State Fault Refusal :=
  .next (doNotice kind text .sound s)

def doAck (offset : BitVec 24) (bus : AreaBus) (s : State) : State := s.act bus (·.reply (.ack offset))
/-- ACK (R97, R101). -/
def execAck (offset : BitVec 24) (s : State) : Host.Outcome State Fault Refusal := .next (doAck offset .sound s)

def doNak (cause detail : Octet) (offset : BitVec 24) (bus : AreaBus) (s : State) : State :=
  s.act bus (·.reply (.nak cause detail offset))
/-- NAK (R97, R104). -/
def execNak (cause detail : Octet) (offset : BitVec 24) (s : State) : Host.Outcome State Fault Refusal :=
  .next (doNak cause detail offset .sound s)

def doVerdict (code stream : Octet) (held : Half) (bus : AreaBus) (s : State) : State :=
  s.act bus (·.reply (.verdict code stream held))
/-- VERDICT (R97, R105). -/
def execVerdict (code stream : Octet) (held : Half) (s : State) : Host.Outcome State Fault Refusal :=
  .next (doVerdict code stream held .sound s)

def doReplyTimeout (bus : AreaBus) (s : State) : State := s.act bus (·.missed (·.phase == .awaiting))
/-- REPLY_TIMEOUT (R98). -/
def execReplyTimeout (s : State) : Host.Outcome State Fault Refusal := .next (doReplyTimeout .sound s)

def doFrameIncomplete (bus : AreaBus) (s : State) : State := s.act bus (·.missed (·.replyDue))
/-- FRAME_INCOMPLETE (R86, R99 test 2). -/
def execFrameIncomplete (s : State) : Host.Outcome State Fault Refusal := .next (doFrameIncomplete .sound s)

def doMalformedReply (bus : AreaBus) (s : State) : State := s.act bus (·.missed (·.replyDue))
/-- MALFORMED_REPLY (R87, R99 test 1). -/
def execMalformedReply (s : State) : Host.Outcome State Fault Refusal := .next (doMalformedReply .sound s)

/-- The reply in the octets received since a frame was sent: those before the first sync octet are discarded (R98; assumption log
47). -/
def fromSync (octets : List Octet) : List Octet := octets.dropWhile (· ≠ syncOctet)

/-- A complete reply given by the octets received, judged by every test of R99: a miss where one fails, and the reply that the
octets are where none does (assumption log 30). Without a sync octet no reply has come (R98). -/
def Device.replyOctets (d : Device) (octets : List Octet) : Device :=
  match d.lnc.exchange with
  | some e =>
    let frame := fromSync octets
    if frame = [] then d
    else
      match judgeReply e.dest e.kind e.tag frame with
      | .ok r => d.reply r
      | .error _ => d.missed (·.replyDue)
  | none => d

def doReplyCheckFailed (octets : List Octet) (bus : AreaBus) (s : State) : State := s.act bus (·.replyOctets octets)
/-- REPLY_CHECK_FAILED (R99). -/
def execReplyCheckFailed (octets : List Octet) (s : State) : Host.Outcome State Fault Refusal :=
  .next (doReplyCheckFailed octets .sound s)

end Sys2Proof.Machine
end

