-- ==== Sys2Proof/Machine/Registers.lean ====
section
/-! DEFINITION. The meanings of the resets, of the register writes (R109, R164, R182, R189 to R192, R196, R197)
and of CANCEL. -/

namespace Sys2Proof.Machine

/-! ## Resets (R197) -/

/-- The reset cause of a device reset (R189). -/
def resetCauseOf : ResetSource → ResetCause
  | .power => .power
  | .pin => .pin

def doDeviceReset (source : ResetSource) (s : State) : State := { s with dev := .reset (resetCauseOf source) }
/-- DEVICE_RESET (R197). -/
def execDeviceReset (source : ResetSource) (s : State) : Host.Outcome State Fault Refusal :=
  .next (doDeviceReset source s)

/-- The part after a soft reset: as after a device reset, but XBASE, XMASK and the fleet clock are kept (R197). -/
def Device.softReset (d : Device) : Device :=
  { Device.reset .soft with
    port := { Port.reset .soft with xbase := d.port.xbase, mask := d.port.mask }
    fck := d.fck }

def doSoftReset (s : State) : State := { s with dev := s.dev.softReset }
/-- SOFT_RESET (R197). -/
def execSoftReset (s : State) : Host.Outcome State Fault Refusal := .next (doSoftReset s)

/-! ## XCTL (R190) -/

/-- RUN takes a value, and the device state follows it (R192). -/
def Device.setRun (d : Device) (value : Bool) : Device :=
  let d := { d with port.run := value }
  match d.port.device, value with
  | .off, true => { d with port.device := .starting }
  | .running, false => d.enterStopping
  | .halted, false => { d with port.device := .off }
  | _, _ => d

def doRun (value : Bool) (bus : AreaBus) (s : State) : State := s.act bus (·.setRun value)
/-- RUN (R190, R192). -/
def execRun (value : Bool) (s : State) : Host.Outcome State Fault Refusal := .next (doRun value .sound s)

/-- Line enable takes a value, and the line follows it (R109). -/
def Device.setLineEnable (d : Device) (value : Bool) : Device :=
  let d := { d with port.lineEnable := value }
  if value then d.lineMayStart else if d.lnc.line = .idle then d else d.lineToIdle

def doLineEnable (value : Bool) (bus : AreaBus) (s : State) : State := s.act bus (·.setLineEnable value)
/-- LINE_ENABLE (R109, R190). -/
def execLineEnable (value : Bool) (s : State) : Host.Outcome State Fault Refusal := .next (doLineEnable value .sound s)

/-- PROMPT (R182). -/
def Device.prompt (d : Device) : Device :=
  if d.port.device = .running then { d with port.promptOwed := true }.callSweep else d

def doPrompt (s : State) : State := { s with dev := s.dev.prompt }
/-- PROMPT (R182, R190). -/
def execPrompt (s : State) : Host.Outcome State Fault Refusal := .next (doPrompt s)

/-! ### CANCEL (R103, R122, R196) -/

/-- The line enters RECOVER from CYCLE or QUIET; in any other state it stays (R102, R109). -/
def Device.recover (d : Device) : Device :=
  match d.lnc.line with
  | .cycle => { d with lnc.line := .recoverCycle, lnc.guardTimer := some d.lnc.config.guardTime }
  | .quiet => { d with lnc.line := .recoverQuiet false, lnc.guardTimer := some d.lnc.config.guardTime }
  | .idle | .recoverCycle | .recoverQuiet _ => d

/-- Every transfer record on every validator dropped, and every ABANDON-all owed cleared (R145, R196). The WITHDRAWs of entries so
freed are returned, or join the returns owed, in the order of the drops: by ascending address, within a validator as
`Device.dropRecords` drops, which is the model's choice (assumption log 45). -/
def Device.dropEverything (d : Device) : Device := allAddrs.foldl (fun d a => d.dropAll a false) d

/-- Every plan emptied; the replans that follow write the statuses (R83). -/
def Device.emptyPlans (d : Device) : Device := allAddrs.foldl (fun d a => d.setPlan a []) d

/-- CANCEL (R196): the exchange in flight ended without outcome and a running line sent to RECOVER, the records dropped, the
plans emptied and made afresh. -/
def Device.cancel (d : Device) : Device :=
  let d := d.cutExchange.recover
  let d := { d with lnc.turn := none }
  ((d.dropEverything.emptyPlans).replanAll).idleIfStopping

def doCancel (bus : AreaBus) (s : State) : State := s.act bus Device.cancel
/-- CANCEL (R190, R196). -/
def execCancel (s : State) : Host.Outcome State Fault Refusal := .next (doCancel .sound s)

/-! ## The other registers -/

/-- A write of XBASE: taken in OFF and HALTED, ignored in the other states; bits 12 to 0 are ignored (R189). -/
def Device.writeXbase (d : Device) (value : Word64) : Device :=
  if d.port.device = .off ∨ d.port.device = .halted then { d with port.xbase := value.extractLsb' 13 51 } else d

def doXbaseWrite (value : Word64) (s : State) : State := { s with dev := s.dev.writeXbase value }
/-- XBASE_WRITE (R189). -/
def execXbaseWrite (value : Word64) (s : State) : Host.Outcome State Fault Refusal := .next (doXbaseWrite value s)

/-- A write of XSTAT: each cause flag whose bit is written 1 is cleared, and the interrupt judged again (R191). -/
def Device.clearCauses (d : Device) (value : Word32) : Device :=
  { d with port.causes := d.port.causes &&& ~~~ (value.extractLsb' 8 7) }.judgeInterrupt

def doCauseClear (value : Word32) (s : State) : State := { s with dev := s.dev.clearCauses value }
/-- CAUSE_CLEAR (R191). -/
def execCauseClear (value : Word32) (s : State) : Host.Outcome State Fault Refusal := .next (doCauseClear value s)

/-- A write of XMASK: the cause enables, and the interrupt judged again at once (R191). -/
def Device.writeXmask (d : Device) (value : Word32) : Device :=
  { d with port.mask := value.extractLsb' 8 7 }.judgeInterrupt

def doXmaskWrite (value : Word32) (s : State) : State := { s with dev := s.dev.writeXmask value }
/-- XMASK_WRITE (R191). -/
def execXmaskWrite (value : Word32) (s : State) : Host.Outcome State Fault Refusal := .next (doXmaskWrite value s)

/-- The clock has stepped or been written: its copy is handed to EXP while RUNNING, and ACT makes its time judgement
(R164, R167). -/
def Device.clockChanged (d : Device) : Device :=
  (if d.port.device = .running then d.handOver .clockCopy else d).judgeTime

/-- A write of XCLOCK (R164). -/
def Device.writeClockValue (d : Device) (value : Word32) : Device :=
  { d with fck := { seconds := value, valid := true, micros := 0 } }.clockChanged

def doXclockWrite (value : Word32) (bus : AreaBus) (s : State) : State := s.act bus (·.writeClockValue value)
/-- XCLOCK_WRITE (R164). -/
def execXclockWrite (value : Word32) (s : State) : Host.Outcome State Fault Refusal :=
  .next (doXclockWrite value .sound s)

def doRegisterWriteOther (_offset : Nat) (_value : Word32) (s : State) : State := s
/-- REGISTER_WRITE_OTHER: a write to XID, or to an offset without a register, is ignored (R189). -/
def execRegisterWriteOther (offset : Nat) (value : Word32) (s : State) : Host.Outcome State Fault Refusal :=
  .next (doRegisterWriteOther offset value s)

end Sys2Proof.Machine
end

