-- ==== Sys2Proof/Machine/Time.lean ====
section
/-! DEFINITION. The clock step (R164), the silence expiry (R48), and the tick by which time passes while no command waits
(assumption log 5). -/

namespace Sys2Proof.Machine

/-- The fleet seconds value steps by 1, from 4,294,967,295 to 0, and a new second begins (R164). -/
def Device.stepClock (d : Device) : Device :=
  { d with fck := { d.fck with seconds := d.fck.seconds + 1, micros := 0 } }.clockChanged

def doClockStep (bus : AreaBus) (s : State) : State := s.act bus Device.stepClock
/-- CLOCK_STEP (R164). -/
def execClockStep (s : State) : Host.Outcome State Fault Refusal := .next (doClockStep .sound s)

/-- The silence period of a SILENT record has passed: it enters ABSENT while the line is not IDLE (R48). -/
def Device.silenceExpired (d : Device) (address : Nat) : Device :=
  match addrOf? address with
  | some a => if (d.record a).presence = .silent ∧ d.lnc.line ≠ .idle then d.silenceOver a else d
  | none => d

def doSilenceExpiry (address : Nat) (bus : AreaBus) (s : State) : State := s.act bus (·.silenceExpired address)
/-- SILENCE_EXPIRY (R48). -/
def execSilenceExpiry (address : Nat) (s : State) : Host.Outcome State Fault Refusal :=
  .next (doSilenceExpiry address .sound s)

/-! ## The tick -/

/-- A timer that counts down, one µs later. -/
def countDown (t : Option Nat) : Option Nat := t.map fun n => n - 1

/-- The longest silence period, µs (R123): the silence timer counts no further. -/
def silenceMost : Nat := 60000000

/-- A validator record one µs later: its silence timer has run on (R48). -/
def ValRecord.ticked (r : ValRecord) : ValRecord :=
  { r with silenceTimer := r.silenceTimer.map fun n => min silenceMost (n + 1) }

/-- The line one µs later: the cycle timer runs in CYCLE and in the RECOVER entered from it, up to the cycle length; the other
timers count down (R98, R102, R108, R120). -/
def LineController.ticked (l : LineController) : LineController :=
  { l with
    cycleTimer :=
      match l.line with
      | .cycle | .recoverCycle => min (l.config.cycleLength * 1000) (l.cycleTimer + 1)
      | .idle | .quiet | .recoverQuiet _ => l.cycleTimer
    keepaliveTimer := countDown l.keepaliveTimer
    replyTimer := countDown l.replyTimer
    guardTimer := countDown l.guardTimer
    deferral := countDown l.deferral }

/-- The part one µs later, with nothing done: what happens at a timer's end is a command of its own (assumption log 5). -/
def Device.ticked (d : Device) : Device :=
  { d with
    port.sweepTimer := countDown d.port.sweepTimer
    ros.records := Vector.ofFn fun (a : Addr) => (d.record a).ticked
    lnc := d.lnc.ticked
    fck.micros := min 1000000 (d.fck.micros + 1) }

/-- The machine one µs later. -/
def State.tick (s : State) : State := { s with dev := s.dev.ticked }

end Sys2Proof.Machine
end

