-- ==== Sys2Proof/Machine/Events.lean ====
section
/-! DEFINITION. The meanings of the Verifier's commands (R8, R10) and of what happens on the drop line other than replies: cycle
ends, grants, frames sent, deferrals, contention and the line's timers (R86, R98, R102, R106, R111, R113, R118 to R122). -/

namespace Sys2Proof.Machine

/-! ## The Verifier -/

/-- With no verification in flight and the device RUNNING or STOPPING, the head of the verify queue is taken (R8). -/
def Device.startVerification (d : Device) : Device :=
  if (d.port.device = .running ∨ d.port.device = .stopping) ∧ d.vfy.queue ≠ [] then { d with vfy.inFlight := true }
  else d

def doVerificationStart (s : State) : State := { s with dev := s.dev.startVerification }
/-- VERIFICATION_START (R8). -/
def execVerificationStart (s : State) : Host.Outcome State Fault Refusal := .next (doVerificationStart s)

/-- The verification in flight ends with a result: the entry leaves the queue, and is settled by its state (R8, R10, R18). -/
def Device.endVerification (d : Device) (i : CatIndex) (result : Verification) : Device :=
  let d := { d with vfy := { queue := d.vfy.queue.drop 1, inFlight := false } }
  match (d.entry i).state with
  | .verifying => d.firstVerified i result
  | .reverifying => d.reverifyEnded i result
  | .free | .ready | .retiring => d

/-- The end of the verification in flight, the segment being read from host RAM as it stands (R7, R9). -/
def Device.verificationEnded (d : Device) (m : Ram) (bus : List HostRange) : Device :=
  match d.vfy.inFlight, d.vfy.queue with
  | true, i :: _ => d.endVerification i (verify m bus d.areaBase (d.entry i))
  | _, _ => d

def doVerificationEnd (ranges : List HostRange) (bus : AreaBus) (s : State) : State :=
  s.act bus (·.verificationEnded s.ram ranges)
/-- VERIFICATION_END (R10, R18). -/
def execVerificationEnd (ranges : List HostRange) (s : State) : Host.Outcome State Fault Refusal :=
  .next (doVerificationEnd ranges .sound s)

/-! ## Cycles -/

/-- The cycle ends once the cycle timer has reached the cycle length, roll call is over, no exchange is in flight and the line
is in CYCLE (R118, R119). -/
def Device.endCycle (d : Device) (attnLow : Bool) : Device :=
  if d.lnc.config.cycleLength * 1000 ≤ d.lnc.cycleTimer ∧ d.lnc.line = .cycle ∧ d.lnc.phase ≠ .rollCall ∧
      d.lnc.exchange = none then
    d.handReplyTimes.judgeQuiet attnLow
  else d

def doCycleEnd (attnLow : Bool) (bus : AreaBus) (s : State) : State := s.act bus (·.endCycle attnLow)
/-- CYCLE_END (R118, R119). -/
def execCycleEnd (attnLow : Bool) (s : State) : Host.Outcome State Fault Refusal := .next (doCycleEnd attnLow .sound s)

/-- The keepalive timer has reached the keepalive: QUIET is left, and in a RECOVER entered from QUIET the event is
remembered (R120). -/
def Device.keepaliveExpired (d : Device) : Device :=
  match d.lnc.line with
  | .quiet => d.cycleStart true
  | .recoverQuiet _ => { d with lnc.line := .recoverQuiet true }
  | .idle | .cycle | .recoverCycle => d

def doKeepaliveExpiry (bus : AreaBus) (s : State) : State := s.act bus Device.keepaliveExpired
/-- KEEPALIVE_EXPIRY (R120). -/
def execKeepaliveExpiry (s : State) : Host.Outcome State Fault Refusal := .next (doKeepaliveExpiry .sound s)

/-- An attention event: taken in QUIET, and leaving nothing pending in any other line state (R106). -/
def Device.attention (d : Device) : Device :=
  match d.lnc.line with
  | .quiet => d.judgeAttention true
  | .idle | .cycle | .recoverCycle | .recoverQuiet _ => d

def doAttentionEvent (bus : AreaBus) (s : State) : State := s.act bus Device.attention
/-- ATTENTION_EVENT (R106). -/
def execAttentionEvent (s : State) : Host.Outcome State Fault Refusal := .next (doAttentionEvent .sound s)

/-! ## Grants -/

/-- Whether the arbiter may grant: the device RUNNING, the line in CYCLE, no exchange in flight (R109, R113, R121). -/
def Device.mayGrant (d : Device) : Bool :=
  d.port.device == .running && d.lnc.line == .cycle && d.lnc.exchange == none

/-- The next POLL of the roll call granted, or the roll call ended (R111). -/
def Device.rollCall (d : Device) (free : Bool) : Device :=
  if d.mayGrant && d.lnc.phase == .rollCall then
    match d.nextPolled with
    | some a => ({ d with lnc.rollPosition := Addr.number a }.beginPoll free a)
    | none => { d with lnc.phase := .transfer }
  else d

def doRollCallPoll (free : Bool) (bus : AreaBus) (s : State) : State := s.act bus (·.rollCall free)
/-- ROLL_CALL_POLL (R111). -/
def execRollCallPoll (free : Bool) (s : State) : Host.Outcome State Fault Refusal := .next (doRollCallPoll free .sound s)

/-- A grant judged in the transfer phase (R113). -/
def Device.transferGrant (d : Device) (m : Ram) (bus : List HostRange) (free : Bool) : Device :=
  if d.mayGrant && d.lnc.phase == .transfer then (d.grant m bus free).idleIfStopping else d

def doTransferGrant (free : Bool) (ranges : List HostRange) (bus : AreaBus) (s : State) : State :=
  s.act bus (·.transferGrant s.ram ranges free)
/-- TRANSFER_GRANT (R113 to R117). -/
def execTransferGrant (free : Bool) (ranges : List HostRange) (s : State) : Host.Outcome State Fault Refusal :=
  .next (doTransferGrant free ranges .sound s)

/-! ## Frames -/

/-- A deferred frame begins (R86). -/
def Device.frameBegins (d : Device) : Device := { d with lnc.deferral := none }

def doLineFree (s : State) : State := { s with dev := s.dev.frameBegins }
/-- LINE_FREE: the line has been free for 2 octet-times, and a deferred frame begins (R86). -/
def execLineFree (s : State) : Host.Outcome State Fault Refusal := .next (doLineFree s)

def doDeferralExpiry (s : State) : State := { s with dev := s.dev.frameBegins }
/-- DEFERRAL_EXPIRY: a deferred frame begins although the line has not become free (R86). -/
def execDeferralExpiry (s : State) : Host.Outcome State Fault Refusal := .next (doDeferralExpiry s)

/-- The reply to a frame is awaited, the driver off and the reply timer started (R98). -/
def Device.awaitReply (d : Device) (e : Exchange) : Device :=
  { d with
    lnc.exchange := some { e with phase := .awaiting }
    lnc.replyTimer := some d.lnc.config.replyTimeout }

/-- One of the three COMMITs to ALL has been sent: the next begins, or the broadcast is MADE (R98, R170). -/
def Device.commitSent (d : Device) (e : Exchange) (free : Bool) : Device :=
  if e.framesLeft = 0 then (d.clearExchange.broadcastMade).idleIfStopping
  else
    { d with
      lnc.exchange := some { e with framesLeft := e.framesLeft - 1 }
      lnc.deferral := d.deferralFor free }

/-- A CONT frame that asks no reply has been sent: the next frame of the burst is built and begins (R134), the exchange keeping
what is to become of its outcome; a burst whose record has been dropped ends without outcome (assumption log 31). -/
def Device.contSent (d : Device) (m : Ram) (bus : List HostRange) (e : Exchange) (a : Addr) (free : Bool) : Device :=
  match (d.transfers a).byTag e.tag with
  | some r =>
    let d := d.beginCont m bus free a r (e.framesLeft - 1)
    { d with lnc.exchange := d.lnc.exchange.map fun (x : Exchange) => { x with voided := e.voided } }.idleIfStopping
  | none => d.clearExchange.idleIfStopping

/-- The last octet of a frame has been sent (R98). -/
def Device.frameSent (d : Device) (m : Ram) (bus : List HostRange) (free : Bool) : Device :=
  match d.lnc.exchange with
  | some e =>
    if e.phase = .sending ∧ d.lnc.deferral = none then
      match e.dest with
      | none => d.commitSent e free
      | some a => if e.kind = .cont ∧ e.framesLeft ≠ 0 then d.contSent m bus e a free else d.awaitReply e
    else d
  | none => d

def doFrameSent (free : Bool) (ranges : List HostRange) (bus : AreaBus) (s : State) : State :=
  s.act bus (·.frameSent s.ram ranges free)
/-- FRAME_SENT (R98, R134, R170). -/
def execFrameSent (free : Bool) (ranges : List HostRange) (s : State) : Host.Outcome State Fault Refusal :=
  .next (doFrameSent free ranges .sound s)

/-- The sync octet arrives while a reply is awaited (R98). -/
def Device.syncReceived (d : Device) : Device :=
  match d.lnc.exchange with
  | some e =>
    if e.phase = .awaiting then
      { d with lnc.exchange := some { e with phase := .receiving }, lnc.replyTimer := none }
    else d
  | none => d

def doSyncOctetReceived (s : State) : State := { s with dev := s.dev.syncReceived }
/-- SYNC_OCTET_RECEIVED (R98). -/
def execSyncOctetReceived (s : State) : Host.Outcome State Fault Refusal := .next (doSyncOctetReceived s)

/-! ## Contention and RECOVER (R102, R122) -/

/-- Whether contention can be found: while a frame is being sent, or while a reply arrives (R102). -/
def Device.contentionFound (d : Device) (e : Exchange) : Bool :=
  (e.phase == .sending && d.lnc.deferral == none) || e.phase == .receiving

/-- Contention: the exchange ends, counted at ROS when it has an address, and the line enters RECOVER (R102, R103). -/
def Device.contention (d : Device) : Device :=
  match d.lnc.exchange with
  | some e =>
    if d.contentionFound e then
      match e.dest with
      | none => (d.recover.clearExchange.broadcastMade).idleIfStopping
      | some a => d.recover.missEnds e a .contention
    else d
  | none => d

def doContention (bus : AreaBus) (s : State) : State := s.act bus Device.contention
/-- CONTENTION (R102). -/
def execContention (s : State) : Host.Outcome State Fault Refusal := .next (doContention .sound s)

/-- The guard time has passed: the line returns to the state it left, or begins a cycle when an exit event was taken
meanwhile (R122). -/
def Device.guardPassed (d : Device) (attnLow : Bool) : Device :=
  let d := { d with lnc.guardTimer := none }
  match d.lnc.line with
  | .recoverCycle => { d with lnc.line := .cycle }
  | .recoverQuiet true => d.cycleStart true
  | .recoverQuiet false => { d with lnc.line := .quiet }.judgeAttention attnLow
  | .idle | .cycle | .quiet => d

def doGuardTimeExpiry (attnLow : Bool) (bus : AreaBus) (s : State) : State := s.act bus (·.guardPassed attnLow)
/-- GUARD_TIME_EXPIRY (R122). -/
def execGuardTimeExpiry (attnLow : Bool) (s : State) : Host.Outcome State Fault Refusal :=
  .next (doGuardTimeExpiry attnLow .sound s)

end Sys2Proof.Machine
end

