-- ==== Sys2Proof/Machine/Sweep.lean ====
section
/-! DEFINITION. The meanings of STARTING (R193), of STOPPING's end (R194), of the sweep timer's expiry (R182) and of a sweep
(R183). -/

namespace Sys2Proof.Machine

/-! ## What is read of the area -/

/-- Whether a notice cell is owned by DEVICE. -/
def State.cellFree (s : State) (a : Addr) : Bool := ownerIsDevice (s.ram.octet (s.dev.areaBase + cellOffset a))

/-- A field of the header. -/
def State.header (s : State) (offset n : Nat) : Nat := s.ram.field (s.dev.areaBase + offset) n

/-- The thirty-two slots, lowest first. -/
def allSlots : List Slot := List.finRange 32

/-- The slots in rotation order (R183). -/
def rotationOrder (first : Slot) : List Slot := allSlots.map fun s => first + s

/-- Host RAM after software's writes. -/
def State.afterHost (s : State) (host : List Host.Cell) : State := { s with ram := s.ram.hostWrites host }

/-! ## STARTING (R193) -/

/-- Whether the header is good (R193 step 1). -/
def State.headerGood (s : State) : Bool :=
  s.header 0 4 == Config.signature && s.header 4 2 == Config.layoutVersion

/-- A bad header: cause AREA, RUN cleared, the device OFF (R193 step 1). -/
def Device.badHeader (d : Device) : Device :=
  { d with port.run := false, port.device := .off }.raise .area

/-- Step 2: the epoch rule, and the sweep interval (R159, R193). -/
def Device.headerTaken (d : Device) (epoch interval : Nat) : Device :=
  { d.epochRule epoch with port.sweepInterval := sweepIntervalOf interval }

/-- Step 3: each cell taken as FILLED or FREE by its owner (R59, R193). -/
def Device.cellsTaken (d : Device) (free : Addr → Bool) : Device :=
  d.mapRecords fun a r => { r with cellFilled := !free a }

/-- What step 6 returns of a slot found TAKEN, with the kind and software reference that the area shows
(assumption log 24). -/
def State.abortedReturn (s : State) (slot : Slot) : Return where
  slot := slot
  status := .refused
  outcome := .aborted
  detail := 0
  kind := s.ram.octet (s.slotBase slot + 2)
  ref := s.slotRef slot

/-- The slots that step 3 finds owned by DEVICE with status TAKEN and not held by the part, in ascending order (R193). -/
def State.abortedReturns (s : State) : List Return :=
  (allSlots.filter fun i => s.slotReads i (num SlotStatus.taken.code) && s.dev.port.held[i] == none).map
    s.abortedReturn

/-- What is handed over before the mirrors are written in full is written with them (R188). -/
def Publication.isRewrite : Publication → Bool
  | .catRewrite _ | .rosterRewrite _ | .coordRewrite | .summaryRewrite => true
  | .slotReturn _ | .noticeFill _ _ _ | .clockCopy | .stateCopy => false

/-- Step 4: every mirror record, the hot summary, the counts and the clock copy written (R188, R193). -/
def Run.republish (r : Run) : Run :=
  let r := r.writeState
  let r := r.always fun d => { d with outbox := d.outbox.filter (!·.isRewrite) }
  let r := allIndices.foldl Run.writeCat r
  let r := allAddrs.foldl Run.writeRos r
  ((((r.writeCoord).writeSummary).writeSeen).writeDeviceCount).writeClock

/-- Step 5: the returns owed list written out, oldest first, each record leaving the list with its return; a fault leaves the
records not yet begun (R187). -/
def Run.writeOwed (r : Run) : List Return → Run
  | [] => r
  | ret :: rest =>
    if r.alive then
      ((r.always fun d => { d with port.returnsOwed := rest }).returnSlot ret).writeOwed rest
    else r

/-- Step 6: the slots found TAKEN returned ABORTED (R193). -/
def Run.returnAborted (r : Run) : List Return → Run
  | [] => r
  | ret :: rest => if r.alive then (r.returnSlot ret).returnAborted rest else r

/-- Step 7: RUNNING, with the first sweep begun; with RUN written 0 meanwhile STOPPING at once, and else the line running when
line enable is set (R109, R192, R193). -/
def Device.nowRunning (d : Device) : Device :=
  { d with port.device := .running, port.promptOwed := true }.beginSweep

/-- What the state of RUN and of line enable makes of the entry into RUNNING (R109, R192). -/
def Device.afterRunning (d : Device) : Device := if d.port.run then d.lineMayStart else d.enterStopping

/-- The steps of STARTING from the second on, the header being good (R193). -/
def Run.startingSteps (r : Run) : Run :=
  let s := r.state
  let r := r.always (·.headerTaken (s.header 6 1) (s.header 8 2))
  let r := r.read
  let aborted := s.abortedReturns
  let r := r.inside (·.cellsTaken s.cellFree)
  let r := r.republish
  let r := r.writeOwed r.state.dev.port.returnsOwed
  let r := (r.returnAborted aborted)
  let r := (r.inside Device.nowRunning).writeState
  let before := r.state.dev
  if r.alive then (r.always Device.afterRunning).settle before else r

/-- STARTING acted on, software's writes having been made (R193). -/
def Run.starting (r : Run) : Run :=
  let r := r.read
  if r.alive then
    (if r.state.headerGood then r.startingSteps else r.always Device.badHeader)
  else r

def doStarting (host : List Host.Cell) (bus : AreaBus) (s : State) : State :=
  let s := s.afterHost host
  if s.dev.port.device = .starting then ({ state := s, bus } : Run).starting.finish else s
/-- STARTING (R193). -/
def execStarting (host : List Host.Cell) (s : State) : Host.Outcome State Fault Refusal :=
  .next (doStarting host .sound s)

/-! ## STOPPING's end (R192, R194) -/

/-- OFF reached, with STARTING at once when RUN has been written 1 (R192). -/
def Device.stopped (d : Device) : Device :=
  { d with port.device := if d.port.run then .starting else .off }

/-- Whether STOPPING is over (R194). -/
def Device.stoppingOver (d : Device) : Bool :=
  d.port.device == .stopping && d.lnc.line == .idle && d.vfy.queue.isEmpty

def doStoppingEnd (bus : AreaBus) (s : State) : State :=
  if s.dev.stoppingOver then
    ((({ state := s, bus } : Run).write 24 [num DeviceState.off.code]).inside Device.stopped).finish
  else s
/-- STOPPING_END (R194). -/
def execStoppingEnd (s : State) : Host.Outcome State Fault Refusal := .next (doStoppingEnd .sound s)

/-! ## Sweeps (R182, R183) -/

/-- The sweep timer has expired: a sweep begins, or one is owed (R182). -/
def Device.sweepTimerExpired (d : Device) : Device :=
  if d.port.device = .running then { d with port.sweepTimer := none }.callSweep else d

def doSweepTimerExpiry (s : State) : State := { s with dev := s.dev.sweepTimerExpired }
/-- SWEEP_TIMER_EXPIRY (R182). -/
def execSweepTimerExpiry (s : State) : Host.Outcome State Fault Refusal := .next (doSweepTimerExpiry s)

/-- The slots that a sweep takes: owned by DEVICE, PENDING, and not held, in rotation order (R183). -/
def State.pendingSlots (s : State) : List Slot :=
  (rotationOrder s.dev.port.rotation).filter fun i => s.slotReads i 0 && s.dev.port.held[i] == none

/-- The FILLED cells that a sweep finds owned by DEVICE become FREE (R59, R183). -/
def Device.cellsFreed (d : Device) (free : Addr → Bool) : Device :=
  d.mapRecords fun a r => if free a then { r with cellFilled := false } else r

/-- One slot of a sweep taken, its request read from the area as it stands (R183, R184). -/
def Run.sweepSlot (r : Run) (slot : Slot) : Run :=
  if r.alive then r.take slot (r.state.slotRef slot) (readRequest r.state.ram (r.state.slotBase slot)) else r

/-- The part of a sweep that a changed count or prompt owed brings (R183). -/
def Run.sweepActs (r : Run) (count : Word32) : Run :=
  let r := r.read
  let s := r.state
  let slots := s.pendingSlots
  let r := (r.inside fun d => ({ d with port.promptOwed := false }).cellsFreed s.cellFree).settle s.dev
  let r := slots.foldl Run.sweepSlot r
  let changed := r.state.dev.port.seenCount != count
  let r := r.inside fun d => { d with port.seenCount := count }
  if changed then r.writeSeen else r

/-- A sweep (R183). -/
def Run.sweep (r : Run) : Run :=
  let r := r.read
  let count : Word32 := BitVec.ofNat 32 (r.state.header 12 4)
  let interval := r.state.header 8 2
  let r := r.inside fun d => { d with port.sweepInterval := sweepIntervalOf interval }
  let r :=
    if r.alive && (count != r.state.dev.port.seenCount || r.state.dev.port.promptOwed) then r.sweepActs count else r
  r.inside Device.endSweep

def doSweep (host : List Host.Cell) (bus : AreaBus) (s : State) : State :=
  let s := s.afterHost host
  if s.dev.port.device = .running ∧ s.dev.port.sweepInProgress then ({ state := s, bus } : Run).sweep.finish else s
/-- SWEEP (R183). -/
def execSweep (host : List Host.Cell) (s : State) : Host.Outcome State Fault Refusal := .next (doSweep host .sound s)

end Sys2Proof.Machine
end

