-- ==== Sys2Proof/Machine/AreaFault.lean ====
section
/-! DEFINITION. The meaning of AREA_FAULT (R195): an operation under way, one of whose accesses to the exchange area reports a bus
error. -/

namespace Sys2Proof.Machine

/-- An operation carried out with a given bus towards the area. The operations without an access to the area do what they
always do; an area fault is no operation. -/
def runOperation (op : Instr) (bus : AreaBus) (s : State) : State :=
  match op with
  | .deviceReset source => doDeviceReset source s
  | .softReset => doSoftReset s
  | .run value => doRun value bus s
  | .lineEnable value => doLineEnable value bus s
  | .prompt => doPrompt s
  | .cancel => doCancel bus s
  | .xbaseWrite value => doXbaseWrite value s
  | .causeClear value => doCauseClear value s
  | .xmaskWrite value => doXmaskWrite value s
  | .xclockWrite value => doXclockWrite value bus s
  | .registerWriteOther offset value => doRegisterWriteOther offset value s
  | .starting host => doStarting host bus s
  | .stoppingEnd => doStoppingEnd bus s
  | .areaFault _ _ => s
  | .sweepTimerExpiry => doSweepTimerExpiry s
  | .sweep host => doSweep host bus s
  | .post slot ref fields => doPost slot ref fields bus s
  | .withdraw slot ref index generation => doWithdraw slot ref index generation bus s
  | .target slot ref fields => doTarget slot ref fields bus s
  | .hotAdd slot ref count first second third => doHotAdd slot ref count first second third bus s
  | .enrol slot ref address flag weight => doEnrol slot ref address flag weight bus s
  | .exclude slot ref address => doExclude slot ref address bus s
  | .readmit slot ref address => doReadmit slot ref address bus s
  | .lineSet slot ref fields => doLineSet slot ref fields bus s
  | .badKind slot ref kind => doBadKind slot ref kind bus s
  | .verificationStart => doVerificationStart s
  | .verificationEnd ranges => doVerificationEnd ranges bus s
  | .clockStep => doClockStep bus s
  | .silenceExpiry address => doSilenceExpiry address bus s
  | .cycleEnd attnLow => doCycleEnd attnLow bus s
  | .keepaliveExpiry => doKeepaliveExpiry bus s
  | .attentionEvent => doAttentionEvent bus s
  | .rollCallPoll free => doRollCallPoll free bus s
  | .transferGrant free ranges => doTransferGrant free ranges bus s
  | .lineFree => doLineFree s
  | .deferralExpiry => doDeferralExpiry s
  | .frameSent free ranges => doFrameSent free ranges bus s
  | .replyTimeout => doReplyTimeout bus s
  | .frameIncomplete => doFrameIncomplete bus s
  | .malformedReply => doMalformedReply bus s
  | .contention => doContention bus s
  | .guardTimeExpiry attnLow => doGuardTimeExpiry attnLow bus s
  | .replyCheckFailed octets => doReplyCheckFailed octets bus s
  | .status fields => doStatus fields bus s
  | .notice kind text => doNotice kind text bus s
  | .ack offset => doAck offset bus s
  | .nak cause detail offset => doNak cause detail offset bus s
  | .verdict code stream held => doVerdict code stream held bus s
  | .syncOctetReceived => doSyncOctetReceived s

def doAreaFault (op : Instr) (n : Nat) (s : State) : State := runOperation op (.failsAfter n) s
/-- AREA_FAULT (R195): the operation with its first `n` accesses sound and the next one faulting. -/
def execAreaFault (op : Instr) (n : Nat) (s : State) : Host.Outcome State Fault Refusal := .next (doAreaFault op n s)

end Sys2Proof.Machine
end

