-- ==== Sys2Proof/Machine/Dispatch.lean ====
section
/-! DEFINITION. One arm for each command. -/

namespace Sys2Proof.Machine

def exec (i : Instr) (s : State) : Host.Outcome State Fault Refusal :=
  match i with
  | .deviceReset source => Sys2Proof.Machine.execDeviceReset source s
  | .softReset => Sys2Proof.Machine.execSoftReset s
  | .run value => Sys2Proof.Machine.execRun value s
  | .lineEnable value => Sys2Proof.Machine.execLineEnable value s
  | .prompt => Sys2Proof.Machine.execPrompt s
  | .cancel => Sys2Proof.Machine.execCancel s
  | .xbaseWrite value => Sys2Proof.Machine.execXbaseWrite value s
  | .causeClear value => Sys2Proof.Machine.execCauseClear value s
  | .xmaskWrite value => Sys2Proof.Machine.execXmaskWrite value s
  | .xclockWrite value => Sys2Proof.Machine.execXclockWrite value s
  | .registerWriteOther offset value => Sys2Proof.Machine.execRegisterWriteOther offset value s
  | .starting host => Sys2Proof.Machine.execStarting host s
  | .stoppingEnd => Sys2Proof.Machine.execStoppingEnd s
  | .areaFault op n => Sys2Proof.Machine.execAreaFault op n s
  | .sweepTimerExpiry => Sys2Proof.Machine.execSweepTimerExpiry s
  | .sweep host => Sys2Proof.Machine.execSweep host s
  | .post slot ref fields => Sys2Proof.Machine.execPost slot ref fields s
  | .withdraw slot ref index generation => Sys2Proof.Machine.execWithdraw slot ref index generation s
  | .target slot ref fields => Sys2Proof.Machine.execTarget slot ref fields s
  | .hotAdd slot ref count first second third => Sys2Proof.Machine.execHotAdd slot ref count first second third s
  | .enrol slot ref address flag weight => Sys2Proof.Machine.execEnrol slot ref address flag weight s
  | .exclude slot ref address => Sys2Proof.Machine.execExclude slot ref address s
  | .readmit slot ref address => Sys2Proof.Machine.execReadmit slot ref address s
  | .lineSet slot ref fields => Sys2Proof.Machine.execLineSet slot ref fields s
  | .badKind slot ref kind => Sys2Proof.Machine.execBadKind slot ref kind s
  | .verificationStart => Sys2Proof.Machine.execVerificationStart s
  | .verificationEnd bus => Sys2Proof.Machine.execVerificationEnd bus s
  | .clockStep => Sys2Proof.Machine.execClockStep s
  | .silenceExpiry address => Sys2Proof.Machine.execSilenceExpiry address s
  | .cycleEnd attnLow => Sys2Proof.Machine.execCycleEnd attnLow s
  | .keepaliveExpiry => Sys2Proof.Machine.execKeepaliveExpiry s
  | .attentionEvent => Sys2Proof.Machine.execAttentionEvent s
  | .rollCallPoll free => Sys2Proof.Machine.execRollCallPoll free s
  | .transferGrant free bus => Sys2Proof.Machine.execTransferGrant free bus s
  | .lineFree => Sys2Proof.Machine.execLineFree s
  | .deferralExpiry => Sys2Proof.Machine.execDeferralExpiry s
  | .frameSent free bus => Sys2Proof.Machine.execFrameSent free bus s
  | .replyTimeout => Sys2Proof.Machine.execReplyTimeout s
  | .frameIncomplete => Sys2Proof.Machine.execFrameIncomplete s
  | .malformedReply => Sys2Proof.Machine.execMalformedReply s
  | .contention => Sys2Proof.Machine.execContention s
  | .guardTimeExpiry attnLow => Sys2Proof.Machine.execGuardTimeExpiry attnLow s
  | .replyCheckFailed octets => Sys2Proof.Machine.execReplyCheckFailed octets s
  | .status fields => Sys2Proof.Machine.execStatus fields s
  | .notice kind text => Sys2Proof.Machine.execNotice kind text s
  | .ack offset => Sys2Proof.Machine.execAck offset s
  | .nak cause detail offset => Sys2Proof.Machine.execNak cause detail offset s
  | .verdict code stream held => Sys2Proof.Machine.execVerdict code stream held s
  | .syncOctetReceived => Sys2Proof.Machine.execSyncOctetReceived s

end Sys2Proof.Machine
end

