-- ==== Sys2Proof/WellFormed.lean ====
section
/-! DEFINITION. Which commands can come about at all. The machine answers for every term; these checks say which terms
stand for something that can happen at the part. -/

namespace Sys2Proof

/-- Host writes name octets of the 64-bit host address space. -/
def hostWritesOk (host : List Host.Cell) : Bool := host.all (fun c => c.1 < Config.hostSpace)

/-- A run of failing host addresses is not reversed and lies in the host address space. -/
def rangesOk (bus : List HostRange) : Bool :=
  bus.all (fun r => r.first ≤ r.last && r.last < Config.hostSpace)

/-- The operations that access the exchange area, to which an area fault can belong (R195). -/
def Instr.mayAccessArea : Instr → Bool
  | .deviceReset _ | .softReset | .prompt | .xbaseWrite _ | .causeClear _ | .xmaskWrite _
  | .registerWriteOther _ _ | .sweepTimerExpiry | .verificationStart | .lineFree | .deferralExpiry
  | .syncOctetReceived | .areaFault _ _ => false
  | _ => true

/-- The command's operands are ones that its row can carry:
a register write "of another register" names an octet offset 0 to 7, where only XID stands (R189);
a kind is bad when it is none of codes 1 to 8 (R185); a drop-line address is 1 to 12 (R39);
a NOTICE has at most 1023 octets of text, the payload of a frame being at most 1024 (R87, R97);
the octets received with a complete reply are at least the 10 of a frame without payload (R87), and others may come before
and after it (R86, R98). -/
def Instr.wellFormed : Instr → Bool
  | .registerWriteOther offset _ => offset < 8
  | .starting host | .sweep host => hostWritesOk host
  | .areaFault op _ => op.mayAccessArea && op.wellFormed
  | .badKind _ _ kind => kind.toNat = 0 || 8 < kind.toNat
  | .verificationEnd bus | .transferGrant _ bus | .frameSent _ bus => rangesOk bus
  | .silenceExpiry address => 1 ≤ address && address ≤ 12
  | .notice _ text => text.length ≤ 1023
  | .replyCheckFailed octets => 10 ≤ octets.length
  | _ => true

end Sys2Proof
end

