-- ==== Sys2Proof/Safety.lean ====
section
/-! DEFINITION. What claims about the machine speak of: the states that commands leave behind, the part's region of the
exchange area, and the operation a command is. -/

namespace Sys2Proof.Machine

/-- Host RAM is in canonical form. -/
abbrev State.ramOk (s : State) : Prop := s.ram.wf

/-- The interrupt is asserted exactly while a cause flag is set whose enable is set (R191). -/
abbrev State.interruptOk (s : State) : Prop := s.dev.port.interrupt = s.dev.port.interruptDue

/-- Nothing is left over from a command: no publication waits, no exit event is unanswered. -/
abbrev State.settled (s : State) : Prop := s.dev.outbox = [] ∧ s.dev.exitEvent = false

/-- The line runs in RUNNING and STOPPING alone (R109). -/
abbrev State.lineOk (s : State) : Prop :=
  s.dev.lnc.line = .idle ∨ s.dev.port.device = .running ∨ s.dev.port.device = .stopping

/-- The hot queue is within its bound (R149). -/
abbrev State.hotOk (s : State) : Prop := s.dev.htq.queue.length ≤ 64

/-- No two entries that are not FREE share an identity (R1). -/
def State.identitiesOk (s : State) : Prop :=
  ∀ i j : CatIndex, i ≠ j → (s.dev.entry i).state ≠ .free → (s.dev.entry j).state ≠ .free →
    sameIdentity (s.dev.entry i) (s.dev.entry j) = false

/-- While the line is QUIET, or in the RECOVER entered from QUIET, no exchange is in flight and no record is SILENT
(R119, R121). -/
abbrev State.quietOk (s : State) : Prop :=
  s.dev.lnc.line = .idle ∨ s.dev.lnc.line = .cycle ∨ s.dev.lnc.line = .recoverCycle ∨
    (s.dev.lnc.exchange = none ∧ ∀ a : Addr, (s.dev.record a).presence ≠ .silent)

/-- In IDLE and in RECOVER no exchange is in flight (R102, R109). -/
abbrev State.recoverOk (s : State) : Prop :=
  s.dev.lnc.line = .idle ∨ s.dev.lnc.line = .recoverCycle → s.dev.lnc.exchange = none

/-- Between commands a state is safe. -/
abbrev State.safe (s : State) : Prop :=
  s.ramOk ∧ s.interruptOk ∧ s.settled ∧ s.lineOk ∧ s.hotOk ∧ s.quietOk ∧ s.recoverOk

/-! ## Invariants of the blocks -/

/-- The transfer records of a validator are within the limits of R127: at most 4 and at most its open slots, their tags 0 to 3,
no two of one tag or of one stream; and open slots is at most 4 (R40). -/
def Device.transfersOk (d : Device) : Prop :=
  ∀ a : Addr,
    let records := (d.transfers a).records
    records.length ≤ (d.record a).openSlots ∧ (d.record a).openSlots ≤ 4 ∧ (∀ r ∈ records, r.tag < 4) ∧
      (records.map (·.tag)).Nodup ∧ (records.map (·.stream)).Nodup

/-- In every transfer record the offsets are in order (R126). -/
def Device.offsetsOk (d : Device) : Prop :=
  ∀ a : Addr, ∀ r ∈ (d.transfers a).records, r.acked ≤ r.sent ∧ r.sent ≤ r.size

/-- Whether a job is to send an entry, and which (R63). -/
def Job.names (i : CatIndex) : Job → Bool
  | .send _ j _ _ => i == j
  | .drop _ => false

/-- Every SEND job of every plan names a READY entry of its stream, in its generation (R3, R63, R67). -/
def Device.plansOk (d : Device) : Prop :=
  ∀ a : Addr, ∀ j ∈ d.plan a,
    match j with
    | .send s i g _ => (d.entry i).state = .ready ∧ (d.entry i).generation = g ∧ (d.entry i).stream = s
    | .drop _ => True

/-- How many transfer records name an entry (R15). -/
def Device.openRecords (d : Device) (i : CatIndex) : Nat :=
  (allAddrs.map fun a => ((d.transfers a).records.filter (·.index == i)).length).sum

/-- Every entry's in-use count is the number of the records that name it, and a record names an entry that is in use in the
record's generation (R15). -/
def Device.usageOk (d : Device) : Prop :=
  (∀ i, (d.entry i).inUse = d.openRecords i) ∧
    ∀ a : Addr, ∀ r ∈ (d.transfers a).records,
      (d.entry r.index).generation = r.generation ∧ (d.entry r.index).stream = r.stream ∧
        (d.entry r.index).state ≠ .free ∧ (d.entry r.index).state ≠ .verifying

/-- Every entry in use leads upward if it is a DELTA, and has base 0 if it is a WHOLE (R1, R4). -/
def Device.editionsOk (d : Device) : Prop :=
  ∀ i, (d.entry i).state ≠ .free →
    ((d.entry i).form = .delta → (d.entry i).base < (d.entry i).edition) ∧ ((d.entry i).form = .whole → (d.entry i).base = 0)

/-- What a POST fixed of an entry for as long as the entry is in use (R1): its identity, size, footprint, check and list. -/
def Entry.posted (e : Entry) : Entry :=
  { e with state := .free, inUse := 0, fault := .none, pendingSlot := none, rejecters := AddrSet.empty }

/-! ## The exchange area -/

/-- Whether the part writes an offset of the exchange area: of the header its own fields, of a work slot octets 0 to 11, and the
mirrors, the coordinator record and the notice cells (R181, R184, R198). It writes nothing from 1780h on (R180). -/
def partOffset (o : Nat) : Bool :=
  (16 ≤ o && o < 26) || (28 ≤ o && o < 40) || (0x40 ≤ o && o < 0x840 && o % 64 < 12) || (0x840 ≤ o && o < 0x1780)

/-- Whether the part writes a host address. -/
def Device.partWrites (d : Device) (x : Nat) : Bool := d.areaBase ≤ x && partOffset (x - d.areaBase)

/-- Whether an offset lies in a run of the area. -/
def inRun (first length o : Nat) : Bool := first ≤ o && o < first + length

/-- The octets that a return writes: octets 0 to 11 of the slot, and the device count (R186). -/
def returnOctets (slot : Slot) (o : Nat) : Bool := inRun (slotOffset slot) 12 o || inRun 20 4 o

/-- Host RAM has changed at offsets of the exchange area that a test picks, and nowhere else. -/
def State.ramWithin (s t : State) (touched : Nat → Bool) : Prop :=
  ∀ x, (s.dev.areaBase ≤ x ∧ touched (x - s.dev.areaBase) = true) ∨ t.ram.octet x = s.ram.octet x

/-- Octets 0 to 11 of a slot that has been returned, the owner SOFTWARE (R186, R198). -/
def returnedOctets (status : SlotStatus) (outcome : SlotOutcome) (detail : Nat) (kind : Octet) (ref : Half) : List Octet :=
  [0, num status.code, kind, num outcome.code] ++ leOctets 2 ref.toNat ++ [0, 0] ++ leOctets 4 detail

/-- A slot has been returned: it is no longer held, the area shows it returned, and cause SLOT is set (R186). -/
def State.returned (t : State) (slot : Slot) (status : SlotStatus) (outcome : SlotOutcome) (detail : Nat) (kind : Octet)
    (ref : Half) : Prop :=
  t.dev.port.held[slot] = none ∧
    t.ram.octets (t.dev.areaBase + slotOffset slot) 12 = returnedOctets status outcome detail kind ref ∧
    t.dev.port.causes.getLsbD 0 = true

/-- A slot stands taken: it is held with its kind and software reference, and the area shows it owned by DEVICE and TAKEN (R184,
R185). -/
def State.taken (t : State) (slot : Slot) (kind : Octet) (ref : Half) : Prop :=
  t.dev.port.held[slot] = some { kind, ref } ∧ t.ram.octet (t.dev.areaBase + slotOffset slot) = 1 ∧
    t.ram.octet (t.dev.areaBase + slotOffset slot + 1) = 1 ∧ t.ram.octet (t.dev.areaBase + slotOffset slot + 3) = 0

/-- The mirrors show what they mirror while the area is accessed: each catalogue record, with its update count, its entry
(R20, R188); each roster record its record, but for a last valid reply time that has changed since (R61); the coordinator
record the coordinator (R177); the header the hot queue, the counts and the device state (R161, R181). -/
def State.mirrorsOk (s : State) : Prop :=
  s.dev.port.device = .running ∨ s.dev.port.device = .stopping →
    (∀ i, s.ram.octets (s.dev.areaBase + catOffset i) 32 =
      leOctets 4 (s.dev.port.catCounts[i]).toNat ++ catBody (s.dev.entry i)) ∧
    (∀ a, s.ram.octets (s.dev.areaBase + rosOffset a) 60 =
      leOctets 4 (s.dev.port.rosCounts[a]).toNat ++ (rosBody (s.dev.record a)).take 56 ∧
      ((s.dev.record a).replyTime = .shown →
        s.ram.field (s.dev.areaBase + rosOffset a + 60) 4 = (s.dev.record a).lastReply % 2 ^ 32)) ∧
    s.ram.octets (s.dev.areaBase + coordOffset) 64 =
      leOctets 4 s.dev.port.coordCount.toNat ++ coordBody s.dev.act ∧
    s.ram.octets (s.dev.areaBase + 32) 8 = hotSummary s.dev.htq ∧
    s.ram.octets (s.dev.areaBase + 16) 8 =
      leOctets 4 s.dev.port.seenCount.toNat ++ leOctets 4 s.dev.port.deviceCount.toNat ∧
    s.ram.octet (s.dev.areaBase + 24) = num s.dev.port.device.code

/-! ## What a command leaves -/

/-- Every block but EXP is as before. -/
def Device.blocksKept (d e : Device) : Prop :=
  e.cat = d.cat ∧ e.vfy = d.vfy ∧ e.tgt = d.tgt ∧ e.ros = d.ros ∧ e.pln = d.pln ∧ e.xfr = d.xfr ∧ e.htq = d.htq ∧
    e.act = d.act ∧ e.lnc = d.lnc ∧ e.fck = d.fck

/-- The registers and fields of EXP that neither publication nor a take or return of a slot touches are as before. -/
def Device.portKept (d e : Device) : Prop :=
  { e.port with
    causes := d.port.causes, interrupt := d.port.interrupt, deviceCount := d.port.deviceCount, held := d.port.held,
    rotation := d.port.rotation, returnsOwed := d.port.returnsOwed, catCounts := d.port.catCounts,
    rosCounts := d.port.rosCounts, coordCount := d.port.coordCount } = d.port

/-- EXP holds, owes and has counted what it did before: its slots, its returns owed and the device count. -/
def Device.slotsKept (d e : Device) : Prop :=
  d.portKept e ∧ e.port.held = d.port.held ∧ e.port.rotation = d.port.rotation ∧
    e.port.returnsOwed = d.port.returnsOwed ∧ e.port.deviceCount = d.port.deviceCount

/-- A slot that EXP may take: the device is RUNNING and does not hold it (R183, R184). -/
def State.takes (s : State) (slot : Slot) : Prop := s.dev.port.device = .running ∧ s.dev.port.held[slot] = none

/-- EXP after a command that took a slot: the rotation pointer is past it, the other slots are held as before, and the device
count has stepped `returns` times (R183, R186). -/
def State.tookSlot (s t : State) (slot : Slot) (returns : Nat) : Prop :=
  t.pending = s.pending ∧ s.dev.portKept t.dev ∧ t.dev.port.rotation = slot + 1 ∧
    t.dev.port.deviceCount = s.dev.port.deviceCount + BitVec.ofNat 32 returns ∧
    t.dev.port.returnsOwed = s.dev.port.returnsOwed

/-- A request answered at once: its slot, in which software has left it, is returned and nothing else is done (R184 to
R186). -/
def State.answeredOnly (s t : State) (slot : Slot) (status : SlotStatus) (outcome : SlotOutcome) (detail : Nat)
    (q : Request) (ref : Half) : Prop :=
  t.returned slot status outcome detail q.kind ref ∧ s.tookSlot t slot 1 ∧ s.dev.blocksKept t.dev ∧
    (∀ other, other ≠ slot → t.dev.port.held[other] = s.dev.port.held[other]) ∧
    (s.withRequest slot ref q).ramWithin t (returnOctets slot)

/-- Every slot that an entry or a return owed names is held, and named once (R184, R187): the slot of the POST or WITHDRAW that an
entry waits to answer is held by no other entry and by no return owed. -/
def State.slotsOk (s : State) : Prop :=
  (∀ i slot, (s.dev.entry i).pendingSlot = some slot →
    s.dev.port.held[slot] ≠ none ∧ ∀ j, (s.dev.entry j).pendingSlot = some slot → j = i) ∧
  (∀ ret ∈ s.dev.port.returnsOwed,
    s.dev.port.held[ret.slot] ≠ none ∧ ∀ i, (s.dev.entry i).pendingSlot ≠ some ret.slot) ∧
  (s.dev.port.returnsOwed.map (·.slot)).Nodup

/-- A validator record without what the Planner, the Transfer Engine and EXP's rewriting keep in it: what the validator has
reported, what ROS has counted, and what requests have set. -/
def ValRecord.learned (r : ValRecord) : ValRecord :=
  { r.mapCells fun c => { status := .idle, held := c.held, rejects := 0, hold := false, room := false } with
    reach := 0, replyTime := .shown }

/-- Every record, but that of one address if one is given, keeps what ROS has learned and counted. -/
def Device.learnedKept (d e : Device) (except : Option Addr) : Prop :=
  ∀ b : Addr, except ≠ some b → (e.record b).learned = (d.record b).learned

/-- Every entry but one, if one is given, keeps what its POST fixed, and its state and generation unless it was RETIRING. -/
def Device.entriesKept (d e : Device) (except : Option CatIndex) : Prop :=
  ∀ j : CatIndex, except ≠ some j → (d.entry j).state ≠ .retiring →
    (e.entry j).posted = (d.entry j).posted ∧ (e.entry j).state = (d.entry j).state

/-- The line is not in QUIET nor in a RECOVER entered from it, where an exit event would act on it (R120). -/
def State.awake (s : State) : Prop :=
  s.dev.lnc.line = .idle ∨ s.dev.lnc.line = .cycle ∨ s.dev.lnc.line = .recoverCycle

/-- A validator record after a valid reply that was clean, the record having been PRESENT (R47). -/
def ValRecord.answeredAt (r : ValRecord) (now : Word32) : ValRecord :=
  { r with
    misses := 0
    contentions := 0
    lastReply := now.toNat
    silenceTimer := some 0
    replyTime := .shown }

/-- An exchange of a kind with a validator whose reply is awaited or arriving, nothing having happened to it since it began,
on a line in CYCLE (R98). -/
def State.awaits (s : State) (a : Addr) (e : Exchange) : Prop :=
  s.dev.lnc.exchange = some e ∧ e.dest = some a ∧ (e.phase = .awaiting ∨ e.phase = .receiving) ∧ e.voided = .no ∧
    e.actStale = false ∧ s.dev.lnc.line = .cycle

/-- The line after an exchange has ended: none is in flight and its timers are stopped; in STOPPING the line has gone IDLE;
the configuration and the cycle's other state are as before (R98, R109, R121). `heldOver` and `turn` are as given. -/
def LineController.ended (l m : LineController) (stopping : Bool) (heldOver : AddrSet) (turn : Option (Addr × Nat)) : Prop :=
  m = { l with
        exchange := none, replyTimer := none, deferral := none, heldOver := heldOver, turn := turn,
        line := if stopping then .idle else l.line
        idleCount := if stopping then 0 else l.idleCount
        keepaliveTimer := if stopping then none else l.keepaliveTimer
        guardTimer := if stopping then none else l.guardTimer }

/-- A reply from a validator, accepted by the owner of the exchange or a NAK counted there, has ended the exchange: in STOPPING the
line is IDLE; the address is held over, its turn ended, when the reply was a NAK BUSY or counts as a miss (R98, R101, R114). The
other records keep what ROS has learned, and the entries, the registers, the verify queue, the BLOCK target and the clock are
as before. -/
def State.heardFrom (s t : State) (a : Addr) (heldOver : Bool) : Prop :=
  s.dev.lnc.ended t.dev.lnc (s.dev.port.device == .stopping)
      (if heldOver then s.dev.lnc.heldOver.insert a else s.dev.lnc.heldOver)
      (if heldOver then s.dev.lnc.turn.filter fun (x : Addr × Nat) => x.1 != a else s.dev.lnc.turn) ∧
    s.dev.learnedKept t.dev (some a) ∧ s.dev.portKept t.dev ∧ t.dev.fck = s.dev.fck ∧
    t.dev.tgt.block = s.dev.tgt.block ∧ t.pending = s.pending

/-- A PRESENT record after a reply that counts as a miss, its misses below the retry limit (R47). -/
def ValRecord.countedAt (r : ValRecord) (now : Word32) : ValRecord :=
  { r with lastReply := now.toNat, silenceTimer := some 0, misses := min 7 (r.misses + 1) }

/-- The command that a reply is. -/
def Reply.command : Reply → Instr
  | .status f => .status f
  | .notice kind text => .notice kind text
  | .ack x => .ack x
  | .nak cause detail x => .nak cause detail x
  | .verdict code stream held => .verdict code stream held

/-- Whether a SILENT record's silence period has passed, by a period in seconds (R48). -/
def ValRecord.silenceOut (r : ValRecord) (seconds : Nat) : Prop :=
  r.presence = .silent ∧ ∃ n, r.silenceTimer = some n ∧ seconds * 1000000 ≤ n

/-- A cycle has begun (R110, R112, R124): a pending configuration is in force, the cycle's state is afresh, the round-robin
pointer is kept, and the SILENT records whose period has passed have gone ABSENT (R48). `fresh` is set on leaving IDLE or
QUIET. -/
def State.cycleBegun (s t : State) (fresh : Bool) : Prop :=
  t.dev.lnc =
    { s.dev.lnc with
      line := .cycle, phase := .rollCall, cycleTimer := 0, rollPosition := 0
      config := s.dev.lnc.pendingConfig.getD s.dev.lnc.config
      pendingConfig := none
      probeCount :=
        if fresh ∨ (s.dev.lnc.pendingConfig.getD s.dev.lnc.config).probeInterval ≠ s.dev.lnc.config.probeInterval then 0
        else if (s.dev.lnc.pendingConfig.getD s.dev.lnc.config).probeInterval ≤ s.dev.lnc.probeCount + 1 then 0
        else s.dev.lnc.probeCount + 1
      idleCount := t.dev.lnc.idleCount
      heldOver := AddrSet.empty, turn := none, grantMade := false, keepaliveTimer := none, guardTimer := none
      attnLow := t.dev.lnc.attnLow } ∧
  (∀ a, (s.dev.record a).silenceOut (s.dev.lnc.pendingConfig.getD s.dev.lnc.config).silence →
    (t.dev.record a).presence = .absent) ∧
  (∀ a, ¬(s.dev.record a).silenceOut (s.dev.lnc.pendingConfig.getD s.dev.lnc.config).silence →
    (t.dev.record a).learned = (s.dev.record a).learned)

/-- An entry in use holds the identity that a POST names (R5). -/
def Entry.hasIdentity (e : Entry) (f : PostFields) : Prop :=
  e.state ≠ .free ∧ e.stream.code.val = f.stream.toNat ∧ e.form.code = f.form.toNat ∧ e.base = f.base.toNat ∧
    e.edition = f.edition.toNat

/-- What the line is after an exchange begins in the transfer phase: the exchange in SENDING with its first frame, which waits for
the line when it is not free (R86, R98, R113). -/
def LineController.begun (l : LineController) (free : Bool) (e : Exchange) : LineController :=
  { l with exchange := some e, deferral := if free then none else some (1034 * (10000 / l.config.rate)), grantMade := true }

/-- An exchange as it begins (R98), its frame as R87 lays it out. -/
def exchangeTo (dest : Option Addr) (kind : ExchangeKind) (tag offset left : Nat) (wanted : Bool) (payload : List Octet) :
    Exchange :=
  { dest, kind, tag, owner := kind.owner, framesLeft := left, phase := .sending,
    frame := partFrame dest kind tag offset wanted payload, voided := .no, actStale := false }

/-- The time left in the cycle holds an estimate in octet-times at the rate in force (R85, R117). -/
def LineController.holds (l : LineController) (estimate : Nat) : Prop :=
  estimate * (10000 / l.config.rate) ≤ l.config.cycleLength * 1000 - l.cycleTimer

/-- The line when an exchange owed does not fit the time left: the phase CLOSED, the turn ended (R117). -/
def LineController.closedPhase (l : LineController) : LineController := { l with phase := .closed, turn := none }

/-- The clock is valid and at or above a moment (R167). -/
def FleetClock.reached (c : FleetClock) (moment : Nat) : Prop := c.valid = true ∧ moment ≤ c.seconds.toNat

/-- ACT once ARMING, the commit judged by R167: decided at or above the activation time when every PRESENT address is ARMED, and
at or above the time the hold ends when one is not. -/
def Coordinator.Judged (c : Coordinator) (roster : Addr → ValRecord) (clock : FleetClock) (k : Coordinator) : Prop :=
  let allArmed := ∀ a, (roster a).presence = .present → c.standings[a].standing = .armed
  (allArmed ∧ clock.reached c.activation →
    k = { c with state := .committing, commitCause := .allArmed, broadcast := .owed }) ∧
  (¬allArmed ∧ clock.reached c.holdEnds →
    k = { c with state := .committing, commitCause := .holdExpired, broadcast := .owed }) ∧
  (¬(allArmed ∧ clock.reached c.activation) → ¬(¬allArmed ∧ clock.reached c.holdEnds) → k = { c with state := .arming })

/-- The broadcast has been made (R170), with no FARE target held: the commit time and armed count are kept, the standings follow
presence, and the coordinator has settled if no address is left to confirm (R173). -/
def State.broadcastDone (s t : State) : Prop :=
  t.dev.act.broadcast = .made ∧ t.dev.act.commitTime = s.dev.fck.seconds.toNat ∧
    t.dev.act.armedKept = s.dev.act.countOf .armed ∧
    (∀ a, t.dev.standing a =
      { s.dev.standing a with
        attempts := 0
        standing :=
          if (s.dev.record a).presence = .present ∨ (s.dev.record a).presence = .silent then .unconfirmed
          else if (s.dev.record a).presence = .absent ∨ (s.dev.record a).presence = .clash then .lagging
          else (s.dev.standing a).standing }) ∧
    t.dev.act.state =
      if s.dev.act.state = .committing ∧
          ∀ a, (s.dev.record a).presence ≠ .present ∧ (s.dev.record a).presence ≠ .silent then .settled
      else s.dev.act.state

/-- The coordinator's state after a command that changed a standing: in COMMITTING with the broadcast MADE it is SETTLED, with cause
ACTIVATION, when every address counted is CONFIRMED or LAGGING, and COMMITTING while one is not (R173). -/
def State.settlesInto (s t : State) : Prop :=
  let done (d : Device) : Prop :=
    ∀ a : Addr, (d.record a).presence ≠ .unused → (d.record a).presence ≠ .excluded →
      (d.standing a).standing = .confirmed ∨ (d.standing a).standing = .lagging
  (s.dev.act.state = .committing → s.dev.act.broadcast = .made → done t.dev →
    t.dev.act.state = .settled ∧ t.dev.port.causes.getLsbD 4 = true) ∧
  (s.dev.act.state = .committing → ¬done s.dev → ¬done t.dev → t.dev.act.state = .committing)

/-- The coordinator has started over for a FARE target: the standings afresh, a disarm owed where an address counted was ARMED or
shows an armed edition; IDLE for an untimed target or edition 0, else LOADING with the times of the target, judged at the
clock (R166). -/
def Device.startedOver (d e : Device) (target : FareTarget) : Prop :=
  (∀ a, e.standing a =
    if presenceCounted (d.record a).presence then
      { standing := .unarmed
        disarmOwed := (d.standing a).disarmOwed || (d.standing a).standing == .armed || (d.record a).armedEdition != 0
        armRefused := false, attempts := 0 }
    else
      { standing := .notCounted, disarmOwed := (d.standing a).disarmOwed, armRefused := false, attempts := 0 }) ∧
  (target.timing = none ∨ target.edition = 0 →
    e.act =
      { state := .idle, edition := target.edition, activation := 0, lead := 0, hold := 0, opens := 0, holdEnds := 0,
        broadcast := .notOwed, commitCause := .none, commitTime := 0, armedKept := 0, standings := e.act.standings }) ∧
  ∀ w, target.timing = some w → target.edition ≠ 0 →
    let loading : Coordinator :=
      { state := .loading, edition := target.edition, activation := w.activation, lead := w.lead, hold := w.hold,
        opens := w.activation - w.lead, holdEnds := min 4294967295 (w.activation + w.hold), broadcast := .notOwed,
        commitCause := .none, commitTime := 0, armedKept := 0, standings := e.act.standings }
    (¬d.fck.reached loading.opens → e.act = loading) ∧
      (d.fck.reached loading.opens → loading.Judged d.record d.fck e.act)

/-- The entry that a job sends, with its stream and generation. -/
def Job.send? : Job → Option (Stream × CatIndex × Nat)
  | .send s i g _ => some (s, i, g)
  | .drop _ => none

/-- The tier that a job drops. -/
def Job.drop? : Job → Option Stream
  | .send _ _ _ _ => none
  | .drop s => some s

/-- A record created for an entry: OPENING, both offsets 0, its abandon mark clear, under the lowest tag of 0 to 3 that no record of
the validator has (R127, R129). -/
def Device.newlyMade (d : Device) (a : Addr) (entry : Stream × CatIndex × Nat) (n : TransferRecord) : Prop :=
  let records := (d.transfers a).records
  n = { tag := n.tag, index := entry.2.1, generation := entry.2.2, stream := entry.1,
        size := (d.entry entry.2.1).size, sent := 0, acked := 0, phase := .opening, holdSent := false, marked := false } ∧
    (records.length < 4 → n.tag < 4 ∧ (∀ r ∈ records, r.tag ≠ n.tag) ∧ ∀ m < n.tag, ∃ r ∈ records, r.tag = m)

/-- What XFR offers a validator is what R129 lays down. 1: the ABANDON-all owed. 2: the ABANDON of the marked record found first,
the active one before the stack from its top. 3: the DROP of the first DROP job when no record of its tier stands. 4 and 5: with
the send head, the first SEND job, of higher priority than the active record, or with no record active, the record of its
entry taken out of the stack; else a new record, when none of its stream stands and the stack is not too deep, below
min(3, open slots − 1) for preemption and open slots without an active record; a record that was active is pushed. Else the
active record goes on, or nothing is offered (R127, R129). -/
def Device.offersByRule (d : Device) (a : Addr) : Prop :=
  let t := d.transfers a
  let slots := (d.record a).openSlots
  let noneOf (k : Stream) : Prop := ∀ r ∈ t.records, r.stream ≠ k
  let without (q : TransferRecord) : List TransferRecord := t.stack.filter (·.tag ≠ q.tag)
  let drop := ((d.plan a).filterMap Job.drop?).head?
  let head := ((d.plan a).filterMap Job.send?).head?
  (t.abandonAll = true → d.offer a = some .abandonAll) ∧
  (t.abandonAll = false →
    (∀ r, (t.active.toList ++ t.stack).find? (·.marked) = some r → d.offer a = some (.abandon r)) ∧
    ((∀ r ∈ t.records, r.marked = false) →
      (∀ k, drop = some k → noneOf k → d.offer a = some (.drop k)) ∧
      ((∀ k, drop = some k → ¬noneOf k) →
        (head = none → d.offer a = t.active.map (.next t false ·)) ∧
        ∀ x, head = some x →
          let stacked := t.stack.find? fun q => q.index = x.2.1 ∧ q.generation = x.2.2
          (∀ r, t.active = some r →
            (r.stream.code ≤ x.1.code → d.offer a = some (.next t false r)) ∧
            (x.1.code < r.stream.code →
              (∀ q, stacked = some q →
                d.offer a = some (.next { t with active := some q, stack := r :: without q } false q)) ∧
              (stacked = none →
                (noneOf x.1 ∧ t.stack.length < min 3 (slots - 1) →
                  ∃ n, d.newlyMade a x n ∧
                    d.offer a = some (.next { t with active := some n, stack := r :: t.stack } true n)) ∧
                (¬(noneOf x.1 ∧ t.stack.length < min 3 (slots - 1)) → d.offer a = some (.next t false r))))) ∧
          (t.active = none →
            (∀ q, stacked = some q →
              d.offer a = some (.next { t with active := some q, stack := without q } false q)) ∧
            (stacked = none →
              (noneOf x.1 ∧ t.stack.length < slots →
                ∃ n, d.newlyMade a x n ∧ d.offer a = some (.next { t with active := some n } true n)) ∧
              (¬(noneOf x.1 ∧ t.stack.length < slots) → d.offer a = none))))))

/-- The entries of a HOT frame to a validator, of which the time left holds `most`: from the oldest queued entry that follows the kept
high-water on, while the sequences are consecutive, at most `most` and at most the 8 or fewer that the effective payload
fits (R156). -/
def Device.hotFrameOf (d : Device) (a : Addr) (most : Nat) (entries : List HotEntry) : Prop :=
  let rest := d.htq.queue.dropWhile fun e => !seqFollows e.sequence (d.record a).hotHighWater
  let payload := min d.lnc.config.payloadLimit (d.record a).maxPayload
  let fit := min most (min 8 ((payload - 5) / 12))
  let consecutive (m : Nat) : Prop :=
    (rest[m]?.map (·.sequence)) = rest.head?.map fun e => seqAdd e.sequence m
  entries = rest.take entries.length ∧ entries.length ≤ fit ∧ (∀ m < entries.length, consecutive m) ∧
    (entries.length < fit → ¬consecutive entries.length)

/-- The payload of a HOT that carries entries (R94). -/
def hotPayloadOf (epoch : Nat) (restart : Bool) (entries : List HotEntry) : List Octet :=
  [BitVec.ofNat 8 epoch, if restart then 1 else 0, BitVec.ofNat 8 entries.length] ++
    leOctets 2 ((entries.head?.map (·.sequence)).getD 0) ++
    entries.flatMap fun e =>
      leOctets 8 e.card.toNat ++ [if e.action = .block then 1 else 2] ++ leOctets 1 e.tier ++ leOctets 2 e.edition

/-- The command that the request of a slot is (R185). -/
def Request.command (slot : Slot) (ref : Half) : Request → Instr
  | .post f => .post slot ref f
  | .withdraw index generation => .withdraw slot ref index generation
  | .target f => .target slot ref f
  | .hotAdd count first second third => .hotAdd slot ref count first second third
  | .enrol address flag weight => .enrol slot ref address flag weight
  | .exclude address => .exclude slot ref address
  | .readmit address => .readmit slot ref address
  | .lineSet f => .lineSet slot ref f
  | .unknown kind => .badKind slot ref kind

/-- The state after commands in their order. -/
def State.after (s : State) (commands : List Instr) : State :=
  commands.foldl (fun s c => match exec c s with
    | .next t => t
    | .fault _ => s
    | .refused _ => s) s

/-- The slots that a sweep takes, in rotation order: owned by DEVICE, PENDING and not held (R183). -/
def State.sweptSlots (s : State) : List Slot :=
  ((List.finRange 32).map fun k => s.dev.port.rotation + k).filter fun i =>
    s.ram.octet (s.dev.areaBase + slotOffset i) == 1 && s.ram.octet (s.dev.areaBase + slotOffset i + 1) == 0 &&
      s.dev.port.held[i].isNone

/-- A sweep has ended, and one that was owed has begun (R182). -/
def Port.sweepEnded (p : Port) : Port :=
  if p.sweepOwed then
    { p with sweepOwed := false, sweepInProgress := true, sweepTimer := some (p.sweepInterval * 1000) }
  else { p with sweepInProgress := false }

/-- The sweep interval that a header field sets (R181). -/
def intervalSet (field : Nat) : Nat := if field = 0 then 20 else min 1000 field

/-- The eleven fields of a line configuration in the order of the clamp mask (R123). -/
def LineConfig.fields (c : LineConfig) : List Nat :=
  [c.rate, c.cycleLength, c.probeInterval, c.payloadLimit, c.burst, c.replyTimeout, c.retryLimit, c.silence,
   c.quietEntry, c.keepalive, c.guardTime]

/-- The generation after one (R2). -/
def generationAfter (g : Nat) : Nat := if g = 255 then 1 else g + 1

/-- An entry that has become FREE (R2, R20): its generation stepped, its fault cause kept, its other fields 0. -/
def Entry.freedAs (e : Entry) (fault : FaultCause) : Entry := .blank (generationAfter e.generation) fault

/-- An address with its drop-line number. -/
def addressIs (octet : Octet) (a : Addr) : Prop := octet.toNat = a.val + 1

/-- A command answers a next state of which something holds. -/
def Answers (c : Instr) (s : State) (p : State → Prop) : Prop := ∃ t, exec c s = .next t ∧ p t

/-- The device has been halted by an area fault (R195): HALTED, sweeps stopped, the line IDLE with no exchange in flight, the
Verifier at rest with no entry in VERIFYING in its queue (R12), and cause AREA set. -/
def Device.haltedByFault (d : Device) : Prop :=
  d.port.device = .halted ∧ d.port.sweepTimer = none ∧ d.port.sweepInProgress = false ∧ d.port.promptOwed = false ∧
    d.port.sweepOwed = false ∧ d.lnc.line = .idle ∧ d.lnc.exchange = none ∧
    d.vfy.inFlight = false ∧ (∀ i ∈ d.vfy.queue, (d.entry i).state ≠ .verifying) ∧ d.port.causes.getLsbD 6 = true

/-- The state that both resets leave in every block but FCK (R21, R38, R62, R84, R107, R125, R148, R163, R179, R197). -/
def Device.cleared (d : Device) : Prop :=
  (d.port.run = false ∧ d.port.lineEnable = false ∧ d.port.causes = 0 ∧ d.port.device = .off ∧ d.port.seenCount = 0 ∧
    d.port.deviceCount = 0 ∧ d.port.rotation = 0 ∧ d.port.sweepTimer = none ∧ d.port.promptOwed = false ∧
    d.port.sweepOwed = false ∧ d.port.returnsOwed = [] ∧ (∀ slot : Slot, d.port.held[slot] = none) ∧
    (∀ i : CatIndex, d.port.catCounts[i] = 0) ∧ (∀ a : Addr, d.port.rosCounts[a] = 0) ∧ d.port.coordCount = 0) ∧
  (∀ i, (d.entry i).state = .free ∧ (d.entry i).generation = 1 ∧ (d.entry i).inUse = 0 ∧ (d.entry i).fault = .none ∧
    (d.entry i).pendingSlot = none ∧ ∀ a : Addr, (d.entry i).rejecters.has a = false) ∧
  (d.vfy.queue = [] ∧ d.vfy.inFlight = false) ∧
  (d.tgt.fare.edition = 0 ∧ d.tgt.fare.timing = none ∧ d.tgt.block = 0 ∧ d.tgt.heldFare = none) ∧
  (∀ a, (d.record a).presence = .unused ∧ (d.record a).weight = 1 ∧ (d.record a).hotStatus = .ok ∧
    (d.record a).reach = 0 ∧ (d.record a).serial = 0 ∧ (d.record a).maxPayload = 0 ∧ (d.record a).openSlots = 0 ∧
    (d.record a).hotCapacity = 0 ∧ (d.record a).fareCapacity = 0 ∧ (d.record a).blockCapacity = 0 ∧
    (d.record a).activeFare = 0 ∧ (d.record a).pendingFare = 0 ∧ (d.record a).armedEdition = 0 ∧
    (d.record a).hotEpochSeen = 0 ∧ (d.record a).hotHighWater = 0 ∧ (d.record a).noticePending = false ∧
    (d.record a).misses = 0 ∧ (d.record a).contentions = 0 ∧ (d.record a).unitChanges = 0 ∧
    (d.record a).lastReply = 0 ∧ (d.record a).silenceTimer = none ∧ (d.record a).statusOwed = false ∧
    (d.record a).cellFilled = false ∧
    ∀ s, (d.record a).cell s = { status := .idle, held := 0, rejects := 0, hold := false, room := false }) ∧
  (∀ a, d.plan a = []) ∧
  (∀ a, (d.transfers a).active = none ∧ (d.transfers a).stack = [] ∧ (d.transfers a).abandonAll = false) ∧
  (d.htq.queue = [] ∧ d.htq.nextSequence = 1 ∧ d.htq.newest = 0 ∧ d.htq.epoch = none ∧ d.htq.evicted = 0 ∧
    ∀ a, d.htq.restartOwed.has a = false) ∧
  (d.act.state = .idle ∧ d.act.edition = 0 ∧ d.act.activation = 0 ∧ d.act.lead = 0 ∧ d.act.hold = 0 ∧ d.act.opens = 0 ∧
    d.act.holdEnds = 0 ∧ d.act.broadcast = .notOwed ∧ d.act.commitCause = .none ∧ d.act.commitTime = 0 ∧
    d.act.armedCount = 0 ∧
    ∀ a, d.standing a = { standing := .notCounted, disarmOwed := false, armRefused := false, attempts := 0 }) ∧
  (d.lnc.line = .idle ∧ d.lnc.exchange = none ∧ d.lnc.replyTimer = none ∧ d.lnc.guardTimer = none ∧
    d.lnc.deferral = none ∧ d.lnc.keepaliveTimer = none ∧ d.lnc.idleCount = 0 ∧ d.lnc.probeCount = 0 ∧
    d.lnc.pointer = 0 ∧ d.lnc.turn = none ∧ (∀ a, d.lnc.heldOver.has a = false) ∧ d.lnc.grantMade = false ∧
    d.lnc.pendingConfig = none ∧
    d.lnc.config =
      { rate := 500, cycleLength := 100, probeInterval := 8, payloadLimit := 256, burst := 4, replyTimeout := 500,
        retryLimit := 3, silence := 10, quietEntry := 4, keepalive := 15, guardTime := 200 })

end Sys2Proof.Machine

namespace Sys2Proof

open Sys2Proof.Machine

/-- The fields of a POST are in range (R4). -/
def PostFields.inRange (f : PostFields) : Prop :=
  f.stream.toNat ≤ 4 ∧
    (f.form.toNat = 0 ∧ f.base.toNat = 0 ∨
      f.form.toNat = 1 ∧ 1 ≤ f.base.toNat ∧ f.base.toNat < f.edition.toNat) ∧
    1 ≤ f.edition.toNat ∧ 1 ≤ f.size.toNat ∧ f.size.toNat ≤ 4194304 ∧ f.footprint.toNat ≤ 16777215 ∧
    f.gather.toNat % 16 = 0 ∧ 1 ≤ f.fragments.toNat ∧ f.fragments.toNat ≤ 64

/-- The FARE target that a TARGET for FARE in range asks for (R25). -/
def TargetFields.fareTarget (f : TargetFields) : FareTarget :=
  { edition := f.edition.toNat
    timing :=
      if f.timed then
        some { activation := f.activation.toNat
               lead := if f.lead = 0xFFFF then 30 else f.lead.toNat
               hold := if f.hold = 0xFFFF then 60 else f.hold.toNat }
      else none }

/-- A TARGET passes the checks of R25. -/
def TargetFields.inRange (f : TargetFields) : Prop :=
  (f.stream = 0 ∧ f.timed = false) ∨
    (f.stream = 1 ∧ (f.timed = true →
      f.edition ≠ 0 ∧ (f.lead.toNat ≤ 3600 ∨ f.lead = 0xFFFF) ∧ (f.hold.toNat ≤ 600 ∨ f.hold = 0xFFFF)))

/-- One entry of a HOT_ADD is in range (R151). -/
def HotFields.inRange (f : HotFields) : Prop :=
  (f.action = 1 ∨ f.action = 2) ∧ f.tier.toNat ≤ 3 ∧ f.edition ≠ 0

/-- The hot entry that the fields stand for under a sequence (R149, R151). -/
def HotFields.entry (f : HotFields) (sequence : Nat) : HotEntry :=
  { sequence, card := f.card, action := if f.action = 1 then .block else .lift, tier := f.tier.toNat,
    edition := f.edition.toNat }

/-- The eleven values of a LINE_SET once clamped, rounded and selected (R123). -/
def LineFields.clamped (f : LineFields) : LineConfig where
  rate := if f.rate.toNat < 500 then 250 else if f.rate.toNat < 1000 then 500 else 1000
  cycleLength := min 1000 (max 10 f.cycleLength.toNat)
  probeInterval := min 16 (max 1 f.probeInterval.toNat)
  payloadLimit := min 1024 (max 64 f.payloadLimit.toNat) - min 1024 (max 64 f.payloadLimit.toNat) % 16
  burst := min 8 (max 1 f.burst.toNat)
  replyTimeout := min 5000 (max 100 f.replyTimeout.toNat)
  retryLimit := min 7 (max 1 f.retryLimit.toNat)
  silence := min 60 (max 1 f.silence.toNat)
  quietEntry := min 32 f.quietEntry.toNat
  keepalive := min 60 (max 1 f.keepalive.toNat)
  guardTime := min 1000 (max 50 f.guardTime.toNat)

/-- The eleven fields of a LINE_SET as given, in the order of the clamp mask (R123). -/
def LineFields.given (f : LineFields) : List Nat :=
  [f.rate.toNat, f.cycleLength.toNat, f.probeInterval.toNat, f.payloadLimit.toNat, f.burst.toNat,
   f.replyTimeout.toNat, f.retryLimit.toNat, f.silence.toNat, f.quietEntry.toNat, f.keepalive.toNat, f.guardTime.toNat]

/-- The operation that a command is: itself, or the operation that an area fault cuts (R195). -/
def Instr.operation : Instr → Instr
  | .areaFault op _ => op
  | c => c

/-- The octets that software writes before a command acts. -/
def Instr.hostWrites : Instr → List Host.Cell
  | .starting host | .sweep host => host
  | _ => []

/-- The slot, software reference and request of a request command (R185). -/
def Instr.request? : Instr → Option (Slot × Half × Request)
  | .post slot ref f => some (slot, ref, .post f)
  | .withdraw slot ref index generation => some (slot, ref, .withdraw index generation)
  | .target slot ref f => some (slot, ref, .target f)
  | .hotAdd slot ref count first second third => some (slot, ref, .hotAdd count first second third)
  | .enrol slot ref address flag weight => some (slot, ref, .enrol address flag weight)
  | .exclude slot ref address => some (slot, ref, .exclude address)
  | .readmit slot ref address => some (slot, ref, .readmit address)
  | .lineSet slot ref f => some (slot, ref, .lineSet f)
  | .badKind slot ref kind => some (slot, ref, .unknown kind)
  | _ => none

/-- Host RAM as software leaves it before the part acts on a command: its writes that come with STARTING and with a sweep, and its
request in the slot of a request command that the part takes (assumption log 4 and 19). -/
def Machine.State.softwareRam (s : State) (c : Instr) : Ram :=
  match c.request? with
  | some (slot, ref, q) => if s.dev.mayTake slot then (s.withRequest slot ref q).ram else s.ram
  | none => s.ram.hostWrites c.hostWrites

/-- Whether a command is a reset of the part (R197). -/
def Instr.isReset : Instr → Bool
  | .deviceReset _ | .softReset => true
  | _ => false

/-- Whether a command may enrol, exclude or readmit: the three requests, and a sweep, which takes requests (R42). -/
def Instr.mayEnrol : Instr → Bool
  | .enrol _ _ _ _ _ | .exclude _ _ _ | .readmit _ _ _ | .sweep _ => true
  | _ => false

end Sys2Proof
end

