-- ==== Sys2Proof/Certificates/Slice0/Obligations.lean ====
section
/-! DEFINITION. The statements for the provers, each a proposition about the machine: the whole machine first, then the rules
that a block computes by, then what each command does. -/

open Sys2Proof Sys2Proof.Machine

/-! ## The whole machine -/

/-- A step acts on the command at the front of the queue, the rest of the queue waiting. On an empty queue one µs passes and
nothing else happens (the model's choice, assumption log 5): the timers move, each within its bound, and all else stays. -/
def Obligations.StepRunsFrontCommand : Prop :=
  (∀ (c : Instr) (s : State) (rest : List Instr),
    step { s with pending := c :: rest } = exec c { s with pending := rest } ∧ step (s.withCommand c) = exec c s) ∧
  ∀ s : State, s.pending = [] → ∃ t : State, step s = .next t ∧ t.pending = [] ∧ t.ram = s.ram ∧
    t.dev.port = { s.dev.port with sweepTimer := s.dev.port.sweepTimer.map (· - 1) } ∧
    t.dev.fck = { s.dev.fck with micros := min 1000000 (s.dev.fck.micros + 1) } ∧
    t.dev.lnc = { s.dev.lnc with
      cycleTimer :=
        if s.dev.lnc.line = .cycle ∨ s.dev.lnc.line = .recoverCycle then
          min (s.dev.lnc.config.cycleLength * 1000) (s.dev.lnc.cycleTimer + 1)
        else s.dev.lnc.cycleTimer
      keepaliveTimer := s.dev.lnc.keepaliveTimer.map (· - 1)
      replyTimer := s.dev.lnc.replyTimer.map (· - 1)
      guardTimer := s.dev.lnc.guardTimer.map (· - 1)
      deferral := s.dev.lnc.deferral.map (· - 1) } ∧
    (∀ a, t.dev.record a =
      { s.dev.record a with silenceTimer := (s.dev.record a).silenceTimer.map fun n => min 60000000 (n + 1) }) ∧
    t.dev.cat = s.dev.cat ∧ t.dev.vfy = s.dev.vfy ∧ t.dev.tgt = s.dev.tgt ∧ t.dev.pln = s.dev.pln ∧
    t.dev.xfr = s.dev.xfr ∧ t.dev.htq = s.dev.htq ∧ t.dev.act = s.dev.act ∧ t.dev.outbox = s.dev.outbox ∧
    t.dev.exitEvent = s.dev.exitEvent

/-- Every command answers a next state in every state, and leaves the queue of waiting commands as it is.
It rests on choices of the model: assumption log entry 36. -/
def Obligations.ExecLeavesQueue : Prop := ∀ (c : Instr) (s : State), Answers c s fun t => t.pending = s.pending

/-- The state after reset meets every invariant stated below. -/
def Obligations.ResetMeetsInvariants : Prop :=
  State.reset.safe ∧ State.reset.identitiesOk ∧ State.reset.dev.transfersOk ∧ State.reset.dev.offsetsOk ∧
    State.reset.dev.plansOk ∧ State.reset.dev.usageOk ∧ State.reset.dev.editionsOk ∧ State.reset.mirrorsOk ∧
    State.reset.slotsOk

/-- Every step keeps a safe state safe: host RAM stays in canonical form; the interrupt is judged; what a command handed over is
answered (the model's own fields); the interrupt is asserted exactly while an enabled cause is set (R191); the line runs in
RUNNING and STOPPING alone, with an exchange in flight in CYCLE alone and no SILENT record in QUIET (R102, R109, R119, R121); the hot queue holds at most 64 entries (R149).
It rests on choices of the model: assumption log entry 42. -/
def Obligations.SafeKept : Prop := ∀ s : State, s.safe → ∀ t, step s = .next t → t.safe

/-- No two entries in use share an identity: every step keeps this (R1). -/
def Obligations.IdentitiesKept : Prop := ∀ s : State, s.identitiesOk → ∀ t, step s = .next t → t.identitiesOk

/-- The transfer records of every validator stay within the limits of R127, and in every record the offset acknowledged, the
offset sent and the size stay in order (R126). -/
def Obligations.TransferRecordsKept : Prop :=
  ∀ s : State, s.dev.transfersOk → ∀ t, step s = .next t →
    t.dev.transfersOk ∧ (s.dev.offsetsOk → t.dev.offsetsOk)

/-- Every SEND job names a READY entry of its stream and generation: every step keeps this (R3, R63, R67). -/
def Obligations.PlansNameReadyEntriesKept : Prop :=
  ∀ s : State, s.dev.plansOk → ∀ t, step s = .next t → t.dev.plansOk

/-- Every entry's in-use count stays the number of transfer records that name it (R15). -/
def Obligations.InUseCountsKept : Prop :=
  ∀ s : State, s.dev.transfersOk → s.dev.plansOk → s.dev.usageOk → ∀ t, step s = .next t → t.dev.usageOk

/-- An entry in use keeps what its POST fixed, until it becomes FREE with its generation stepped; and an entry comes into use
by a POST alone, which an area fault may undo at once (R1, R2, R5, R12). A sweep is left out, since one sweep may free an index
and take it again. -/
def Obligations.EntriesChangeByTheirLife : Prop :=
  ∀ (c : Instr) (s : State) (i : CatIndex), s.dev.editionsOk → c.operation.isReset = false →
    (∀ host, c.operation ≠ .sweep host) → ∀ t, exec c s = .next t →
    t.dev.editionsOk ∧
    ((s.dev.entry i).state ≠ .free →
      ((t.dev.entry i).state ≠ .free ∧ (t.dev.entry i).posted = (s.dev.entry i).posted) ∨
        ((t.dev.entry i).state = .free ∧
          (t.dev.entry i).generation = if (s.dev.entry i).generation = 255 then 1 else (s.dev.entry i).generation + 1)) ∧
    ((s.dev.entry i).state = .free →
      ((t.dev.entry i).state = .free ∧ (t.dev.entry i).generation = (s.dev.entry i).generation) ∨
        (∃ slot ref f, c.operation = .post slot ref f ∧
          (((t.dev.entry i).state = .verifying ∧ (t.dev.entry i).generation = (s.dev.entry i).generation) ∨
            (t.dev.port.device = .halted ∧ (t.dev.entry i).state = .free))))

/-- Once the mirrors show what they mirror, every command keeps them so while the area is accessed, as long as software writes
none of the part's octets; STARTING makes them so (R20, R51, R61, R161, R177, R181, R188).
It rests on choices of the model: assumption log entry 12. -/
def Obligations.MirrorsKept : Prop :=
  ∀ (c : Instr) (s : State), s.mirrorsOk → s.settled →
    (∀ w ∈ c.operation.hostWrites, s.dev.partWrites w.1 = false) → ∀ t, exec c s = .next t → t.mirrorsOk

/-- The part writes host RAM at its own offsets of the exchange area alone: never in the header's software fields, in a slot's
parameters, at offsets 1780h to 1FFFh, or outside the area, which are as software leaves them. In OFF and HALTED, and in
STARTING before its own steps, it writes nothing (R180, R181, R184).
It rests on choices of the model: assumption log entries 4 and 19. -/
def Obligations.AreaWritesConfined : Prop :=
  ∀ (c : Instr) (s : State), ∀ t, exec c s = .next t →
    (∀ x, s.dev.partWrites x = false → t.ram.octet x = (s.softwareRam c.operation).octet x) ∧
    (s.dev.port.device = .off ∨ s.dev.port.device = .halted ∨
      (s.dev.port.device = .starting ∧ ∀ host, c.operation ≠ .starting host) →
      t.ram = s.softwareRam c.operation)

/-- The device state changes as R192 lays down and no other way, and HALTED is entered by an area fault alone.
It rests on choices of the model: assumption log entries 8 and 36. -/
def Obligations.DeviceStatesFollowRun : Prop :=
  ∀ (c : Instr) (s : State), c.operation.isReset = false → ∀ t, exec c s = .next t → t.dev.port.device ≠ s.dev.port.device →
    (s.dev.port.device = .off ∧ c.operation = .run true ∧ t.dev.port.device = .starting) ∨
    (s.dev.port.device = .starting ∧ (∃ host, c.operation = .starting host) ∧
      (t.dev.port.device = .running ∧ s.dev.port.run = true ∨ t.dev.port.device = .stopping ∧ s.dev.port.run = false ∨
        t.dev.port.device = .off ∧ t.dev.port.run = false)) ∨
    (s.dev.port.device = .running ∧ c.operation = .run false ∧ t.dev.port.device = .stopping) ∨
    (s.dev.port.device = .stopping ∧ c.operation = .stoppingEnd ∧ s.dev.lnc.line = .idle ∧ s.dev.vfy.queue = [] ∧
      t.dev.port.device = if s.dev.port.run then .starting else .off) ∨
    (s.dev.port.device = .halted ∧ c.operation = .run false ∧ t.dev.port.device = .off) ∨
    ((∃ op n, c = .areaFault op n) ∧ t.dev.port.device = .halted ∧
      (s.dev.port.device = .starting ∨ s.dev.port.device = .running ∨ s.dev.port.device = .stopping))

/-- A register, the clock, the BLOCK target and the pending line configuration change by their own commands alone: XBASE by its
write, XMASK by its write, line enable and RUN by a write of XCTL (RUN also by a bad header), the clock by its step and
its write, the seen count by a sweep, the BLOCK target by TARGET, and the reset cause by a reset (R24, R123, R164, R189). -/
def Obligations.RegistersChangeByTheirCommands : Prop :=
  ∀ (c : Instr) (s : State), c.operation.isReset = false → ∀ t, exec c s = .next t →
    t.dev.port.resetCause = s.dev.port.resetCause ∧
    ((∀ v, c.operation ≠ .xbaseWrite v) → t.dev.port.xbase = s.dev.port.xbase) ∧
    ((∀ v, c.operation ≠ .xmaskWrite v) → t.dev.port.mask = s.dev.port.mask) ∧
    ((∀ v, c.operation ≠ .lineEnable v) → t.dev.port.lineEnable = s.dev.port.lineEnable) ∧
    ((∀ v, c.operation ≠ .run v) → t.dev.port.run = s.dev.port.run ∨
      t.dev.port.run = false ∧ t.dev.port.device = .off ∧ ∃ host, c.operation = .starting host) ∧
    ((∀ v, c.operation ≠ .causeClear v) → s.dev.port.causes ||| t.dev.port.causes = t.dev.port.causes) ∧
    ((∀ v, c.operation ≠ .xclockWrite v) → c.operation ≠ .clockStep → t.dev.fck = s.dev.fck) ∧
    ((∀ host, c.operation ≠ .sweep host) →
      t.dev.port.seenCount = s.dev.port.seenCount ∧
      ((∀ slot ref f, c.operation ≠ .target slot ref f) → t.dev.tgt.block = s.dev.tgt.block) ∧
      ((∀ slot ref f, c.operation ≠ .lineSet slot ref f) →
        t.dev.lnc.pendingConfig = s.dev.lnc.pendingConfig ∨ t.dev.lnc.pendingConfig = none))

/-- Presence UNUSED, CLASH or EXCLUDED is left by a request alone: by ENROL, READMIT, EXCLUDE, a sweep that takes one, or a
reset (R42). -/
def Obligations.EnrolmentKept : Prop :=
  ∀ (c : Instr) (s : State) (a : Addr), c.operation.isReset = false → c.operation.mayEnrol = false →
    ((s.dev.record a).presence = .unused ∨ (s.dev.record a).presence = .clash ∨ (s.dev.record a).presence = .excluded) →
    ∀ t, exec c s = .next t → (t.dev.record a).presence = (s.dev.record a).presence

/-- An exchange begins only where the rules let one begin: none was in flight, the device is RUNNING and the line in CYCLE with
its phase not CLOSED; in roll call it is a POLL of a PRESENT or SILENT address, or of an ABSENT one in a probe cycle; in
the transfer phase it goes to ALL, or to a PRESENT address that is not held over (R42, R98, R109, R111, R113, R114). An
exchange in flight goes on as the same exchange or ends. -/
def Obligations.ExchangesBeginByGrant : Prop :=
  ∀ (c : Instr) (s : State), ∀ t, exec c s = .next t → ∀ e, t.dev.lnc.exchange = some e →
    (∀ x, s.dev.lnc.exchange = some x → e.dest = x.dest ∧ e.tag = x.tag ∧ e.kind = x.kind) ∧
    (s.dev.lnc.exchange = none →
      s.dev.port.device = .running ∧ s.dev.lnc.line = .cycle ∧ e.phase = .sending ∧
        (s.dev.lnc.phase = .rollCall ∧ e.kind = .poll ∧
            (∃ a, e.dest = some a ∧
              ((s.dev.record a).presence = .present ∨ (s.dev.record a).presence = .silent ∨
                (s.dev.record a).presence = .absent ∧ s.dev.lnc.probeCount = 0)) ∨
          s.dev.lnc.phase = .transfer ∧
            (e.dest = none ∧ e.kind = .commitAll ∨
              ∃ a, e.dest = some a ∧ (s.dev.record a).presence = .present ∧ s.dev.lnc.heldOver.has a = false)))

/-- COMMIT is broadcast only while it is owed and with the clock valid and at or above the activation time, and once the
broadcast is MADE it stays so until the coordinator starts over on another FARE target (R170). A sweep is left out of the
second clause, since one sweep may replace the target twice. -/
def Obligations.BroadcastAtItsTimeOnce : Prop :=
  ∀ (c : Instr) (s : State), ∀ t, exec c s = .next t →
    (∀ e, t.dev.lnc.exchange = some e → e.kind = .commitAll →
      (∃ x, s.dev.lnc.exchange = some x ∧ x.kind = .commitAll) ∨
        s.dev.act.broadcast = .owed ∧ s.dev.fck.valid = true ∧ s.dev.act.activation ≤ s.dev.fck.seconds.toNat) ∧
    (c.operation.isReset = false → (∀ host, c.operation ≠ .sweep host) → s.dev.act.broadcast = .made →
      (s.dev.act.state = .committing ∨ s.dev.act.state = .settled) → t.dev.tgt.fare = s.dev.tgt.fare → t.dev.act.broadcast = .made)

/-- Every slot that an entry or a return owed names stays held and named once, until its return; and no command but STARTING and a
reset takes a record from the returns owed list, whose new records join its tail (R184, R187).
It rests on choices of the model: assumption log entry 21. -/
def Obligations.SlotsHeldUntilReturned : Prop :=
  (∀ s : State, s.slotsOk → s.settled → ∀ t, step s = .next t → t.slotsOk) ∧
  ∀ (c : Instr) (s : State), c.operation.isReset = false → (∀ host, c.operation ≠ .starting host) →
    ∀ t, exec c s = .next t → s.dev.port.returnsOwed <+: t.dev.port.returnsOwed

/-! ## Rules that blocks compute by -/

/-- A reply laid out octet by octet as R87, R88, R96 and R97 say, from the validator and under the tag of the exchange it answers,
is read back as it is, whatever it carries and whatever octets come after it, when its kind, its codes and a notice's length are
valid for the exchange (R86, R99, R100). -/
def Obligations.ReplyReadAsSent : Prop :=
  ∀ (a : Addr) (kind : ExchangeKind) (tag : Nat) (reply : Reply) (later : List Octet), tag < 4 →
    replyValid kind reply = true →
    (judgeReply (some a) kind tag (replyFrame (Addr.number a) tag reply ++ later)).toOption = some reply

/-- A frame from the part has the layout of R87: 10 octets more than its payload, the sync octet, address, origin 0,
reply-wanted and tag in octet 1, the kind code, a 24-bit offset, the payload length, the payload, and the CRC of R88 over
octets 1 to the end of the payload, low octet first. -/
def Obligations.FrameLaidOut : Prop :=
  ∀ (dest : Option Addr) (kind : ExchangeKind) (tag offset : Nat) (wanted : Bool) (payload : List Octet),
    tag < 4 → offset < 2 ^ 24 → payload.length ≤ 1024 →
    (partFrame dest kind tag offset wanted payload).length = 10 + payload.length ∧
    (partFrame dest kind tag offset wanted payload)[0]? = some 0xA5 ∧
    fieldAt (partFrame dest kind tag offset wanted payload) 1 1 =
      16 * (match dest with | some a => a.val + 1 | none => 15) + (if wanted then 4 else 0) + tag ∧
    (partFrame dest kind tag offset wanted payload)[2]? = some kind.code ∧
    fieldAt (partFrame dest kind tag offset wanted payload) 3 3 = offset ∧
    fieldAt (partFrame dest kind tag offset wanted payload) 6 2 = payload.length ∧
    ((partFrame dest kind tag offset wanted payload).drop 8).take payload.length = payload ∧
    fieldAt (partFrame dest kind tag offset wanted payload) (8 + payload.length) 2 =
      (crc16 (((partFrame dest kind tag offset wanted payload).drop 1).take (7 + payload.length))).toNat

/-- The check value in closed form: S1 is the sum of the segment's little-endian words, S2 the sum of each word times its place
counted from the end, each modulo 65535 (R9). -/
def Obligations.CheckValueOfWords : Prop :=
  ∀ octets : List Octet,
    (checkValue octets).toNat =
      ((List.range ((octets.length + 1) / 2)).map fun i =>
          ((octets.length + 1) / 2 - i) * ((octets.getD (2 * i) 0).toNat + 256 * (octets.getD (2 * i + 1) 0).toNat)).sum
        % 65535 * 65536 +
      ((List.range ((octets.length + 1) / 2)).map fun i =>
          (octets.getD (2 * i) 0).toNat + 256 * (octets.getD (2 * i + 1) 0).toNat).sum % 65535

/-- What XFR fetches for a CONT frame is the run of the segment that the Verifier reads: where the Verifier's walk completes, it
reads exactly size octets, and every fetch of octets within the segment gives those octets, whatever the gather list's
fragments (R6, R7, R134).
It rests on choices of the model: assumption log entries 3 and 7. -/
def Obligations.FetchIsSliceOfSegment : Prop :=
  ∀ (m : Ram) (bus : List HostRange) (area : Nat) (e : Entry) (octets : List Octet) (offset n : Nat), 1 ≤ e.fragments →
    (verifierWalk m bus area e.gather e.size e.fragments 0 0).toOption = some octets → offset + n ≤ e.size →
    octets.length = e.size ∧ (fetchPayload m bus area e offset n).toOption = some ((octets.drop offset).take n)

/-- The target footprint of a tier is that of the lowest-index READY entry of the tier at the BLOCK target, and is unknown when
there is none or the target is 0 (R33). -/
def Obligations.TargetFootprintFound : Prop :=
  ∀ (d : Device) (k f : Nat), k < 4 →
    (d.targetFootprint k = some f ↔
      d.tgt.block ≠ 0 ∧ ∃ i, (d.entry i).footprint = f ∧
        ((d.entry i).state = .ready ∧ (d.entry i).stream = tierStream k ∧ (d.entry i).edition = d.tgt.block) ∧
        ∀ j < i, ¬((d.entry j).state = .ready ∧ (d.entry j).stream = tierStream k ∧ (d.entry j).edition = d.tgt.block))

/-- Reach takes tiers from T0 on while their target footprints are known and fit the block capacity together: every tier within
reach is known with every tier below it, their sum does not exceed the capacity, and the tier at which reach stops is unknown
or would exceed it (R34). -/
def Obligations.ReachWithinCapacity : Prop :=
  ∀ (d : Device) (a : Addr), d.tgt.block ≠ 0 →
    ∃ c : Nat → Nat,
      (d.computeReach a).1 ≤ 4 ∧
      (∀ k < (d.computeReach a).1, d.targetFootprint k = some (c k)) ∧
      ((List.range (d.computeReach a).1).map c).sum ≤ (d.record a).blockCapacity ∧
      (((d.computeReach a).2 = .none ∧ (d.computeReach a).1 = 4) ∨
        ((d.computeReach a).2 = .unknown ∧ (d.computeReach a).1 < 4 ∧ d.targetFootprint (d.computeReach a).1 = none) ∨
        ((d.computeReach a).2 = .over ∧ (d.computeReach a).1 < 4 ∧
          ∃ f, d.targetFootprint (d.computeReach a).1 = some f ∧
            (d.record a).blockCapacity < ((List.range (d.computeReach a).1).map c).sum + f))

/-- The cost of a link is 68, 10 for each CONT frame, the octets still to send, and 14 for each burst, the frames and bursts being
the fewest that carry them; a link wholly acknowledged costs 68, and no link costs more than 7,340,100 (R71). -/
def Obligations.LinkCostCounted : Prop :=
  ∀ size resume payload burst : Nat, resume ≤ size → 32 ≤ payload → 1 ≤ burst →
    (∃ n b, linkCost size resume payload burst = 68 + 10 * n + (size - resume) + 14 * b ∧
      size - resume ≤ n * payload ∧ (∀ m, size - resume ≤ m * payload → n ≤ m) ∧ n ≤ b * burst ∧
      (∀ m, n ≤ m * burst → b ≤ m)) ∧
    (resume = size → linkCost size resume payload burst = 68) ∧
    (size ≤ 4194304 → linkCost size resume payload burst ≤ 7340100)

/-- The chain candidates of a stream are all the sequences of 1 to 4 READY DELTA entries that lead from the held edition to the
target, considered when the held edition is above 0 and below the target (R73, R74). -/
def Obligations.ChainsAreAllPaths : Prop :=
  ∀ (d : Device) (s : Stream) (held target : Nat) (path : List CatIndex), d.editionsOk →
    (path ∈ d.chainCandidates s held target ↔
      0 < held ∧ held < target ∧ 1 ≤ path.length ∧ path.length ≤ 4 ∧
      (∀ i ∈ path, (d.entry i).state = .ready ∧ (d.entry i).stream = s ∧ (d.entry i).form = .delta) ∧
      (path.head?.map fun i => (d.entry i).base) = some held ∧
      (∀ n i j, path[n]? = some i → path[n + 1]? = some j → (d.entry j).base = (d.entry i).edition) ∧
      (path.getLast?.map fun i => (d.entry i).edition) = some target)

/-- Among several chains the one chosen has the least cost, then the fewest links, then the lowest catalogue indices, first link
first (R75). -/
def Obligations.ChainChosenByTests : Prop :=
  ∀ (d : Device) (a : Addr) (candidates : List (List CatIndex)),
    (candidates = [] → d.bestChain a candidates = none) ∧
    (candidates ≠ [] → ∃ p ∈ candidates, d.bestChain a candidates = some p ∧
      ∀ q ∈ candidates, q ≠ p →
        d.pathCost a p < d.pathCost a q ∨ d.pathCost a p = d.pathCost a q ∧
          (p.length < q.length ∨ p.length = q.length ∧
            ∃ n, p.take n = q.take n ∧ ∃ i j, p[n]? = some i ∧ q[n]? = some j ∧ i < j))

/-- The path chosen is the chosen chain when there is one and no WHOLE candidate costs less, else the WHOLE candidate, which is
the READY WHOLE entry of the stream at the target, else none (R72, R74, R76, R77). -/
def Obligations.PathChosenByCost : Prop :=
  ∀ (d : Device) (a : Addr) (s : Stream) (held target : Nat),
    (∀ i j, (d.entry i).state = .ready → (d.entry j).state = .ready → sameIdentity (d.entry i) (d.entry j) = true → i = j) →
    d.editionsOk →
    ∀ path, d.choosePath a s held target = some path ↔
      (∃ chain, d.bestChain a (d.chainCandidates s held target) = some chain ∧ path = chain ∧
        ∀ i, ((d.entry i).state = .ready ∧ (d.entry i).stream = s ∧ (d.entry i).form = .whole ∧
          (d.entry i).edition = target) → d.pathCost a chain ≤ d.pathCost a [i]) ∨
      (∃ i, path = [i] ∧ (d.entry i).state = .ready ∧ (d.entry i).stream = s ∧ (d.entry i).form = .whole ∧
        (d.entry i).edition = target ∧
        ∀ chain, d.bestChain a (d.chainCandidates s held target) = some chain → d.pathCost a [i] < d.pathCost a chain)

/-- A plan holds at most 8 jobs, DROP jobs first with the highest tier first, then SEND jobs by stream priority and link number,
and names no catalogue entry twice (R64). -/
def Obligations.PlanOrdered : Prop :=
  ∀ (d : Device) (a : Addr), d.editionsOk →
    (d.computePlan a).2.2.length ≤ 8 ∧
    ((d.computePlan a).2.2.Pairwise fun x y =>
      match x, y with
      | .drop s, .drop r => r.code < s.code
      | .drop _, .send _ _ _ _ => True
      | .send _ _ _ _, .drop _ => False
      | .send s i _ n, .send r j _ m => i ≠ j ∧ (s.code < r.code ∨ s = r ∧ n < m))

/-- The status of a stream follows the order of R36: IDLE without a target; a BLOCK tier outside reach by the stop of R35; CURRENT
when it holds the target; HELD; SHORT by a room shortfall; else by path and FARE fit WAITING, SHORT or PLANNED. A DROP is
due for a tier from the boundary up that still holds an edition, after a stop OVER, never for T0; a PLANNED stream has the
SENDs of its path's entries in order, their links numbered from 1 (R35, R36, R63, R77 to R79). -/
def Obligations.StatusesInOrder : Prop :=
  ∀ (d : Device) (a : Addr) (s : Stream),
    let target := if s = .fare then d.tgt.fare.edition else d.tgt.block
    let reach := d.computeReach a
    let cell := (d.record a).cell s
    let status := (d.streamPlan a reach s).1
    let jobs := (d.streamPlan a reach s).2
    (target = 0 → status = .idle ∧ jobs = []) ∧
    (target ≠ 0 →
      (∀ k, s.tier? = some k → reach.1 ≤ k →
        (reach.2 = .over → k = 0 → status = .short ∧ jobs = []) ∧
        (reach.2 = .over → k ≠ 0 → status = .beyond ∧ jobs = if cell.held = 0 then [] else [.drop s]) ∧
        (reach.2 = .unknown → status = .waiting ∧ jobs = [])) ∧
      ((∀ k, s.tier? = some k → k < reach.1) →
        (cell.held = target → status = .current ∧ jobs = []) ∧
        (cell.held ≠ target →
          (cell.hold = true → status = .held ∧ jobs = []) ∧
          (cell.hold = false →
            (cell.room = true → status = .short ∧ jobs = []) ∧
            (cell.room = false →
              match d.choosePath a s cell.held target with
              | none => status = .waiting ∧ jobs = []
              | some path =>
                if s = .fare ∧ ∃ i, path.getLast? = some i ∧ (d.record a).fareCapacity < (d.entry i).footprint then
                  status = .short ∧ jobs = []
                else
                  status = .planned ∧ jobs = path.mapIdx fun n i => .send s i (d.entry i).generation (n + 1))))))


/-- A slot that holds a request as R198 lays it out is read back as that request, of every kind and whatever its parameters, with
its software reference (R185, R198). -/
def Obligations.RequestReadAsLaidOut : Prop :=
  ∀ (m : Ram) (a : Nat) (q : Request) (ref : Half), (∀ k, q = .unknown k → k.toNat = 0 ∨ 8 < k.toNat) →
    m.octets a 64 = q.layout ref →
    readRequest m a = q ∧ BitVec.ofNat 16 (m.field (a + 4) 2) = ref ∧ m.octet a = 1 ∧ m.octet (a + 1) = 0

/-- The exchange area's octets change with what they show: in a command other than STARTING, a sweep, an area fault and a reset, a
mirror record whose update count stays keeps its octets; and so, count included, does the mirror record of an entry, of a
validator or of the coordinator, the hot summary, the header's fields, a slot or a notice cell whose source the command leaves as
it was, in the commands that cannot change a source and change it back (R20, R60, R61, R161, R177, R181, R186, R188).
A cycle's end also writes the roster records whose last valid reply time is not shown (R61), and a STATUS the record of its
validator (R51).
It rests on choices of the model: assumption log entries 12 and 19. -/
def Obligations.AreaFollowsChanges : Prop :=
  ∀ (c : Instr) (s : State), s.settled → c = c.operation → c.isReset = false →
    (∀ host, c ≠ .starting host ∧ c ≠ .sweep host) → ∀ t, exec c s = .next t →
    let repliedFrom (a : Addr) : Prop :=
      (∃ e, s.dev.lnc.exchange = some e ∧ e.dest = some a) ∧
        ((∃ octets, c = .replyCheckFailed octets) ∨ ∃ reply : Reply, c = reply.command)
    (∀ i,
      t.dev.port.catCounts[i] = s.dev.port.catCounts[i] ∨
          (t.dev.entry i).state = (s.dev.entry i).state ∧ (t.dev.entry i).posted = (s.dev.entry i).posted ∧
            (t.dev.entry i).inUse = (s.dev.entry i).inUse ∧ (t.dev.entry i).fault = (s.dev.entry i).fault ∧
            (s.dev.openRecords i = 0 ∨ ∀ free bus, c ≠ .transferGrant free bus) →
        t.ram.octets (s.dev.areaBase + catOffset i) 32 = s.ram.octets (s.dev.areaBase + catOffset i) 32) ∧
    (∀ a,
      t.dev.port.rosCounts[a] = s.dev.port.rosCounts[a] ∨
          (t.dev.record a).shown = (s.dev.record a).shown ∧ (s.dev.transfers a).records = [] ∧
            s.dev.lnc.pendingConfig = none ∧ (∀ low, c ≠ .cycleEnd low) ∧ ¬repliedFrom a →
        t.ram.octets (s.dev.areaBase + rosOffset a) 128 = s.ram.octets (s.dev.areaBase + rosOffset a) 128) ∧
    (t.dev.port.coordCount = s.dev.port.coordCount ∨
        coordBody t.dev.act = coordBody s.dev.act ∧ s.dev.tgt.heldFare = none ∧
          (∀ slot ref f, c ≠ .target slot ref f) ∧ (∀ a, ¬repliedFrom a) ∧
          (∀ e, s.dev.lnc.exchange = some e → e.dest ≠ none) →
      t.ram.octets (s.dev.areaBase + coordOffset) 64 = s.ram.octets (s.dev.areaBase + coordOffset) 64) ∧
    (hotSummary t.dev.htq = hotSummary s.dev.htq → (∀ slot ref n f g h, c ≠ .hotAdd slot ref n f g h) →
      t.ram.octets (s.dev.areaBase + 32) 8 = s.ram.octets (s.dev.areaBase + 32) 8) ∧
    t.ram.octets (s.dev.areaBase + 16) 4 = s.ram.octets (s.dev.areaBase + 16) 4 ∧
    (t.dev.port.deviceCount = s.dev.port.deviceCount →
      t.ram.octets (s.dev.areaBase + 20) 4 = s.ram.octets (s.dev.areaBase + 20) 4) ∧
    (c ≠ .clockStep → (∀ v, c ≠ .xclockWrite v) →
      t.ram.octet (s.dev.areaBase + 25) = s.ram.octet (s.dev.areaBase + 25) ∧
        t.ram.octets (s.dev.areaBase + 28) 4 = s.ram.octets (s.dev.areaBase + 28) 4) ∧
    (t.dev.port.device = s.dev.port.device →
      t.ram.octet (s.dev.areaBase + 24) = s.ram.octet (s.dev.areaBase + 24)) ∧
    (∀ slot : Slot, t.dev.port.held[slot] = s.dev.port.held[slot] → (∀ ref q, c ≠ Request.command slot ref q) →
      t.ram.octets (s.dev.areaBase + slotOffset slot) 64 = s.ram.octets (s.dev.areaBase + slotOffset slot) 64) ∧
    ((∀ kind text, c ≠ .notice kind text) → (∀ octets, c ≠ .replyCheckFailed octets) → ∀ a,
      t.ram.octets (s.dev.areaBase + cellOffset a) 64 = s.ram.octets (s.dev.areaBase + cellOffset a) 64)

/-! ## Resets and registers -/

/-- A device reset leaves every block at its reset value, with the reset cause of its source; a soft reset does too, but keeps
XBASE, XMASK and the fleet clock. Neither makes an access to the area (R21, R38, R62, R84, R107, R125, R148, R163, R179,
R189, R197).
It rests on choices of the model: assumption log entry 25, for the values of the third clause that no rule gives. -/
def Obligations.ResetsClear : Prop :=
  (∀ (source : ResetSource) (s : State), Answers (.deviceReset source) s fun t =>
    t.dev.cleared ∧ t.dev.port.xbase = 0 ∧ t.dev.port.mask = 0 ∧ t.dev.port.interrupt = false ∧
      t.dev.port.resetCause = (match source with | .power => .power | .pin => .pin) ∧
      t.dev.fck = { seconds := 0, valid := false, micros := 0 } ∧ t.ram = s.ram ∧ t.pending = s.pending) ∧
  (∀ s : State, Answers .softReset s fun t =>
    t.dev.cleared ∧ t.dev.port.xbase = s.dev.port.xbase ∧ t.dev.port.mask = s.dev.port.mask ∧
      t.dev.port.interrupt = false ∧ t.dev.port.resetCause = .soft ∧ t.dev.fck = s.dev.fck ∧ t.ram = s.ram ∧
      t.pending = s.pending) ∧
  ∀ s : State, exec (.deviceReset .power) s = .next { s with dev := State.reset.dev }

/-- XBASE takes bits 63 to 13 of a write in OFF and HALTED and ignores it else; a write to XSTAT clears the cause flags written 1;
a write to XMASK sets the enables; the interrupt follows both at once; a write elsewhere is ignored (R189, R191). A register
reads as R189 lays it out.
It rests on choices of the model: assumption log entry 32, for XBASE, read as its low half at 08h and its high half at 0Ch. -/
def Obligations.RegistersWrittenAndRead : Prop :=
  ∀ (s : State) (w : Word64) (v : Word32) (n : Nat),
    exec (.xbaseWrite w) s =
      .next { s with dev.port.xbase :=
                if s.dev.port.device = .off ∨ s.dev.port.device = .halted then w.extractLsb' 13 51
                else s.dev.port.xbase } ∧
    (∀ t, exec (.xbaseWrite w) s = .next t → s.dev.port.device = .off ∨ s.dev.port.device = .halted →
      t.dev.readRegister 0x08 = (w &&& ~~~0x1FFF).extractLsb' 0 32 ∧ t.dev.readRegister 0x0C = w.extractLsb' 32 32) ∧
    (exec (.causeClear v) s =
        .next { s with dev.port := { s.dev.port with
                  causes := s.dev.port.causes &&& ~~~(v.extractLsb' 8 7)
                  interrupt := (s.dev.port.causes &&& ~~~(v.extractLsb' 8 7) &&& s.dev.port.mask) != 0 } } ∧
      ∀ t, exec (.causeClear v) s = .next t → ∀ k < 7,
        (t.dev.readRegister 0x14).getLsbD (8 + k) = ((s.dev.readRegister 0x14).getLsbD (8 + k) && !v.getLsbD (8 + k))) ∧
    (exec (.xmaskWrite v) s =
        .next { s with dev.port := { s.dev.port with
                  mask := v.extractLsb' 8 7
                  interrupt := (s.dev.port.causes &&& v.extractLsb' 8 7) != 0 } } ∧
      ∀ t, exec (.xmaskWrite v) s = .next t → t.dev.readRegister 0x18 = v &&& 0x7F00) ∧
    exec (.registerWriteOther n v) s = .next s ∧
    (s.dev.readRegister 0x00 = 0x010F24 + (match s.dev.port.resetCause with
        | .power => 0x01000000
        | .pin => 0x02000000
        | .soft => 0x03000000)) ∧
    (s.dev.readRegister 0x10 = (if s.dev.port.run then 1 else 0) ||| if s.dev.port.lineEnable then 0x10 else 0) ∧
    ((s.dev.readRegister 0x14).extractLsb' 0 3 = (match s.dev.port.device with
        | .off => 0
        | .starting => 1
        | .running => 2
        | .stopping => 3
        | .halted => 4) ∧
      (s.dev.readRegister 0x14).getLsbD 3 = s.dev.fck.valid ∧
      (s.dev.readRegister 0x14).extractLsb' 8 7 = s.dev.port.causes) ∧
    s.dev.readRegister 0x1C = s.dev.fck.seconds ∧ s.dev.readRegister 0x04 = 0

/-- RUN takes the value written, and the device state follows it: OFF passes to STARTING, HALTED to OFF on a write of 0, RUNNING to
STOPPING with the sweeps stopped, the state copy written and a line without an exchange in flight IDLE; the other writes
change RUN alone. STOPPING ends, the line IDLE and the verify queue empty, with the state copy written OFF, in OFF, or in
STARTING when RUN is 1. PROMPT in RUNNING sets prompt owed and calls a sweep, and so does the sweep timer's expiry: one begins with
its timer, or one is owed while one is in progress; in the other states neither has an effect. A sweep that finds its count
unchanged and no prompt owed reads the interval and ends (R109, R181 to R183, R190, R192, R194).
It rests on choices of the model: assumption log entries 4 and 36. -/
def Obligations.RunAndSweepsFollowed : Prop :=
  ∀ s : State, s.safe →
    (∀ v, s.dev.port.device ≠ .running ∨ v = true →
      exec (.run v) s =
        .next { s with dev.port := { s.dev.port with
                  run := v
                  device :=
                    if s.dev.port.device = .off ∧ v = true then .starting
                    else if s.dev.port.device = .halted ∧ v = false then .off
                    else s.dev.port.device } }) ∧
    (s.dev.port.device = .running →
      exec (.run false) s =
        .next { s with
          ram := s.ram.write (s.dev.areaBase + 24) [3]
          dev.port := { s.dev.port with
            run := false, device := .stopping, sweepTimer := none, sweepInProgress := false, promptOwed := false,
            sweepOwed := false }
          dev.lnc :=
            if s.dev.lnc.exchange = none then
              { s.dev.lnc with line := .idle, idleCount := 0, keepaliveTimer := none, guardTimer := none }
            else s.dev.lnc }) ∧
    (s.dev.port.device = .stopping → s.dev.lnc.line = .idle → s.dev.vfy.queue = [] →
      exec .stoppingEnd s =
        .next { s with
          ram := s.ram.write (s.dev.areaBase + 24) [0]
          dev.port.device := if s.dev.port.run then .starting else .off }) ∧
    (s.dev.port.device ≠ .stopping ∨ s.dev.lnc.line ≠ .idle ∨ s.dev.vfy.queue ≠ [] → exec .stoppingEnd s = .next s) ∧
    (s.dev.port.device ≠ .running → exec .prompt s = .next s ∧ exec .sweepTimerExpiry s = .next s) ∧
    (s.dev.port.device = .running →
      exec .prompt s =
          .next { s with dev.port :=
                    if s.dev.port.sweepInProgress then { s.dev.port with promptOwed := true, sweepOwed := true }
                    else { s.dev.port with promptOwed := true, sweepInProgress := true,
                                           sweepTimer := some (s.dev.port.sweepInterval * 1000) } } ∧
        exec .sweepTimerExpiry s =
          .next { s with dev.port :=
                    if s.dev.port.sweepInProgress then { s.dev.port with sweepTimer := none, sweepOwed := true }
                    else { s.dev.port with sweepInProgress := true,
                                           sweepTimer := some (s.dev.port.sweepInterval * 1000) } }) ∧
    ∀ host, let m := s.ram.hostWrites host
      (s.dev.port.device ≠ .running ∨ s.dev.port.sweepInProgress = false →
        exec (.sweep host) s = .next { s with ram := m }) ∧
      (s.safe → s.dev.port.device = .running → s.dev.port.sweepInProgress = true → s.dev.port.promptOwed = false →
        m.field (s.dev.areaBase + 12) 4 = s.dev.port.seenCount.toNat →
        exec (.sweep host) s =
          .next { s with
            ram := m
            dev.port :=
              { s.dev.port with sweepInterval := intervalSet (m.field (s.dev.areaBase + 8) 2) }.sweepEnded })

/-- Line enable takes the value written. Cleared, a line that runs goes IDLE at once, its exchange in flight ended without outcome,
a CONT burst's offset sent going back and a broadcast so cut, no FARE target being held, being MADE; set, an IDLE line begins a
cycle while RUNNING, at whose end the reply times that changed before it are not handed over (R61, R103, R109, R130, R170,
R190).
It rests on choices of the model: assumption log entries 15 and 39. -/
def Obligations.LineEnableFollowed : Prop :=
  ∀ s : State, s.safe →
    (s.dev.lnc.line = .idle → exec (.lineEnable false) s = .next { s with dev.port.lineEnable := false }) ∧
    (s.dev.lnc.line ≠ .idle → s.dev.lnc.exchange = none →
      exec (.lineEnable false) s =
        .next { s with
          dev.port.lineEnable := false
          dev.lnc := { s.dev.lnc with line := .idle, idleCount := 0, keepaliveTimer := none, guardTimer := none } }) ∧
    (∀ e a, s.dev.lnc.exchange = some e → e.dest = some a → e.kind ≠ .commitAll →
      Answers (.lineEnable false) s fun t =>
        t.ram = s.ram ∧ t.pending = s.pending ∧
          t.dev = { s.dev with
            port.lineEnable := false
            lnc := { s.dev.lnc with
              line := .idle, exchange := none, replyTimer := none, deferral := none, idleCount := 0,
              keepaliveTimer := none, guardTimer := none }
            xfr := t.dev.xfr } ∧
          ∀ b, t.dev.transfers b =
            if b = a ∧ e.kind = .cont then (s.dev.transfers b).change (·.tag == e.tag) fun r => { r with sent := r.acked }
            else s.dev.transfers b) ∧
    (∀ e, s.dev.lnc.exchange = some e → e.kind = .commitAll → e.dest = none → s.dev.tgt.heldFare = none →
      Answers (.lineEnable false) s fun t =>
        t.dev.port.lineEnable = false ∧ s.broadcastDone t ∧
          t.dev.lnc = { s.dev.lnc with
            line := .idle, exchange := none, replyTimer := none, deferral := none, idleCount := 0,
            keepaliveTimer := none, guardTimer := none } ∧
          t.dev = { s.dev with port := t.dev.port, lnc := t.dev.lnc, act := t.dev.act } ∧
          { s.dev with port.lineEnable := false }.portKept t.dev) ∧
    (s.dev.port.device ≠ .running ∨ s.dev.lnc.line ≠ .idle →
      exec (.lineEnable true) s = .next { s with dev.port.lineEnable := true }) ∧
    (s.dev.port.device = .running → s.dev.lnc.line = .idle →
      Answers (.lineEnable true) s fun t =>
        t.dev.port.lineEnable = true ∧ s.cycleBegun t true ∧
          (s.dev.lnc.pendingConfig = none → (∀ a, ¬(s.dev.record a).silenceOut s.dev.lnc.config.silence) →
            t.ram = s.ram ∧ t.dev = { s.dev with port.lineEnable := true, lnc := t.dev.lnc, ros := t.dev.ros } ∧
              ∀ a, t.dev.record a =
                { s.dev.record a with
                  replyTime :=
                    if (s.dev.record a).replyTime = .changedInCycle then .changedBefore
                    else (s.dev.record a).replyTime }))

/-- A write or a step of the clock sets the fleet clock, is copied into the header while RUNNING, and has ACT judge the time: in
LOADING arming opens at its moment, in ARMING the commit is judged, and a clock before the moment closes arming, its ARMED
addresses UNARMED and owed a disarm (R164, R167, R176).
It rests on choices of the model: assumption log entry 6. -/
def Obligations.ClockJudged : Prop :=
  ∀ (c : Instr) (s : State), s.safe → c = .clockStep ∨ (∃ v, c = .xclockWrite v) →
    Answers c s fun t =>
      (c = .clockStep → t.dev.fck = { s.dev.fck with seconds := s.dev.fck.seconds + 1, micros := 0 }) ∧
      (∀ v, c = .xclockWrite v → t.dev.fck = { seconds := v, valid := true, micros := 0 }) ∧
      (s.dev.port.device = .running →
        t.ram.octet (s.dev.areaBase + 25) = (if t.dev.fck.valid then 1 else 0) ∧
          t.ram.field (s.dev.areaBase + 28) 4 = t.dev.fck.seconds.toNat) ∧
      (s.dev.act.state ≠ .loading → s.dev.act.state ≠ .arming → t.dev.act = s.dev.act) ∧
      (s.dev.act.state = .loading → ¬t.dev.fck.reached s.dev.act.opens → t.dev.act = s.dev.act) ∧
      (s.dev.act.state = .loading ∨ s.dev.act.state = .arming → t.dev.fck.reached s.dev.act.opens →
        s.dev.act.Judged s.dev.record t.dev.fck t.dev.act ∧
          (s.dev.act.state ≠ t.dev.act.state → t.dev.port.causes.getLsbD 4 = true)) ∧
      (s.dev.act.state = .arming → ¬t.dev.fck.reached s.dev.act.opens →
        t.dev.act = { s.dev.act with state := .loading, standings := t.dev.act.standings } ∧
          t.dev.port.causes.getLsbD 4 = true ∧
          ∀ a, t.dev.standing a =
            if (s.dev.standing a).standing = .armed then
              { s.dev.standing a with standing := .unarmed, disarmOwed := true }
            else s.dev.standing a) ∧
      (s.awake → s.dev.slotsKept t.dev ∧
        t.dev = { s.dev with port := t.dev.port, act := t.dev.act, fck := t.dev.fck }) ∧
      t.pending = s.pending

/-! ## Sweeps, STARTING and area faults -/

/-- A sweep that finds its count changed or a prompt owed frees the FILLED cells that DEVICE owns, and takes every slot owned by
DEVICE, PENDING and not held, in rotation order, each as its request: what it does is what those request commands do one after
another. The rotation pointer is then past the last slot taken, and the seen count is the count read, which the header shows.
Of the other slots, one that was not held keeps its octets (R59, R183, R184).
It rests on choices of the model: assumption log entries 4, 19 and 38. -/
def Obligations.SweepTakesPendingSlots : Prop :=
  ∀ (host : List Host.Cell) (s : State), s.safe → s.dev.port.device = .running → s.dev.port.sweepInProgress = true →
    let u : State := { s with ram := s.ram.hostWrites host }
    let count := u.ram.field (s.dev.areaBase + 12) 4
    let interval := intervalSet (u.ram.field (s.dev.areaBase + 8) 2)
    let commands := u.sweptSlots.map fun i =>
      (readRequest u.ram (s.dev.areaBase + slotOffset i)).command i
        (BitVec.ofNat 16 (u.ram.field (s.dev.areaBase + slotOffset i + 4) 2))
    count ≠ s.dev.port.seenCount.toNat ∨ s.dev.port.promptOwed = true →
    (Answers (.sweep host) s fun t =>
      t.dev.port.seenCount = BitVec.ofNat 32 count ∧ t.dev.port.promptOwed = false ∧
        t.dev.port.sweepInterval = interval ∧ t.dev.port.sweepInProgress = s.dev.port.sweepOwed ∧
        t.dev.port.sweepOwed = false ∧
        t.dev.port.rotation = (match u.sweptSlots.getLast? with
          | some i => i + 1
          | none => s.dev.port.rotation) ∧
        (∀ a, (t.dev.record a).cellFilled =
          ((s.dev.record a).cellFilled && u.ram.octet (s.dev.areaBase + cellOffset a) != 1)) ∧
        (∀ i ∈ u.sweptSlots, t.ram.octet (s.dev.areaBase + slotOffset i + 1) ≠ 0) ∧
        (∀ i : Slot, i ∉ u.sweptSlots → s.dev.port.held[i] = none →
          t.ram.octets (s.dev.areaBase + slotOffset i) 64 = u.ram.octets (s.dev.areaBase + slotOffset i) 64 ∧
            t.dev.port.held[i] = none)) ∧
    ((∀ a, u.ram.octet (s.dev.areaBase + cellOffset a) = 1 → (s.dev.record a).cellFilled = false) →
      let v := ({ u with dev.port := { s.dev.port with sweepInterval := interval, promptOwed := false } } : State).after commands
      exec (.sweep host) s =
        .next { v with
          ram := if count ≠ s.dev.port.seenCount.toNat then v.ram.write (s.dev.areaBase + 16) (leOctets 4 count) else v.ram
          dev.port := { v.dev.port with seenCount := BitVec.ofNat 32 count }.sweepEnded })

/-- STARTING with a bad header raises AREA, clears RUN and leaves the device OFF with nothing written. With a good header it applies
the epoch rule, sets the sweep interval, takes the cells by their owners, writes out the returns owed, returns ABORTED the slots
found TAKEN and not held, and passes to RUNNING with a sweep begun, or through it to STOPPING when RUN has been cleared; the
line runs when line enable is set (R59, R109, R159, R187, R192, R193).
It rests on choices of the model: assumption log entries 4, 20, 22, 24 and 36. -/
def Obligations.StartingCarriedOut : Prop :=
  ∀ (host : List Host.Cell) (s : State), s.safe →
    let u : State := { s with ram := s.ram.hostWrites host }
    let epoch := u.ram.field (s.dev.areaBase + 6) 1
    let aborted := (List.finRange 32).filter fun i : Slot =>
      u.ram.octet (s.dev.areaBase + slotOffset i) == 1 && u.ram.octet (s.dev.areaBase + slotOffset i + 1) == 1 &&
        s.dev.port.held[i].isNone
    let good := u.ram.field s.dev.areaBase 4 = 0x47544C31 ∧ u.ram.field (s.dev.areaBase + 4) 2 = 1
    (s.dev.port.device ≠ .starting → exec (.starting host) s = .next u) ∧
    (s.dev.port.device = .starting → ¬good →
      exec (.starting host) s =
        .next { u with dev.port := { s.dev.port with
                  run := false, device := .off, causes := s.dev.port.causes ||| 0x40
                  interrupt := ((s.dev.port.causes ||| 0x40) &&& s.dev.port.mask) != 0 } }) ∧
    (s.dev.port.device = .starting → good →
      Answers (.starting host) s fun t =>
        t.dev.port.device = (if s.dev.port.run then .running else .stopping) ∧
        t.dev.port.sweepInterval = intervalSet (u.ram.field (s.dev.areaBase + 8) 2) ∧
        t.dev.port.sweepInProgress = s.dev.port.run ∧ t.dev.port.promptOwed = s.dev.port.run ∧
        t.dev.port.sweepTimer = (if s.dev.port.run then some (t.dev.port.sweepInterval * 1000) else none) ∧
        t.dev.port.returnsOwed = [] ∧ t.dev.port.seenCount = s.dev.port.seenCount ∧
        t.dev.lnc.line = (if s.dev.port.run ∧ s.dev.port.lineEnable then .cycle else .idle) ∧
        (∀ i ∈ aborted, t.returned i .refused .aborted 0 (u.ram.octet (s.dev.areaBase + slotOffset i + 2))
          (BitVec.ofNat 16 (u.ram.field (s.dev.areaBase + slotOffset i + 4) 2))) ∧
        ((s.dev.port.returnsOwed.map (·.slot)).Nodup → ∀ ret ∈ s.dev.port.returnsOwed, s.dev.port.held[ret.slot] ≠ none →
          t.returned ret.slot ret.status ret.outcome ret.detail.toNat ret.kind ret.ref) ∧
        (∀ a, (t.dev.record a).cellFilled = (u.ram.octet (s.dev.areaBase + cellOffset a) != 1)) ∧
        (s.dev.htq.epoch = some epoch →
          t.dev.htq.queue <:+ s.dev.htq.queue ∧ t.dev.htq = { s.dev.htq with queue := t.dev.htq.queue }) ∧
        (s.dev.htq.epoch ≠ some epoch →
          (t.dev.htq.queue = [] ∧ t.dev.htq.nextSequence = 1 ∧ t.dev.htq.newest = 0 ∧ t.dev.htq.evicted = 0 ∧
            t.dev.htq.epoch = some epoch) ∧
          ∀ a, (t.dev.record a).hotHighWater = 0 ∧
            (t.dev.htq.restartOwed.has a = true ↔
              s.dev.htq.restartOwed.has a = true ∨ (s.dev.record a).presence ≠ .unused)) ∧
        (¬(s.dev.port.run = true ∧ s.dev.port.lineEnable = true) →
          t.dev.port.deviceCount =
              s.dev.port.deviceCount + BitVec.ofNat 32 (s.dev.port.returnsOwed.length + aborted.length) ∧
            (∀ a, t.dev.record a =
              { s.dev.record a with
                cellFilled := u.ram.octet (s.dev.areaBase + cellOffset a) != 1
                hotHighWater := if s.dev.htq.epoch = some epoch then (s.dev.record a).hotHighWater else 0
                replyTime := .shown }) ∧
            t.dev.cat = s.dev.cat ∧ t.dev.vfy = s.dev.vfy ∧ t.dev.tgt = s.dev.tgt ∧ t.dev.pln = s.dev.pln ∧
            t.dev.xfr = s.dev.xfr ∧ t.dev.act = s.dev.act ∧ t.dev.fck = s.dev.fck))

/-- An area fault leaves the operation done whole, when the access that would have faulted is never made, or the device HALTED. A
fault of the first access halts STARTING, a sweep, the end of STOPPING, a write of RUN 0 and a take: nothing is written and the
request is not handed over; the VERIFYING entries of the verify queue are FREE, and presences, the BLOCK target and the entries
not in the queue are as before, and so are the FARE targets and the coordinator when no COMMIT to ALL is cut
(R12, R192, R195).
It rests on choices of the model: assumption log entries 4, 8, 19, 21 and 41. -/
def Obligations.AreaFaultHalts : Prop :=
  (∀ (op : Instr) (n : Nat) (s : State), s.safe → op = op.operation →
    Answers (.areaFault op n) s fun t => exec op s = .next t ∨ t.dev.haltedByFault) ∧
  ∀ (op : Instr) (s : State), s.safe →
    ((∃ host, op = .starting host) ∧ s.dev.port.device = .starting ∨
      (∃ host, op = .sweep host) ∧ s.dev.port.device = .running ∧ s.dev.port.sweepInProgress = true ∨
      op = .stoppingEnd ∧ s.dev.port.device = .stopping ∧ s.dev.lnc.line = .idle ∧ s.dev.vfy.queue = [] ∨
      op = .run false ∧ s.dev.port.device = .running ∨
      ∃ slot ref q, op = Request.command slot ref q ∧ s.takes slot) →
    Answers (.areaFault op 0) s fun t =>
      t.dev.haltedByFault ∧ t.ram = s.softwareRam op ∧
        (∀ i, i ∈ s.dev.vfy.queue → (s.dev.entry i).state = .verifying → t.dev.entry i = (s.dev.entry i).freedAs .none) ∧
        (∀ i, i ∉ s.dev.vfy.queue ∨ (s.dev.entry i).state ≠ .verifying → (s.dev.entry i).state ≠ .retiring →
          (t.dev.entry i).posted = (s.dev.entry i).posted ∧ (t.dev.entry i).state = (s.dev.entry i).state) ∧
        t.dev.vfy.queue = s.dev.vfy.queue.filter (fun i => (s.dev.entry i).state != .verifying) ∧
        s.dev.learnedKept t.dev none ∧ t.dev.tgt.block = s.dev.tgt.block ∧ t.dev.htq = s.dev.htq ∧ t.dev.fck = s.dev.fck ∧
        ((∀ e, s.dev.lnc.exchange = some e → e.kind ≠ .commitAll) → t.dev.tgt = s.dev.tgt ∧ t.dev.act = s.dev.act)

/-! ## Requests -/

/-- POST is refused BAD_FIELD when a field is out of range, DUPLICATE with the handle of the entry that holds its identity, or
CATALOGUE_FULL; else the lowest FREE index takes it, VERIFYING at the tail of the verify queue, and its slot stays held
(R4, R5, R184, R185)
It rests on choices of the model: assumption log entry 19. -/
def Obligations.PostDecided : Prop :=
  ∀ (slot : Slot) (ref : Half) (f : PostFields) (s : State), s.safe → s.slotsOk → s.takes slot → s.identitiesOk →
    (¬f.inRange → Answers (.post slot ref f) s fun t => s.answeredOnly t slot .refused .badField 0 (.post f) ref) ∧
    (f.inRange → ∀ i, (s.dev.entry i).hasIdentity f →
      Answers (.post slot ref f) s fun t =>
        s.answeredOnly t slot .refused .duplicate (i.val + 256 * (s.dev.entry i).generation) (.post f) ref) ∧
    (f.inRange → (∀ i, ¬(s.dev.entry i).hasIdentity f) →
      ((∀ i, (s.dev.entry i).state ≠ .free) →
        Answers (.post slot ref f) s fun t => s.answeredOnly t slot .refused .catalogueFull 0 (.post f) ref) ∧
      (∀ i, (s.dev.entry i).state = .free → (∀ j < i, (s.dev.entry j).state ≠ .free) →
        Answers (.post slot ref f) s fun t =>
          t.taken slot 1 ref ∧ s.tookSlot t slot 0 ∧
            (∀ stream form, stream.code.val = f.stream.toNat → form.code = f.form.toNat →
              t.dev.entry i =
                { generation := (s.dev.entry i).generation, state := .verifying, stream, form, base := f.base.toNat,
                  edition := f.edition.toNat, size := f.size.toNat, footprint := f.footprint.toNat, check := f.check,
                  gather := f.gather.toNat, fragments := f.fragments.toNat, inUse := 0, fault := .none,
                  pendingSlot := some slot, rejecters := AddrSet.empty }) ∧
            (∀ j, j ≠ i → t.dev.entry j = s.dev.entry j) ∧
            t.dev.vfy = { s.dev.vfy with queue := s.dev.vfy.queue ++ [i] } ∧
            t.dev = { s.dev with port := t.dev.port, cat := t.dev.cat, vfy := t.dev.vfy } ∧
            (∀ other, other ≠ slot → t.dev.port.held[other] = s.dev.port.held[other]) ∧
            (s.withRequest slot ref (.post f)).ramWithin t fun o => inRun (slotOffset slot) 4 o || inRun (catOffset i) 32 o))

/-- WITHDRAW is refused BAD_FIELD for a handle out of range, STALE_HANDLE for one that names no entry in use, and RETIRING for an
entry already RETIRING. An entry VERIFYING becomes FREE, its POST returned WITHDRAWN; one READY or REVERIFYING with no record
naming it becomes FREE; one in use, with every validator concerned PRESENT, becomes RETIRING with its records marked, the
slot held until its last record closes (R2, R11, R13 to R16)
It rests on choices of the model: assumption log entry 19. -/
def Obligations.WithdrawDecided : Prop :=
  ∀ (slot : Slot) (ref : Half) (index generation : Octet) (s : State), s.safe → s.slotsOk → s.takes slot →
    let request : Request := .withdraw index generation
    (48 ≤ index.toNat ∨ generation = 0 →
      Answers (.withdraw slot ref index generation) s fun t => s.answeredOnly t slot .refused .badField 0 request ref) ∧
    ∀ i : CatIndex, index.toNat = i.val → generation ≠ 0 →
      let e := s.dev.entry i
      (e.state = .free ∨ e.generation ≠ generation.toNat →
        Answers (.withdraw slot ref index generation) s fun t => s.answeredOnly t slot .refused .staleHandle 0 request ref) ∧
      (e.generation = generation.toNat →
        (e.state = .retiring →
          Answers (.withdraw slot ref index generation) s fun t => s.answeredOnly t slot .refused .retiring 0 request ref) ∧
        (e.state = .verifying →
          Answers (.withdraw slot ref index generation) s fun t =>
            t.returned slot .done .done 0 2 ref ∧
              (∀ post h, e.pendingSlot = some post → s.dev.port.held[post] = some h →
                t.returned post .refused .withdrawn 0 h.kind h.ref) ∧
              t.dev.entry i = e.freedAs .withdrawn ∧ (∀ j, j ≠ i → t.dev.entry j = s.dev.entry j) ∧
              t.dev.vfy.queue = s.dev.vfy.queue.filter (· ≠ i) ∧
              t.dev.vfy.inFlight = (s.dev.vfy.inFlight && s.dev.vfy.queue.head? != some i) ∧
              s.dev.portKept t.dev ∧
              t.dev = { s.dev with port := t.dev.port, cat := t.dev.cat, vfy := t.dev.vfy }) ∧
        (e.state = .ready ∨ e.state = .reverifying →
          (e.inUse = 0 →
            Answers (.withdraw slot ref index generation) s fun t =>
              t.returned slot .done .done 0 2 ref ∧ t.dev.entry i = e.freedAs .withdrawn ∧
                s.dev.entriesKept t.dev (some i) ∧ s.dev.learnedKept t.dev none ∧ s.dev.portKept t.dev ∧
                t.dev.tgt = s.dev.tgt ∧ t.dev.htq = s.dev.htq ∧ t.dev.act = s.dev.act ∧ t.dev.fck = s.dev.fck ∧
                t.dev.vfy.queue = (if e.state = .ready then s.dev.vfy.queue else s.dev.vfy.queue.filter (· ≠ i)) ∧
                (s.awake → t.dev.lnc = s.dev.lnc)) ∧
          (e.inUse ≠ 0 →
            (∀ a, (s.dev.transfers a).records.any (·.index == i) = true → (s.dev.record a).presence = .present) →
            Answers (.withdraw slot ref index generation) s fun t =>
              t.taken slot 2 ref ∧
                t.dev.entry i =
                  { e with state := .retiring, fault := .withdrawn, pendingSlot := some slot,
                           rejecters := AddrSet.empty } ∧
                (∀ a, ∀ r ∈ (t.dev.transfers a).records, r.index = i → r.marked = true) ∧
                (∀ a, (s.dev.record a).presence = .present →
                  (t.dev.transfers a).records.map (fun r => { r with marked := false }) =
                    (s.dev.transfers a).records.map fun r => { r with marked := false }) ∧
                s.dev.entriesKept t.dev (some i) ∧ s.dev.learnedKept t.dev none ∧ s.dev.portKept t.dev ∧
                t.dev.tgt = s.dev.tgt ∧ t.dev.htq = s.dev.htq ∧ t.dev.act = s.dev.act ∧ t.dev.fck = s.dev.fck ∧
                (s.awake → t.dev.lnc = s.dev.lnc))))

/-- TARGET is refused BAD_FIELD when it fails R25. For BLOCK it returns DONE with detail 2 when it changes nothing, and 0 when it
replaces the target: every BLOCK tier of every validator then has reject count 0, no hold and no room shortfall, and reach is
computed afresh (R25, R29, R30, R34)
It rests on choices of the model: assumption log entry 19. -/
def Obligations.BlockTargetSet : Prop :=
  ∀ (slot : Slot) (ref : Half) (f : TargetFields) (s : State), s.safe → s.slotsOk → s.takes slot →
    (¬f.inRange → Answers (.target slot ref f) s fun t => s.answeredOnly t slot .refused .badField 0 (.target f) ref) ∧
    (f.stream = 0 → f.timed = false →
      (f.edition.toNat = s.dev.tgt.block →
        Answers (.target slot ref f) s fun t => s.answeredOnly t slot .done .done 2 (.target f) ref) ∧
      (f.edition.toNat ≠ s.dev.tgt.block →
        Answers (.target slot ref f) s fun t =>
          t.returned slot .done .done 0 3 ref ∧ t.dev.tgt = { s.dev.tgt with block := f.edition.toNat } ∧
            (∀ a, ∀ k, k ≠ Stream.fare →
              ((t.dev.record a).cell k).rejects = 0 ∧ ((t.dev.record a).cell k).hold = false ∧
                ((t.dev.record a).cell k).room = false) ∧
            (∀ a, ((t.dev.record a).cell .fare).rejects = ((s.dev.record a).cell .fare).rejects ∧
              ((t.dev.record a).cell .fare).hold = ((s.dev.record a).cell .fare).hold ∧
              ((t.dev.record a).cell .fare).room = ((s.dev.record a).cell .fare).room) ∧
            (∀ a, (s.dev.record a).presence = .present ∨ (s.dev.record a).presence = .silent →
              (t.dev.record a).reach = (t.dev.computeReach a).1) ∧
            s.dev.entriesKept t.dev none ∧ s.dev.learnedKept t.dev none ∧ s.dev.portKept t.dev ∧
            t.dev.port.rotation = slot + 1 ∧ t.dev.vfy = s.dev.vfy ∧ t.dev.htq = s.dev.htq ∧ t.dev.act = s.dev.act ∧
            t.dev.fck = s.dev.fck ∧ (s.awake → t.dev.lnc = s.dev.lnc)))

/-- TARGET for FARE: in COMMITTING the target asked for is held, or a held one dropped when it equals the target; else an equal one
changes nothing, and a changed one replaces the target, with the FARE holds and shortfalls cleared and the coordinator started
over: standings afresh, a disarm owed where ARMED or armed, and for a timed target LOADING, judged at the clock. An ARM that the new
activation comes to owe takes the line out of QUIET, also where the one before owed it (R25 to R27, R30, R120, R165 to
R167). It rests on choices of the model: assumption log entry 19. -/
def Obligations.FareTargetSet : Prop :=
  ∀ (slot : Slot) (ref : Half) (f : TargetFields) (s : State), s.safe → s.slotsOk → s.takes slot → f.inRange → f.stream = 1 →
    (s.dev.act.state ≠ .committing → f.fareTarget = s.dev.tgt.fare →
      Answers (.target slot ref f) s fun t => s.answeredOnly t slot .done .done 2 (.target f) ref) ∧
    (s.dev.act.state = .committing →
      Answers (.target slot ref f) s fun t =>
        t.returned slot .done .done (if f.fareTarget = s.dev.tgt.fare then 2 else 1) 3 ref ∧ s.tookSlot t slot 1 ∧
          t.dev = { s.dev with
            port := t.dev.port
            tgt.heldFare := if f.fareTarget = s.dev.tgt.fare then none else some f.fareTarget }) ∧
    (s.dev.act.state ≠ .committing → f.fareTarget ≠ s.dev.tgt.fare →
      Answers (.target slot ref f) s fun t =>
        t.returned slot .done .done 0 3 ref ∧ t.dev.tgt = { s.dev.tgt with fare := f.fareTarget } ∧
          t.dev.port.causes.getLsbD 4 = true ∧
          (∀ a, ((t.dev.record a).cell .fare).rejects = 0 ∧ ((t.dev.record a).cell .fare).hold = false ∧
            ((t.dev.record a).cell .fare).room = false) ∧
          (∀ a, t.dev.standing a =
            if presenceCounted (s.dev.record a).presence then
              { standing := .unarmed
                disarmOwed := (s.dev.standing a).disarmOwed || (s.dev.standing a).standing == .armed ||
                  (s.dev.record a).armedEdition != 0
                armRefused := false, attempts := 0 }
            else { standing := .notCounted, disarmOwed := (s.dev.standing a).disarmOwed, armRefused := false,
                   attempts := 0 }) ∧
          (f.timed = false →
            t.dev.act =
              { state := .idle, edition := f.edition.toNat, activation := 0, lead := 0, hold := 0, opens := 0,
                holdEnds := 0, broadcast := .notOwed, commitCause := .none, commitTime := 0, armedKept := 0,
                standings := t.dev.act.standings }) ∧
          (f.timed = true → ∀ w, f.fareTarget.timing = some w →
            let loading : Coordinator :=
              { state := .loading, edition := f.edition.toNat, activation := w.activation, lead := w.lead,
                hold := w.hold, opens := w.activation - w.lead, holdEnds := min 4294967295 (w.activation + w.hold),
                broadcast := .notOwed, commitCause := .none, commitTime := 0, armedKept := 0,
                standings := t.dev.act.standings }
            (¬s.dev.fck.reached loading.opens → t.dev.act = loading) ∧
              (s.dev.fck.reached loading.opens → loading.Judged s.dev.record s.dev.fck t.dev.act)) ∧
          s.dev.entriesKept t.dev none ∧ s.dev.learnedKept t.dev none ∧ s.dev.portKept t.dev ∧
          t.dev.vfy = s.dev.vfy ∧ t.dev.htq = s.dev.htq ∧ t.dev.fck = s.dev.fck ∧
          (s.awake →
            t.dev.lnc =
              { s.dev.lnc with
                exchange := s.dev.lnc.exchange.map fun (e : Exchange) =>
                  { e with actStale := e.actStale || e.kind == .arm || e.kind == .disarm || e.kind == .commit } }) ∧
          (s.dev.lnc.line = .quiet → t.dev.act.state = .arming ∨ t.dev.act.state = .committing →
            (∃ a, (s.dev.record a).presence = .present ∧ (s.dev.record a).pendingFare = f.edition.toNat ∧
              (s.dev.record a).armedEdition = 0 ∧ (s.dev.standing a).standing ≠ .armed ∧
              (s.dev.standing a).disarmOwed = false) →
            t.dev.lnc.line = .cycle))

/-- HOT_ADD is refused BAD_FIELD when its count or an entry counted is out of range. With room it appends its entries with the next
sequences, its detail the first of them; full, it evicts as many as it lacks places of the entries that the BLOCK target absorbs,
oldest first, counting them and raising HOTQ, after which the head leaves while every validator counted has it or holds the
edition that absorbs it; or it is refused HOT_FULL when they are too few or the sequences would span too far. At the issue of
each sequence a kept high-water too far behind becomes 0 (R149 to R153, R160).
It rests on choices of the model: assumption log entry 19. -/
def Obligations.HotEntriesAdded : Prop :=
  ∀ (slot : Slot) (ref : Half) (count : Octet) (first second third : HotFields) (s : State), s.safe → s.slotsOk → s.takes slot →
    let request : Request := .hotAdd count first second third
    let counted := [first, second, third].take count.toNat
    let n := counted.length
    let queue := s.dev.htq.queue
    let absorbed (e : HotEntry) : Bool := s.dev.tgt.block ≠ 0 && e.edition ≤ s.dev.tgt.block
    let added := counted.mapIdx fun k f => f.entry (seqAdd s.dev.htq.nextSequence k)
    let fits := ∀ e, queue.head? = some e → seqDistance e.sequence (seqAdd s.dev.htq.nextSequence (n - 1)) ≤ 32767
    let good := 1 ≤ count.toNat ∧ count.toNat ≤ 3 ∧ ∀ f ∈ counted, f.inRange
    let served (e : HotEntry) : Prop := ∀ a : Addr,
      (s.dev.record a).presence = .present ∨ (s.dev.record a).presence = .silent ∨
        (s.dev.record a).presence = .absent →
      (s.dev.record a).hotStatus ≠ .none →
      (s.dev.record a).hotHighWater = e.sequence ∨
        seqFollows (s.dev.record a).hotHighWater e.sequence = true ∨
        e.edition ≤ (s.dev.record a).heldOf (tierStream e.tier)
    let window (h : Nat) : Nat :=
      (List.range n).foldl
        (fun h k => if h ≠ 0 ∧ 32768 ≤ seqDistance h (seqAdd s.dev.htq.nextSequence k) then 0 else h) h
    (¬good →
      Answers (.hotAdd slot ref count first second third) s fun t =>
        s.answeredOnly t slot .refused .badField 0 request ref) ∧
    (good → ¬fits ∨ 64 + (queue.filter absorbed).length < queue.length + n →
      Answers (.hotAdd slot ref count first second third) s fun t => s.answeredOnly t slot .refused .hotFull 0 request ref) ∧
    (good → fits → queue.length + n ≤ 64 + (queue.filter absorbed).length →
      Answers (.hotAdd slot ref count first second third) s fun t =>
        t.returned slot .done .done s.dev.htq.nextSequence 4 ref ∧ s.dev.portKept t.dev ∧
          (queue.length + n ≤ 64 → t.dev.htq.queue = queue ++ added ∧ t.dev.htq.evicted = s.dev.htq.evicted) ∧
          (64 < queue.length + n →
            let lacking := queue.length + n - 64
            let unevicted := (queue.zipIdx.filter fun x =>
              !absorbed x.1 || lacking ≤ ((queue.take x.2).filter absorbed).length).map (·.1)
            t.dev.htq.queue = unevicted.dropWhile (fun e => decide (served e)) ++ added ∧
            t.dev.htq.evicted = (s.dev.htq.evicted + (queue.length + n - 64)) % 65536 ∧
            t.dev.port.causes.getLsbD 5 = true) ∧
          t.dev.htq.nextSequence = seqAdd s.dev.htq.nextSequence n ∧
          t.dev.htq.newest = seqAdd s.dev.htq.nextSequence (n - 1) ∧ t.dev.htq.epoch = s.dev.htq.epoch ∧
          t.dev.htq.restartOwed = s.dev.htq.restartOwed ∧
          (∀ a, (t.dev.record a).hotHighWater = window (s.dev.record a).hotHighWater) ∧
          (s.awake →
            s.tookSlot t slot 1 ∧
            (∀ a, t.dev.record a =
              { s.dev.record a with
                hotHighWater := window (s.dev.record a).hotHighWater
                replyTime := (t.dev.record a).replyTime }) ∧
            t.dev = { s.dev with port := t.dev.port, ros := t.dev.ros, htq := t.dev.htq }))

/-- ENROL of an UNUSED address makes it ABSENT with its weight and the rest at reset; of an enrolled one it sets the weight; with the
flag clear it makes an enrolled address UNUSED with its record at reset. An address or a weight out of range is refused
BAD_FIELD, and the detail is the presence before (R39, R42, R43, R62, R154, R174).
It rests on choices of the model: assumption log entry 19. -/
def Obligations.EnrolDecided : Prop :=
  ∀ (slot : Slot) (ref : Half) (address : Octet) (flag : Bool) (weight : Octet) (s : State), s.safe → s.slotsOk → s.takes slot →
    let request : Request := .enrol address flag weight
    ((address = 0 ∨ 12 < address.toNat) ∨ flag = true ∧ (weight = 0 ∨ 4 < weight.toNat) →
      Answers (.enrol slot ref address flag weight) s fun t => s.answeredOnly t slot .refused .badField 0 request ref) ∧
    ∀ a, addressIs address a →
      let r := s.dev.record a
      (flag = true → weight ≠ 0 → weight.toNat ≤ 4 →
        (r.presence ≠ .unused →
          Answers (.enrol slot ref address flag weight) s fun t =>
            t.returned slot .done .done r.presence.code 5 ref ∧ s.tookSlot t slot 1 ∧
              t.dev.record a = { r with weight := weight.toNat, replyTime := (t.dev.record a).replyTime } ∧
              (∀ b, b ≠ a → t.dev.record b = s.dev.record b) ∧
              t.dev = { s.dev with port := t.dev.port, ros := t.dev.ros }) ∧
        (r.presence = .unused →
          Answers (.enrol slot ref address flag weight) s fun t =>
            t.returned slot .done .done 0 5 ref ∧
              t.dev.record a =
                { ValRecord.reset with
                  presence := .absent, weight := weight.toNat, cellFilled := r.cellFilled
                  replyTime := (t.dev.record a).replyTime } ∧
              (t.dev.record a).reach = 0 ∧
              (∀ k, (t.dev.record a).cell k = { status := .idle, held := 0, rejects := 0, hold := false, room := false }) ∧
              t.dev.transfers a = { active := none, stack := [], abandonAll := false } ∧ t.dev.plan a = [] ∧
              (s.dev.act.state ≠ .committing →
                (t.dev.standing a).standing = if s.dev.act.broadcast = .made then .lagging else .unarmed) ∧
              s.dev.learnedKept t.dev (some a) ∧ s.dev.entriesKept t.dev none ∧ s.dev.portKept t.dev ∧
              t.dev.vfy = s.dev.vfy ∧ t.dev.tgt.block = s.dev.tgt.block ∧ t.dev.fck = s.dev.fck ∧
              t.dev.htq.queue <:+ s.dev.htq.queue)) ∧
      (flag = false →
        (r.presence = .unused →
          Answers (.enrol slot ref address flag weight) s fun t => s.answeredOnly t slot .done .done 0 request ref) ∧
        (r.presence ≠ .unused →
          Answers (.enrol slot ref address flag weight) s fun t =>
            t.returned slot .done .done r.presence.code 5 ref ∧
              t.dev.record a =
                { ValRecord.reset with cellFilled := r.cellFilled, replyTime := (t.dev.record a).replyTime } ∧
              (t.dev.record a).reach = 0 ∧
              (∀ k, (t.dev.record a).cell k = { status := .idle, held := 0, rejects := 0, hold := false, room := false }) ∧
              t.dev.transfers a = { active := none, stack := [], abandonAll := false } ∧ t.dev.plan a = [] ∧
              t.dev.htq.restartOwed.has a = false ∧
              (s.dev.act.state ≠ .committing → (t.dev.standing a).standing = .notCounted) ∧
              (∀ e, s.dev.lnc.exchange = some e → e.dest = some a → s.awake →
                t.dev.lnc.exchange.map (·.voided) = some .byRequest) ∧
              s.dev.learnedKept t.dev (some a) ∧ s.dev.entriesKept t.dev none ∧ s.dev.portKept t.dev ∧
              t.dev.vfy = s.dev.vfy ∧ t.dev.tgt.block = s.dev.tgt.block ∧ t.dev.fck = s.dev.fck ∧
              t.dev.htq.queue <:+ s.dev.htq.queue))

/-- EXCLUDE makes an enrolled address EXCLUDED; READMIT brings one from CLASH or EXCLUDED to ABSENT with its misses and contentions 0,
its room shortfalls kept and its standing by the broadcast or kept, and elsewhere lifts its holds with reject counts 0. Both void
an exchange in flight to an address whose presence they change, refuse an address out of range BAD_FIELD and an UNUSED one
NOT_ENROLLED, and return the presence before (R42, R44, R45, R50, R174). A settling that the request brings, which may replace
the FARE target, is left out.
It rests on choices of the model: assumption log entry 19. -/
def Obligations.ExcludeAndReadmitDecided : Prop :=
  ∀ (slot : Slot) (ref : Half) (address : Octet) (s : State), s.safe → s.slotsOk → s.takes slot →
    (address = 0 ∨ 12 < address.toNat →
      (Answers (.exclude slot ref address) s fun t => s.answeredOnly t slot .refused .badField 0 (.exclude address) ref) ∧
        Answers (.readmit slot ref address) s fun t => s.answeredOnly t slot .refused .badField 0 (.readmit address) ref) ∧
    ∀ a, addressIs address a →
      let r := s.dev.record a
      (r.presence = .unused →
        (Answers (.exclude slot ref address) s fun t => s.answeredOnly t slot .refused .notEnrolled 0 (.exclude address) ref) ∧
          Answers (.readmit slot ref address) s fun t => s.answeredOnly t slot .refused .notEnrolled 0 (.readmit address) ref) ∧
      (r.presence = .excluded →
        Answers (.exclude slot ref address) s fun t => s.answeredOnly t slot .done .done 5 (.exclude address) ref) ∧
      (r.presence ≠ .unused → r.presence ≠ .excluded →
        Answers (.exclude slot ref address) s fun t =>
          t.returned slot .done .done r.presence.code 6 ref ∧
            (t.dev.record a).learned = { r.learned with presence := .excluded, statusOwed := false } ∧
            t.dev.transfers a = { active := none, stack := [], abandonAll := false } ∧ t.dev.plan a = [] ∧
            (s.dev.act.state ≠ .committing → (t.dev.standing a).standing = .notCounted) ∧
            (s.awake →
              (∀ e, s.dev.lnc.exchange = some e → e.dest = some a →
                t.dev.lnc.exchange.map (·.voided) = some .byRequest) ∧
              (r.presence = .present → t.dev.lnc.heldOver.has a = true ∧ ∀ n, t.dev.lnc.turn ≠ some (a, n))) ∧
            s.dev.learnedKept t.dev (some a) ∧ s.dev.entriesKept t.dev none ∧ s.dev.portKept t.dev ∧
            t.dev.vfy = s.dev.vfy ∧ t.dev.tgt.block = s.dev.tgt.block ∧ t.dev.fck = s.dev.fck ∧
            t.dev.htq.queue <:+ s.dev.htq.queue) ∧
      (r.presence = .clash ∨ r.presence = .excluded →
        Answers (.readmit slot ref address) s fun t =>
          t.returned slot .done .done r.presence.code 7 ref ∧
            (t.dev.record a).learned =
              { ({ r with
                    presence := .absent, activeFare := 0, pendingFare := 0, armedEdition := 0, hotHighWater := 0
                    noticePending := false, statusOwed := false, silenceTimer := none, misses := 0
                    contentions := 0 } : ValRecord).mapCells fun _ =>
                  { status := .idle, held := 0, rejects := 0, hold := false, room := false } with
                reach := 0, replyTime := .shown } ∧
            (∀ k, ((t.dev.record a).cell k).rejects = 0 ∧ ((t.dev.record a).cell k).hold = false) ∧
            (∀ k, k ≠ .fare ∨ s.dev.act.state ≠ .committing → ((t.dev.record a).cell k).room = (r.cell k).room) ∧
            (s.dev.act.state ≠ .committing →
              (t.dev.standing a).standing =
                if r.presence = .clash then (s.dev.standing a).standing
                else if s.dev.act.broadcast = .made then .lagging else .unarmed) ∧
            (s.awake → ∀ e, s.dev.lnc.exchange = some e → e.dest = some a →
              t.dev.lnc.exchange.map (·.voided) = some .byRequest) ∧
            t.dev.transfers a = { active := none, stack := [], abandonAll := false } ∧ t.dev.plan a = [] ∧
            s.dev.learnedKept t.dev (some a) ∧ s.dev.entriesKept t.dev none ∧ s.dev.portKept t.dev ∧
            t.dev.vfy = s.dev.vfy ∧ t.dev.tgt.block = s.dev.tgt.block ∧ t.dev.fck = s.dev.fck ∧
            t.dev.htq.queue <:+ s.dev.htq.queue) ∧
      (r.presence = .absent ∨ r.presence = .present ∨ r.presence = .silent →
        Answers (.readmit slot ref address) s fun t =>
          t.returned slot .done .done r.presence.code 7 ref ∧
            (∀ k, ((t.dev.record a).cell k).rejects = 0 ∧ ((t.dev.record a).cell k).hold = false ∧
              ((t.dev.record a).cell k).room = (r.cell k).room) ∧
            s.dev.learnedKept t.dev none ∧ s.dev.entriesKept t.dev none ∧ s.dev.portKept t.dev ∧
            t.dev.vfy = s.dev.vfy ∧ t.dev.tgt = s.dev.tgt ∧ t.dev.fck = s.dev.fck ∧ t.dev.htq = s.dev.htq ∧
            t.dev.act = s.dev.act ∧
            (s.awake → t.dev.lnc = s.dev.lnc ∧ ∀ b, b ≠ a → t.dev.record b = s.dev.record b))

/-- LINE_SET makes its values, clamped, rounded and selected, the pending line configuration, and returns the mask of the fields it
changed; in QUIET the cycle that it begins takes them, and in a RECOVER entered from QUIET it is remembered. A kind that is
none of 1 to 8 is refused BAD_KIND. A request outside RUNNING, or of a slot that is held, is not taken (R120, R123, R183 to
R185).
It rests on choices of the model: assumption log entry 19. -/
def Obligations.LineSetAndUnknownKinds : Prop :=
  ∀ (slot : Slot) (ref : Half) (f : LineFields) (kind : Octet) (s : State), s.safe → s.slotsOk →
    (s.takes slot →
      (Answers (.lineSet slot ref f) s fun t =>
          t.returned slot .done .done
              ((List.range 11).map fun k => if f.clamped.fields[k]? = f.given[k]? then 0 else 2 ^ k).sum 8 ref ∧
            s.dev.portKept t.dev ∧ t.dev.port.rotation = slot + 1 ∧
            (s.awake →
              s.tookSlot t slot 1 ∧
                t.dev = { s.dev with port := t.dev.port, lnc.pendingConfig := some f.clamped }) ∧
            (s.dev.lnc.line = .quiet →
              t.dev.lnc.line = .cycle ∧ t.dev.lnc.config = f.clamped ∧ t.dev.lnc.pendingConfig = none) ∧
            (∀ e, s.dev.lnc.line = .recoverQuiet e →
              t.dev.lnc = { s.dev.lnc with line := .recoverQuiet true, pendingConfig := some f.clamped }) ∧
            s.dev.entriesKept t.dev none ∧ s.dev.learnedKept t.dev none ∧ t.dev.vfy = s.dev.vfy ∧
            t.dev.tgt = s.dev.tgt ∧ t.dev.act = s.dev.act ∧ t.dev.htq = s.dev.htq ∧ t.dev.fck = s.dev.fck) ∧
      Answers (.badKind slot ref kind) s fun t => s.answeredOnly t slot .refused .badKind 0 (.unknown kind) ref) ∧
    (¬s.takes slot → ∀ q : Request, exec (q.command slot ref) s = .next s)

/-! ## CANCEL, the Verifier and the line's events -/

/-- CANCEL, in every device state, drops every transfer record, clears every ABANDON-all owed, makes the plans afresh, ends the
exchange in flight without outcome, and sends a line in CYCLE or QUIET to RECOVER, or in STOPPING to IDLE. RETIRING entries
become FREE as their last records close, their WITHDRAWs returned or joining the returns owed list. The roster, the other
entries, the verify queue, the BLOCK target, the hot queue and the line configuration are kept, and so are the coordinator and
the FARE targets when no COMMIT to ALL is cut (R15, R83, R103, R145, R187, R196).
It rests on choices of the model: assumption log entry 20. -/
def Obligations.CancelCarriedOut : Prop :=
  ∀ s : State, s.safe →
    Answers .cancel s fun t =>
      (∀ a, t.dev.transfers a = { active := none, stack := [], abandonAll := false } ∧
        t.dev.plan a =
          (if (s.dev.record a).presence = .present ∨ (s.dev.record a).presence = .silent then (t.dev.computePlan a).2.2
           else [])) ∧
      (t.dev.lnc.exchange = none ∧ t.dev.lnc.turn = none ∧ t.dev.lnc.config = s.dev.lnc.config ∧
        t.dev.lnc.pendingConfig = s.dev.lnc.pendingConfig ∧ t.dev.lnc.pointer = s.dev.lnc.pointer) ∧
      (s.dev.port.device ≠ .stopping ∨ s.dev.lnc.line = .idle →
        (s.dev.lnc.line = .idle → t.dev.lnc.line = .idle) ∧
        (s.dev.lnc.line = .cycle →
          t.dev.lnc.line = .recoverCycle ∧ t.dev.lnc.guardTimer = some s.dev.lnc.config.guardTime) ∧
        (s.dev.lnc.line = .quiet →
          (∃ e, t.dev.lnc.line = .recoverQuiet e) ∧ t.dev.lnc.guardTimer = some s.dev.lnc.config.guardTime) ∧
        (s.dev.lnc.line = .recoverCycle → t.dev.lnc.line = .recoverCycle) ∧
        (∀ e, s.dev.lnc.line = .recoverQuiet e → ∃ x, t.dev.lnc.line = .recoverQuiet x ∧ (e = true → x = true))) ∧
      (s.dev.port.device = .stopping → t.dev.lnc.line = .idle) ∧
      s.dev.learnedKept t.dev none ∧ s.dev.entriesKept t.dev none ∧ s.dev.portKept t.dev ∧
      t.dev.port.rotation = s.dev.port.rotation ∧ t.dev.vfy = s.dev.vfy ∧ t.dev.fck = s.dev.fck ∧
      t.dev.htq = s.dev.htq ∧ t.dev.tgt.block = s.dev.tgt.block ∧
      ((∀ e, s.dev.lnc.exchange = some e → e.kind ≠ .commitAll) → t.dev.act = s.dev.act ∧ t.dev.tgt = s.dev.tgt) ∧
      (s.dev.transfersOk → s.dev.usageOk →
        (∀ i, (t.dev.entry i).inUse = 0) ∧
        ∀ i, (s.dev.entry i).state = .retiring → (s.dev.entry i).inUse ≠ 0 →
          (t.dev.entry i).state = .free ∧
            (t.dev.entry i).generation = generationAfter (s.dev.entry i).generation ∧
            ∀ slot h, (s.dev.entry i).pendingSlot = some slot → s.dev.port.held[slot] = some h →
              (s.dev.port.device = .running ∨ s.dev.port.device = .stopping →
                t.returned slot .done .done 0 h.kind h.ref) ∧
              (s.dev.port.device ≠ .running → s.dev.port.device ≠ .stopping →
                { slot, status := .done, outcome := .done, detail := 0, kind := h.kind, ref := h.ref } ∈
                  t.dev.port.returnsOwed))

/-- The head of the verify queue is taken in RUNNING and STOPPING (R8). At the end of a first verification the entry is READY and
its POST returned POSTED with the handle, or FREE with a fault cause and the POST returned REFUSED; at the end of a
reverification it is READY, with a hold for each rejecter of three rejects, or RETIRING with the fault, FREE at once when no
record names it, and CATALOGUE is raised (R3, R10, R15, R18, R57).
It rests on choices of the model: assumption log entries 7, 9 and 36. -/
def Obligations.VerificationSettled : Prop :=
  ∀ s : State,
    exec .verificationStart s =
        .next (if (s.dev.port.device = .running ∨ s.dev.port.device = .stopping) ∧ s.dev.vfy.queue ≠ [] then
          { s with dev.vfy.inFlight := true } else s) ∧
    ∀ bus, s.safe →
      (s.dev.vfy.inFlight = false ∨ s.dev.vfy.queue = [] → exec (.verificationEnd bus) s = .next s) ∧
      ∀ i rest, s.dev.vfy.inFlight = true → s.dev.vfy.queue = i :: rest →
        let e := s.dev.entry i
        let result := verify s.ram bus s.dev.areaBase e
        let fault : FaultCause := if result = .busError then .fetchFault else .checkMismatch
        let outcome : SlotOutcome :=
          match result with
          | .matched => .posted
          | .mismatch => .checkMismatch
          | .busError => .fetchFault
          | .gatherBreak => .badGather
        Answers (.verificationEnd bus) s fun t =>
          t.dev.vfy = { queue := rest, inFlight := false } ∧ s.dev.entriesKept t.dev (some i) ∧
          s.dev.learnedKept t.dev none ∧ s.dev.portKept t.dev ∧ t.dev.tgt = s.dev.tgt ∧ t.dev.htq = s.dev.htq ∧
          t.dev.act = s.dev.act ∧ t.dev.fck = s.dev.fck ∧ (s.awake → t.dev.lnc = s.dev.lnc) ∧
          (e.state = .verifying →
            (result = .matched → t.dev.entry i = { e with state := .ready, pendingSlot := none, inUse := (t.dev.entry i).inUse }) ∧
            (result ≠ .matched → t.dev.entry i = e.freedAs fault) ∧
            (s.slotsOk → s.dev.port.device = .running ∨ s.dev.port.device = .stopping →
              ∀ post h, e.pendingSlot = some post → s.dev.port.held[post] = some h →
                t.returned post (if result = .matched then .posted else .refused) outcome
                  (if result = .matched then i.val + 256 * e.generation else 0) h.kind h.ref)) ∧
          (e.state = .reverifying →
            t.dev.port.causes.getLsbD 3 = true ∧
            (result = .matched →
              (t.dev.entry i).state = .ready ∧ (t.dev.entry i).posted = e.posted ∧
                ∀ a, e.rejecters.has a = true →
                  ((t.dev.record a).cell e.stream).rejects = ((s.dev.record a).cell e.stream).rejects ∧
                    ((t.dev.record a).cell e.stream).hold =
                      (((s.dev.record a).cell e.stream).hold || ((s.dev.record a).cell e.stream).rejects == 3)) ∧
            (result ≠ .matched →
              (∀ a, ((t.dev.record a).cell e.stream).rejects =
                if e.rejecters.has a then ((s.dev.record a).cell e.stream).rejects - 1
                else ((s.dev.record a).cell e.stream).rejects) ∧
                (e.inUse = 0 → t.dev.entry i = e.freedAs fault) ∧
                (e.inUse ≠ 0 →
                  t.dev.entry i = { e with state := .retiring, fault, rejecters := AddrSet.empty })))

/-- At a cycle's end, the cycle timer at the cycle length, roll call over and no exchange in flight, the cycle is counted as idle
when it made no grant and no record is SILENT, the count held at 32; QUIET is entered at the count of quiet entry, unless ATTN# is
low, and else the next cycle begins. The roster records whose last valid reply time changed in the cycle are rewritten. QUIET is left on
the keepalive's expiry and on an attention event; the guard time's end leads back to the state that RECOVER left, or into a
cycle when an exit event came meanwhile. A SILENT record whose period has passed goes ABSENT, its held editions unknown
(R48, R61, R106, R118 to R120, R122).
It rests on choices of the model: assumption log entries 6, 12, 15, 33, 36, 39, 48 and 55. -/
def Obligations.LineTimersFollowed : Prop :=
  ∀ s : State, s.safe →
    (∀ low,
      (s.dev.lnc.cycleTimer < s.dev.lnc.config.cycleLength * 1000 ∨ s.dev.lnc.line ≠ .cycle ∨
          s.dev.lnc.phase = .rollCall ∨ s.dev.lnc.exchange ≠ none →
        exec (.cycleEnd low) s = .next s) ∧
      (s.dev.lnc.config.cycleLength * 1000 ≤ s.dev.lnc.cycleTimer → s.dev.lnc.line = .cycle →
        s.dev.lnc.phase ≠ .rollCall → s.dev.lnc.exchange = none →
        let idle := s.dev.lnc.grantMade = false ∧ ∀ a, (s.dev.record a).presence ≠ .silent
        let count := if idle then min 32 (s.dev.lnc.idleCount + 1) else 0
        let quiet := s.dev.lnc.config.quietEntry ≠ 0 ∧ s.dev.lnc.config.quietEntry ≤ count
        Answers (.cycleEnd low) s fun t =>
          (∀ a, (s.dev.record a).replyTime = .changedInCycle →
            (t.dev.record a).replyTime = .shown ∧ t.dev.port.rosCounts[a] = s.dev.port.rosCounts[a] + 1) ∧
            (∀ a, (t.dev.record a).replyTime ≠ .changedInCycle) ∧ s.dev.portKept t.dev ∧ t.dev.fck = s.dev.fck ∧
            (quiet → low = false →
              t.dev.lnc = { s.dev.lnc with
                line := .quiet, idleCount := 0, attnLow := false
                keepaliveTimer := some (s.dev.lnc.config.keepalive * 1000000) } ∧
              t.dev = { s.dev with port := t.dev.port, lnc := t.dev.lnc, ros := t.dev.ros } ∧
              s.dev.learnedKept t.dev none ∧
              ∀ a, (s.dev.record a).replyTime ≠ .changedInCycle →
                t.dev.record a = s.dev.record a ∧ t.dev.port.rosCounts[a] = s.dev.port.rosCounts[a]) ∧
            (quiet → low = true → s.cycleBegun t true ∧ t.dev.lnc.idleCount = 0) ∧
            (¬quiet → s.cycleBegun t false ∧ t.dev.lnc.idleCount = count))) ∧
    (s.dev.lnc.line = .quiet →
      (Answers .keepaliveExpiry s fun t => s.cycleBegun t true ∧ t.dev.lnc.attnLow = s.dev.lnc.attnLow) ∧
        Answers .attentionEvent s fun t => s.cycleBegun t true ∧ t.dev.lnc.attnLow = true) ∧
    (s.dev.lnc.line ≠ .quiet → exec .attentionEvent s = .next s) ∧
    (∀ e, s.dev.lnc.line = .recoverQuiet e →
      exec .keepaliveExpiry s = .next { s with dev.lnc.line := .recoverQuiet true }) ∧
    (s.awake → exec .keepaliveExpiry s = .next s) ∧
    (∀ low,
      (s.dev.lnc.line = .recoverCycle →
        exec (.guardTimeExpiry low) s = .next { s with dev.lnc := { s.dev.lnc with line := .cycle, guardTimer := none } }) ∧
      (s.dev.lnc.line = .recoverQuiet true →
        Answers (.guardTimeExpiry low) s fun t => s.cycleBegun t true) ∧
      (s.dev.lnc.line = .recoverQuiet false →
        (low = false →
          exec (.guardTimeExpiry low) s =
            .next { s with dev.lnc := { s.dev.lnc with line := .quiet, guardTimer := none, attnLow := false } }) ∧
        (low = true → Answers (.guardTimeExpiry low) s fun t => s.cycleBegun t true)) ∧
      (s.dev.lnc.line = .idle ∨ s.dev.lnc.line = .cycle ∨ s.dev.lnc.line = .quiet →
        exec (.guardTimeExpiry low) s = .next { s with dev.lnc.guardTimer := none })) ∧
    ∀ n : Nat,
      ((∀ a : Addr, n = a.val + 1 → (s.dev.record a).presence ≠ .silent ∨ s.dev.lnc.line = .idle) →
        exec (.silenceExpiry n) s = .next s) ∧
      ∀ a : Addr, n = a.val + 1 → (s.dev.record a).presence = .silent → s.dev.lnc.line ≠ .idle →
        Answers (.silenceExpiry n) s fun t =>
          (t.dev.record a).presence = .absent ∧ (∀ k, (t.dev.record a).heldOf k = 0) ∧
            (t.dev.record a).learned =
              { (s.dev.record a).learned with
                presence := .absent, streams := ValRecord.reset.streams, activeFare := 0, pendingFare := 0,
                armedEdition := 0, hotHighWater := 0, noticePending := false, statusOwed := false
                silenceTimer := none } ∧
            t.dev.port.causes.getLsbD 2 = true ∧
            t.dev.transfers a = { active := none, stack := [], abandonAll := false } ∧ t.dev.plan a = [] ∧
            s.dev.learnedKept t.dev (some a) ∧ s.dev.entriesKept t.dev none ∧ s.dev.portKept t.dev ∧
            t.dev.vfy = s.dev.vfy ∧ t.dev.fck = s.dev.fck ∧ t.dev.htq.queue <:+ s.dev.htq.queue ∧
            (s.dev.act.state ≠ .committing →
              t.dev.tgt = s.dev.tgt ∧
              t.dev.lnc = { s.dev.lnc with
                exchange := s.dev.lnc.exchange.map fun (e : Exchange) =>
                  if e.dest = some a ∧ e.voided ≠ .byRequest then { e with voided := .bySilence } else e })

/-! ## Grants and frames -/

/-- In the transfer phase a grant goes, in this order, to the broadcast owed, to the lowest address owed a HOT, to the lowest owed an
exchange of ACT, to the lowest owed a COLLECT, and else to transfer work; addresses held over are passed over. An address
whose status is owed is polled in place of its exchange. A HOT carries the run of entries that follows the high-water up to a gap,
the time left and the payload; a disarm is owed by its flag, and else an ARM, a confirm POLL or a COMMIT by the standing. An
exchange that the time left does not hold closes the phase; with nothing owed the turn ends (R91, R94, R95, R113, R114, R116,
R117, R155, R156, R165, R168, R170).
It rests on choices of the model: assumption log entries 7, 16, 36 and 49. -/
def Obligations.GrantOrderKept : Prop :=
  ∀ (free : Bool) (bus : List HostRange) (s : State), s.safe →
    let l := s.dev.lnc
    let poll (a : Addr) : Exchange := exchangeTo (some a) .poll 0 0 0 true []
    let begins (e : Exchange) : Prop := exec (.transferGrant free bus) s = .next { s with dev.lnc := l.begun free e }
    let closes : Prop := exec (.transferGrant free bus) s = .next { s with dev.lnc := l.closedPhase }
    let may := s.dev.port.device = .running ∧ l.line = .cycle ∧ l.exchange = none ∧ l.phase = .transfer
    let broadcast := s.dev.act.broadcast = .owed ∧ s.dev.fck.reached s.dev.act.activation
    let ready (a : Addr) : Prop := l.heldOver.has a = false ∧ (s.dev.record a).presence = .present
    let hot (a : Addr) : Prop :=
      ready a ∧ (s.dev.record a).hotStatus = .ok ∧
        ∃ e ∈ s.dev.htq.queue, seqFollows e.sequence (s.dev.record a).hotHighWater = true
    let standing (a : Addr) : Standing := (s.dev.standing a).standing
    let disarm (a : Addr) : Prop := ready a ∧ (s.dev.standing a).disarmOwed = true
    let arm (a : Addr) : Prop :=
      ready a ∧ (s.dev.standing a).disarmOwed = false ∧ standing a = .unarmed ∧ (s.dev.standing a).armRefused = false ∧
        (s.dev.record a).pendingFare = s.dev.act.edition ∧
        (s.dev.act.state = .arming ∨ s.dev.act.state = .committing ∧ s.dev.act.broadcast ≠ .made)
    let confirm (a : Addr) : Prop := ready a ∧ (s.dev.standing a).disarmOwed = false ∧ standing a = .unconfirmed
    let commit (a : Addr) : Prop := ready a ∧ (s.dev.standing a).disarmOwed = false ∧ standing a = .late
    let act (a : Addr) : Prop := disarm a ∨ arm a ∨ confirm a ∨ commit a
    let collect (a : Addr) : Prop :=
      ready a ∧ (s.dev.record a).noticePending = true ∧ (s.dev.record a).cellFilled = false
    let owed (a : Addr) (estimate : Nat) (e : Exchange) : Prop :=
      ((s.dev.record a).statusOwed = true → (l.holds 56 → begins (poll a)) ∧ (¬l.holds 56 → closes)) ∧
        ((s.dev.record a).statusOwed = false → (l.holds estimate → begins e) ∧ (¬l.holds estimate → closes))
    (¬may → exec (.transferGrant free bus) s = .next s) ∧
    (may → broadcast →
      (l.holds 36 → begins (exchangeTo none .commitAll 0 0 2 false (leOctets 2 s.dev.act.edition))) ∧
        (¬l.holds 36 → closes)) ∧
    (may → ¬broadcast → ∀ a, hot a → (∀ b < a, ¬hot b) →
      ((s.dev.record a).statusOwed = true → (l.holds 56 → begins (poll a)) ∧ (¬l.holds 56 → closes)) ∧
      ((s.dev.record a).statusOwed = false →
        (¬l.holds 41 → closes) ∧
        ∀ n, 1 ≤ n → n ≤ 8 → l.holds (29 + 12 * n) → (n < 8 → ¬l.holds (29 + 12 * (n + 1))) →
          let entries := s.dev.hotFrameEntries a n
          let restart := s.dev.htq.restartOwed.has a
          s.dev.hotFrameOf a n entries ∧ begins (exchangeTo (some a)
            (.hot ((entries.head?.map (·.sequence)).getD 0) ((entries.getLast?.map (·.sequence)).getD 0) restart)
            0 0 0 true (hotPayloadOf (s.dev.htq.epoch.getD 0) restart entries)))) ∧
    (may → ¬broadcast → (∀ b, ¬hot b) → ∀ a, act a → (∀ b < a, ¬act b) →
      (disarm a →
        owed a 30 (exchangeTo (some a) .disarm 0 0 0 true (leOctets 2 0 ++ leOctets 4 0))) ∧
      (arm a →
        owed a 30 (exchangeTo (some a) .arm 0 0 0 true
          (leOctets 2 s.dev.act.edition ++ leOctets 4 s.dev.act.activation))) ∧
      (confirm a → owed a 56 (poll a)) ∧
      (commit a →
        owed a 26 (exchangeTo (some a) .commit 0 0 0 true (leOctets 2 s.dev.act.edition)))) ∧
    (may → ¬broadcast → (∀ b, ¬hot b) → (∀ b, ¬act b) → ∀ a, collect a → (∀ b < a, ¬collect b) →
      owed a 73 (exchangeTo (some a) .collect 0 0 0 true [])) ∧
    (may → ¬broadcast → (∀ b, ¬hot b) → (∀ b, ¬act b) → (∀ b, ¬collect b) → (∀ b, ready b → s.dev.offer b = none) →
      exec (.transferGrant free bus) s = .next { s with dev.lnc.turn := none })

/-- Transfer work is granted in turns: the turn in progress goes on while its address may have it, and else passes to the next
address from the round-robin pointer that may, with its weight of exchanges. The exchange is the ABANDON-all, the ABANDON of
the record found marked first, the DROP of the first DROP job, or the next exchange of the record to be made active, by the
preemption test and the taking or creating of a record that R129 lays down (`Device.offersByRule`): its
OPEN, a burst of as many CONT frames as fit, or its SEAL. Status owed, it is a POLL. A fetch that meets a break or a bus
error ends the exchange without outcome (R91 to R93, R114 to R117, R127, R129, R130, R132, R134 to R136, R141, R143).
It rests on choices of the model: assumption log entries 3, 7, 10, 16, 23 and 49. -/
def Obligations.TurnsGranted : Prop :=
  ∀ (free : Bool) (bus : List HostRange) (s : State) (a : Addr), s.safe →
    let l := s.dev.lnc
    let may := s.dev.port.device = .running ∧ l.line = .cycle ∧ l.exchange = none ∧ l.phase = .transfer
    let mayTurn (b : Addr) : Prop :=
      (s.dev.record b).presence = .present ∧ l.heldOver.has b = false ∧ (s.dev.offer b).isSome = true
    let place (b : Addr) : Nat := (b.val + 12 - l.pointer) % 12
    let others := ¬(s.dev.act.broadcast = .owed ∧ s.dev.fck.reached s.dev.act.activation) ∧
      ∀ b, l.heldOver.has b = false → s.dev.hotOwed b = false ∧ s.dev.actOwed b = none ∧ s.dev.collectOwed b = false
    let goesOn : Bool := l.turn.any fun t => t.1 == a
    let begun := (∀ b n, l.turn = some (b, n) → ¬mayTurn b) ∧ (∀ b, mayTurn b → place a ≤ place b) ∧ l.pointer ≤ 12
    s.dev.offersByRule a ∧
    (may → others → mayTurn a → goesOn = true ∨ begun →
    let left : Nat := if goesOn then (match l.turn with | some (_, n) => n | none => 0) else (s.dev.record a).weight
    let lowered : LineController :=
      { l with
        turn := if left ≤ 1 then none else some (a, left - 1)
        pointer := if goesOn then l.pointer else a.val + 1 }
    let begins (e : Exchange) : Prop :=
      exec (.transferGrant free bus) s = .next { s with dev.lnc := lowered.begun free e }
    let closes : Prop := exec (.transferGrant free bus) s = .next { s with dev.lnc := lowered.closedPhase }
    let owed (estimate : Nat) (e : Exchange) : Prop := (l.holds estimate → begins e) ∧ (¬l.holds estimate → closes)
    ((s.dev.record a).statusOwed = true → owed 56 (exchangeTo (some a) .poll 0 0 0 true [])) ∧
    ((s.dev.record a).statusOwed = false →
      ((s.dev.transfers a).abandonAll = true → owed 24 (exchangeTo (some a) .abandonAll 0 1 0 true [])) ∧
      ((s.dev.transfers a).abandonAll = false →
        (∀ r, (s.dev.transfers a).records.find? (·.marked) = some r →
          owed 24 (exchangeTo (some a) .abandon r.tag 0 0 true [])) ∧
        ((∀ r ∈ (s.dev.transfers a).records, r.marked = false) →
          (∀ k, firstDrop (s.dev.plan a) = some k → (∀ r ∈ (s.dev.transfers a).records, r.stream ≠ k) →
            owed 25 (exchangeTo (some a) (.drop k) 0 0 0 true [BitVec.ofNat 8 k.code.val])) ∧
          ∀ arranged created r, s.dev.offer a = some (.next arranged created r) →
            (r.phase = .opening →
              (¬l.holds 40 → closes) ∧
              (l.holds 40 →
                let hold := r.stream == .fare && s.dev.tgt.fare.timing.isSome
                Answers (.transferGrant free bus) s fun t =>
                  t.dev.lnc = lowered.begun free
                      (exchangeTo (some a) .openSegment r.tag (if hold then 1 else 0) 0 true
                        (openPayload (s.dev.entry r.index))) ∧
                    t.dev.transfers a = arranged.change (·.tag == r.tag) (fun q => { q with holdSent := hold }) ∧
                    (∀ i, t.dev.entry i =
                      if created = true ∧ i = r.index then
                        { s.dev.entry i with inUse := (s.dev.entry i).inUse + 1 } else s.dev.entry i) ∧
                    (∀ b, b ≠ a → t.dev.transfers b = s.dev.transfers b ∧ t.dev.record b = s.dev.record b) ∧
                    s.dev.learnedKept t.dev none ∧ s.dev.slotsKept t.dev ∧
                    t.dev = { s.dev with
                      port := t.dev.port, cat := t.dev.cat, ros := t.dev.ros, xfr := t.dev.xfr, lnc := t.dev.lnc })) ∧
            (r.phase = .sending →
              let rest := r.size - r.sent
              let p := s.dev.payload a
              let n := min p rest
              let most := min l.config.burst (ceilDiv rest p)
              ((∀ k, 1 ≤ k → k ≤ most → ¬l.holds (burstEstimate rest p k)) → closes) ∧
              ∀ k, 1 ≤ k → k ≤ most → l.holds (burstEstimate rest p k) →
                (∀ m, k < m → m ≤ most → ¬l.holds (burstEstimate rest p m)) →
                (∀ octets, fetchPayload s.ram bus s.dev.areaBase (s.dev.entry r.index) r.sent n = .ok octets →
                  Answers (.transferGrant free bus) s fun t =>
                    let last := k = 1 ∨ r.sent + n = r.size
                    t.dev.lnc = lowered.begun free
                        (exchangeTo (some a) .cont r.tag r.sent (if last then 0 else k - 1) (decide last) octets) ∧
                      t.dev.transfers a = arranged.change (·.tag == r.tag) (fun q => { q with sent := r.sent + n }) ∧
                      s.dev.learnedKept t.dev none ∧ s.dev.slotsKept t.dev ∧
                      t.dev = { s.dev with
                        port := t.dev.port, ros := t.dev.ros, xfr := t.dev.xfr, lnc := t.dev.lnc }) ∧
                (∀ stop, fetchPayload s.ram bus s.dev.areaBase (s.dev.entry r.index) r.sent n = .error stop →
                  Answers (.transferGrant free bus) s fun t =>
                    t.dev.lnc = { lowered with grantMade := true, replyTimer := none, deferral := none } ∧
                      (∀ q ∈ (t.dev.transfers a).records, q.tag = r.tag → q.marked = true ∧ q.sent = q.acked) ∧
                      ((s.dev.entry r.index).state = .ready →
                        (t.dev.entry r.index).state ≠ .ready ∧ (t.dev.entry r.index).fault = .fetchFault ∧
                          t.dev.port.causes.getLsbD 3 = true))) ∧
            (r.phase = .sealing ∨ r.phase = .storing →
              (¬l.holds 28 → closes) ∧
              (l.holds 28 →
                Answers (.transferGrant free bus) s fun t =>
                  t.dev.lnc = lowered.begun free (exchangeTo (some a) .seal r.tag r.size 0 true []) ∧
                    t.dev.transfers a = arranged ∧ s.dev.learnedKept t.dev none ∧ s.dev.slotsKept t.dev ∧
                    t.dev = { s.dev with
                      port := t.dev.port, ros := t.dev.ros, xfr := t.dev.xfr, lnc := t.dev.lnc }))))))


/-- In the roll call of a cycle the next address to poll is the lowest past the roll-call position that is PRESENT, SILENT, or in a
probe cycle ABSENT; with none left the transfer phase begins. A deferred frame begins when the line is free or the deferral has
passed. After a frame's last octet the reply is awaited, the reply timer started; a burst goes on with its next frame; the three COMMITs to ALL follow each other, after which the
broadcast is MADE. A sync octet while a reply is awaited begins its arrival and stops the timer
(R86, R89, R90, R98, R109, R111, R134, R170).
It rests on choices of the model: assumption log entries 15, 16 and 36. -/
def Obligations.PollsAndFramesFollowed : Prop :=
  ∀ (free : Bool) (bus : List HostRange) (s : State), s.safe →
    let due (a : Addr) : Prop :=
      s.dev.lnc.rollPosition < a.val + 1 ∧
        ((s.dev.record a).presence = .present ∨ (s.dev.record a).presence = .silent ∨
          (s.dev.record a).presence = .absent ∧ s.dev.lnc.probeCount = 0)
    let may := s.dev.port.device = .running ∧ s.dev.lnc.line = .cycle ∧ s.dev.lnc.exchange = none ∧
      s.dev.lnc.phase = .rollCall
    ((¬may → exec (.rollCallPoll free) s = .next s) ∧
    (may → (∀ a, ¬due a) → exec (.rollCallPoll free) s = .next { s with dev.lnc.phase := .transfer }) ∧
    (may → ∀ a, due a → (∀ b < a, ¬due b) →
      exec (.rollCallPoll free) s =
        .next { s with dev.lnc :=
                  { s.dev.lnc.begun free (exchangeTo (some a) .poll 0 0 0 true []) with
                    rollPosition := a.val + 1, grantMade := s.dev.lnc.grantMade } })) ∧
    exec .lineFree s = .next { s with dev.lnc.deferral := none } ∧
    exec .deferralExpiry s = .next { s with dev.lnc.deferral := none } ∧
    ((∀ e, s.dev.lnc.exchange = some e → e.phase ≠ .sending ∨ s.dev.lnc.deferral ≠ none) →
      exec (.frameSent free bus) s = .next s) ∧
    ((∀ e, s.dev.lnc.exchange = some e → e.phase ≠ .awaiting) → exec .syncOctetReceived s = .next s) ∧
    ∀ e, s.dev.lnc.exchange = some e →
      (e.phase = .awaiting →
        exec .syncOctetReceived s =
          .next { s with dev.lnc := { s.dev.lnc with
                    exchange := some { e with phase := .receiving }, replyTimer := none } }) ∧
      (e.phase = .sending → s.dev.lnc.deferral = none →
        (e.dest = none → e.framesLeft ≠ 0 →
          exec (.frameSent free bus) s =
            .next { s with dev.lnc := { s.dev.lnc with
                      exchange := some { e with framesLeft := e.framesLeft - 1 }
                      deferral := if free then none else some (1034 * (10000 / s.dev.lnc.config.rate)) } }) ∧
        (e.dest = none → e.framesLeft = 0 → s.dev.tgt.heldFare = none → s.dev.port.device ≠ .stopping → s.awake →
          Answers (.frameSent free bus) s fun t =>
            s.broadcastDone t ∧
              t.dev.lnc = { s.dev.lnc with exchange := none, replyTimer := none } ∧ s.dev.slotsKept t.dev ∧
              t.dev = { s.dev with port := t.dev.port, lnc := t.dev.lnc, act := t.dev.act }) ∧
        (∀ a, e.dest = some a → e.kind ≠ .cont ∨ e.framesLeft = 0 →
          exec (.frameSent free bus) s =
            .next { s with dev.lnc := { s.dev.lnc with
                      exchange := some { e with phase := .awaiting }
                      replyTimer := some s.dev.lnc.config.replyTimeout } }) ∧
        (∀ a r octets, e.dest = some a → e.kind = .cont → e.framesLeft ≠ 0 →
          (s.dev.transfers a).byTag e.tag = some r →
          let n := min (s.dev.payload a) (r.size - r.sent)
          fetchPayload s.ram bus s.dev.areaBase (s.dev.entry r.index) r.sent n = .ok octets →
          let last := e.framesLeft = 1 ∨ r.sent + n = r.size
          Answers (.frameSent free bus) s fun t =>
            t.dev.lnc = { s.dev.lnc with
                exchange := some { exchangeTo (some a) .cont r.tag r.sent (if last then 0 else e.framesLeft - 1)
                                     (decide last) octets with voided := e.voided }
                deferral := if free then none else some (1034 * (10000 / s.dev.lnc.config.rate)) } ∧
              t.dev.transfers a = (s.dev.transfers a).change (·.tag == r.tag) (fun q => { q with sent := r.sent + n }) ∧
              (∀ b, b ≠ a → t.dev.transfers b = s.dev.transfers b) ∧ t.ram = s.ram ∧
              t.dev = { s.dev with xfr := t.dev.xfr, lnc := t.dev.lnc }))

/-! ## Replies and misses -/

/-- A reply that does not come, is cut short, is malformed, or fails a test of R99 is a miss: it is counted, the address held over,
and a CONT burst's offset sent goes back; at the retry limit a PRESENT validator goes SILENT, and ABSENT at once when its
silence period has passed. A reply that is not valid for the frame is such a miss. Octets before the first A5h are discarded, and
those from it on, when they pass R99, are their reply. The
outcome of an exchange that a request has voided, or whose address is UNUSED, in CLASH or EXCLUDED, is discarded; with no
exchange in flight nothing happens. A missed COMMIT to a LATE address raises its attempts, and the coordinator settles with the
last address (R47, R48, R50, R86, R98 to R101, R103, R114, R130, R172, R173).
It rests on choices of the model: assumption log entries 29, 30, 36, 46 and 47. -/
def Obligations.MissesCounted : Prop :=
  ∀ s : State, s.safe →
    (s.dev.lnc.exchange = none →
      exec .replyTimeout s = .next s ∧ exec .frameIncomplete s = .next s ∧ exec .malformedReply s = .next s ∧
        (∀ octets, exec (.replyCheckFailed octets) s = .next s) ∧ ∀ reply : Reply, exec reply.command s = .next s) ∧
    ∀ e a, s.dev.lnc.exchange = some e → e.dest = some a → e.phase = .awaiting ∨ e.phase = .receiving →
      exec .malformedReply s = exec .frameIncomplete s ∧
      (e.phase = .awaiting → exec .replyTimeout s = exec .frameIncomplete s) ∧
      (e.phase = .receiving → exec .replyTimeout s = .next s) ∧
      (∀ reply, replyValid e.kind reply = false → exec reply.command s = exec .frameIncomplete s) ∧
      (∀ noise : List Octet, (∀ o ∈ noise, o ≠ 0xA5) →
        exec (.replyCheckFailed noise) s = .next s ∧
        ∀ octets : List Octet, octets.head? = some 0xA5 →
          (∀ k, judgeReply (some a) e.kind e.tag octets = .error k →
            exec (.replyCheckFailed (noise ++ octets)) s = exec .frameIncomplete s) ∧
          ∀ reply, judgeReply (some a) e.kind e.tag octets = .ok reply →
            exec (.replyCheckFailed (noise ++ octets)) s = exec reply.command s) ∧
      let missed (c : Instr) : Prop :=
        c = .frameIncomplete ∨ c = .malformedReply ∨ c = .replyTimeout ∧ e.phase = .awaiting ∨
          (∃ reply : Reply, c = reply.command ∧ replyValid e.kind reply = false) ∨
          ∃ noise octets k, c = .replyCheckFailed (noise ++ octets) ∧ (∀ o ∈ noise, o ≠ 0xA5) ∧
            octets.head? = some 0xA5 ∧ judgeReply (some a) e.kind e.tag octets = .error k
      let r := s.dev.record a
      (e.voided = .byRequest ∨ r.presence = .unused ∨ r.presence = .clash ∨ r.presence = .excluded →
        (∀ c, missed c → Answers c s fun t =>
          s.dev.lnc.ended t.dev.lnc (s.dev.port.device == .stopping) s.dev.lnc.heldOver s.dev.lnc.turn ∧
            t.dev = { s.dev with lnc := t.dev.lnc } ∧ t.ram = s.ram ∧ t.pending = s.pending) ∧
          ∀ reply : Reply, exec reply.command s = exec .frameIncomplete s) ∧
      (s.awaits a e →
        let n := min 7 (r.misses + 1)
        (r.presence = .silent ∨ r.presence = .absent ∨ r.presence = .present ∧ n < s.dev.lnc.config.retryLimit →
          e.kind ≠ .commit →
          ∀ c, missed c → Answers c s fun t =>
            s.heardFrom t a true ∧
              t.dev.record a = { r with misses := n, replyTime := (t.dev.record a).replyTime } ∧
              (∀ b, b ≠ a → t.dev.record b = s.dev.record b) ∧
              (∀ b, t.dev.transfers b =
                if b = a ∧ e.kind = .cont then
                  (s.dev.transfers b).change (·.tag == e.tag) fun q => { q with sent := q.acked }
                else s.dev.transfers b) ∧
              s.dev.slotsKept t.dev ∧
              t.dev = { s.dev with port := t.dev.port, ros := t.dev.ros, xfr := t.dev.xfr, lnc := t.dev.lnc }) ∧
        (r.presence = .present → n < s.dev.lnc.config.retryLimit → e.kind = .commit →
          (s.dev.standing a).standing = .late → s.dev.act.state ≠ .committing ∨ s.dev.tgt.heldFare = none →
          ∀ c, missed c → Answers c s fun t =>
            s.heardFrom t a true ∧ (t.dev.record a).learned = { r with misses := n }.learned ∧ s.settlesInto t ∧
              t.dev.standing a =
                { s.dev.standing a with
                  attempts := (s.dev.standing a).attempts + 1
                  standing :=
                    if (s.dev.standing a).attempts + 1 < s.dev.lnc.config.retryLimit then .late
                    else if s.dev.act.state = .idle then .unarmed else .lagging }) ∧
        (r.presence = .present → s.dev.lnc.config.retryLimit ≤ n →
          ∀ c, missed c → Answers c s fun t =>
            s.heardFrom t a true ∧ t.dev.port.causes.getLsbD 2 = true ∧ s.dev.entriesKept t.dev none ∧
              t.dev.vfy = s.dev.vfy ∧ t.dev.htq.queue <:+ s.dev.htq.queue ∧
              ((∀ m, r.silenceTimer = some m → m < s.dev.lnc.config.silence * 1000000) →
                (t.dev.record a).learned = { r with presence := .silent, misses := n }.learned ∧
                  ∀ q ∈ (t.dev.transfers a).records, q.marked = false) ∧
              ∀ m, r.silenceTimer = some m → s.dev.lnc.config.silence * 1000000 ≤ m →
                (t.dev.record a).presence = .absent ∧ (∀ k, (t.dev.record a).heldOf k = 0) ∧
                  t.dev.transfers a = { active := none, stack := [], abandonAll := false } ∧ t.dev.plan a = []))

/-- Contention while a frame is sent or a reply arrives ends the exchange and sends the line to RECOVER for the guard time; it is
counted at the address and as a miss, and the third in succession brings CLASH, with the transfers dropped and the plan
emptied. A broadcast so ended is MADE. At other times contention cannot be found (R49, R102, R103, R170).
It rests on choices of the model: assumption log entries 36 and 46. -/
def Obligations.ContentionCounted : Prop :=
  ∀ s : State, s.safe →
    let found (e : Exchange) : Prop := e.phase = .sending ∧ s.dev.lnc.deferral = none ∨ e.phase = .receiving
    let recovered : LineController :=
      { s.dev.lnc with line := .recoverCycle, guardTimer := some s.dev.lnc.config.guardTime }
    ((∀ e, s.dev.lnc.exchange = some e → ¬found e) → exec .contention s = .next s) ∧
    (∀ e, s.dev.lnc.exchange = some e → found e → e.dest = none → s.dev.tgt.heldFare = none →
      Answers .contention s fun t =>
        s.broadcastDone t ∧
          recovered.ended t.dev.lnc (s.dev.port.device == .stopping) s.dev.lnc.heldOver s.dev.lnc.turn ∧
          s.dev.slotsKept t.dev ∧ t.dev = { s.dev with port := t.dev.port, lnc := t.dev.lnc, act := t.dev.act }) ∧
    ∀ e a, s.dev.lnc.exchange = some e → found e → e.dest = some a → e.voided = .no →
      let r := s.dev.record a
      let n := min 7 (r.misses + 1)
      let recoveredFrom (t : State) : Prop :=
        recovered.ended t.dev.lnc (s.dev.port.device == .stopping) (s.dev.lnc.heldOver.insert a)
          (s.dev.lnc.turn.filter fun (x : Addr × Nat) => x.1 != a)
      (r.contentions + 1 < 3 → e.kind ≠ .commit →
        r.presence = .silent ∨ r.presence = .absent ∨ r.presence = .present ∧ n < s.dev.lnc.config.retryLimit →
        Answers .contention s fun t =>
          recoveredFrom t ∧
            t.dev.record a = { r with misses := n, contentions := r.contentions + 1
                                      replyTime := (t.dev.record a).replyTime } ∧
            (∀ b, b ≠ a → t.dev.record b = s.dev.record b) ∧
            (∀ b, t.dev.transfers b =
              if b = a ∧ e.kind = .cont then
                (s.dev.transfers b).change (·.tag == e.tag) fun q => { q with sent := q.acked }
              else s.dev.transfers b) ∧
            s.dev.slotsKept t.dev ∧
            t.dev = { s.dev with port := t.dev.port, ros := t.dev.ros, xfr := t.dev.xfr, lnc := t.dev.lnc }) ∧
      (3 ≤ r.contentions + 1 → r.presence = .silent ∨ r.presence = .absent ∨ r.presence = .present →
        Answers .contention s fun t =>
          recoveredFrom t ∧
            (t.dev.record a).learned =
              { r with presence := .clash, contentions := 3, statusOwed := false, noticePending := false }.learned ∧
            t.dev.port.causes.getLsbD 2 = true ∧
            t.dev.transfers a = { active := none, stack := [], abandonAll := false } ∧ t.dev.plan a = [] ∧
            s.dev.learnedKept t.dev (some a) ∧ s.dev.entriesKept t.dev none ∧ s.dev.portKept t.dev ∧
            t.dev.vfy = s.dev.vfy ∧ t.dev.fck = s.dev.fck ∧ t.dev.tgt.block = s.dev.tgt.block ∧
            t.dev.htq.queue <:+ s.dev.htq.queue)

/-- A STATUS in range to a POLL fills the record, times the reply, clears misses and contentions, brings an ABSENT or SILENT validator
to PRESENT, and has the hot status, the high-water and the restart owed judged; another serial is a unit change, which drops
the transfers and clears what was learned. The record's mirror is rewritten once, with its last valid reply time; so is the
coordinator's when a unit change takes the address to UNCONFIRMED, whatever the report then makes of its standing. ACT takes the
fare editions reported: arm refused is cleared; an armed edition that is not the one being armed has a disarm owed; UNCONFIRMED
and LAGGING addresses are judged, and the coordinator settles with the last; in IDLE an address with the untimed target's edition
pending is LATE. A STATUS out of range is a miss (R46, R47, R51 to R54, R58, R153, R154, R168, R169, R171 to R173, R175, R177).
It rests on choices of the model: assumption log entries 12 and 29. -/
def Obligations.StatusApplied : Prop :=
  ∀ (f : StatusFields) (s : State) (a : Addr) (e : Exchange), s.safe → s.awaits a e → e.kind = .poll →
    let r := s.dev.record a
    let q := s.dev.htq
    let held (k : Stream) : Nat :=
      match k with
      | .blockT0 => f.heldT0.toNat
      | .fare => if f.pendingFare ≠ 0 then f.pendingFare.toNat else f.activeFare.toNat
      | .blockT1 => f.heldT1.toNat
      | .blockT2 => f.heldT2.toNat
      | .blockT3 => f.heldT3.toNat
    let unit := r.serial ≠ 0 ∧ f.serial.toNat ≠ r.serial
    let joins := some f.hotEpoch.toNat ≠ q.epoch ∨
      f.hotHighWater ≠ 0 ∧ (q.newest = 0 ∨ seqFollows f.hotHighWater.toNat q.newest = true)
    let armed := if f.armed then f.pendingFare.toNat else 0
    let before : StandingRecord :=
      if unit then
        { standing := if s.dev.act.broadcast = .made then .unconfirmed else .unarmed
          disarmOwed := false, armRefused := false, attempts := 0 }
      else if r.presence = .present then s.dev.standing a
      else { s.dev.standing a with attempts := 0 }
    let inRange := 32 ≤ f.maxPayload.toNat ∧ f.maxPayload.toNat ≤ 1024 ∧ 1 ≤ f.openSlots.toNat ∧ f.openSlots.toNat ≤ 4
    (¬inRange → exec (.status f) s = exec .frameIncomplete s) ∧
    (inRange → r.presence = .present ∨ r.presence = .silent ∨ r.presence = .absent →
      Answers (.status f) s fun t =>
        s.heardFrom t a false ∧ s.dev.entriesKept t.dev none ∧ t.dev.vfy = s.dev.vfy ∧
          t.dev.port.rosCounts[a] = s.dev.port.rosCounts[a] + 1 ∧ (t.dev.record a).replyTime = .shown ∧
          t.dev.record a =
            { t.dev.record a with
              presence := .present, weight := r.weight, serial := f.serial.toNat, maxPayload := f.maxPayload.toNat
              openSlots := f.openSlots.toNat, hotCapacity := f.hotCapacity.toNat
              fareCapacity := f.fareCapacity.toNat, blockCapacity := f.blockCapacity.toNat
              activeFare := f.activeFare.toNat, pendingFare := f.pendingFare.toNat
              armedEdition := if f.armed then f.pendingFare.toNat else 0
              hotEpochSeen := f.hotEpoch.toNat
              hotHighWater :=
                if joins ∨ q.restartOwed.has a = true ∧ ¬unit then 0 else f.hotHighWater.toNat
              noticePending := f.noticePending, misses := 0, contentions := 0
              unitChanges := if unit then (r.unitChanges + 1) % 65536 else r.unitChanges
              lastReply := s.dev.fck.seconds.toNat, silenceTimer := some 0, statusOwed := false
              cellFilled := r.cellFilled } ∧
          (∀ k, (t.dev.record a).heldOf k = held k) ∧
          (t.dev.record a).hotStatus =
            (if f.hotCapacity = 0 then .none
             else if f.hotCapacity.toNat ≠ r.hotCapacity ∨ unit then .ok
             else if r.hotStatus = .short ∧ ∃ k ∈ tierStreams, held k ≠ r.heldOf k then .ok
             else r.hotStatus) ∧
          (t.dev.htq.restartOwed.has a = true ↔ joins ∨ q.restartOwed.has a = true ∧ ¬unit) ∧
          t.dev.htq.queue <:+ q.queue ∧
          (r.presence ≠ .present ∨ unit → t.dev.port.causes.getLsbD 2 = true) ∧
          (unit → t.dev.transfers a = { active := none, stack := [], abandonAll := false } ∧
            ∀ k, ((t.dev.record a).cell k).rejects = 0 ∧ ((t.dev.record a).cell k).hold = false ∧
              ((t.dev.record a).cell k).room = false) ∧
          (¬unit → s.dev.act.state ≠ .committing → ∀ k,
            ((t.dev.record a).cell k).rejects = (r.cell k).rejects ∧ ((t.dev.record a).cell k).hold = (r.cell k).hold ∧
              ((t.dev.record a).cell k).room =
                if k = .fare ∧ f.fareCapacity.toNat ≠ r.fareCapacity ∨
                    k ≠ .fare ∧ f.blockCapacity.toNat ≠ r.blockCapacity then false
                else (r.cell k).room) ∧
          (r.presence ≠ .present ∨ unit ∨ r.statusOwed = true ∨ f.blockCapacity.toNat ≠ r.blockCapacity →
            (t.dev.record a).reach = (t.dev.computeReach a).1) ∧
          (unit → s.dev.act.broadcast = .made → (s.dev.standing a).standing ≠ .unconfirmed →
            t.dev.port.coordCount = s.dev.port.coordCount + 1) ∧
          (s.dev.act.broadcast = .made → s.dev.tgt.heldFare = none →
            s.dev.act.state = .committing ∨ s.dev.act.state = .settled →
            unit ∨ (s.dev.standing a).standing = .unconfirmed →
            (t.dev.standing a).standing =
              if f.activeFare.toNat = s.dev.act.edition then .confirmed
              else if f.pendingFare.toNat = s.dev.act.edition then .late else .lagging) ∧
          (¬unit → s.dev.act.state = .arming → (s.dev.standing a).standing = .armed →
            (t.dev.standing a).standing =
              if f.pendingFare.toNat = s.dev.act.edition ∧ armed = s.dev.act.edition then .armed else .unarmed) ∧
          (t.dev.standing a).armRefused = false ∧
          (s.dev.act.state = .idle ∨ s.dev.act.state = .loading →
            (t.dev.standing a).disarmOwed = (before.disarmOwed || armed != 0) ∧ t.dev.act.state = s.dev.act.state) ∧
          (s.dev.act.state = .arming → r.presence = .present ∨ t.dev.act.state = .arming →
            (t.dev.standing a).disarmOwed = (before.disarmOwed || armed != 0 && armed != s.dev.act.edition)) ∧
          (s.dev.act.state = .committing ∨ s.dev.act.state = .settled → s.dev.tgt.heldFare = none →
            (t.dev.standing a).disarmOwed = before.disarmOwed ∧ s.settlesInto t) ∧
          (s.dev.act.state = .idle →
            (t.dev.standing a).standing =
              if s.dev.act.edition ≠ 0 ∧ f.pendingFare.toNat = s.dev.act.edition ∧
                  f.activeFare.toNat ≠ s.dev.act.edition ∧ before.attempts < s.dev.lnc.config.retryLimit then .late
              else before.standing) ∧
          (s.dev.act.broadcast = .made → s.dev.tgt.heldFare = none →
            s.dev.act.state = .committing ∨ s.dev.act.state = .settled → before.standing = .lagging →
            (t.dev.standing a).standing =
              if f.activeFare.toNat = s.dev.act.edition then .confirmed
              else if f.pendingFare.toNat = s.dev.act.edition ∧ before.attempts < s.dev.lnc.config.retryLimit then .late
              else .lagging))

/-- A NOTICE of at most 48 octets of text, the COLLECT's reply from a PRESENT validator, is a clean reply: its cell is filled and
handed to software with its kind, length and text, the record shows the cell FILLED and no notice pending, and the device
count steps with cause NOTICE raised (R47, R60, R198).
It rests on choices of the model: assumption log entries 17 and 29. -/
def Obligations.NoticeTaken : Prop :=
  ∀ (kind : Octet) (text : List Octet) (s : State) (a : Addr) (e : Exchange), s.safe → s.awaits a e →
    e.kind = .collect → (s.dev.record a).presence = .present → text.length ≤ 48 →
    Answers (.notice kind text) s fun t =>
      s.heardFrom t a false ∧
        t.dev.record a =
          { (s.dev.record a).answeredAt s.dev.fck.seconds with
            cellFilled := true, noticePending := false, replyTime := (t.dev.record a).replyTime } ∧
        (∀ b, b ≠ a → t.dev.record b = s.dev.record b) ∧
        t.ram.octets (s.dev.areaBase + cellOffset a) 64 =
          [0, kind, BitVec.ofNat 8 text.length, 0] ++ text ++ List.replicate (60 - text.length) 0 ∧
        t.dev.port.deviceCount = s.dev.port.deviceCount + 1 ∧
        t.ram.field (s.dev.areaBase + 20) 4 = t.dev.port.deviceCount.toNat ∧ t.dev.port.causes.getLsbD 1 = true ∧
        t.dev.port.held = s.dev.port.held ∧ t.dev.port.rotation = s.dev.port.rotation ∧
        t.dev.port.returnsOwed = s.dev.port.returnsOwed ∧
        t.dev = { s.dev with port := t.dev.port, ros := t.dev.ros, lnc := t.dev.lnc }

/-- An ACK from a PRESENT validator acts by the frame it answers: OPEN and CONT set the record's offsets; ABANDON closes the record,
the last one of a RETIRING entry with the entry FREE and its WITHDRAW returned DONE; ABANDON-all clears what is owed; DROP leaves
the tier without an edition; HOT sets the high-water; ARM, disarm and COMMIT change the standing. With the last address
CONFIRMED or LAGGING the coordinator enters SETTLED, where a held FARE target is discarded when it equals the target, and else
replaces it, the coordinator starting over. An offset out of range is a miss (R15, R28, R55, R101, R128, R132, R134, R142, R143,
R157, R168, R169, R172, R173).
It rests on choices of the model: assumption log entries 11, 29 and 31. -/
def Obligations.AckApplied : Prop :=
  ∀ (offset : BitVec 24) (s : State) (a : Addr) (e : Exchange), s.safe → s.awaits a e →
    (s.dev.record a).presence = .present →
    let x := offset.toNat
    let r := s.dev.record a
    let answered := r.answeredAt s.dev.fck.seconds
    let missed := exec (.ack offset) s = exec .frameIncomplete s
    let clean (t : State) : Prop :=
      s.heardFrom t a false ∧ s.dev.entriesKept t.dev none ∧ t.dev.vfy = s.dev.vfy ∧ t.dev.htq.queue <:+ s.dev.htq.queue
    (e.kind = .openSegment ∨ e.kind = .cont →
      (∀ q, (s.dev.transfers a).byTag e.tag = some q →
        let limit := if e.kind = .openSegment then q.size else q.sent
        (limit < x → missed) ∧
        (x ≤ limit → Answers (.ack offset) s fun t =>
          clean t ∧
            t.dev.transfers a = (s.dev.transfers a).change (·.tag == q.tag) (fun p =>
              { p with sent := x, acked := x, phase := if x = p.size then .sealing else .sending }) ∧
            t.dev.record a = { answered with replyTime := (t.dev.record a).replyTime } ∧
            s.dev.slotsKept t.dev ∧
            t.dev = { s.dev with port := t.dev.port, ros := t.dev.ros, xfr := t.dev.xfr, lnc := t.dev.lnc })) ∧
      ((s.dev.transfers a).byTag e.tag = none → Answers (.ack offset) s fun t =>
        clean t ∧ t.dev.record a = { answered with replyTime := (t.dev.record a).replyTime } ∧
          s.dev.slotsKept t.dev ∧ t.dev = { s.dev with port := t.dev.port, ros := t.dev.ros, lnc := t.dev.lnc })) ∧
    (e.kind = .abandon → ∀ q, (s.dev.transfers a).byTag e.tag = some q → Answers (.ack offset) s fun t =>
      clean t ∧ t.dev.transfers a = (s.dev.transfers a).remove q.tag ∧
        (t.dev.record a).learned = answered.learned ∧
        (t.dev.entry q.index).generation =
          (if (s.dev.entry q.index).state = .retiring ∧ (s.dev.entry q.index).inUse ≤ 1 then
            generationAfter (s.dev.entry q.index).generation else (s.dev.entry q.index).generation) ∧
        (¬((s.dev.entry q.index).state = .retiring ∧ (s.dev.entry q.index).inUse ≤ 1) →
          t.dev.entry q.index = { s.dev.entry q.index with inUse := (s.dev.entry q.index).inUse - 1 }) ∧
        ((s.dev.entry q.index).state = .retiring → (s.dev.entry q.index).inUse ≤ 1 →
          t.dev.entry q.index = (s.dev.entry q.index).freedAs (s.dev.entry q.index).fault ∧
            ∀ slot h, (s.dev.entry q.index).pendingSlot = some slot → s.dev.port.held[slot] = some h →
              t.returned slot .done .done 0 h.kind h.ref) ∧
        (∀ i, i ≠ q.index → t.dev.entry i = s.dev.entry i)) ∧
    (e.kind = .abandonAll → Answers (.ack offset) s fun t =>
      clean t ∧ t.dev.transfers a = { s.dev.transfers a with abandonAll := false } ∧
        t.dev.record a = { answered with replyTime := (t.dev.record a).replyTime } ∧
        s.dev.slotsKept t.dev ∧
        t.dev = { s.dev with port := t.dev.port, ros := t.dev.ros, xfr := t.dev.xfr, lnc := t.dev.lnc }) ∧
    (∀ k, e.kind = .drop k → k ≠ .fare → Answers (.ack offset) s fun t =>
      clean t ∧
        (t.dev.record a).learned =
          { answered.setHeld k 0 with
            hotStatus := if r.heldOf k ≠ 0 ∧ r.hotStatus = HotStatus.short then HotStatus.ok else r.hotStatus }.learned ∧
        (t.dev.record a).reach = (t.dev.computeReach a).1) ∧
    (∀ first last restart, e.kind = .hot first last restart →
      let between := 1 ≤ x ∧ x ≤ 65535 ∧ seqDistance first x ≤ seqDistance first last
      (¬between → missed) ∧
      (between → Answers (.ack offset) s fun t =>
        clean t ∧
          t.dev.record a =
            { answered with
              hotHighWater := x, hotEpochSeen := s.dev.htq.epoch.getD r.hotEpochSeen
              replyTime := (t.dev.record a).replyTime } ∧
          t.dev.htq =
            { s.dev.htq with
              queue := t.dev.htq.queue
              restartOwed := if restart then s.dev.htq.restartOwed.erase a else s.dev.htq.restartOwed } ∧
          s.dev.slotsKept t.dev ∧
          t.dev = { s.dev with port := t.dev.port, ros := t.dev.ros, htq := t.dev.htq, lnc := t.dev.lnc })) ∧
    (e.kind = .arm ∨ e.kind = .disarm ∨ e.kind = .commit →
      let st := s.dev.standing a
      let kept (t : State) : Prop :=
        clean t ∧ t.dev.record a = { answered with replyTime := (t.dev.record a).replyTime } ∧
          s.dev.slotsKept t.dev ∧
          t.dev = { s.dev with port := t.dev.port, ros := t.dev.ros, act := t.dev.act, lnc := t.dev.lnc }
      (e.kind = .arm →
        (x ≠ 0 → x ≠ s.dev.act.edition → missed) ∧
        (x = 0 → s.dev.act.edition ≠ 0 → Answers (.ack offset) s fun t =>
          kept t ∧ t.dev.standing a = { st with armRefused := true }) ∧
        (x = s.dev.act.edition → s.dev.act.state = .arming → st.standing = .unarmed → Answers (.ack offset) s fun t =>
          kept t ∧
            { s.dev.act with standings := s.dev.act.standings.set a { st with standing := .armed } }.Judged
              s.dev.record s.dev.fck t.dev.act) ∧
        (x = s.dev.act.edition → s.dev.act.state = .committing → s.dev.act.broadcast ≠ .made → st.standing = .unarmed →
          Answers (.ack offset) s fun t =>
            kept t ∧ t.dev.act = { s.dev.act with standings := s.dev.act.standings.set a { st with standing := .armed } })) ∧
      (e.kind = .disarm →
        (x ≠ 0 → missed) ∧
        (x = 0 → Answers (.ack offset) s fun t => kept t ∧ t.dev.standing a = { st with disarmOwed := false })) ∧
      (e.kind = .commit → st.standing = .late → s.dev.act.state ≠ .committing ∨ s.dev.tgt.heldFare = none →
        Answers (.ack offset) s fun t =>
          kept t ∧ s.settlesInto t ∧ t.dev.standing a =
            if x = s.dev.act.edition then
              { st with standing := if s.dev.act.state = .idle then .unarmed else .confirmed }
            else
              { st with
                attempts := st.attempts + 1
                standing :=
                  if st.attempts + 1 < s.dev.lnc.config.retryLimit then .late
                  else if s.dev.act.state = .idle then .unarmed else .lagging }) ∧
      (∀ held, s.dev.tgt.heldFare = some held → e.kind = .commit → st.standing = .late →
        s.dev.act.state = .committing → s.dev.act.broadcast = .made → x = s.dev.act.edition →
        (∀ b, b ≠ a → (s.dev.record b).presence ≠ .unused → (s.dev.record b).presence ≠ .excluded →
          (s.dev.standing b).standing = .confirmed ∨ (s.dev.standing b).standing = .lagging) →
        Answers (.ack offset) s fun t =>
          clean t ∧ t.dev.port.causes.getLsbD 4 = true ∧
            (held = s.dev.tgt.fare →
              t.dev.tgt = { s.dev.tgt with heldFare := none } ∧ t.dev.act.state = .settled ∧
                t.dev.standing a = { st with standing := .confirmed }) ∧
            (held ≠ s.dev.tgt.fare →
              t.dev.tgt = { s.dev.tgt with fare := held, heldFare := none } ∧ s.dev.startedOver t.dev held ∧
                ∀ b, ((t.dev.record b).cell .fare).rejects = 0 ∧ ((t.dev.record b).cell .fare).hold = false ∧
                  ((t.dev.record b).cell .fare).room = false)))

/-- A NAK from a PRESENT validator, its cause valid for the frame and its detail the frame's kind code, acts by its cause. To OPEN,
CONT and SEAL: CHECK sends the burst's offset back and counts as a miss, ORDER sets the offsets, KIND counts as a miss, TAG
opens the record again, LENGTH owes a STATUS, ROOM closes the record with a room shortfall, SLOT drops every record and owes an
ABANDON-all, and BUSY holds the address over, a SEAL being STORING. To HOT: KIND and ROOM lower the hot status. To the rest:
TAG ends an ABANDON, and the others count as misses, or hold the address over; to a COMMIT they raise the attempts of a LATE
address, and the coordinator settles with the last one (R104, R139, R140, R142, R143, R158, R172, R173).
It rests on choices of the model: assumption log entries 29, 31, 40 and 46. -/
def Obligations.NakApplied : Prop :=
  ∀ (cause : Octet) (offset : BitVec 24) (s : State) (a : Addr) (e : Exchange) (c : NakCause), s.safe → s.awaits a e →
    NakCause.ofCode? cause.toNat = some c → c ∈ e.kind.nakCauses → (s.dev.record a).presence = .present →
    let nak : Instr := .nak cause e.kind.code offset
    let x := offset.toNat
    let r := s.dev.record a
    let answered := r.answeredAt s.dev.fck.seconds
    let counted := r.countedAt s.dev.fck.seconds
    let below := counted.misses < s.dev.lnc.config.retryLimit
    let changed (t : State) (q : TransferRecord) (f : TransferRecord → TransferRecord) : Prop :=
      t.dev.transfers a = (s.dev.transfers a).change (·.tag == q.tag) f
    let shows (t : State) (v : ValRecord) : Prop :=
      t.dev.record a = { v with replyTime := (t.dev.record a).replyTime } ∧ s.dev.slotsKept t.dev
    let transferOnly (t : State) : Prop :=
      t.dev = { s.dev with port := t.dev.port, ros := t.dev.ros, xfr := t.dev.xfr, lnc := t.dev.lnc }
    let rosterOnly (t : State) : Prop := t.dev = { s.dev with port := t.dev.port, ros := t.dev.ros, lnc := t.dev.lnc }
    let wide (t : State) : Prop :=
      s.heardFrom t a false ∧ s.dev.entriesKept t.dev none ∧ t.dev.vfy = s.dev.vfy ∧ t.dev.htq.queue <:+ s.dev.htq.queue
    (∀ q, e.kind = .openSegment ∨ e.kind = .cont ∨ e.kind = .seal → (s.dev.transfers a).byTag e.tag = some q →
      (c = .check → below → Answers nak s fun t =>
        s.heardFrom t a true ∧ changed t q (fun p => { p with sent := p.acked }) ∧ shows t counted ∧ transferOnly t) ∧
      (c = .order →
        (q.sent < x → exec nak s = exec .frameIncomplete s) ∧
        (x ≤ q.sent → Answers nak s fun t =>
          s.heardFrom t a false ∧
            changed t q (fun p =>
              { p with sent := x, acked := x, phase := if x = p.size then .sealing else .sending }) ∧
            shows t answered ∧ transferOnly t)) ∧
      (c = .kind → below → Answers nak s fun t => s.heardFrom t a true ∧ shows t counted ∧ rosterOnly t) ∧
      (c = .tag → Answers nak s fun t =>
        s.heardFrom t a false ∧ changed t q (fun p => { p with sent := p.acked, phase := .opening }) ∧
          shows t answered ∧ transferOnly t) ∧
      (c = .length → Answers nak s fun t =>
        s.heardFrom t a false ∧ changed t q (fun p => { p with sent := p.acked }) ∧
          shows t { answered with statusOwed := true } ∧ transferOnly t) ∧
      (c = .room → Answers nak s fun t =>
        wide t ∧ (t.dev.record a).learned = answered.learned ∧ ((t.dev.record a).cell q.stream).room = true ∧
          (t.dev.transfers a).byTag q.tag = none) ∧
      (c = .slot → Answers nak s fun t =>
        wide t ∧ (t.dev.record a).learned = answered.learned ∧
          t.dev.transfers a = { active := none, stack := [], abandonAll := true }) ∧
      (c = .busy → Answers nak s fun t =>
        s.heardFrom t a true ∧
          changed t q (fun p => if e.kind = .seal then { p with phase := .storing } else { p with sent := p.acked }) ∧
          shows t answered ∧ transferOnly t)) ∧
    (c = .tag → e.kind = .abandon → ∀ q, (s.dev.transfers a).byTag e.tag = some q → Answers nak s fun t =>
      wide t ∧ t.dev.transfers a = (s.dev.transfers a).remove q.tag ∧ (t.dev.record a).learned = answered.learned) ∧
    (c = .tag → e.kind = .abandonAll → Answers nak s fun t =>
      s.heardFrom t a false ∧ t.dev.transfers a = { s.dev.transfers a with abandonAll := false } ∧
        shows t answered ∧ transferOnly t) ∧
    (∀ first last restart, e.kind = .hot first last restart →
      (c = .kind → Answers nak s fun t =>
        wide t ∧ shows t { answered with hotStatus := .none } ∧
          (r.hotStatus = .ok → t.dev.port.causes.getLsbD 5 = true)) ∧
      (c = .room → Answers nak s fun t =>
        wide t ∧ shows t { answered with hotStatus := if r.hotStatus = .ok then .short else r.hotStatus } ∧
          (r.hotStatus = .ok → t.dev.port.causes.getLsbD 5 = true)) ∧
      (c = .length → Answers nak s fun t =>
        s.heardFrom t a false ∧ shows t { answered with statusOwed := true } ∧ rosterOnly t)) ∧
    (e.kind = .openSegment ∨ e.kind = .cont ∨ e.kind = .seal → (s.dev.transfers a).byTag e.tag = none →
      Answers nak s fun t => s.heardFrom t a (c == .busy) ∧ shows t answered ∧ rosterOnly t) ∧
    (e.kind = .commit → (s.dev.standing a).standing = .late →
      s.dev.act.state ≠ .committing ∨ s.dev.tgt.heldFare = none → below →
      Answers nak s fun t =>
        s.heardFrom t a true ∧ s.settlesInto t ∧
          t.dev.standing a =
            { s.dev.standing a with
              attempts := (s.dev.standing a).attempts + 1
              standing :=
                if (s.dev.standing a).attempts + 1 < s.dev.lnc.config.retryLimit then .late
                else if s.dev.act.state = .idle then .unarmed else .lagging } ∧
          shows t (if c = .busy then answered else counted)) ∧
    (e.kind ≠ .openSegment → e.kind ≠ .cont → e.kind ≠ .seal → e.kind ≠ .commit →
      (c = .busy → Answers nak s fun t => s.heardFrom t a true ∧ shows t answered ∧ rosterOnly t) ∧
      (c = .check ∨ c = .kind ∧ (∀ first last restart, e.kind ≠ .hot first last restart) → below →
        Answers nak s fun t => s.heardFrom t a true ∧ shows t counted ∧ rosterOnly t))

/-- A VERDICT to a SEAL closes the record it answers for and acts by its code: STORED and STORED_PENDING set the held edition, the
reject count becoming 0; REJECT_CHECK counts a reject and has a READY entry verified again, and with a RETIRING one the reject
counted and taken back still rewrites the roster mirror; REJECT_BASE owes a STATUS;
REJECT_ROOM sets a room shortfall. Another stream than the record's, or STORED_PENDING for a BLOCK tier, is a miss
(R17, R55 to R58, R61, R105, R136 to R138).
It rests on choices of the model: assumption log entries 12, 27, 29, 31, 35 and 44. -/
def Obligations.VerdictApplied : Prop :=
  ∀ (code stream : Octet) (held : Half) (s : State) (a : Addr) (e : Exchange), s.safe → s.awaits a e → e.kind = .seal →
    (s.dev.record a).presence = .present → 1 ≤ code.toNat → code.toNat ≤ 5 →
    let r := s.dev.record a
    let answered := r.answeredAt s.dev.fck.seconds
    let verdict : Instr := .verdict code stream held
    ((s.dev.transfers a).byTag e.tag = none → Answers verdict s fun t =>
      s.heardFrom t a false ∧ t.dev.record a = { answered with replyTime := (t.dev.record a).replyTime } ∧
        s.dev.slotsKept t.dev ∧ t.dev = { s.dev with port := t.dev.port, ros := t.dev.ros, lnc := t.dev.lnc }) ∧
    ∀ q, (s.dev.transfers a).byTag e.tag = some q →
      let entry := s.dev.entry q.index
      let closed (t : State) (i : Option CatIndex) : Prop :=
        s.heardFrom t a false ∧ s.dev.entriesKept t.dev i ∧ t.dev.htq.queue <:+ s.dev.htq.queue ∧
          (t.dev.transfers a).byTag q.tag = none
      (stream.toNat ≠ q.stream.code.val ∨ code = 2 ∧ q.stream ≠ .fare →
        exec verdict s = exec .frameIncomplete s) ∧
      (stream.toNat = q.stream.code.val →
        (code = 1 → Answers verdict s fun t =>
          closed t none ∧ t.dev.vfy = s.dev.vfy ∧
            (t.dev.record a).learned =
              { answered.setHeld q.stream held.toNat with
                activeFare := if q.stream = Stream.fare then held.toNat else r.activeFare
                pendingFare := if q.stream = Stream.fare then 0 else r.pendingFare
                hotStatus :=
                  if q.stream ≠ Stream.fare ∧ r.heldOf q.stream ≠ held.toNat ∧ r.hotStatus = HotStatus.short then HotStatus.ok
                  else r.hotStatus }.learned ∧
            ((t.dev.record a).cell q.stream).rejects = 0) ∧
        (code = 2 → q.stream = .fare → Answers verdict s fun t =>
          closed t none ∧ t.dev.vfy = s.dev.vfy ∧
            (t.dev.record a).learned = { answered.setHeld .fare held.toNat with pendingFare := held.toNat }.learned ∧
            ((t.dev.record a).cell .fare).rejects = 0) ∧
        (code = 3 → Answers verdict s fun t =>
          closed t (some q.index) ∧ (t.dev.record a).learned = answered.learned ∧
            (entry.state = .ready →
              (t.dev.entry q.index).state = .reverifying ∧
                (∀ b, (t.dev.entry q.index).rejecters.has b = decide (b = a)) ∧
                t.dev.vfy = { s.dev.vfy with queue := s.dev.vfy.queue ++ [q.index] } ∧
                ((t.dev.record a).cell q.stream).rejects = min 3 ((r.cell q.stream).rejects + 1) ∧
                t.dev.port.causes.getLsbD 3 = true) ∧
            (entry.state = .reverifying →
              (t.dev.entry q.index).state = .reverifying ∧
                (∀ b, (t.dev.entry q.index).rejecters.has b = (entry.rejecters.has b || decide (b = a))) ∧
                t.dev.vfy = s.dev.vfy ∧
                ((t.dev.record a).cell q.stream).rejects = min 3 ((r.cell q.stream).rejects + 1)) ∧
            (entry.state = .retiring →
              t.dev.vfy = s.dev.vfy ∧
                ((t.dev.record a).cell q.stream).rejects = min 3 ((r.cell q.stream).rejects + 1) - 1 ∧
                t.dev.port.rosCounts[a] = s.dev.port.rosCounts[a] + 1)) ∧
        (code = 4 → Answers verdict s fun t =>
          closed t none ∧ t.dev.vfy = s.dev.vfy ∧ (t.dev.record a).learned = { answered with statusOwed := true }.learned) ∧
        (code = 5 → Answers verdict s fun t =>
          closed t none ∧ t.dev.vfy = s.dev.vfy ∧ (t.dev.record a).learned = answered.learned ∧
            ((t.dev.record a).cell q.stream).room = true))
end

