-- ==== Sys2Proof/Laws/State.lean ====
section
/-! SUPPORT. What reading a record gives after a change of the part: one lemma for each kind of record and each change of a
record, and for the fields of EXP that the port's small changes touch. -/

namespace Sys2Proof.Machine

/-! ## A record read after a record is set -/

@[simp] theorem Device.record_setRecord_self (d : Device) (a : Addr) (r : ValRecord) : (d.setRecord a r).record a = r := by
  simp [Device.record, Device.setRecord]

theorem Device.record_setRecord (d : Device) (a b : Addr) (r : ValRecord) :
    (d.setRecord a r).record b = if a = b then r else d.record b := by
  by_cases h : a = b
  · subst h; simp
  · simp [Device.record, Device.setRecord, h, Fin.val_inj]

@[simp] theorem Device.record_putRecord_self (d : Device) (a : Addr) (r : ValRecord) : (d.putRecord a r).record a = r := by
  simp [Device.record, Device.putRecord]

theorem Device.record_putRecord (d : Device) (a b : Addr) (r : ValRecord) :
    (d.putRecord a r).record b = if a = b then r else d.record b := by
  by_cases h : a = b
  · subst h; simp
  · simp [Device.record, Device.putRecord, h, Fin.val_inj]

@[simp] theorem Device.entry_setEntry_self (d : Device) (i : CatIndex) (e : Entry) : (d.setEntry i e).entry i = e := by
  simp [Device.entry, Device.setEntry]

theorem Device.entry_setEntry (d : Device) (i j : CatIndex) (e : Entry) :
    (d.setEntry i e).entry j = if i = j then e else d.entry j := by
  by_cases h : i = j
  · subst h; simp
  · simp [Device.entry, Device.setEntry, h, Fin.val_inj]

@[simp] theorem Device.plan_setPlan_self (d : Device) (a : Addr) (p : List Job) : (d.setPlan a p).plan a = p := by
  simp [Device.plan, Device.setPlan]

theorem Device.plan_setPlan (d : Device) (a b : Addr) (p : List Job) :
    (d.setPlan a p).plan b = if a = b then p else d.plan b := by
  by_cases h : a = b
  · subst h; simp
  · simp [Device.plan, Device.setPlan, h, Fin.val_inj]

@[simp] theorem Device.transfers_setTransfers_self (d : Device) (a : Addr) (t : Transfers) :
    (d.setTransfers a t).transfers a = t := by
  simp [Device.transfers, Device.setTransfers]

theorem Device.transfers_setTransfers (d : Device) (a b : Addr) (t : Transfers) :
    (d.setTransfers a t).transfers b = if a = b then t else d.transfers b := by
  by_cases h : a = b
  · subst h; simp
  · simp [Device.transfers, Device.setTransfers, h, Fin.val_inj]

@[simp] theorem Device.standing_setStanding_self (d : Device) (a : Addr) (s : StandingRecord) :
    (d.setStanding a s).standing a = s := by
  simp [Device.standing, Device.setStanding, Device.setAct]

theorem Device.standing_setStanding (d : Device) (a b : Addr) (s : StandingRecord) :
    (d.setStanding a s).standing b = if a = b then s else d.standing b := by
  by_cases h : a = b
  · subst h; simp
  · simp [Device.standing, Device.setStanding, Device.setAct, h, Fin.val_inj]

@[simp] theorem Device.record_mapRecords (d : Device) (f : Addr → ValRecord → ValRecord) (a : Addr) :
    (d.mapRecords f).record a = f a (d.record a) := by
  simp [Device.record, Device.mapRecords]

@[simp] theorem ValRecord.cell_setCell_self (r : ValRecord) (s : Stream) (c : StreamCell) : (r.setCell s c).cell s = c := by
  simp [ValRecord.cell, ValRecord.setCell]

theorem Stream.code_inj {s t : Stream} (h : s.code = t.code) : s = t := by
  revert h; cases s <;> cases t <;> decide

theorem ValRecord.cell_setCell (r : ValRecord) (s t : Stream) (c : StreamCell) :
    (r.setCell s c).cell t = if s = t then c else r.cell t := by
  by_cases h : s = t
  · subst h; simp
  · have hne : s.code.val ≠ t.code.val := fun e => h (Stream.code_inj (Fin.ext e))
    simp [ValRecord.cell, ValRecord.setCell, h, hne]

@[simp] theorem ValRecord.cell_mapCells (r : ValRecord) (f : StreamCell → StreamCell) (s : Stream) :
    (r.mapCells f).cell s = f (r.cell s) := by
  simp [ValRecord.cell, ValRecord.mapCells]

/-! ## What setting a record leaves alone -/

@[simp] theorem Device.setRecord_port (d : Device) (a : Addr) (r : ValRecord) : (d.setRecord a r).port = d.port := rfl
@[simp] theorem Device.setRecord_cat (d : Device) (a : Addr) (r : ValRecord) : (d.setRecord a r).cat = d.cat := rfl
@[simp] theorem Device.setRecord_vfy (d : Device) (a : Addr) (r : ValRecord) : (d.setRecord a r).vfy = d.vfy := rfl
@[simp] theorem Device.setRecord_tgt (d : Device) (a : Addr) (r : ValRecord) : (d.setRecord a r).tgt = d.tgt := rfl
@[simp] theorem Device.setRecord_pln (d : Device) (a : Addr) (r : ValRecord) : (d.setRecord a r).pln = d.pln := rfl
@[simp] theorem Device.setRecord_xfr (d : Device) (a : Addr) (r : ValRecord) : (d.setRecord a r).xfr = d.xfr := rfl
@[simp] theorem Device.setRecord_htq (d : Device) (a : Addr) (r : ValRecord) : (d.setRecord a r).htq = d.htq := rfl
@[simp] theorem Device.setRecord_act (d : Device) (a : Addr) (r : ValRecord) : (d.setRecord a r).act = d.act := rfl
@[simp] theorem Device.setRecord_lnc (d : Device) (a : Addr) (r : ValRecord) : (d.setRecord a r).lnc = d.lnc := rfl
@[simp] theorem Device.setRecord_fck (d : Device) (a : Addr) (r : ValRecord) : (d.setRecord a r).fck = d.fck := rfl
theorem Device.setRecord_outbox (d : Device) (a : Addr) (r : ValRecord) :
    (d.setRecord a r).outbox = d.outbox ++ rewriteOf (d.record a).shown r.shown (.rosterRewrite a) := rfl

/-- A record is changed by being replaced and handed over if what the mirror shows has changed. -/
theorem Device.setRecord_eq (d : Device) (a : Addr) (r : ValRecord) :
    d.setRecord a r = (d.putRecord a r).rosterChanged a (d.record a) := by
  simp only [Device.rosterChanged, Device.record_putRecord_self]; rfl

@[simp] theorem Device.putRecord_port (d : Device) (a : Addr) (r : ValRecord) : (d.putRecord a r).port = d.port := rfl
@[simp] theorem Device.putRecord_lnc (d : Device) (a : Addr) (r : ValRecord) : (d.putRecord a r).lnc = d.lnc := rfl
@[simp] theorem Device.putRecord_entry (d : Device) (a : Addr) (r : ValRecord) (i : CatIndex) :
    (d.putRecord a r).entry i = d.entry i := rfl
@[simp] theorem Device.putRecord_plan (d : Device) (a b : Addr) (r : ValRecord) : (d.putRecord a r).plan b = d.plan b := rfl
@[simp] theorem Device.putRecord_transfers (d : Device) (a b : Addr) (r : ValRecord) :
    (d.putRecord a r).transfers b = d.transfers b := rfl
@[simp] theorem Device.putRecord_outbox (d : Device) (a : Addr) (r : ValRecord) : (d.putRecord a r).outbox = d.outbox := rfl
@[simp] theorem Device.rosterChanged_record (d : Device) (a b : Addr) (r : ValRecord) :
    (d.rosterChanged a r).record b = d.record b := rfl
@[simp] theorem Device.rosterChanged_port (d : Device) (a : Addr) (r : ValRecord) : (d.rosterChanged a r).port = d.port := rfl
@[simp] theorem Device.rosterChanged_lnc (d : Device) (a : Addr) (r : ValRecord) : (d.rosterChanged a r).lnc = d.lnc := rfl

@[simp] theorem Device.setEntry_port (d : Device) (i : CatIndex) (e : Entry) : (d.setEntry i e).port = d.port := rfl
@[simp] theorem Device.setEntry_vfy (d : Device) (i : CatIndex) (e : Entry) : (d.setEntry i e).vfy = d.vfy := rfl
@[simp] theorem Device.setEntry_tgt (d : Device) (i : CatIndex) (e : Entry) : (d.setEntry i e).tgt = d.tgt := rfl
@[simp] theorem Device.setEntry_ros (d : Device) (i : CatIndex) (e : Entry) : (d.setEntry i e).ros = d.ros := rfl
@[simp] theorem Device.setEntry_pln (d : Device) (i : CatIndex) (e : Entry) : (d.setEntry i e).pln = d.pln := rfl
@[simp] theorem Device.setEntry_xfr (d : Device) (i : CatIndex) (e : Entry) : (d.setEntry i e).xfr = d.xfr := rfl
@[simp] theorem Device.setEntry_htq (d : Device) (i : CatIndex) (e : Entry) : (d.setEntry i e).htq = d.htq := rfl
@[simp] theorem Device.setEntry_act (d : Device) (i : CatIndex) (e : Entry) : (d.setEntry i e).act = d.act := rfl
@[simp] theorem Device.setEntry_lnc (d : Device) (i : CatIndex) (e : Entry) : (d.setEntry i e).lnc = d.lnc := rfl
@[simp] theorem Device.setEntry_fck (d : Device) (i : CatIndex) (e : Entry) : (d.setEntry i e).fck = d.fck := rfl
theorem Device.setEntry_outbox (d : Device) (i : CatIndex) (e : Entry) :
    (d.setEntry i e).outbox = d.outbox ++ rewriteOf (d.entry i).shown e.shown (.catRewrite i) := rfl

@[simp] theorem Device.setPlan_port (d : Device) (a : Addr) (p : List Job) : (d.setPlan a p).port = d.port := rfl
@[simp] theorem Device.setPlan_lnc (d : Device) (a : Addr) (p : List Job) : (d.setPlan a p).lnc = d.lnc := rfl
@[simp] theorem Device.setPlan_record (d : Device) (a b : Addr) (p : List Job) : (d.setPlan a p).record b = d.record b := rfl
@[simp] theorem Device.setPlan_entry (d : Device) (a : Addr) (p : List Job) (i : CatIndex) :
    (d.setPlan a p).entry i = d.entry i := rfl
@[simp] theorem Device.setPlan_transfers (d : Device) (a b : Addr) (p : List Job) :
    (d.setPlan a p).transfers b = d.transfers b := rfl

@[simp] theorem Device.setTransfers_port (d : Device) (a : Addr) (t : Transfers) : (d.setTransfers a t).port = d.port := rfl
@[simp] theorem Device.setTransfers_lnc (d : Device) (a : Addr) (t : Transfers) : (d.setTransfers a t).lnc = d.lnc := rfl
@[simp] theorem Device.setTransfers_record (d : Device) (a b : Addr) (t : Transfers) :
    (d.setTransfers a t).record b = d.record b := rfl
@[simp] theorem Device.setTransfers_entry (d : Device) (a : Addr) (t : Transfers) (i : CatIndex) :
    (d.setTransfers a t).entry i = d.entry i := rfl
@[simp] theorem Device.setTransfers_plan (d : Device) (a b : Addr) (t : Transfers) :
    (d.setTransfers a t).plan b = d.plan b := rfl

@[simp] theorem Device.setStanding_port (d : Device) (a : Addr) (s : StandingRecord) : (d.setStanding a s).port = d.port := rfl
@[simp] theorem Device.setStanding_lnc (d : Device) (a : Addr) (s : StandingRecord) : (d.setStanding a s).lnc = d.lnc := rfl
@[simp] theorem Device.setStanding_record (d : Device) (a b : Addr) (s : StandingRecord) :
    (d.setStanding a s).record b = d.record b := rfl

@[simp] theorem Device.setAct_act (d : Device) (c : Coordinator) : (d.setAct c).act = c := rfl
@[simp] theorem Device.setAct_port (d : Device) (c : Coordinator) : (d.setAct c).port = d.port := rfl
@[simp] theorem Device.setAct_lnc (d : Device) (c : Coordinator) : (d.setAct c).lnc = d.lnc := rfl
@[simp] theorem Device.setAct_record (d : Device) (c : Coordinator) (a : Addr) : (d.setAct c).record a = d.record a := rfl
theorem Device.setAct_outbox (d : Device) (c : Coordinator) :
    (d.setAct c).outbox = d.outbox ++ rewriteOf (coordBody d.act) (coordBody c) .coordRewrite := rfl
@[simp] theorem Device.setHot_htq (d : Device) (q : HotQueue) : (d.setHot q).htq = q := rfl
@[simp] theorem Device.setHot_port (d : Device) (q : HotQueue) : (d.setHot q).port = d.port := rfl
@[simp] theorem Device.setHot_lnc (d : Device) (q : HotQueue) : (d.setHot q).lnc = d.lnc := rfl
@[simp] theorem Device.setHot_record (d : Device) (q : HotQueue) (a : Addr) : (d.setHot q).record a = d.record a := rfl
theorem Device.setHot_outbox (d : Device) (q : HotQueue) :
    (d.setHot q).outbox = d.outbox ++ rewriteOf (hotSummary d.htq) (hotSummary q) .summaryRewrite := rfl

/-! ## What is handed over for a mirror -/

/-- A mirror is handed over exactly when what it shows has changed. -/
theorem mem_rewriteOf {α : Type} [DecidableEq α] {x y : α} {p q : Publication} : q ∈ rewriteOf x y p ↔ x ≠ y ∧ q = p := by
  by_cases h : x = y <;> simp [rewriteOf, h]

@[simp] theorem rewriteOf_self {α : Type} [DecidableEq α] (x : α) (p : Publication) : rewriteOf x x p = [] := by
  simp [rewriteOf]

/-- A mirror is written exactly when its block has handed it over or it shows something else. -/
theorem mirrorDue_iff {α : Type} [DecidableEq α] {out : List Publication} {p : Publication} {x y : α} :
    mirrorDue out p x y = true ↔ p ∈ out ∨ x ≠ y := by
  simp [mirrorDue]

@[simp] theorem Device.setRecord_entry (d : Device) (a : Addr) (r : ValRecord) (i : CatIndex) :
    (d.setRecord a r).entry i = d.entry i := rfl
@[simp] theorem Device.setRecord_plan (d : Device) (a b : Addr) (r : ValRecord) : (d.setRecord a r).plan b = d.plan b := rfl
@[simp] theorem Device.setRecord_transfers (d : Device) (a b : Addr) (r : ValRecord) :
    (d.setRecord a r).transfers b = d.transfers b := rfl
@[simp] theorem Device.setRecord_standing (d : Device) (a b : Addr) (r : ValRecord) :
    (d.setRecord a r).standing b = d.standing b := rfl
@[simp] theorem Device.setEntry_record (d : Device) (i : CatIndex) (e : Entry) (b : Addr) :
    (d.setEntry i e).record b = d.record b := rfl
@[simp] theorem Device.setEntry_plan (d : Device) (i : CatIndex) (e : Entry) (b : Addr) :
    (d.setEntry i e).plan b = d.plan b := rfl
@[simp] theorem Device.setEntry_transfers (d : Device) (i : CatIndex) (e : Entry) (b : Addr) :
    (d.setEntry i e).transfers b = d.transfers b := rfl

/-! ## Raising, handing over and reporting -/

@[simp] theorem Device.raise_port (d : Device) (c : Cause) :
    (d.raise c).port = { d.port with causes := d.port.causes ||| c.flag } := rfl
@[simp] theorem Device.raise_lnc (d : Device) (c : Cause) : (d.raise c).lnc = d.lnc := rfl
@[simp] theorem Device.raise_record (d : Device) (c : Cause) (a : Addr) : (d.raise c).record a = d.record a := rfl
@[simp] theorem Device.raise_entry (d : Device) (c : Cause) (i : CatIndex) : (d.raise c).entry i = d.entry i := rfl
@[simp] theorem Device.raise_act (d : Device) (c : Cause) : (d.raise c).act = d.act := rfl
@[simp] theorem Device.raise_htq (d : Device) (c : Cause) : (d.raise c).htq = d.htq := rfl
@[simp] theorem Device.raise_tgt (d : Device) (c : Cause) : (d.raise c).tgt = d.tgt := rfl
@[simp] theorem Device.raise_fck (d : Device) (c : Cause) : (d.raise c).fck = d.fck := rfl
@[simp] theorem Device.raise_outbox (d : Device) (c : Cause) : (d.raise c).outbox = d.outbox := rfl
@[simp] theorem Device.handOver_outbox (d : Device) (p : Publication) : (d.handOver p).outbox = d.outbox ++ [p] := rfl
@[simp] theorem Device.handOver_port (d : Device) (p : Publication) : (d.handOver p).port = d.port := rfl
@[simp] theorem Device.handOver_lnc (d : Device) (p : Publication) : (d.handOver p).lnc = d.lnc := rfl
@[simp] theorem Device.handOver_record (d : Device) (p : Publication) (a : Addr) : (d.handOver p).record a = d.record a := rfl
@[simp] theorem Device.handOver_entry (d : Device) (p : Publication) (i : CatIndex) : (d.handOver p).entry i = d.entry i := rfl
@[simp] theorem Device.reportExit_port (d : Device) : d.reportExit.port = d.port := rfl
@[simp] theorem Device.reportExit_lnc (d : Device) : d.reportExit.lnc = d.lnc := rfl
@[simp] theorem Device.reportExit_record (d : Device) (a : Addr) : d.reportExit.record a = d.record a := rfl
@[simp] theorem Device.judgeInterrupt_interrupt (d : Device) :
    d.judgeInterrupt.port.interrupt = d.port.interruptDue := rfl
@[simp] theorem Device.judgeInterrupt_due (d : Device) : d.judgeInterrupt.port.interruptDue = d.port.interruptDue := rfl

/-! ## The reply among the octets received (R98) -/

/-- Without a sync octet no reply has come. -/
theorem fromSync_eq_nil {l : List Octet} (h : ∀ o ∈ l, o ≠ syncOctet) : fromSync l = [] := by
  induction l with
  | nil => rfl
  | cons o l ih =>
    have k := h o (by simp)
    simpa [fromSync, k] using ih fun x hx => h x (by simp [hx])

/-- The reply begins at the first sync octet. -/
theorem fromSync_append {noise octets : List Octet} (h : ∀ o ∈ noise, o ≠ syncOctet)
    (k : octets.head? = some syncOctet) : fromSync (noise ++ octets) = octets := by
  cases octets with
  | nil => cases k
  | cons o rest =>
    cases k
    unfold fromSync
    rw [List.dropWhile_append_of_pos (by simpa using h)]
    simp

/-! ## Sets of addresses -/

@[simp] theorem AddrSet.has_insert (s : AddrSet) (a b : Addr) : (s.insert a).has b = (a == b || s.has b) := by
  by_cases h : a = b
  · subst h; simp [AddrSet.has, AddrSet.insert]
  · simp [AddrSet.has, AddrSet.insert, h, Fin.val_inj]

@[simp] theorem AddrSet.has_erase (s : AddrSet) (a b : Addr) : (s.erase a).has b = (a != b && s.has b) := by
  by_cases h : a = b
  · subst h; simp [AddrSet.has, AddrSet.erase]
  · simp [AddrSet.has, AddrSet.erase, h, Fin.val_inj]

@[simp] theorem AddrSet.has_empty (a : Addr) : AddrSet.empty.has a = false := by
  simp [AddrSet.has, AddrSet.empty]

/-! ## A target change, and what ACT reports -/

@[simp] theorem ValRecord.retargeted_streams (r : ValRecord) (l : List Stream) :
    { r.retargeted l with streams := r.streams } = r := by
  unfold ValRecord.retargeted
  induction l generalizing r with
  | nil => rfl
  | cons s l ih => exact congrArg (fun q : ValRecord => { q with streams := r.streams }) (ih (r.setCell s _))

/-- A target change sets the cells of its streams and no other (R30). -/
theorem ValRecord.cell_retargeted (r : ValRecord) (l : List Stream) (s : Stream) :
    (r.retargeted l).cell s =
      if s ∈ l then { r.cell s with rejects := 0, hold := false, room := false } else r.cell s := by
  unfold ValRecord.retargeted
  induction l generalizing r with
  | nil => simp
  | cons t l ih =>
    rw [List.foldl_cons, ih]
    by_cases h : t = s
    · subst h; by_cases k : t ∈ l <;> simp [k]
    · simp only [ValRecord.cell_setCell, if_neg h, List.mem_cons, Ne.symm h, false_or]

/-- A hold lifted and a room shortfall cleared bring a replan each, and nothing is replanned for neither (R57, R58, R66). -/
theorem Device.replanLifted_eq (d : Device) (a : Addr) (r : ValRecord) (l : List Stream) :
    d.replanLifted a r l =
      match l.any fun s => (r.cell s).hold, l.any fun s => (r.cell s).room with
      | true, true => (d.replan a).replan a
      | true, false | false, true => d.replan a
      | false, false => d := by
  unfold Device.replanLifted
  cases l.any fun s => (r.cell s).hold <;> cases l.any fun s => (r.cell s).room <;> rfl

/-- What ACT reports touches the exit event alone, which stays once it is there (R120, R165). -/
@[simp] theorem Device.actWorkReported_eq (d x : Device) :
    d.actWorkReported x = { d with exitEvent := d.exitEvent || newActWork x d } := by
  unfold Device.actWorkReported Device.reportExit
  cases h : newActWork x d <;> simp

end Sys2Proof.Machine
end

