-- ==== Sys2Proof/Laws/Calm.lean ====
section
/-! SUPPORT. What the blocks' own operations can touch, said once as one relation between the part before and after:
`Calm`. Each operation has one lemma here; a proof about a command cites it and never unfolds the operation. -/

namespace Sys2Proof.Machine

/-- An exchange with the two flags left out that reports may set while it is in flight (R50, R166). -/
def Exchange.bare (e : Exchange) : Exchange := { e with voided := .no, actStale := false }

/-- The part after an operation of CAT, XFR, PLN, HTQ, ACT, TGT or ROS: the registers, device state and counts of EXP, the
clock, the BLOCK target, the line and its configuration are as before; causes are only raised; the exchange in flight is
the same but for its two flags; the hot queue has only lost entries from its head and its counters stand; what was
handed over stays handed over. -/
structure Calm (d e : Device) : Prop where
  port : { e.port with causes := d.port.causes } = d.port
  causes : d.port.causes ||| e.port.causes = e.port.causes
  fck : e.fck = d.fck
  block : e.tgt.block = d.tgt.block
  lnc : { e.lnc with heldOver := d.lnc.heldOver, turn := d.lnc.turn, exchange := d.lnc.exchange } = d.lnc
  exchange : e.lnc.exchange.map Exchange.bare = d.lnc.exchange.map Exchange.bare
  queue : e.htq.queue <:+ d.htq.queue
  hot : { e.htq with queue := d.htq.queue, restartOwed := d.htq.restartOwed } = d.htq
  outbox : d.outbox <+: e.outbox
  exit : d.exitEvent = true → e.exitEvent = true


theorem Calm.refl (d : Device) : Calm d d where
  port := rfl
  causes := by simp
  fck := rfl
  block := rfl
  lnc := rfl
  exchange := rfl
  queue := List.suffix_rfl
  hot := rfl
  outbox := List.prefix_rfl
  exit := id

theorem Calm.trans {c d e : Device} (h : Calm c d) (k : Calm d e) : Calm c e where
  port := by
    have h1 := h.port; have h2 := k.port
    rw [← h1, ← h2]
  causes := by
    have h1 := h.causes; have h2 := k.causes
    rw [← h2, ← BitVec.or_assoc, h1]
  fck := k.fck.trans h.fck
  block := k.block.trans h.block
  lnc := by
    have h1 := h.lnc; have h2 := k.lnc
    rw [← h1, ← h2]
  exchange := k.exchange.trans h.exchange
  queue := k.queue.trans h.queue
  hot := by
    have h1 := h.hot; have h2 := k.hot
    rw [← h1, ← h2]
  outbox := h.outbox.trans k.outbox
  exit := k.exit ∘ h.exit

/-- A fold of calm changes is calm. -/
theorem Calm.foldl {α : Type} {c d : Device} {f : Device → α → Device} (l : List α) (hf : ∀ d x, Calm d (f d x))
    (h : Calm c d) : Calm c (l.foldl f d) := by
  induction l generalizing d with
  | nil => exact h
  | cons x l ih => exact ih (h.trans (hf d x))

/-! ## What a calm change keeps, field by field -/

section
variable {d e : Device}

theorem Calm.device (h : Calm d e) : e.port.device = d.port.device := by rw [← h.port]
theorem Calm.xbase (h : Calm d e) : e.port.xbase = d.port.xbase := by rw [← h.port]
theorem Calm.mask (h : Calm d e) : e.port.mask = d.port.mask := by rw [← h.port]
theorem Calm.held (h : Calm d e) : e.port.held = d.port.held := by rw [← h.port]
theorem Calm.areaBase (h : Calm d e) : e.areaBase = d.areaBase := by simp only [Device.areaBase, h.xbase]
theorem Calm.areaOpen (h : Calm d e) : e.areaOpen = d.areaOpen := by simp only [Device.areaOpen, h.device]
theorem Calm.line (h : Calm d e) : e.lnc.line = d.lnc.line := by rw [← h.lnc]
theorem Calm.config (h : Calm d e) : e.lnc.config = d.lnc.config := by rw [← h.lnc]
theorem Calm.exchange_none (h : Calm d e) : e.lnc.exchange = none ↔ d.lnc.exchange = none := by
  have := h.exchange
  cases he : e.lnc.exchange <;> cases hd : d.lnc.exchange <;> simp_all
theorem Calm.queue_length (h : Calm d e) : e.htq.queue.length ≤ d.htq.queue.length := h.queue.length_le

end

/-! ## Changes of one record -/

variable {c d : Device}

/-- The part with the tables of CAT, VFY, ROS, PLN, XFR and ACT and the FARE target replaced is calm. -/
theorem Device.calm_tables (h : Calm c d) (cat : Catalogue) (vfy : Verifier) (ros : Roster) (pln : Planner)
    (xfr : TransferEngine) (act : Coordinator) (fare : FareTarget) (heldFare : Option FareTarget) :
    Calm c { d with cat := cat, vfy := vfy, ros := ros, pln := pln, xfr := xfr, act := act, tgt.fare := fare,
                    tgt.heldFare := heldFare } :=
  h.trans { Calm.refl d with }

@[simp] theorem Device.calm_setEntry (h : Calm c d) (i e) : Calm c (d.setEntry i e) :=
  h.trans { Calm.refl d with outbox := List.prefix_append _ _ }
@[simp] theorem Device.calm_putRecord (h : Calm c d) (a r) : Calm c (d.putRecord a r) := h.trans { Calm.refl d with }
@[simp] theorem Device.calm_rosterChanged (h : Calm c d) (a r) : Calm c (d.rosterChanged a r) :=
  h.trans { Calm.refl d with outbox := List.prefix_append _ _ }
@[simp] theorem Device.calm_setRecord (h : Calm c d) (a r) : Calm c (d.setRecord a r) :=
  h.trans { Calm.refl d with outbox := List.prefix_append _ _ }
@[simp] theorem Device.calm_mapRecords (h : Calm c d) (f) : Calm c (d.mapRecords f) :=
  h.trans { Calm.refl d with outbox := List.prefix_append _ _ }
@[simp] theorem Device.calm_setAct (h : Calm c d) (x) : Calm c (d.setAct x) :=
  h.trans { Calm.refl d with outbox := List.prefix_append _ _ }
@[simp] theorem Device.calm_setPlan (h : Calm c d) (a p) : Calm c (d.setPlan a p) := h.trans { Calm.refl d with }
@[simp] theorem Device.calm_setTransfers (h : Calm c d) (a t) : Calm c (d.setTransfers a t) :=
  h.trans { Calm.refl d with }
@[simp] theorem Device.calm_setStanding (h : Calm c d) (a s) : Calm c (d.setStanding a s) := Device.calm_setAct h _
@[simp] theorem Device.calm_raise (h : Calm c d) (x) : Calm c (d.raise x) :=
  h.trans { Calm.refl d with causes := by simp (maxDischargeDepth := 20) [Device.raise, ← BitVec.or_assoc] }
@[simp] theorem Device.calm_handOver (h : Calm c d) (p) : Calm c (d.handOver p) :=
  h.trans { Calm.refl d with outbox := List.prefix_append _ _ }
@[simp] theorem Device.calm_reportExit (h : Calm c d) : Calm c d.reportExit := h.trans { Calm.refl d with exit := fun _ => rfl }
@[simp] theorem Device.calm_giveBack (h : Calm c d) (slot st o n) : Calm c (d.giveBack slot st o n) := by
  unfold Device.giveBack; split <;> simp (maxDischargeDepth := 20) [h]

/-! ## CAT -/

@[simp] theorem Device.calm_freeEntry (h : Calm c d) (i x) : Calm c (d.freeEntry i x) := by simp (maxDischargeDepth := 20) [Device.freeEntry, h]
@[simp] theorem Device.calm_unqueue (h : Calm c d) (i) : Calm c (d.unqueue i) := h.trans { Calm.refl d with }
@[simp] theorem Device.calm_freeIfRetired (h : Calm c d) (i) : Calm c (d.freeIfRetired i) := by
  unfold Device.freeIfRetired; dsimp only; split
  · cases (d.entry i).pendingSlot <;> dsimp only <;> split <;> simp (maxDischargeDepth := 20) [h]
  · exact h
@[simp] theorem Device.calm_entryOpened (h : Calm c d) (i) : Calm c (d.entryOpened i) := by simp (maxDischargeDepth := 20) [Device.entryOpened, h]
@[simp] theorem Device.calm_entryClosed (h : Calm c d) (i) : Calm c (d.entryClosed i) := by simp (maxDischargeDepth := 20) [Device.entryClosed, h]

/-! ## XFR and PLN -/

@[simp] theorem Device.calm_fixStatus (h : Calm c d) (a s) : Calm c (d.fixStatus a s) := Device.calm_setRecord h a _
@[simp] theorem Device.calm_closeRecord (h : Calm c d) (a r) : Calm c (d.closeRecord a r) := by
  simp (maxDischargeDepth := 20) [Device.closeRecord, h]
@[simp] theorem Device.calm_dropRecords (h : Calm c d) (a p) : Calm c (d.dropRecords a p) :=
  Calm.foldl _ (fun d r => Device.calm_closeRecord (Calm.refl d) a r) h
@[simp] theorem Device.calm_dropAll (h : Calm c d) (a x) : Calm c (d.dropAll a x) := by simp (maxDischargeDepth := 20) [Device.dropAll, h]
@[simp] theorem Device.calm_dropMarkedIfAway (h : Calm c d) (a) : Calm c (d.dropMarkedIfAway a) := by
  unfold Device.dropMarkedIfAway; split <;> simp (maxDischargeDepth := 20) [h]
@[simp] theorem Device.calm_markRecords (h : Calm c d) (a p) : Calm c (d.markRecords a p) := by
  unfold Device.markRecords; dsimp only
  exact Device.calm_dropMarkedIfAway (Calm.foldl _ (fun d r => Device.calm_fixStatus (Calm.refl d) a _) (by simp (maxDischargeDepth := 20) [h])) a
@[simp] theorem Device.calm_markEntry (h : Calm c d) (i) : Calm c (d.markEntry i) :=
  Calm.foldl _ (fun d a => Device.calm_markRecords (Calm.refl d) a _) h
@[simp] theorem Device.calm_takePlan (h : Calm c d) (a) : Calm c (d.takePlan a) := by
  unfold Device.takePlan
  exact Calm.foldl _ (fun d r => Device.calm_putRecord (Calm.refl d) a _) (by simp (maxDischargeDepth := 20) [h])
@[simp] theorem Device.calm_changeRecord (h : Calm c d) (a t f) : Calm c (d.changeRecord a t f) := by
  simp (maxDischargeDepth := 20) [Device.changeRecord, h]
@[simp] theorem Device.calm_openSlotsLowered (h : Calm c d) (a n) : Calm c (d.openSlotsLowered a n) := by
  simp (maxDischargeDepth := 20) [Device.openSlotsLowered, h]
@[simp] theorem Device.calm_makeOffer (h : Calm c d) (a o) : Calm c (d.makeOffer a o) := by
  unfold Device.makeOffer; split
  · dsimp only
    refine Calm.foldl _ (fun d r => Device.calm_fixStatus (Calm.refl d) a _) ?_
    split <;> simp (maxDischargeDepth := 20) [h]
  · exact h
@[simp] theorem Device.calm_emptyPlan (h : Calm c d) (a) : Calm c (d.emptyPlan a) := by simp (maxDischargeDepth := 20) [Device.emptyPlan, h]
@[simp] theorem Device.calm_replan (h : Calm c d) (a) : Calm c (d.replan a) := by
  unfold Device.replan; dsimp only; split
  · split <;> simp (maxDischargeDepth := 20) [h]
  · simp (maxDischargeDepth := 20) [h]
@[simp] theorem Device.calm_replanAll (h : Calm c d) : Calm c d.replanAll :=
  Calm.foldl _ (fun d a => Device.calm_replan (Calm.refl d) a) h
@[simp] theorem Device.calm_removeSend (h : Calm c d) (a r) : Calm c (d.removeSend a r) := by simp (maxDischargeDepth := 20) [Device.removeSend, h]
@[simp] theorem Device.calm_removeDrop (h : Calm c d) (a s) : Calm c (d.removeDrop a s) := by simp (maxDischargeDepth := 20) [Device.removeDrop, h]

/-! ## HTQ -/

@[simp] theorem Device.calm_judgeRetirement (h : Calm c d) : Calm c d.judgeRetirement :=
  h.trans { Calm.refl d with queue := List.dropWhile_suffix _, outbox := List.prefix_append _ _ }
@[simp] theorem Device.calm_setHotStatus (h : Calm c d) (a st) : Calm c (d.setHotStatus a st) := by
  unfold Device.setHotStatus; dsimp only; split <;> simp (maxDischargeDepth := 20) [h]
@[simp] theorem Device.calm_heldBlockChanged (h : Calm c d) (a) : Calm c (d.heldBlockChanged a) := by
  unfold Device.heldBlockChanged; split <;> simp (maxDischargeDepth := 20) [h]
@[simp] theorem Device.calm_hotStatusOnStatus (h : Calm c d) (a b) : Calm c (d.hotStatusOnStatus a b) := by
  unfold Device.hotStatusOnStatus; dsimp only
  split
  · simp (maxDischargeDepth := 20) [h]
  · split
    · simp (maxDischargeDepth := 20) [h]
    · split <;> simp (maxDischargeDepth := 20) [h]
@[simp] theorem Device.calm_restart (h : Calm c d) (s : AddrSet) : Calm c { d with htq.restartOwed := s } :=
  h.trans { Calm.refl d with }
@[simp] theorem Device.calm_restartDone (h : Calm c d) (a) : Calm c (d.restartDone a) := h.trans { Calm.refl d with }
@[simp] theorem Device.calm_hotReported (h : Calm c d) (a x y) : Calm c (d.hotReported a x y) := by
  unfold Device.hotReported; dsimp only
  split
  · exact Calm.trans (Device.calm_setRecord h a _) (Device.calm_restart (Calm.refl _) _)
  · simp (maxDischargeDepth := 20) [h]

/-! ## ACT and TGT -/

@[simp] theorem Device.calm_act (h : Calm c d) (x) : Calm c { d with act := x } := h.trans { Calm.refl d with }
@[simp] theorem Device.calm_fare (h : Calm c d) (x) : Calm c { d with tgt.fare := x } := h.trans { Calm.refl d with }
@[simp] theorem Device.calm_heldFare (h : Calm c d) (x) : Calm c { d with tgt.heldFare := x } :=
  h.trans { Calm.refl d with }
theorem Device.calm_exchangeFlags (h : Calm c d) {f : Exchange → Exchange} (act : Coordinator)
    (hf : ∀ e, (f e).bare = e.bare) : Calm c { d with act := act, lnc.exchange := d.lnc.exchange.map f } := by
  refine h.trans { Calm.refl d with exchange := ?_ }
  show Option.map _ (Option.map _ _) = _
  rw [Option.map_map]
  congr 1
  funext e
  exact hf e

@[simp] theorem Device.calm_decideCommit (h : Calm c d) (x) : Calm c (d.decideCommit x) := by
  unfold Device.decideCommit; exact Device.calm_raise (Device.calm_setAct h _) _
@[simp] theorem Device.calm_judgeCommit (h : Calm c d) : Calm c d.judgeCommit := by
  unfold Device.judgeCommit; dsimp only; split
  · split
    · simp (maxDischargeDepth := 20) [h]
    · split <;> simp (maxDischargeDepth := 20) [h]
  · exact h
@[simp] theorem Device.calm_judgeTime (h : Calm c d) : Calm c d.judgeTime := by
  unfold Device.judgeTime; split
  · split
    · exact Device.calm_judgeCommit (Device.calm_raise (Device.calm_setAct h _) _)
    · exact h
  · split
    · simp (maxDischargeDepth := 20) [h]
    · exact Device.calm_raise (Device.calm_setAct h _) _
  · exact h
@[simp] theorem Device.calm_actWorkReported (h : Calm c d) (x) : Calm c (d.actWorkReported x) := by
  unfold Device.actWorkReported; split <;> simp [h]
@[simp] theorem Device.calm_startOver (h : Calm c d) : Calm c d.startOver := by
  unfold Device.startOver; dsimp only
  refine Device.calm_actWorkReported (Device.calm_judgeTime ?_) _
  refine Device.calm_raise (Device.calm_handOver (Device.calm_exchangeFlags h _ fun e => ?_) _) _
  by_cases k : e.kind.actAddressed <;> simp [Exchange.bare, k]
@[simp] theorem Device.calm_replanLifted (h : Calm c d) (a r l) : Calm c (d.replanLifted a r l) := by
  unfold Device.replanLifted; dsimp only; split <;> split <;> simp (maxDischargeDepth := 20) [h]
@[simp] theorem Device.calm_targetChanged (h : Calm c d) (l) : Calm c (d.targetChanged l) :=
  Calm.foldl _ (fun e a => Device.calm_replanLifted (Calm.refl e) a _ _) (Device.calm_mapRecords h _)
@[simp] theorem Device.calm_setFareTarget (h : Calm c d) (t) : Calm c (d.setFareTarget t) := by
  unfold Device.setFareTarget
  exact Device.calm_startOver (Device.calm_replanAll (Device.calm_targetChanged (Device.calm_fare h _) _))
@[simp] theorem Device.calm_applyHeldTarget (h : Calm c d) : Calm c d.applyHeldTarget := by
  unfold Device.applyHeldTarget; split
  · exact h
  · dsimp only; split
    · exact Device.calm_heldFare h _
    · exact Device.calm_setFareTarget (Device.calm_heldFare h _) _
@[simp] theorem Device.calm_judgeSettled (h : Calm c d) : Calm c d.judgeSettled := by
  unfold Device.judgeSettled; dsimp only; split
  · exact Device.calm_applyHeldTarget (Device.calm_raise (Device.calm_setAct h _) _)
  · exact h
@[simp] theorem Device.calm_judgeActivation (h : Calm c d) : Calm c d.judgeActivation := by
  simp (maxDischargeDepth := 20) [Device.judgeActivation, h]
@[simp] theorem Device.calm_broadcastMade (h : Calm c d) : Calm c d.broadcastMade := by
  unfold Device.broadcastMade; exact Device.calm_judgeSettled (Device.calm_handOver (Device.calm_act h _) _)
@[simp] theorem Device.calm_fareReport (h : Calm c d) (a) : Calm c (d.fareReport a) := by simp (maxDischargeDepth := 20) [Device.fareReport, h]
@[simp] theorem Device.calm_actUnitChange (h : Calm c d) (a) : Calm c (d.actUnitChange a) := by
  simp (maxDischargeDepth := 20) [Device.actUnitChange, h]
@[simp] theorem Device.calm_actPresence (h : Calm c d) (a o n) : Calm c (d.actPresence a o n) := by
  simp (maxDischargeDepth := 20) [Device.actPresence, h]
@[simp] theorem Device.calm_armAcked (h : Calm c d) (a) : Calm c (d.armAcked a) := by
  unfold Device.armAcked; dsimp only; split <;> simp (maxDischargeDepth := 20) [h]
@[simp] theorem Device.calm_armRefusedBy (h : Calm c d) (a) : Calm c (d.armRefusedBy a) := by
  simp (maxDischargeDepth := 20) [Device.armRefusedBy, h]
@[simp] theorem Device.calm_disarmAcked (h : Calm c d) (a) : Calm c (d.disarmAcked a) := by
  simp (maxDischargeDepth := 20) [Device.disarmAcked, h]
@[simp] theorem Device.calm_commitAcked (h : Calm c d) (a) : Calm c (d.commitAcked a) := by
  unfold Device.commitAcked; dsimp only; split <;> simp (maxDischargeDepth := 20) [h]
@[simp] theorem Device.calm_commitFailed (h : Calm c d) (a) : Calm c (d.commitFailed a) := by
  unfold Device.commitFailed; dsimp only; split <;> simp (maxDischargeDepth := 20) [h]

/-! ## ROS -/

@[simp] theorem Device.calm_leftPresent (h : Calm c d) (a) : Calm c (d.leftPresent a) := h.trans { Calm.refl d with }
@[simp] theorem Device.calm_presenceChanged (h : Calm c d) (a o) : Calm c (d.presenceChanged a o) := by
  unfold Device.presenceChanged; dsimp only
  by_cases k : o = .present
  · simp only [k, if_true]
    cases (d.record a).presence <;> simp (maxDischargeDepth := 20) [h]
  · simp only [k, if_false]
    cases (d.record a).presence <;> simp (maxDischargeDepth := 20) [h]
@[simp] theorem Device.calm_voidExchange (h : Calm c d) (a v) : Calm c (d.voidExchange a v) := by
  refine Device.calm_exchangeFlags h d.act fun e => ?_
  by_cases k : e.dest = some a ∧ e.voided ≠ .byRequest <;> simp (maxDischargeDepth := 20) [Exchange.bare, k]
@[simp] theorem Device.calm_silenceOver (h : Calm c d) (a) : Calm c (d.silenceOver a) := by simp (maxDischargeDepth := 20) [Device.silenceOver, h]
@[simp] theorem Device.calm_judgeSilence (h : Calm c d) (a) : Calm c (d.judgeSilence a) := by
  unfold Device.judgeSilence; split <;> simp (maxDischargeDepth := 20) [h]
@[simp] theorem Device.calm_replyTimed (h : Calm c d) (a) : Calm c (d.replyTimed a) := by simp (maxDischargeDepth := 20) [Device.replyTimed, h]
@[simp] theorem Device.calm_counted0 (h : Calm c d) (a) : Calm c (d.counted0 a) := by simp (maxDischargeDepth := 20) [Device.counted0, h]
@[simp] theorem Device.calm_enterPresent (h : Calm c d) (a) : Calm c (d.enterPresent a) := by
  unfold Device.enterPresent; dsimp only; split <;> simp (maxDischargeDepth := 20) [h]
@[simp] theorem Device.calm_miss (h : Calm c d) (a) : Calm c (d.miss a) := by
  unfold Device.miss; dsimp only; split <;> simp (maxDischargeDepth := 20) [h]
@[simp] theorem Device.calm_validReply (h : Calm c d) (a x) : Calm c (d.validReply a x) := by
  unfold Device.validReply; dsimp only
  cases x <;> simp only [Bool.false_eq_true, if_false, if_true] <;> split <;> simp (maxDischargeDepth := 20) [h]
@[simp] theorem Device.calm_contended (h : Calm c d) (a) : Calm c (d.contended a) := by
  unfold Device.contended; dsimp only; split <;> simp (maxDischargeDepth := 20) [h]
@[simp] theorem Device.calm_heldChanged (h : Calm c d) (a s x) : Calm c (d.heldChanged a s x) := by
  unfold Device.heldChanged; split <;> simp (maxDischargeDepth := 20) [h]
@[simp] theorem Device.calm_stored (h : Calm c d) (a s x) : Calm c (d.stored a s x) := by
  unfold Device.stored; dsimp only; split <;> simp (maxDischargeDepth := 20) [h]
@[simp] theorem Device.calm_storedPending (h : Calm c d) (a x) : Calm c (d.storedPending a x) := by
  simp (maxDischargeDepth := 20) [Device.storedPending, h]
@[simp] theorem Device.calm_tierDropped (h : Calm c d) (a s) : Calm c (d.tierDropped a s) := by
  simp (maxDischargeDepth := 20) [Device.tierDropped, h]
@[simp] theorem Device.calm_oweStatus (h : Calm c d) (a) : Calm c (d.oweStatus a) := by simp (maxDischargeDepth := 20) [Device.oweStatus, h]
@[simp] theorem Device.calm_roomShort (h : Calm c d) (a s) : Calm c (d.roomShort a s) := by simp (maxDischargeDepth := 20) [Device.roomShort, h]
@[simp] theorem Device.calm_rejectCounted (h : Calm c d) (a s) : Calm c (d.rejectCounted a s) := by
  simp (maxDischargeDepth := 20) [Device.rejectCounted, h]
@[simp] theorem Device.calm_reverified (h : Calm c d) (a s x) : Calm c (d.reverified a s x) := by
  unfold Device.reverified; dsimp only; split
  · split <;> simp (maxDischargeDepth := 20) [h]
  · simp (maxDischargeDepth := 20) [h]
@[simp] theorem Device.calm_reverifiedAll (h : Calm c d) (l s x) : Calm c (d.reverifiedAll l s x) :=
  Calm.foldl _ (fun d a => by split <;> simp (maxDischargeDepth := 20) [Calm.refl]) h
@[simp] theorem Device.calm_unitChanged (h : Calm c d) (a) : Calm c (d.unitChanged a) := by simp (maxDischargeDepth := 20) [Device.unitChanged, h]
@[simp] theorem Device.calm_noticeTaken (h : Calm c d) (a k t) : Calm c (d.noticeTaken a k t) := by
  simp (maxDischargeDepth := 20) [Device.noticeTaken, h]
@[simp] theorem Device.calm_enrolled (h : Calm c d) (a w) : Calm c (d.enrolled a w) := by simp (maxDischargeDepth := 20) [Device.enrolled, h]
@[simp] theorem Device.calm_unenrolled (h : Calm c d) (a) : Calm c (d.unenrolled a) := by simp (maxDischargeDepth := 20) [Device.unenrolled, h]
@[simp] theorem Device.calm_excluded (h : Calm c d) (a) : Calm c (d.excluded a) := by simp (maxDischargeDepth := 20) [Device.excluded, h]
@[simp] theorem Device.calm_readmittedToAbsent (h : Calm c d) (a) : Calm c (d.readmittedToAbsent a) := by
  simp (maxDischargeDepth := 20) [Device.readmittedToAbsent, h]
@[simp] theorem Device.calm_readmittedInPlace (h : Calm c d) (a) : Calm c (d.readmittedInPlace a) := by
  unfold Device.readmittedInPlace; dsimp only; split <;> simp (maxDischargeDepth := 20) [h]

/-- A calm change made or not. -/
theorem Calm.ite {p : Prop} [Decidable p] {x y : Device} (h : Calm c x) (k : Calm c y) : Calm c (if p then x else y) := by
  split <;> assumption

@[simp] theorem Device.calm_applyStatus (h : Calm c d) (a f) : Calm c (d.applyStatus a f) := by
  unfold Device.applyStatus
  extract_lets before unit entered d1 d2 d3 d4 d5 d6 d7 d8
  have h1 : Calm c d1 := Calm.ite (by simp (maxDischargeDepth := 20) [h]) h
  have h2 : Calm c d2 := by simp (maxDischargeDepth := 20) [d2, h1]
  have h3 : Calm c d3 := Device.calm_handOver (Calm.ite (by simp (maxDischargeDepth := 20) [h2]) h2) _
  have h4 : Calm c d4 := by simp (maxDischargeDepth := 20) [d4, h3]
  have h5 : Calm c d5 := Calm.ite (by simp (maxDischargeDepth := 20) [h4]) h4
  have h6 : Calm c d6 := Calm.ite (by simp (maxDischargeDepth := 20) [h5]) h5
  have h7 : Calm c d7 := by simp (maxDischargeDepth := 20) [d7, h6]
  have h8 : Calm c d8 := Calm.ite (by simp (maxDischargeDepth := 20) [h7]) h7
  simp (maxDischargeDepth := 20) [h8]

/-! ## CAT's answers to the Verifier and to XFR -/

@[simp] theorem Device.calm_queue (h : Calm c d) (q) : Calm c { d with vfy.queue := q } := h.trans { Calm.refl d with }
@[simp] theorem Device.calm_retire (h : Calm c d) (i x s) : Calm c (d.retire i x s) := by simp (maxDischargeDepth := 20) [Device.retire, h]
@[simp] theorem Device.calm_postFailed (h : Calm c d) (i x o) : Calm c (d.postFailed i x o) := by
  unfold Device.postFailed; dsimp only; split <;> simp (maxDischargeDepth := 20) [h]
@[simp] theorem Device.calm_postVerified (h : Calm c d) (i) : Calm c (d.postVerified i) := by
  unfold Device.postVerified; dsimp only; split <;> simp (maxDischargeDepth := 20) [h]
@[simp] theorem Device.calm_firstVerified (h : Calm c d) (i v) : Calm c (d.firstVerified i v) := by
  cases v <;> simp (maxDischargeDepth := 20) [Device.firstVerified, h]
@[simp] theorem Device.calm_reverifyFailed (h : Calm c d) (i x) : Calm c (d.reverifyFailed i x) := by
  simp (maxDischargeDepth := 20) [Device.reverifyFailed, h]
@[simp] theorem Device.calm_reverifyPassed (h : Calm c d) (i) : Calm c (d.reverifyPassed i) := by
  simp (maxDischargeDepth := 20) [Device.reverifyPassed, h]
@[simp] theorem Device.calm_reverifyEnded (h : Calm c d) (i v) : Calm c (d.reverifyEnded i v) := by
  cases v <;> simp (maxDischargeDepth := 20) [Device.reverifyEnded, h]
@[simp] theorem Device.calm_rejectReported (h : Calm c d) (i a s st) : Calm c (d.rejectReported i a s st) := by
  cases st
  case ready =>
    refine Device.calm_raise (Device.calm_replanAll (Device.calm_markEntry ?_ _)) _
    exact Device.calm_queue (Device.calm_setEntry h i _) _
  all_goals simp (maxDischargeDepth := 20) [Device.rejectReported, h]
@[simp] theorem Device.calm_fetchFaultReported (h : Calm c d) (i) : Calm c (d.fetchFaultReported i) := by
  unfold Device.fetchFaultReported; dsimp only; split <;> simp (maxDischargeDepth := 20) [h]

/-! ## The owner's answer to a reply, and the outcome at ROS -/

@[simp] theorem Device.calm_holdOver (h : Calm c d) (a) : Calm c (d.holdOver a) := by simp (maxDischargeDepth := 20) [Device.holdOver, h]
@[simp] theorem Device.calm_reportEnding (h : Calm c d) (a b e) : Calm c (d.reportEnding a b e) := by
  cases e
  case clean => cases b <;> simp (maxDischargeDepth := 20) [Device.reportEnding, h]
  all_goals simp (maxDischargeDepth := 20) [Device.reportEnding, h]
@[simp] theorem Device.calm_burstBack (h : Calm c d) (e) : Calm c (d.burstBack e) := by
  unfold Device.burstBack; split
  · split <;> simp (maxDischargeDepth := 20) [h]
  · exact h
@[simp] theorem Device.calm_ownerMissed (h : Calm c d) (e a) : Calm c (d.ownerMissed e a) := by
  unfold Device.ownerMissed; dsimp only; split <;> simp (maxDischargeDepth := 20) [h]

@[simp] theorem Device.calm_hotAcked (h : Calm c d) (a f l r x) : Calm c (d.hotAcked a f l r x).device := by
  unfold Device.hotAcked; split
  · cases r <;> simp (maxDischargeDepth := 20) [accepted, h]
  · exact h
@[simp] theorem Device.calm_armAck (h : Calm c d) (a x) : Calm c (d.armAck a x).device := by
  unfold Device.armAck; split
  · simp (maxDischargeDepth := 20) [accepted, h]
  · split <;> simp (maxDischargeDepth := 20) [accepted, refusedReply, h]
@[simp] theorem Device.calm_abandoned (h : Calm c d) (a t) : Calm c (d.abandoned a t).device := by
  unfold Device.abandoned; split <;> simp (maxDischargeDepth := 20) [accepted, h]
@[simp] theorem Device.calm_abandonAllDone (h : Calm c d) (a) : Calm c (d.abandonAllDone a) := by
  simp (maxDischargeDepth := 20) [Device.abandonAllDone, h]
@[simp] theorem Device.calm_openAcked (h : Calm c d) (a r x) : Calm c (d.openAcked a r x).device := by
  unfold Device.openAcked; split <;> simp (maxDischargeDepth := 20) [accepted, refusedReply, h]
@[simp] theorem Device.calm_contAcked (h : Calm c d) (a r x) : Calm c (d.contAcked a r x).device := by
  unfold Device.contAcked; split <;> simp (maxDischargeDepth := 20) [accepted, refusedReply, h]
@[simp] theorem Device.calm_disarmAck (h : Calm c d) (a x) : Calm c (d.disarmAck a x).device := by
  unfold Device.disarmAck; split <;> simp (maxDischargeDepth := 20) [accepted, refusedReply, h]
@[simp] theorem Device.calm_commitAck (h : Calm c d) (a x) : Calm c (d.commitAck a x).device := by
  unfold Device.commitAck; split <;> simp (maxDischargeDepth := 20) [accepted, h]
@[simp] theorem Device.calm_ackJudged (h : Calm c d) (e a x) : Calm c (d.ackJudged e a x).device := by
  unfold Device.ackJudged; split
  case h_1 => split <;> simp (maxDischargeDepth := 20) [accepted, h]
  case h_2 => split <;> simp (maxDischargeDepth := 20) [accepted, h]
  case h_7 => split <;> simp (maxDischargeDepth := 20) [accepted, h]
  case h_8 => split <;> simp (maxDischargeDepth := 20) [accepted, h]
  case h_9 => split <;> simp (maxDischargeDepth := 20) [accepted, h]
  all_goals simp (maxDischargeDepth := 20) [accepted, refusedReply, h]
@[simp] theorem Device.calm_noRoom (h : Calm c d) (a r) : Calm c (d.noRoom a r) := by simp (maxDischargeDepth := 20) [Device.noRoom, h]
@[simp] theorem Device.calm_noSlot (h : Calm c d) (a) : Calm c (d.noSlot a) := by simp (maxDischargeDepth := 20) [Device.noSlot, h]
@[simp] theorem Device.calm_nakRecord (h : Calm c d) (a k r x n) : Calm c (d.nakRecord a k r x n).device := by
  cases n
  case order => simp only [Device.nakRecord]; split <;> simp (maxDischargeDepth := 20) [accepted, refusedReply, h]
  case busy => simp only [Device.nakRecord, busyReply]; split <;> simp (maxDischargeDepth := 20) [h]
  all_goals simp (maxDischargeDepth := 20) [Device.nakRecord, accepted, countedAsMiss, h]
@[simp] theorem Device.calm_nakHot (h : Calm c d) (a n) : Calm c (d.nakHot a n).device := by
  cases n
  case room => simp only [Device.nakHot, accepted]; exact Device.calm_judgeRetirement (Calm.ite (by simp (maxDischargeDepth := 20) [h]) h)
  all_goals simp (maxDischargeDepth := 20) [Device.nakHot, accepted, countedAsMiss, busyReply, h]
@[simp] theorem Device.calm_nakAct (h : Calm c d) (e a n) : Calm c (d.nakAct e a n).device := by
  unfold Device.nakAct; dsimp only
  split <;> simp only [busyReply, countedAsMiss] <;> exact Calm.ite (by simp (maxDischargeDepth := 20) [h]) h
@[simp] theorem Device.calm_nakJudged (h : Calm c d) (e a n x) : Calm c (d.nakJudged e a n x).device := by
  unfold Device.nakJudged
  split
  · split
    · simp (maxDischargeDepth := 20) [h]
    · split <;> simp (maxDischargeDepth := 20) [accepted, busyReply, h]
  · split
    · simp (maxDischargeDepth := 20) [h]
    · split <;> simp (maxDischargeDepth := 20) [accepted, busyReply, h]
  · split
    · simp (maxDischargeDepth := 20) [h]
    · split <;> simp (maxDischargeDepth := 20) [accepted, busyReply, h]
  · cases n <;> simp (maxDischargeDepth := 20) [busyReply, countedAsMiss, h]
  · cases n <;> simp (maxDischargeDepth := 20) [accepted, busyReply, countedAsMiss, h]
  · split <;> simp (maxDischargeDepth := 20) [busyReply, countedAsMiss, h]
  all_goals simp (maxDischargeDepth := 20) [refusedReply, h]
@[simp] theorem Device.calm_rejectedCheck (h : Calm c d) (a r) : Calm c (d.rejectedCheck a r) := by
  simp (maxDischargeDepth := 20) [Device.rejectedCheck, h]
@[simp] theorem Device.calm_verdictOn (h : Calm c d) (a r x y z) : Calm c (d.verdictOn a r x y z).device := by
  unfold Device.verdictOn; split
  · exact h
  · split
    case h_2 => split <;> simp (maxDischargeDepth := 20) [accepted, refusedReply, h]
    all_goals simp (maxDischargeDepth := 20) [accepted, refusedReply, h]
@[simp] theorem Device.calm_verdictJudged (h : Calm c d) (e a x y z) : Calm c (d.verdictJudged e a x y z).device := by
  unfold Device.verdictJudged; split <;> simp (maxDischargeDepth := 20) [accepted, h]
@[simp] theorem Device.calm_statusJudged (h : Calm c d) (a f) : Calm c (d.statusJudged a f).device := by
  unfold Device.statusJudged; split <;> simp (maxDischargeDepth := 20) [refusedReply, h]
@[simp] theorem Device.calm_noticeJudged (h : Calm c d) (a k t) : Calm c (d.noticeJudged a k t).device := by
  unfold Device.noticeJudged; split <;> simp (maxDischargeDepth := 20) [accepted, refusedReply, h]
/-- Whatever the reply, its owner's answer is calm. -/
@[simp] theorem Device.calm_judged (h : Calm c d) (e a r) : Calm c (d.judged e a r).device := by
  cases r
  case nak => simp only [Device.judged]; split <;> simp (maxDischargeDepth := 20) [refusedReply, h]
  all_goals simp (maxDischargeDepth := 20) [Device.judged, h]

end Sys2Proof.Machine
end

