-- ==== Sys2Proof/Laws/PerInstr.lean ====
section
/-! SUPPORT. Statements about the commands as syntax, one lemma for each command. -/

namespace Sys2Proof.Laws.CutOnce

/-- An operation is cut by an area fault at most once (R195): the operation of a well-formed command is well-formed, and is no
area fault itself. -/
def Statement (c : Instr) : Prop := c.wellFormed = true → c.operation.wellFormed = true ∧ c.operation.operation = c.operation

theorem deviceReset (source) : Statement (.deviceReset source) :=
  fun h => ⟨h, rfl⟩
theorem softReset : Statement (.softReset) :=
  fun h => ⟨h, rfl⟩
theorem run (value) : Statement (.run value) :=
  fun h => ⟨h, rfl⟩
theorem lineEnable (value) : Statement (.lineEnable value) :=
  fun h => ⟨h, rfl⟩
theorem prompt : Statement (.prompt) :=
  fun h => ⟨h, rfl⟩
theorem cancel : Statement (.cancel) :=
  fun h => ⟨h, rfl⟩
theorem xbaseWrite (value) : Statement (.xbaseWrite value) :=
  fun h => ⟨h, rfl⟩
theorem causeClear (value) : Statement (.causeClear value) :=
  fun h => ⟨h, rfl⟩
theorem xmaskWrite (value) : Statement (.xmaskWrite value) :=
  fun h => ⟨h, rfl⟩
theorem xclockWrite (value) : Statement (.xclockWrite value) :=
  fun h => ⟨h, rfl⟩
theorem registerWriteOther (offset) (value) : Statement (.registerWriteOther offset value) :=
  fun h => ⟨h, rfl⟩
theorem starting (host) : Statement (.starting host) :=
  fun h => ⟨h, rfl⟩
theorem stoppingEnd : Statement (.stoppingEnd) :=
  fun h => ⟨h, rfl⟩
theorem areaFault (op) (n) : Statement (.areaFault op n) := by
  intro h
  simp only [Instr.wellFormed, Bool.and_eq_true] at h
  refine ⟨h.2, ?_⟩
  cases op with
  | areaFault op m =>
    have k : Instr.mayAccessArea (.areaFault op m) = false := rfl
    rw [k] at h
    exact absurd h.1 Bool.false_ne_true
  | _ => rfl
theorem sweepTimerExpiry : Statement (.sweepTimerExpiry) :=
  fun h => ⟨h, rfl⟩
theorem sweep (host) : Statement (.sweep host) :=
  fun h => ⟨h, rfl⟩
theorem post (slot) (ref) (fields) : Statement (.post slot ref fields) :=
  fun h => ⟨h, rfl⟩
theorem withdraw (slot) (ref) (index) (generation) : Statement (.withdraw slot ref index generation) :=
  fun h => ⟨h, rfl⟩
theorem target (slot) (ref) (fields) : Statement (.target slot ref fields) :=
  fun h => ⟨h, rfl⟩
theorem hotAdd (slot) (ref) (count) (first) (second) (third) : Statement (.hotAdd slot ref count first second third) :=
  fun h => ⟨h, rfl⟩
theorem enrol (slot) (ref) (address) (flag) (weight) : Statement (.enrol slot ref address flag weight) :=
  fun h => ⟨h, rfl⟩
theorem exclude (slot) (ref) (address) : Statement (.exclude slot ref address) :=
  fun h => ⟨h, rfl⟩
theorem readmit (slot) (ref) (address) : Statement (.readmit slot ref address) :=
  fun h => ⟨h, rfl⟩
theorem lineSet (slot) (ref) (fields) : Statement (.lineSet slot ref fields) :=
  fun h => ⟨h, rfl⟩
theorem badKind (slot) (ref) (kind) : Statement (.badKind slot ref kind) :=
  fun h => ⟨h, rfl⟩
theorem verificationStart : Statement (.verificationStart) :=
  fun h => ⟨h, rfl⟩
theorem verificationEnd (bus) : Statement (.verificationEnd bus) :=
  fun h => ⟨h, rfl⟩
theorem clockStep : Statement (.clockStep) :=
  fun h => ⟨h, rfl⟩
theorem silenceExpiry (address) : Statement (.silenceExpiry address) :=
  fun h => ⟨h, rfl⟩
theorem cycleEnd (attnLow) : Statement (.cycleEnd attnLow) :=
  fun h => ⟨h, rfl⟩
theorem keepaliveExpiry : Statement (.keepaliveExpiry) :=
  fun h => ⟨h, rfl⟩
theorem attentionEvent : Statement (.attentionEvent) :=
  fun h => ⟨h, rfl⟩
theorem rollCallPoll (free) : Statement (.rollCallPoll free) :=
  fun h => ⟨h, rfl⟩
theorem transferGrant (free) (bus) : Statement (.transferGrant free bus) :=
  fun h => ⟨h, rfl⟩
theorem lineFree : Statement (.lineFree) :=
  fun h => ⟨h, rfl⟩
theorem deferralExpiry : Statement (.deferralExpiry) :=
  fun h => ⟨h, rfl⟩
theorem frameSent (free) (bus) : Statement (.frameSent free bus) :=
  fun h => ⟨h, rfl⟩
theorem replyTimeout : Statement (.replyTimeout) :=
  fun h => ⟨h, rfl⟩
theorem frameIncomplete : Statement (.frameIncomplete) :=
  fun h => ⟨h, rfl⟩
theorem malformedReply : Statement (.malformedReply) :=
  fun h => ⟨h, rfl⟩
theorem contention : Statement (.contention) :=
  fun h => ⟨h, rfl⟩
theorem guardTimeExpiry (attnLow) : Statement (.guardTimeExpiry attnLow) :=
  fun h => ⟨h, rfl⟩
theorem replyCheckFailed (octets) : Statement (.replyCheckFailed octets) :=
  fun h => ⟨h, rfl⟩
theorem status (fields) : Statement (.status fields) :=
  fun h => ⟨h, rfl⟩
theorem notice (kind) (text) : Statement (.notice kind text) :=
  fun h => ⟨h, rfl⟩
theorem ack (offset) : Statement (.ack offset) :=
  fun h => ⟨h, rfl⟩
theorem nak (cause) (detail) (offset) : Statement (.nak cause detail offset) :=
  fun h => ⟨h, rfl⟩
theorem verdict (code) (stream) (held) : Statement (.verdict code stream held) :=
  fun h => ⟨h, rfl⟩
theorem syncOctetReceived : Statement (.syncOctetReceived) :=
  fun h => ⟨h, rfl⟩

end Sys2Proof.Laws.CutOnce
end

