-- ==== Sys2Proof/Laws/Ram.lean ====
section
/-! SUPPORT. Host RAM: a write gives what it wrote, leaves every other octet alone and keeps the canonical form; and
little-endian fields read back as they were laid. -/

namespace Sys2Proof.Machine

/-! ## Numbers and octets -/

@[simp] theorem leOctets_length (n v : Nat) : (leOctets n v).length = n := by
  induction n generalizing v with
  | zero => rfl
  | succ n ih => simp [leOctets, ih]

theorem leValue_leOctets (n v : Nat) : leValue (leOctets n v) = v % 256 ^ n := by
  induction n generalizing v with
  | zero => simp [leOctets, leValue, Nat.mod_one]
  | succ n ih =>
    have h8 : (BitVec.ofNat 8 v).toNat = v % 256 := by simp
    rw [leOctets, leValue, ih, h8, pow_succ', Nat.mod_mul]

/-- A value that the octets can hold reads back whole. -/
theorem leValue_leOctets_of_lt {n v : Nat} (h : v < 256 ^ n) : leValue (leOctets n v) = v := by
  rw [leValue_leOctets, Nat.mod_eq_of_lt h]

theorem leValue_lt (l : List Octet) : leValue l < 256 ^ l.length := by
  induction l with
  | nil => simp [leValue]
  | cons b l ih =>
    have := b.isLt
    simp only [leValue, List.length_cons, Nat.pow_succ']
    omega

/-- Octets are what their value lays. -/
theorem leOctets_leValue (l : List Octet) : leOctets l.length (leValue l) = l := by
  induction l with
  | nil => rfl
  | cons b l ih =>
    have hb := b.isLt
    have h1 : BitVec.ofNat 8 (b.toNat + 256 * leValue l) = b := by
      apply BitVec.eq_of_toNat_eq; simp; omega
    have h2 : (b.toNat + 256 * leValue l) / 256 = leValue l := by omega
    simp [leOctets, leValue, h1, h2, ih]

/-! ## The entries that a write makes -/

theorem Ram.mem_cells {a : Nat} {bs : List Octet} {c : Host.Cell} (h : c ∈ Ram.cells a bs) :
    a ≤ c.1 ∧ c.1 < a + bs.length ∧ c.2 ≠ unlistedOctet ∧ c.1 < Config.hostSpace := by
  induction bs generalizing a with
  | nil => simp [Ram.cells] at h
  | cons b bs ih =>
    simp only [Ram.cells] at h
    split at h
    · obtain ⟨h1, h2, h3⟩ := ih h
      simp only [List.length_cons]; exact ⟨by omega, by omega, h3⟩
    · rename_i hb
      rw [not_or, not_le] at hb
      rcases List.mem_cons.1 h with rfl | h
      · simp only [List.length_cons]; exact ⟨le_rfl, by omega, hb.1, hb.2⟩
      · obtain ⟨h1, h2, h3⟩ := ih h
        simp only [List.length_cons]; exact ⟨by omega, by omega, h3⟩

theorem Ram.cells_pairwise (a : Nat) (bs : List Octet) : (Ram.cells a bs).Pairwise (fun c d => c.1 < d.1) := by
  induction bs generalizing a with
  | nil => simp [Ram.cells]
  | cons b bs ih =>
    simp only [Ram.cells]
    split
    · exact ih _
    · exact List.pairwise_cons.2 ⟨fun c hc => by have := (Ram.mem_cells hc).1; simp; omega, ih _⟩

/-- A write keeps the canonical form. -/
theorem Ram.write_wf {m : Ram} (h : m.wf) (a : Nat) (bs : List Octet) : (m.write a bs).wf := by
  refine ⟨?_, ?_⟩
  · refine List.pairwise_append.2 ⟨List.pairwise_append.2
      ⟨h.1.sublist List.filter_sublist, Ram.cells_pairwise a bs, ?_⟩, h.1.sublist List.filter_sublist, ?_⟩
    · intro c hc d hd
      have h1 := (List.mem_filter.1 hc).2; have h2 := (Ram.mem_cells hd).1
      simp at h1; omega
    · intro c hc d hd
      have h2 := (List.mem_filter.1 hd).2
      simp at h2
      rcases List.mem_append.1 hc with hc | hc
      · have h1 := (List.mem_filter.1 hc).2
        simp at h1; omega
      · have := (Ram.mem_cells hc).2.1; omega
  · intro c hc
    rcases List.mem_append.1 hc with hc | hc
    · rcases List.mem_append.1 hc with hc | hc
      · exact h.2 c (List.mem_filter.1 hc).1
      · exact (Ram.mem_cells hc).2.2
    · exact h.2 c (List.mem_filter.1 hc).1

theorem Ram.hostWrites_wf {m : Ram} (h : m.wf) (host : List Host.Cell) : (m.hostWrites host).wf := by
  induction host generalizing m with
  | nil => exact h
  | cons c host ih => exact ih (Ram.write_wf h _ _)

theorem Ram.reset_wf : Ram.wf [] := by simp [Ram.wf]

/-! ## Reading -/

theorem Ram.find_cells_lt {a x : Nat} {bs : List Octet} (h : x < a) :
    (Ram.cells a bs).find? (fun c => c.1 == x) = none := by
  rw [List.find?_eq_none]
  intro c hc
  have := (Ram.mem_cells hc).1
  simp; omega

theorem Ram.octet_cells (a x : Nat) (bs : List Octet) :
    Ram.octet (Ram.cells a bs) x =
      if a ≤ x ∧ x < a + bs.length ∧ x < Config.hostSpace then bs.getD (x - a) 0 else unlistedOctet := by
  induction bs generalizing a with
  | nil => simp [Ram.cells, Ram.octet]; omega
  | cons b bs ih =>
    by_cases hx : x < a
    · rw [Ram.octet, Ram.find_cells_lt hx, if_neg (by omega)]
    by_cases hxa : x = a
    · subst hxa
      simp only [Ram.cells]
      split
      · rename_i hb
        rw [Ram.octet, Ram.find_cells_lt (by omega)]
        rcases hb with hb | hb
        · subst hb; simp
        · rw [if_neg (by omega)]
      · rename_i hb
        rw [not_or, not_le] at hb
        simp [Ram.octet, hb.2]
    · have hgt : a + 1 ≤ x := by omega
      have hrec : Ram.octet (Ram.cells a (b :: bs)) x = Ram.octet (Ram.cells (a + 1) bs) x := by
        simp only [Ram.cells]
        split
        · rfl
        · simp [Ram.octet, show (a == x) = false by simp; omega]
      rw [hrec, ih]
      have hs : x - a = (x - (a + 1)) + 1 := by omega
      simp only [List.length_cons, hs, List.getD_cons_succ]
      congr 1
      apply propext; constructor <;> (rintro ⟨h1, h2, h3⟩; exact ⟨by omega, by omega, h3⟩)

theorem Ram.octet_append (m n : Ram) (x : Nat) :
    Ram.octet (m ++ n) x = match m.find? (fun c => c.1 == x) with
      | some c => c.2
      | none => Ram.octet n x := by
  simp only [Ram.octet, List.find?_append]
  cases m.find? (fun c => c.1 == x) <;> simp

theorem Ram.find_filter_pos {m : Ram} {p : Host.Cell → Bool} {x : Nat} (h : ∀ c : Host.Cell, c.1 = x → p c = true) :
    (m.filter p).find? (fun c => c.1 == x) = m.find? (fun c => c.1 == x) := by
  induction m with
  | nil => rfl
  | cons c m ih =>
    by_cases hc : c.1 = x
    · simp [h c hc, hc]
    · by_cases hp : p c
      · simp [hp, hc, ih]
      · simp [hp, hc, ih]

theorem Ram.find_filter_neg {m : Ram} {p : Host.Cell → Bool} {x : Nat} (h : ∀ c : Host.Cell, c.1 = x → p c = false) :
    (m.filter p).find? (fun c => c.1 == x) = none := by
  rw [List.find?_eq_none]
  intro c hc hx
  have := h c (by simpa using hx)
  simp_all

/-- What an octet reads as after a write: the octet written, or what it read as before. -/
theorem Ram.octet_write (m : Ram) (a x : Nat) (bs : List Octet) :
    (m.write a bs).octet x =
      if a ≤ x ∧ x < a + bs.length then (if x < Config.hostSpace then bs.getD (x - a) 0 else unlistedOctet)
      else m.octet x := by
  rw [Ram.write, List.append_assoc, Ram.octet_append]
  by_cases h1 : x < a
  · rw [Ram.find_filter_pos (by intro c hc; simp [hc, h1]), if_neg (by omega)]
    have hm : m.octet x = match m.find? (fun c => c.1 == x) with
      | some c => c.2
      | none => unlistedOctet := rfl
    rw [hm]
    cases m.find? (fun c => c.1 == x) with
    | some c => rfl
    | none =>
      show Ram.octet _ x = _
      rw [Ram.octet_append, Ram.find_cells_lt h1]
      show Ram.octet _ x = _
      rw [Ram.octet, Ram.find_filter_neg (by intro c hc; simp [hc]; omega)]
  · rw [Ram.find_filter_neg (by intro c hc; simp [hc]; omega)]
    show Ram.octet _ x = _
    by_cases h2 : x < a + bs.length
    · rw [if_pos ⟨by omega, h2⟩]
      rw [Ram.octet_append]
      have hc := Ram.octet_cells a x bs
      have hn : (m.filter fun c => a + bs.length ≤ c.1).find? (fun c => c.1 == x) = none :=
        Ram.find_filter_neg (by intro c hc; simp [hc]; omega)
      cases hf : (Ram.cells a bs).find? (fun c => c.1 == x) with
      | some c =>
        rw [Ram.octet, hf] at hc
        simp only at hc ⊢
        rw [hc]
        by_cases hs : x < Config.hostSpace
        · rw [if_pos ⟨by omega, h2, hs⟩, if_pos hs]
        · rw [if_neg (by tauto), if_neg hs]
      | none =>
        rw [Ram.octet, hf] at hc
        simp only at hc ⊢
        rw [Ram.octet, hn]
        simp only
        rw [hc]
        by_cases hs : x < Config.hostSpace
        · rw [if_pos ⟨by omega, h2, hs⟩, if_pos hs]
        · rw [if_neg (by tauto), if_neg hs]
    · rw [if_neg (by omega), Ram.octet_append]
      have hn : (Ram.cells a bs).find? (fun c => c.1 == x) = none := by
        rw [List.find?_eq_none]
        intro c hc
        have := (Ram.mem_cells hc).2.1
        simp; omega
      rw [hn]
      show Ram.octet _ x = _
      rw [Ram.octet, Ram.octet, Ram.find_filter_pos (by intro c hc; simp [hc]; omega)]

theorem Ram.octet_write_outside {m : Ram} {a x : Nat} {bs : List Octet} (h : x < a ∨ a + bs.length ≤ x) :
    (m.write a bs).octet x = m.octet x := by
  rw [Ram.octet_write, if_neg (by omega)]

theorem Ram.octet_hostWrites_outside {m : Ram} {x : Nat} {host : List Host.Cell} (h : ∀ c ∈ host, c.1 ≠ x) :
    (m.hostWrites host).octet x = m.octet x := by
  induction host generalizing m with
  | nil => rfl
  | cons c host ih =>
    have hne := h c (by simp)
    rw [Ram.hostWrites, List.foldl_cons]
    show (Ram.hostWrites _ host).octet x = _
    rw [ih (fun d hd => h d (by simp [hd])), Ram.octet_write_outside (by simp; omega)]

@[simp] theorem Ram.octets_length (m : Ram) (a n : Nat) : (m.octets a n).length = n := by
  induction n generalizing a with
  | zero => rfl
  | succ n ih => simp [Ram.octets, ih]

theorem Ram.octets_congr {m k : Ram} {a n : Nat} (h : ∀ x, a ≤ x → x < a + n → m.octet x = k.octet x) :
    m.octets a n = k.octets a n := by
  induction n generalizing a with
  | zero => rfl
  | succ n ih =>
    simp only [Ram.octets]
    rw [h a le_rfl (by omega), ih fun x h1 h2 => h x (by omega) (by omega)]

theorem Ram.octets_write_outside {m : Ram} {a b n : Nat} {bs : List Octet} (h : b + n ≤ a ∨ a + bs.length ≤ b) :
    (m.write a bs).octets b n = m.octets b n :=
  Ram.octets_congr fun _ h1 h2 => Ram.octet_write_outside (by omega)

/-- What was written inside the host address space reads back. -/
theorem Ram.octets_write_self (m : Ram) (a : Nat) (bs : List Octet) (h : a + bs.length ≤ Config.hostSpace) :
    (m.write a bs).octets a bs.length = bs := by
  have key : ∀ (k : Nat) (rest pre : List Octet), bs = pre ++ rest → pre.length = k →
      (m.write a bs).octets (a + k) rest.length = rest := by
    intro k rest
    induction rest generalizing k with
    | nil => intro pre _ _; rfl
    | cons b rest ih =>
      intro pre hb hk
      have hlen : bs.length = k + (rest.length + 1) := by rw [hb]; simp [hk]
      simp only [List.length_cons, Ram.octets]
      rw [Ram.octet_write, if_pos ⟨by omega, by omega⟩, if_pos (by omega)]
      have hget : bs.getD (a + k - a) 0 = b := by
        rw [hb, show a + k - a = pre.length by omega]; simp
      rw [hget, show a + k + 1 = a + (k + 1) by omega, ih (k + 1) (pre ++ [b]) (by simp [hb]) (by simp [hk])]
  simpa using key 0 bs [] rfl rfl

/-- A field written inside the host address space reads back. -/
theorem Ram.field_write_self (m : Ram) (a n v : Nat) (h : a + n ≤ Config.hostSpace) :
    (m.write a (leOctets n v)).field a n = v % 256 ^ n := by
  have := Ram.octets_write_self m a (leOctets n v) (by simpa using h)
  rw [leOctets_length] at this
  rw [Ram.field, this, leValue_leOctets]

end Sys2Proof.Machine
end

