-- ==== Sys2Proof/Laws/Stir.lean ====
section
/-! SUPPORT. What the Line Controller, the Line Arbiter and the ends of exchanges can touch: `Stir`, which is `Calm` but for
LNC's own state. An IDLE line stays IDLE under all of them, cycles being begun by EXP's commands alone (R109). -/

namespace Sys2Proof.Machine

/-- The part after an operation of LNC: as `Calm` says of everything but LNC, and an IDLE line is still IDLE. -/
structure Stir (d e : Device) : Prop where
  port : { e.port with causes := d.port.causes } = d.port
  causes : d.port.causes ||| e.port.causes = e.port.causes
  fck : e.fck = d.fck
  block : e.tgt.block = d.tgt.block
  queue : e.htq.queue <:+ d.htq.queue
  hot : { e.htq with queue := d.htq.queue, restartOwed := d.htq.restartOwed } = d.htq
  outbox : d.outbox <+: e.outbox
  asleep : d.lnc.line = .idle → e.lnc.line = .idle

theorem Calm.stir {d e : Device} (h : Calm d e) : Stir d e := { h with asleep := fun k => h.line.trans k }

theorem Stir.refl (d : Device) : Stir d d := (Calm.refl d).stir

theorem Stir.trans {c d e : Device} (h : Stir c d) (k : Stir d e) : Stir c e where
  port := by
    have h1 := h.port; have h2 := k.port
    rw [← h1, ← h2]
  causes := by
    have h1 := h.causes; have h2 := k.causes
    rw [← h2, ← BitVec.or_assoc, h1]
  fck := k.fck.trans h.fck
  block := k.block.trans h.block
  queue := k.queue.trans h.queue
  hot := by
    have h1 := h.hot; have h2 := k.hot
    rw [← h1, ← h2]
  outbox := h.outbox.trans k.outbox
  asleep := k.asleep ∘ h.asleep

theorem Stir.device {d e : Device} (h : Stir d e) : e.port.device = d.port.device := by rw [← h.port]
theorem Stir.xbase {d e : Device} (h : Stir d e) : e.port.xbase = d.port.xbase := by rw [← h.port]
theorem Stir.mask {d e : Device} (h : Stir d e) : e.port.mask = d.port.mask := by rw [← h.port]
theorem Stir.held {d e : Device} (h : Stir d e) : e.port.held = d.port.held := by rw [← h.port]

variable {c d : Device}

/-- A calm change after a stir. -/
theorem Stir.calm {e : Device} (h : Stir c d) (k : Calm d e) : Stir c e := h.trans k.stir

theorem Stir.ite {p : Prop} [Decidable p] {x y : Device} (h : Stir c x) (k : Stir c y) :
    Stir c (if p then x else y) := by
  split <;> assumption

/-- LNC's state replaced, its line state staying IDLE where it is IDLE. -/
theorem Device.stir_lnc (h : Stir c d) (l : LineController) (hl : d.lnc.line = .idle → l.line = .idle) :
    Stir c { d with lnc := l } :=
  h.trans { Stir.refl d with asleep := hl }

/-! ## Exchanges and cycles -/

theorem Device.stir_clearExchange (h : Stir c d) : Stir c d.clearExchange := Device.stir_lnc h _ id
theorem Device.stir_cutExchange (h : Stir c d) : Stir c d.cutExchange := by
  unfold Device.cutExchange; split
  · exact h
  · dsimp only
    refine Stir.ite ?_ ?_
    · exact Stir.calm (Device.stir_clearExchange h)
        (Device.calm_broadcastMade (Device.calm_burstBack (Calm.refl _) _))
    · exact Stir.calm (Device.stir_clearExchange h) (Device.calm_burstBack (Calm.refl _) _)
theorem Device.stir_lineToIdle (h : Stir c d) : Stir c d.lineToIdle :=
  Device.stir_lnc (Device.stir_cutExchange h) _ fun _ => rfl
theorem Device.stir_idleIfStopping (h : Stir c d) : Stir c d.idleIfStopping :=
  Stir.ite (Device.stir_lineToIdle h) h

theorem Device.calm_cycleOver (h : Calm c d) : Calm c d.cycleOver := h.trans { Calm.refl d with }
@[simp] theorem Device.cycleOver_record (d : Device) (a : Addr) : d.cycleOver.record a = (d.record a).cycleOver := by
  simp [Device.record, Device.cycleOver]

/-- A cycle's beginning touches nothing outside ROS, PLN and LNC but what their reports touch. -/
theorem Device.stir_cycleStart (h : Stir c d) (hd : d.lnc.line ≠ .idle) (fresh) : Stir c (d.cycleStart fresh) := by
  unfold Device.cycleStart
  extract_lets old new src d1 d2 d3 d4
  have h1 : Stir c d1 := Device.stir_lnc h _ fun k => absurd k hd
  have h2 : Calm d1 d2 := Calm.ite (by simp [Calm.refl]) (Calm.refl _)
  have h3 : Calm d1 d4 :=
    Device.calm_cycleOver (Calm.foldl _ (fun d a => Device.calm_judgeSilence (Calm.refl d) a) h2)
  exact Device.stir_lnc (Stir.calm h1 h3) _ fun k => (by rw [h3.line] at k; cases k)

@[simp] theorem Device.cycleStart_line (d : Device) (fresh) : (d.cycleStart fresh).lnc.line = .cycle := by
  unfold Device.cycleStart
  extract_lets old new src d1 d2 d3 d4
  have h2 : Calm d1 d2 := Calm.ite (by simp [Calm.refl]) (Calm.refl _)
  have h3 : Calm d1 d4 :=
    Device.calm_cycleOver (Calm.foldl _ (fun d a => Device.calm_judgeSilence (Calm.refl d) a) h2)
  clear_value d4
  show d4.lnc.line = .cycle
  rw [h3.line]

/-- The configuration of a cycle: the pending one where there is one (R124). -/
@[simp] theorem Device.cycleStart_config (d : Device) (fresh) :
    (d.cycleStart fresh).lnc.config = d.lnc.pendingConfig.getD d.lnc.config := by
  unfold Device.cycleStart
  extract_lets old new src d1 d2 d3 d4
  have h2 : Calm d1 d2 := Calm.ite (by simp [Calm.refl]) (Calm.refl _)
  have h3 : Calm d1 d4 :=
    Device.calm_cycleOver (Calm.foldl _ (fun d a => Device.calm_judgeSilence (Calm.refl d) a) h2)
  clear_value d4
  show d4.lnc.config = _
  rw [h3.config]

theorem Device.stir_judgeAttention (h : Stir c d) (hd : d.lnc.line ≠ .idle) (x) : Stir c (d.judgeAttention x) := by
  unfold Device.judgeAttention; dsimp only
  have h1 : Stir c { d with lnc.attnLow := x } := Device.stir_lnc h _ id
  split
  · exact Device.stir_cycleStart h1 hd true
  · exact h1
theorem Device.stir_judgeQuiet (h : Stir c d) (hd : d.lnc.line ≠ .idle) (x) : Stir c (d.judgeQuiet x) := by
  unfold Device.judgeQuiet; dsimp only
  generalize (if (!d.lnc.grantMade && !d.someSilent) = true then min 32 (d.lnc.idleCount + 1) else 0) = n
  split
  · refine Device.stir_judgeAttention (Device.stir_lnc h { d.lnc with
      line := .quiet, idleCount := 0, keepaliveTimer := some (d.lnc.config.keepalive * 1000000) } fun k => absurd k hd)
      (by simp) x
  · exact Device.stir_cycleStart (Device.stir_lnc h { d.lnc with idleCount := n } id) hd false
theorem Device.calm_handReplyTimes (h : Calm c d) : Calm c d.handReplyTimes := by
  unfold Device.handReplyTimes
  refine Calm.foldl _ (fun d a => ?_) h
  split <;> simp [Calm.refl]
theorem Device.stir_endCycle (h : Stir c d) (x) : Stir c (d.endCycle x) := by
  unfold Device.endCycle; split
  · rename_i k
    have hc := Device.calm_handReplyTimes (Calm.refl d)
    exact Device.stir_judgeQuiet (Stir.calm h hc) (by rw [hc.line, k.2.1]; simp) x
  · exact h
theorem Device.stir_keepaliveExpired (h : Stir c d) : Stir c d.keepaliveExpired := by
  unfold Device.keepaliveExpired; split
  · rename_i k; exact Device.stir_cycleStart h (by rw [k]; simp) true
  · rename_i k; exact Device.stir_lnc h _ fun q => (by rw [k] at q; cases q)
  all_goals exact h
theorem Device.stir_attention (h : Stir c d) : Stir c d.attention := by
  unfold Device.attention; split
  · rename_i k; exact Device.stir_judgeAttention h (by rw [k]; simp) true
  all_goals exact h
theorem Device.stir_guardPassed (h : Stir c d) (x) : Stir c (d.guardPassed x) := by
  unfold Device.guardPassed; dsimp only
  have h1 : Stir c { d with lnc.guardTimer := none } := Device.stir_lnc h _ id
  split
  · rename_i k; exact Device.stir_lnc h _ fun q => (by rw [k] at q; cases q)
  · rename_i k; exact Device.stir_cycleStart h1 (by dsimp only; rw [k]; simp) true
  · rename_i k
    exact Device.stir_judgeAttention (Device.stir_lnc h _ fun q => (by rw [k] at q; cases q)) (by simp) x
  all_goals exact h1
theorem Device.stir_recover (h : Stir c d) : Stir c d.recover := by
  unfold Device.recover; split
  · rename_i k; exact Device.stir_lnc h _ fun q => (by rw [k] at q; cases q)
  · rename_i k; exact Device.stir_lnc h _ fun q => (by rw [k] at q; cases q)
  all_goals exact h

/-! ## Grants -/

theorem Device.stir_beginExchange (h : Stir c d) (x1 x2 x3 x4 x5 x6) : Stir c (d.beginExchange x1 x2 x3 x4 x5 x6) :=
  Device.stir_lnc h _ id
theorem Device.stir_closePhase (h : Stir c d) : Stir c d.closePhase := Device.stir_lnc h _ id
theorem Device.stir_noteGrant (h : Stir c d) : Stir c d.noteGrant := Device.stir_lnc h _ id
theorem Device.stir_grantIfFits (h : Stir c d) (n) {f : Device → Device} (hf : ∀ d, Stir c d → Stir c (f d)) :
    Stir c (d.grantIfFits n f) :=
  Stir.ite (hf _ (Device.stir_noteGrant h)) (Device.stir_closePhase h)
theorem Device.stir_orPoll (h : Stir c d) (x a) {e : Device} (he : Stir c e) : Stir c (d.orPoll x a e) :=
  Stir.ite (Device.stir_grantIfFits h _ fun _ k => Device.stir_beginExchange k _ _ _ _ _ _) he
theorem Device.stir_grantBroadcast (h : Stir c d) (x) : Stir c (d.grantBroadcast x) :=
  Device.stir_grantIfFits h _ fun _ k => Device.stir_beginExchange k _ _ _ _ _ _
theorem Device.stir_grantHot (h : Stir c d) (x a) : Stir c (d.grantHot x a) :=
  Device.stir_orPoll h x a
    (Stir.ite (Device.stir_closePhase h) (Device.stir_beginExchange (Device.stir_noteGrant h) _ _ _ _ _ _))
theorem Device.stir_grantAct (h : Stir c d) (x a k) : Stir c (d.grantAct x a k) := by
  refine Device.stir_orPoll h x a ?_
  cases k <;> exact Device.stir_grantIfFits h _ fun _ k => Device.stir_beginExchange k _ _ _ _ _ _
theorem Device.stir_grantCollect (h : Stir c d) (x a) : Stir c (d.grantCollect x a) :=
  Device.stir_orPoll h x a (Device.stir_grantIfFits h _ fun _ k => Device.stir_beginExchange k _ _ _ _ _ _)
theorem Device.stir_fetchFaulted (h : Stir c d) (a t i) : Stir c (d.fetchFaulted a t i) := by
  unfold Device.fetchFaulted
  exact Stir.calm (Device.stir_clearExchange h)
    (Device.calm_markRecords (Device.calm_fetchFaultReported (Device.calm_changeRecord (Calm.refl _) _ _ _) _) _ _)
theorem Device.stir_beginCont (h : Stir c d) (m b x a r n) : Stir c (d.beginCont m b x a r n) := by
  unfold Device.beginCont; dsimp only
  split
  · exact Device.stir_fetchFaulted h _ _ _
  · exact Device.stir_beginExchange (Stir.calm h (Device.calm_changeRecord (Calm.refl _) _ _ _)) _ _ _ _ _ _
theorem Device.stir_makeOffer (h : Stir c d) (a o) : Stir c (d.makeOffer a o) :=
  Stir.calm h (Device.calm_makeOffer (Calm.refl _) a o)
theorem Device.stir_grantRecord (h : Stir c d) (m b x a o r) : Stir c (d.grantRecord m b x a o r) := by
  unfold Device.grantRecord
  cases r.phase <;> dsimp only
  · refine Device.stir_grantIfFits h _ fun _ k => Device.stir_beginExchange ?_ _ _ _ _ _ _
    exact Stir.calm (Device.stir_makeOffer k a o) (Device.calm_changeRecord (Calm.refl _) _ _ _)
  · exact Stir.ite (Device.stir_closePhase h)
      (Device.stir_beginCont (Device.stir_makeOffer (Device.stir_noteGrant h) a o) _ _ _ _ _ _)
  all_goals
    exact Device.stir_grantIfFits h _ fun _ k => Device.stir_beginExchange (Device.stir_makeOffer k a o) _ _ _ _ _ _
theorem Device.stir_grantOffer (h : Stir c d) (m b x a o) : Stir c (d.grantOffer m b x a o) := by
  unfold Device.grantOffer
  cases o <;> dsimp only
  case next => exact Device.stir_grantRecord h _ _ _ _ _ _
  all_goals exact Device.stir_grantIfFits h _ fun _ k => Device.stir_beginExchange k _ _ _ _ _ _
theorem Device.stir_turnBegun (h : Stir c d) {e a} (k : d.turnBegun = some (e, a)) : Stir c e := by
  unfold Device.turnBegun at k
  dsimp only at k
  have fresh : ∀ {o : Option Addr}, (o.map fun a =>
      ({ d with lnc.pointer := Addr.number a, lnc.turn := some (a, (d.record a).weight) }, a)) = some (e, a) →
      Stir c e := by
    intro o ho
    cases o
    · simp at ho
    · simp only [Option.map_some, Option.some.injEq, Prod.mk.injEq] at ho
      rw [← ho.1]; exact Device.stir_lnc h _ id
  split at k
  · split at k
    · simp only [Option.some.injEq, Prod.mk.injEq] at k; rw [← k.1]; exact h
    · exact fresh k
  · exact fresh k
theorem Device.stir_grantTurn (h : Stir c d) (m b x a) : Stir c (d.grantTurn m b x a) := by
  unfold Device.grantTurn; split
  · exact h
  · dsimp only
    have h1 : Stir c { d with lnc.turn := turnLowered d.lnc.turn } := Device.stir_lnc h _ id
    exact Device.stir_orPoll h1 x a (Device.stir_grantOffer h1 _ _ _ _ _)
/-- Whatever is granted, a grant stirs. -/
theorem Device.stir_grant (h : Stir c d) (m b x) : Stir c (d.grant m b x) := by
  unfold Device.grant
  refine Stir.ite (Device.stir_grantBroadcast h x) ?_
  split
  · exact Device.stir_grantHot h _ _
  · split
    · split
      · exact Device.stir_grantAct h _ _ _
      · exact h
    · split
      · exact Device.stir_grantCollect h _ _
      · split
        · rename_i k; exact Device.stir_grantTurn (Device.stir_turnBegun h k) _ _ _ _
        · exact Device.stir_lnc h _ id
theorem Device.stir_transferGrant (h : Stir c d) (m b x) : Stir c (d.transferGrant m b x) :=
  Stir.ite (Device.stir_idleIfStopping (Device.stir_grant h m b x)) h
theorem Device.stir_rollCall (h : Stir c d) (x) : Stir c (d.rollCall x) := by
  unfold Device.rollCall; split
  · split
    · rename_i a _
      exact Device.stir_beginExchange (Device.stir_lnc h { d.lnc with rollPosition := a.number } id) _ _ _ _ _ _
    · exact Device.stir_lnc h _ id
  · exact h

/-! ## Frames and the ends of exchanges -/

theorem Device.stir_commitSent (h : Stir c d) (e x) : Stir c (d.commitSent e x) :=
  Stir.ite (Device.stir_idleIfStopping (Stir.calm (Device.stir_clearExchange h) (Device.calm_broadcastMade (Calm.refl _))))
    (Device.stir_lnc h _ id)
theorem Device.stir_contSent (h : Stir c d) (m b e a x) : Stir c (d.contSent m b e a x) := by
  unfold Device.contSent; split
  · dsimp only
    exact Device.stir_idleIfStopping (Device.stir_lnc (Device.stir_beginCont h _ _ _ _ _ _) _ id)
  · exact Device.stir_idleIfStopping (Device.stir_clearExchange h)
theorem Device.stir_frameSent (h : Stir c d) (m b x) : Stir c (d.frameSent m b x) := by
  unfold Device.frameSent; split
  · split
    · split
      · exact Device.stir_commitSent h _ _
      · exact Stir.ite (Device.stir_contSent h _ _ _ _ _) (Device.stir_lnc h _ id)
    · exact h
  · exact h
theorem Device.stir_syncReceived (h : Stir c d) : Stir c d.syncReceived := by
  unfold Device.syncReceived; split
  · exact Stir.ite (Device.stir_lnc h _ id) h
  · exact h
theorem Device.stir_replyEnds (h : Stir c d) (e a r) : Stir c (d.replyEnds e a r) := by
  unfold Device.replyEnds; dsimp only
  have h1 := Device.stir_clearExchange h
  refine Stir.ite (Device.stir_idleIfStopping h1) (Device.stir_idleIfStopping (Stir.calm h1 ?_))
  exact Device.calm_reportEnding (Device.calm_judged (Calm.refl _) e a r) _ _ _
theorem Device.stir_missEnds (h : Stir c d) (e a n) : Stir c (d.missEnds e a n) := by
  unfold Device.missEnds; dsimp only
  have h1 := Device.stir_clearExchange h
  refine Stir.ite (Device.stir_idleIfStopping h1) (Device.stir_idleIfStopping (Stir.calm h1 ?_))
  exact Device.calm_reportEnding (Device.calm_ownerMissed (Calm.refl _) e a) _ _ _
theorem Device.stir_reply (h : Stir c d) (r) : Stir c (d.reply r) := by
  unfold Device.reply; split
  · split
    · exact Stir.ite (Stir.ite (Device.stir_replyEnds h _ _ _) (Device.stir_missEnds h _ _ _)) h
    · exact h
  · exact h
theorem Device.stir_missed (h : Stir c d) (p) : Stir c (d.missed p) := by
  unfold Device.missed; split
  · split
    · exact Stir.ite (Device.stir_missEnds h _ _ _) h
    · exact h
  · exact h
theorem Device.stir_replyOctets (h : Stir c d) (l) : Stir c (d.replyOctets l) := by
  unfold Device.replyOctets; split
  · dsimp only
    refine Stir.ite h ?_
    split
    · exact Device.stir_reply h _
    · exact Device.stir_missed h _
  · exact h
theorem Device.stir_contention (h : Stir c d) : Stir c d.contention := by
  unfold Device.contention; split
  · refine Stir.ite ?_ h
    split
    · exact Device.stir_idleIfStopping
        (Stir.calm (Device.stir_clearExchange (Device.stir_recover h)) (Device.calm_broadcastMade (Calm.refl _)))
    · exact Device.stir_missEnds (Device.stir_recover h) _ _ _
  · exact h

/-! ## CANCEL, silence, the Verifier -/

theorem Device.calm_dropEverything (h : Calm c d) : Calm c d.dropEverything :=
  Calm.foldl _ (fun d a => Device.calm_dropAll (Calm.refl d) a _) h
theorem Device.calm_emptyPlans (h : Calm c d) : Calm c d.emptyPlans :=
  Calm.foldl _ (fun d a => Device.calm_setPlan (Calm.refl d) a []) h
theorem Device.stir_cancel (h : Stir c d) : Stir c d.cancel := by
  unfold Device.cancel; dsimp only
  have h1 := Device.stir_recover (Device.stir_cutExchange h)
  have h2 : Stir c { d.cutExchange.recover with lnc.turn := none } := Device.stir_lnc h1 _ id
  exact Device.stir_idleIfStopping (Stir.calm h2
    (Device.calm_replanAll (Device.calm_emptyPlans (Device.calm_dropEverything (Calm.refl _)))))
theorem Device.calm_silenceExpired (h : Calm c d) (n) : Calm c (d.silenceExpired n) := by
  unfold Device.silenceExpired; split
  · exact Calm.ite (by simp [h]) h
  · exact h
theorem Device.calm_verificationEnded (h : Calm c d) (m b) : Calm c (d.verificationEnded m b) := by
  unfold Device.verificationEnded; split
  · unfold Device.endVerification; dsimp only
    have h1 : Calm c { d with vfy := { queue := d.vfy.queue.drop 1, inFlight := false } } := h.trans { Calm.refl d with }
    split
    · exact Device.calm_firstVerified h1 _ _
    · exact Device.calm_reverifyEnded h1 _ _
    all_goals exact h1
  · exact h

end Sys2Proof.Machine
end

