-- ==== Sys2Proof/Laws/Run.lean ====
section
/-! SUPPORT. What EXP's writing can touch, said once as one relation between a command under way before and after: `Written`.
Every write of the exchange area, every return and every publication has one lemma here. -/

namespace Sys2Proof.Machine

/-! ## How long the things written are (R198, R199) -/

@[simp] theorem catBody_length (e : Entry) : (catBody e).length = 28 := by
  simp only [catBody, List.length_append, List.length_cons, List.length_nil, leOctets_length, List.length_replicate]
@[simp] theorem rosBody_length (r : ValRecord) : (rosBody r).length = 124 := by
  unfold rosBody
  simp only [List.length_append]
  simp only [List.length_cons, List.length_nil, leOctets_length, List.length_replicate,
    List.length_flatMap, allStreams, List.map_cons, List.map_nil, List.sum_cons, List.sum_nil]
  omega
@[simp] theorem coordBody_length (c : Coordinator) : (coordBody c).length = 60 := by
  simp only [coordBody, allAddrs, List.length_append, List.length_cons, List.length_nil, List.length_map, leOctets_length,
    List.length_replicate]
@[simp] theorem hotSummary_length (h : HotQueue) : (hotSummary h).length = 8 := by simp [hotSummary]
@[simp] theorem cellBody_length (k : Octet) (t : List Octet) : (cellBody k t).length = 63 := by
  simp [cellBody]; omega
@[simp] theorem returnBody_length (r : Return) : (returnBody r).length = 11 := by simp [returnBody]

theorem slotOffset_lt (s : Slot) : slotOffset s + 64 ≤ 0x840 := by have := s.isLt; simp only [slotOffset]; omega
theorem catOffset_lt (i : CatIndex) : catOffset i + 32 ≤ 0xE40 := by have := i.isLt; simp only [catOffset]; omega
theorem rosOffset_lt (a : Addr) : rosOffset a + 128 ≤ 0x1440 := by have := a.isLt; simp only [rosOffset]; omega
theorem cellOffset_lt (a : Addr) : cellOffset a + 64 ≤ 0x1780 := by have := a.isLt; simp only [cellOffset]; omega

/-! ## Which offsets are the part's -/

/-- A run of octets at an offset lies where the part writes. -/
def PartRun (o n : Nat) : Prop := ∀ x, o ≤ x → x < o + n → partOffset x = true

theorem partRun_header {o n : Nat} (h : 16 ≤ o ∧ o + n ≤ 26 ∨ 28 ≤ o ∧ o + n ≤ 40) : PartRun o n := by
  intro x h1 h2; simp [partOffset]; omega
theorem partRun_slot (s : Slot) {k n : Nat} (h : k + n ≤ 12) : PartRun (slotOffset s + k) n := by
  have := s.isLt
  intro x h1 h2; simp only [slotOffset] at h1 h2; simp [partOffset]; omega
theorem partRun_mirror {o n : Nat} (h1 : 0x840 ≤ o) (h2 : o + n ≤ 0x1780) : PartRun o n := by
  intro x h3 h4; simp [partOffset]; omega

/-! ## The relation -/

/-- A command under way after some of EXP's writing: the queue of commands is as before; host RAM keeps its canonical form
and has changed where the part writes alone; a sound bus is sound; every block but EXP and ROS is as before, ROS but
for the three flags that publishing sets, and EXP but for its causes, counts, held slots and returns owed. -/
structure Written (q r : Run) : Prop where
  pending : r.state.pending = q.state.pending
  wf : q.state.ram.wf → r.state.ram.wf
  outside : ∀ x, q.state.dev.partWrites x = false → r.state.ram.octet x = q.state.ram.octet x
  sound : q.bus = .sound → r.bus = .sound
  failed : q.bus = .failed → r.bus = .failed
  port : { r.state.dev.port with
      causes := q.state.dev.port.causes
      deviceCount := q.state.dev.port.deviceCount
      held := q.state.dev.port.held
      returnsOwed := q.state.dev.port.returnsOwed
      catCounts := q.state.dev.port.catCounts
      rosCounts := q.state.dev.port.rosCounts
      coordCount := q.state.dev.port.coordCount } = q.state.dev.port
  blocks : { r.state.dev with
      port := q.state.dev.port, ros := q.state.dev.ros, outbox := q.state.dev.outbox } = q.state.dev
  records : ∀ a, { r.state.dev.record a with
      replyTime := (q.state.dev.record a).replyTime
      cellFilled := (q.state.dev.record a).cellFilled
      noticePending := (q.state.dev.record a).noticePending } = q.state.dev.record a

theorem Written.refl (q : Run) : Written q q where
  pending := rfl
  wf := id
  outside := fun _ _ => rfl
  sound := id
  failed := id
  port := rfl
  blocks := rfl
  records := fun _ => rfl

theorem Written.xbase {q r : Run} (h : Written q r) : r.state.dev.port.xbase = q.state.dev.port.xbase := by rw [← h.port]
theorem Written.device {q r : Run} (h : Written q r) : r.state.dev.port.device = q.state.dev.port.device := by
  rw [← h.port]
theorem Written.areaBase {q r : Run} (h : Written q r) : r.state.dev.areaBase = q.state.dev.areaBase := by
  simp only [Device.areaBase, h.xbase]
theorem Written.partWrites {q r : Run} (h : Written q r) (x : Nat) :
    r.state.dev.partWrites x = q.state.dev.partWrites x := by
  simp only [Device.partWrites, h.areaBase]
theorem Written.lnc {q r : Run} (h : Written q r) : r.state.dev.lnc = q.state.dev.lnc := by rw [← h.blocks]
theorem Written.htq {q r : Run} (h : Written q r) : r.state.dev.htq = q.state.dev.htq := by rw [← h.blocks]
theorem Written.fck {q r : Run} (h : Written q r) : r.state.dev.fck = q.state.dev.fck := by rw [← h.blocks]
theorem Written.tgt {q r : Run} (h : Written q r) : r.state.dev.tgt = q.state.dev.tgt := by rw [← h.blocks]
theorem Written.act {q r : Run} (h : Written q r) : r.state.dev.act = q.state.dev.act := by rw [← h.blocks]
theorem Written.cat {q r : Run} (h : Written q r) : r.state.dev.cat = q.state.dev.cat := by rw [← h.blocks]
theorem Written.entry {q r : Run} (h : Written q r) (i) : r.state.dev.entry i = q.state.dev.entry i := by
  simp only [Device.entry, h.cat]
theorem Written.presence {q r : Run} (h : Written q r) (a) :
    (r.state.dev.record a).presence = (q.state.dev.record a).presence := by rw [← h.records a]

theorem Written.trans {p q r : Run} (h : Written p q) (k : Written q r) : Written p r where
  pending := k.pending.trans h.pending
  wf := k.wf ∘ h.wf
  outside := fun x hx => (k.outside x ((h.partWrites x).trans hx)).trans (h.outside x hx)
  sound := k.sound ∘ h.sound
  failed := k.failed ∘ h.failed
  port := by
    have h1 := h.port; have h2 := k.port
    rw [← h1, ← h2]
  blocks := by
    have h1 := h.blocks; have h2 := k.blocks
    rw [← h1, ← h2]
  records := fun a => by
    have h1 := h.records a; have h2 := k.records a
    rw [← h1, ← h2]

variable {q r : Run}

/-- Changes inside the part that EXP makes as it writes. -/
def Device.Kept (d e : Device) : Prop :=
  Written { state := { dev := d, ram := [], pending := [] }, bus := .sound }
    { state := { dev := e, ram := [], pending := [] }, bus := .sound }

theorem Run.written_always (h : Written q r) {f : Device → Device} (hf : ∀ d : Device, d.Kept (f d)) : Written q (r.always f) :=
  h.trans
    { pending := rfl, wf := id, outside := fun _ _ => rfl, sound := id, failed := id,
      port := (hf _).port, blocks := (hf _).blocks, records := (hf _).records }

theorem Run.written_inside (h : Written q r) {f : Device → Device} (hf : ∀ d : Device, d.Kept (f d)) : Written q (r.inside f) := by
  unfold Run.inside; split
  · exact Run.written_always h hf
  · exact h

theorem Run.written_access (h : Written q r) {f : State → State}
    (hf : ∀ s, Written { state := s, bus := .sound } { state := f s, bus := .sound }) : Written q (r.access f) := by
  have hs := hf r.state
  unfold Run.access
  split
  · exact h.trans { hs with sound := id, failed := id }
  · rename_i k
    exact h.trans { Written.refl r with sound := fun e => by simp [e] at k, failed := fun _ => rfl }
  · rename_i k
    exact h.trans { hs with sound := fun e => by simp [e] at k, failed := fun e => by simp [e] at k }
  · exact h

theorem Run.written_write (h : Written q r) {o : Nat} {l : List Octet} (hb : PartRun o l.length) :
    Written q (r.write o l) :=
  Run.written_access h fun s =>
    { Written.refl { state := s, bus := AreaBus.sound } with
      wf := fun k => Ram.write_wf k _ _
      outside := fun x hx => by
        refine Ram.octet_write_outside ?_
        by_contra k
        have hp := hb (x - s.dev.areaBase) (by omega) (by omega)
        have hx2 : (decide (s.dev.areaBase ≤ x) && partOffset (x - s.dev.areaBase)) = false := hx
        rw [hp, Bool.and_true, decide_eq_false_iff_not] at hx2
        omega }

theorem Run.written_read (h : Written q r) : Written q r.read :=
  Run.written_access h fun s => Written.refl { state := s, bus := AreaBus.sound }

theorem Written.foldl {α : Type} {f : Run → α → Run} (l : List α) (hf : ∀ r x, Written r (f r x)) (h : Written q r) :
    Written q (l.foldl f r) := by
  induction l generalizing r with
  | nil => exact h
  | cons x l ih => exact ih (h.trans (hf r x))

theorem Written.ite {p : Prop} [Decidable p] {x y : Run} (h : Written q x) (k : Written q y) :
    Written q (if p then x else y) := by
  split <;> assumption

/-! ## EXP's own changes of the part -/

theorem Device.kept_refl (d : Device) : d.Kept d := Written.refl _
theorem Device.kept_raise (d : Device) (c) : d.Kept (d.raise c) := { Device.kept_refl d with }
theorem Device.kept_release (d : Device) (s) : d.Kept (d.release s) := { Device.kept_refl d with }
theorem Device.kept_stepDeviceCount (d : Device) : d.Kept d.stepDeviceCount := { Device.kept_refl d with }
theorem Device.kept_oweReturn (d : Device) (x) : d.Kept (d.oweReturn x) := { Device.kept_refl d with }
theorem Device.kept_outbox (d : Device) (x) : d.Kept { d with outbox := x } := { Device.kept_refl d with }
theorem Device.kept_putRecord (d : Device) (a : Addr) (r : ValRecord)
    (h : { r with
      replyTime := (d.record a).replyTime
      cellFilled := (d.record a).cellFilled
      noticePending := (d.record a).noticePending } = d.record a) : d.Kept (d.putRecord a r) :=
  { Device.kept_refl d with
    records := fun b => by
      show { (d.putRecord a r).record b with
        replyTime := (d.record b).replyTime
        cellFilled := (d.record b).cellFilled
        noticePending := (d.record b).noticePending } = d.record b
      rw [Device.record_putRecord]
      by_cases k : a = b
      · subst k; simpa using h
      · simp [k] }
theorem Device.kept_noticeKept (d : Device) (a) : d.Kept (d.noticeKept a) := Device.kept_putRecord d a _ rfl
theorem Device.kept_trans {c d e : Device} (h : c.Kept d) (k : d.Kept e) : c.Kept e := Written.trans h k
theorem Device.kept_leave (d : Device) (p) : d.Kept (d.leave p) := by
  cases p
  case slotReturn => exact Device.kept_oweReturn d _
  case noticeFill => exact Device.kept_noticeKept d _
  all_goals exact Device.kept_refl d
theorem Device.kept_leaveAll (d : Device) (l : List Publication) : d.Kept (l.foldl Device.leave d) := by
  induction l generalizing d with
  | nil => exact Device.kept_refl d
  | cons p l ih => exact Device.kept_trans (Device.kept_leave d p) (ih _)
theorem Device.kept_loseFirst (d : Device) (l) : d.Kept (d.loseFirst l) := by
  induction l generalizing d with
  | nil => exact Device.kept_refl d
  | cons p l ih =>
    cases p
    case slotReturn => exact Device.kept_trans (Device.kept_release d _) (Device.kept_leaveAll _ _)
    all_goals exact Device.kept_trans (Device.kept_leave d _) (ih _)

/-! ## Header fields, mirrors, returns and cells -/

theorem Run.written_writeState (h : Written q r) : Written q r.writeState := Run.written_write h (partRun_header (by simp))
theorem Run.written_writeSeen (h : Written q r) : Written q r.writeSeen := Run.written_write h (partRun_header (by simp))
theorem Run.written_writeDeviceCount (h : Written q r) : Written q r.writeDeviceCount :=
  Run.written_write h (partRun_header (by simp))
theorem Run.written_writeClock (h : Written q r) : Written q r.writeClock :=
  Run.written_write (Run.written_write h (partRun_header (by simp))) (partRun_header (by simp))
theorem Run.written_writeSummary (h : Written q r) : Written q r.writeSummary := Run.written_write h (partRun_header (by simp))
theorem Run.written_writeCat (h : Written q r) (i) : Written q (r.writeCat i) := by
  have := catOffset_lt i
  refine Run.written_write (Run.written_inside (Run.written_write h ?_) ?_) ?_
  · exact partRun_mirror (by simp only [catOffset]; omega) (by simp; omega)
  · exact fun d => { Device.kept_refl d with }
  · exact partRun_mirror (by simp only [catOffset]; omega) (by simp; omega)
theorem Run.written_writeRos (h : Written q r) (a) : Written q (r.writeRos a) := by
  have := rosOffset_lt a
  refine Run.written_write (Run.written_inside (Run.written_write h ?_) ?_) ?_
  · exact partRun_mirror (by simp only [rosOffset]; omega) (by simp; omega)
  · intro d
    refine Device.kept_trans (Device.kept_putRecord d a { d.record a with replyTime := .shown } rfl) ?_
    exact { Device.kept_refl (d.putRecord a { d.record a with replyTime := .shown }) with }
  · exact partRun_mirror (by simp only [rosOffset]; omega) (by simp; omega)
theorem Run.written_writeCoord (h : Written q r) : Written q r.writeCoord := by
  refine Run.written_write (Run.written_inside (Run.written_write h ?_) ?_) ?_
  · exact partRun_mirror (by simp [coordOffset]) (by simp [coordOffset])
  · exact fun d => { Device.kept_refl d with }
  · exact partRun_mirror (by simp [coordOffset]) (by simp [coordOffset])
theorem Run.written_writeMirrors (h : Written q r) (d out) : Written q (r.writeMirrors d out) := by
  unfold Run.writeMirrors
  extract_lets after r1 r2 r3
  have h1 : Written q r1 := Written.foldl _ (fun r i => Run.written_writeCat (Written.refl r) i) h
  have h2 : Written q r2 := Written.foldl _ (fun r i => Run.written_writeRos (Written.refl r) i) h1
  have h3 : Written q r3 := Written.ite (Run.written_writeCoord h2) h2
  exact Written.ite (Run.written_writeSummary h3) h3
/-- A return writes its slot, the device count and nothing else (R186). -/
theorem Run.written_returnSlot (h : Written q r) (x) : Written q (r.returnSlot x) := by
  unfold Run.returnSlot
  extract_lets r1 r2 r3
  have h1 : Written q r1 := Run.written_write h (partRun_slot _ (by simp))
  have h2 : Written q r2 := Run.written_write h1 (partRun_slot (k := 0) _ (by simp))
  have h3 : Written q r3 := Run.written_writeDeviceCount (Run.written_inside h2 Device.kept_stepDeviceCount)
  exact Run.written_always (Run.written_inside h3 fun d => Device.kept_raise d _) fun d => Device.kept_release d _
theorem Run.written_fillNotice (h : Written q r) (a k t) : Written q (r.fillNotice a k t) := by
  have := cellOffset_lt a
  unfold Run.fillNotice
  extract_lets r1
  have h1 : Written q r1 :=
    Run.written_write (Run.written_write h (partRun_mirror (by simp only [cellOffset]; omega) (by simp; omega)))
      (partRun_mirror (by simp only [cellOffset]; omega) (by simp; omega))
  refine Written.ite ?_ (Run.written_always h1 fun d => Device.kept_noticeKept d a)
  exact Run.written_inside (Run.written_writeDeviceCount (Run.written_inside h1 Device.kept_stepDeviceCount))
    fun d => Device.kept_raise d _
theorem Run.written_carryOut (h : Written q r) (p) : Written q (r.carryOut p) := by
  cases p
  case slotReturn => exact Run.written_returnSlot h _
  case noticeFill => exact Run.written_fillNotice h _ _ _
  case catRewrite => exact h
  case rosterRewrite => exact h
  case coordRewrite => exact h
  case summaryRewrite => exact h
  case clockCopy => exact Run.written_writeClock h
  case stateCopy => exact Run.written_writeState h
theorem Run.written_carryOutAll (h : Written q r) (l) : Written q (r.carryOutAll l) := by
  induction l generalizing r with
  | nil => exact h
  | cons p l ih =>
    refine Written.ite (ih (Run.written_carryOut h p)) (Run.written_always h fun d => ?_)
    exact Device.kept_trans (Device.kept_leave d p) (Device.kept_leaveAll _ _)
/-- Publication writes where the part may write and EXP's own fields alone. -/
theorem Run.written_publish (h : Written q r) (d) : Written q (r.publish d) := by
  unfold Run.publish
  extract_lets out wasAlive r1 r2
  have h1 : Written q r1 := Run.written_always h fun d => Device.kept_outbox d []
  have h2 : Written q r2 := Run.written_writeMirrors h1 _ _
  exact Written.ite (Written.ite (Run.written_carryOutAll h2 _) (Run.written_always h2 fun d => Device.kept_loseFirst d _))
    (Run.written_always h1 fun d => Device.kept_leaveAll d _)
theorem Run.written_writeTaken (h : Written q r) (slot) : Written q (r.writeTaken slot) := by
  have h0 := partRun_slot slot (k := 1) (n := 1) (by omega)
  have h2 := partRun_slot slot (k := 3) (n := 1) (by omega)
  refine Run.written_access h fun s =>
    { Written.refl { state := s, bus := AreaBus.sound } with
      wf := fun k => Ram.write_wf (Ram.write_wf k _ _) _ _
      outside := fun x hx => ?_ }
  replace hx : (decide (s.dev.areaBase ≤ x) && partOffset (x - s.dev.areaBase)) = false := hx
  have key : ∀ k, PartRun (slotOffset slot + k) 1 → x ≠ s.dev.areaBase + slotOffset slot + k := by
    intro k hk e
    have hp := hk (x - s.dev.areaBase) (by omega) (by omega)
    rw [hp, Bool.and_true, decide_eq_false_iff_not] at hx
    omega
  have k1 := key 1 h0; have k3 := key 3 h2
  show Ram.octet _ x = _
  rw [Ram.octet_write_outside (by simp only [List.length_cons, List.length_nil]; omega),
    Ram.octet_write_outside (by simp only [List.length_cons, List.length_nil]; omega)]
theorem Run.written_writeOwed (h : Written q r) (l) : Written q (r.writeOwed l) := by
  induction l generalizing r with
  | nil => exact h
  | cons p l ih =>
    refine Written.ite (ih (Run.written_returnSlot (Run.written_always h fun d => ?_) p)) h
    exact { Device.kept_refl d with }
theorem Run.written_returnAborted (h : Written q r) (l) : Written q (r.returnAborted l) := by
  induction l generalizing r with
  | nil => exact h
  | cons p l ih => exact Written.ite (ih (Run.written_returnSlot h p)) h
theorem Run.written_republish (h : Written q r) : Written q r.republish := by
  unfold Run.republish
  extract_lets r1 r0 r2 r3
  have h1 : Written q r0 := Run.written_always (Run.written_writeState h) fun d => Device.kept_outbox d _
  have h2 : Written q r2 := Written.foldl _ (fun r i => Run.written_writeCat (Written.refl r) i) h1
  have h3 : Written q r3 := Written.foldl _ (fun r i => Run.written_writeRos (Written.refl r) i) h2
  exact Run.written_writeClock (Run.written_writeDeviceCount (Run.written_writeSeen (Run.written_writeSummary
    (Run.written_writeCoord h3))))

/-! ## Publication while the area is not accessed (R187) -/

/-- With the area closed nothing is written: what was handed over is left, returns joining the returns owed list. -/
theorem Run.publish_closed (r : Run) (d : Device) (h : r.state.dev.areaOpen = false) :
    r.publish d = r.always fun e => r.state.dev.outbox.foldl Device.leave { e with outbox := [] } := by
  have h1 : ({ r.state.dev with outbox := [] } : Device).areaOpen = false := h
  unfold Run.publish
  simp [h1, Run.always]

/-! ## Exit events and the end of a command -/

/-- An exit event stirs, and none is left unanswered. -/
theorem Device.stir_takeExit {c d : Device} (h : Stir c d) (x) : Stir c (d.takeExit x) := by
  unfold Device.takeExit
  extract_lets taken src d1
  suffices Stir c d1 from this.trans { Stir.refl d1 with }
  unfold d1
  split
  · rename_i k
    split
    · exact Device.stir_cycleStart h (by rw [k]; simp) true
    · exact h
  · rename_i k; exact Device.stir_lnc h _ fun q => (by rw [k] at q; cases q)
  all_goals exact h
@[simp] theorem Device.takeExit_exitEvent (d x : Device) : (d.takeExit x).exitEvent = false := rfl

/-- With no access failed a command ends with the interrupt judged and nothing else changed. -/
theorem Run.finish_alive (r : Run) (h : r.alive = true) : r.finish = { r.state with dev := r.state.dev.judgeInterrupt } := by
  simp [Run.finish, h]

/-- After every command that EXP concludes the interrupt line is judged (R191). -/
theorem Run.finish_interrupt (r : Run) : r.finish.dev.port.interrupt = r.finish.dev.port.interruptDue := by
  unfold Run.finish; rfl

@[simp] theorem Run.finish_pending (r : Run) : r.finish.pending = r.state.pending := rfl
@[simp] theorem Run.finish_ram (r : Run) : r.finish.ram = r.state.ram := rfl

/-! ## Requests left in slots (R183, R198; assumption log 19) -/

@[simp] theorem Request.layout_length (q : Request) (ref : Half) : (q.layout ref).length = 64 := by
  cases q <;> simp [Request.layout]

@[simp] theorem State.withRequest_dev (s : State) (slot ref q) : (s.withRequest slot ref q).dev = s.dev := by
  unfold State.withRequest; split <;> rfl
@[simp] theorem State.withRequest_pending (s : State) (slot ref q) : (s.withRequest slot ref q).pending = s.pending := by
  unfold State.withRequest; split <;> rfl

/-- A request left in a slot keeps host RAM in its form. -/
theorem State.withRequest_wf {s : State} (h : s.ram.wf) (slot ref q) : (s.withRequest slot ref q).ram.wf := by
  unfold State.withRequest; split
  · exact h
  · exact Ram.write_wf h _ _

/-- A request left in a slot changes no octet outside the slot. -/
theorem State.withRequest_octet_outside {s : State} {slot : Slot} {x : Nat}
    (h : x < s.slotBase slot ∨ s.slotBase slot + 64 ≤ x) (ref q) : (s.withRequest slot ref q).ram.octet x = s.ram.octet x := by
  unfold State.withRequest; split
  · rfl
  · exact Ram.octet_write_outside (by simpa using h)

/-- A request command of a slot that the part does not take does nothing. -/
theorem State.takeRequest_untaken {s : State} {slot : Slot} (h : s.dev.mayTake slot = false) (bus ref q) :
    s.takeRequest bus slot ref q = s := by simp [State.takeRequest, h]

end Sys2Proof.Machine
end

