-- ==== Sys2Proof/Tests/Slice0.lean ====
section
/-! SUPPORT. The model's own tests: ill-formed commands refused, the manual's worked numbers, single commands on small states,
and for each statement a state and operands that meet its hypotheses. -/

namespace Sys2Proof.Tests

open Sys2Proof Sys2Proof.Machine

-- One kernel evaluation at a time, each on one thread.
set_option Elab.async false

/-! ## Small states -/

/-- After reset, in a device state. -/
def device (x : DeviceState) : State := { State.reset with dev.port.device := x }

/-- RUNNING, the line in a cycle's phase. -/
def inPhase (p : CyclePhase) : State :=
  { device .running with
    dev := { (device .running).dev with
      port := { (device .running).dev.port with run := true, lineEnable := true }
      lnc := { LineController.reset with line := .cycle, phase := p } } }

/-- RUNNING, in the transfer phase. -/
def running : State := inPhase .transfer

/-- A validator that has reported itself. -/
def joined : ValRecord :=
  { ValRecord.reset with
    presence := .present, serial := 7, maxPayload := 64, openSlots := 2, hotCapacity := 100, fareCapacity := 1000
    blockCapacity := 1000, silenceTimer := some 0 }

/-- With a record at an address. -/
def having (s : State) (a : Addr) (r : ValRecord) : State := { s with dev := s.dev.putRecord a r }

/-- With a catalogue entry at an index. -/
def holding (s : State) (i : CatIndex) (e : Entry) : State := { s with dev.cat.entries := s.dev.cat.entries.set i e }

/-- With the transfer records of an address. -/
def sending (s : State) (a : Addr) (t : Transfers) : State := { s with dev := s.dev.setTransfers a t }

/-- With a standing record of an address. -/
def standingAt (s : State) (a : Addr) (r : StandingRecord) : State := { s with dev.act.standings := s.dev.act.standings.set a r }

/-- With a slot held. -/
def keeping (s : State) (slot : Slot) : State :=
  { s with dev.port.held := s.dev.port.held.set slot (some { kind := 2, ref := 9 }) }

/-- With an exchange to address 1 awaiting its reply. -/
def waiting (s : State) (kind : ExchangeKind) (tag : Nat) : State :=
  { s with dev.lnc.exchange := some { exchangeTo (some 0) kind tag 0 0 true [] with phase := .awaiting } }

/-- A FARE segment of 3 octets, in a state. -/
def segment (state : EntryState) (form : Form) (base edition : Nat) : Entry :=
  { Entry.blank 3 .none with
    state, stream := .fare, form, base, edition, size := 3, footprint := 100, check := 67437060
    gather := 0x10000, fragments := 2 }

/-- An open record of the segment at index 5. -/
def open5 (phase : TransferPhase) (sent acked : Nat) (marked : Bool) : TransferRecord :=
  { tag := 1, index := 5, generation := 3, stream := .fare, size := 3, sent, acked, phase, holdSent := false, marked }

/-- That record alone. -/
def only (r : TransferRecord) : Transfers := { active := some r, stack := [], abandonAll := false }

/-- Address 1 joined, the segment at index 5 READY, its record open, its job planned. -/
def busy (phase : TransferPhase) (sent acked : Nat) (marked : Bool) : State :=
  let s := sending (holding (having running 0 joined) 5 { segment .ready .whole 0 12 with inUse := 1 }) 0
    (only (open5 phase sent acked marked))
  { s with dev := s.dev.setPlan 0 [.send .fare 5 3 1] }

/-- Host RAM with the segment 01h 02h 03h in two fragments of 1 and 2 octets (R6, the worked check values of R9). -/
def segmentRam : Ram :=
  [(0x10002, 2), (0x10008, 1), (0x10010, 0x10), (0x10012, 2), (0x10018, 2), (0x1001C, 1), (0x20000, 1), (0x20010, 2),
   (0x20011, 3)]

/-- A POST of that segment. -/
def postFields : PostFields :=
  { stream := 1, form := 0, base := 0, edition := 12, fragments := 2, size := 3, footprint := 100, check := 67437060
    gather := 0x10000 }

/-! ## Ill-formed commands are refused -/

theorem test_refuses_register_beyond_XID : Instr.wellFormed (.registerWriteOther 8 0) = false := by decide +kernel
theorem test_refuses_host_write_beyond_space : Instr.wellFormed (.starting [(2 ^ 64, 1)]) = false := by decide +kernel
theorem test_refuses_sweep_write_beyond_space : Instr.wellFormed (.sweep [(2 ^ 64, 1)]) = false := by decide +kernel
theorem test_refuses_fault_without_access : Instr.wellFormed (.areaFault .softReset 0) = false := by decide +kernel
theorem test_refuses_fault_of_ill_formed : Instr.wellFormed (.areaFault (.sweep [(2 ^ 64, 1)]) 0) = false := by decide +kernel
theorem test_refuses_known_kind_as_bad : Instr.wellFormed (.badKind 0 0 8) = false := by decide +kernel
theorem test_refuses_reversed_range : Instr.wellFormed (.verificationEnd [⟨2, 1⟩]) = false := by decide +kernel
theorem test_refuses_range_beyond_space : Instr.wellFormed (.transferGrant true [⟨0, 2 ^ 64⟩]) = false := by decide +kernel
theorem test_refuses_frame_range_reversed : Instr.wellFormed (.frameSent true [⟨2, 1⟩]) = false := by decide +kernel
theorem test_refuses_address_0 : Instr.wellFormed (.silenceExpiry 0) = false := by decide +kernel
theorem test_refuses_address_13 : Instr.wellFormed (.silenceExpiry 13) = false := by decide +kernel
theorem test_refuses_long_notice : Instr.wellFormed (.notice 0 (List.replicate 1024 0)) = false := by decide +kernel
theorem test_refuses_short_reply : Instr.wellFormed (.replyCheckFailed (List.replicate 9 0)) = false := by decide +kernel

/-! ## The manual's worked numbers -/

/-- Chapter 1, "Worked check values". -/
theorem test_check_value_of_three_octets : checkValue [1, 2, 3] = 67437060 := by decide +kernel
/-- Chapter 1, "Worked check values". -/
theorem test_check_value_of_word_FFFF : checkValue [0xFF, 0xFF, 1, 0] = 65537 := by decide +kernel
/-- R9: the check value does not depend on how the gather list divides the segment. -/
theorem test_verified_over_two_fragments : verify segmentRam [] 0 (segment .verifying .whole 0 12) = .matched := by decide +kernel
/-- Chapter 5, the note on the frame check: the register after the octets 31h to 39h. -/
theorem test_crc_of_digits : crc16 [0x31, 0x32, 0x33, 0x34, 0x35, 0x36, 0x37, 0x38, 0x39] = 0x29B1 := by decide +kernel
/-- Chapter 4, worked case 1: the two links of the chain, and the WHOLE. -/
theorem test_cost_of_chain_and_whole :
    linkCost 6000 0 256 4 = 6392 ∧ linkCost 9500 0 256 4 = 10088 ∧ linkCost 200000 0 256 4 = 210632 := by decide +kernel
/-- Chapter 4, worked cases 2, 3 and 4: a resumed WHOLE, a tie, a small payload. -/
theorem test_cost_resumed_tied_small :
    linkCost 200000 131072 256 4 = 72648 ∧ linkCost 5000 0 256 4 = 5338 ∧ linkCost 1000 0 32 4 = 1500 := by decide +kernel
/-- Chapter 2, worked cases A, B and C: where the walk over the target footprints stops. -/
theorem test_reach_of_worked_cases :
    reachWalk 300000 [some 12000, some 150000, some 120000, some 400000] 0 0 = (3, .over) ∧
      reachWalk 300000 [some 12000, some 150000, some 140000, some 400000] 0 0 = (2, .over) ∧
      reachWalk 300000 [some 12500, none, none, none] 0 0 = (1, .unknown) := by decide +kernel
/-- Chapter 2, worked case D: the first tier does not fit. -/
theorem test_reach_of_first_generation : reachWalk 10000 [some 12000, some 150000, some 120000, some 400000] 0 0 = (0, .over) := by
  decide +kernel
/-- R150: the two examples of distance. -/
theorem test_distance_wraps : seqDistance 65534 1 = 2 ∧ seqFollows 1 65534 = true ∧ seqDistance 1 65534 = 65533 ∧
    seqFollows 65534 1 = false := by decide +kernel

/-- The LINE_SET of chapter 6, "Worked LINE_SET". -/
def workedLineSet : LineFields :=
  { rate := 750, cycleLength := 5, payloadLimit := 300, replyTimeout := 500, guardTime := 200, probeInterval := 4, burst := 0
    retryLimit := 3, silence := 10, quietEntry := 4, keepalive := 15 }

/-- Chapter 6, "Worked LINE_SET": the values and the mask. -/
theorem test_line_set_clamped : lineClampMask workedLineSet = 27 ∧ (lineClamped workedLineSet).fields =
    [500, 10, 4, 288, 1, 500, 3, 10, 4, 15, 200] := by decide +kernel

/-! ## Single commands -/

/-- Something of the state that a command answers. -/
def answered (c : Instr) (s : State) (p : State → Bool) : Bool :=
  match exec c s with
  | .next t => p t
  | _ => false

/-- R197: after power-on XID shows part code, revision and cause POWER. -/
theorem test_power_on : answered (.deviceReset .power) running (fun t => t.dev.readRegister 0 == 0x01010F24) = true := by
  decide +kernel
/-- R197: after a soft reset XBASE stands and XID shows cause SOFT. -/
theorem test_soft_reset : answered .softReset { running with dev.port.xbase := 5 }
    (fun t => t.dev.readRegister 0 == 0x03010F24 && t.dev.readRegister 8 == 0xA000) = true := by decide +kernel
/-- R192: RUN written 1 in OFF. -/
theorem test_run_from_off : answered (.run true) .reset (fun t => t.dev.port.device == .starting) = true := by decide +kernel
/-- R191: clearing one cause leaves the interrupt asserted for another. -/
theorem test_cause_clear : answered (.causeClear 0x100)
    { running with dev.port := { running.dev.port with causes := 3, mask := 2, interrupt := true } }
    (fun t => t.dev.port.causes == 2 && t.dev.port.interrupt) = true := by decide +kernel
/-- R189: only bits 14 to 8 of XMASK are kept. -/
theorem test_mask_kept : answered (.xmaskWrite 0xFFFFFFFF) running (fun t => t.dev.readRegister 0x18 == 0x7F00) = true := by
  decide +kernel
/-- R164: a write of XCLOCK makes the clock valid. -/
theorem test_clock_write : answered (.xclockWrite 9) running (fun t => t.dev.fck.valid && t.dev.readRegister 0x1C == 9) = true := by
  decide +kernel
/-- R164: a step of the clock at its largest value. -/
theorem test_clock_wraps : answered .clockStep { running with dev.fck.seconds := 0xFFFFFFFF }
    (fun t => t.dev.fck.seconds == 0) = true := by decide +kernel
/-- R193: a header without the signature leaves STARTING for OFF. -/
theorem test_starting_bad_header : answered (.starting []) { device .starting with dev.port.run := true }
    (fun t => t.dev.port.device == .off && !t.dev.port.run && t.dev.port.causes == 0x40) = true := by decide +kernel

/-- Software's header: signature, layout version, epoch 7 (R181). -/
def header : List Host.Cell := [(0, 0x31), (1, 0x4C), (2, 0x54), (3, 0x47), (4, 1), (6, 7)]

/-- R2, R5: the handle of index 5, generation 3 is 773; a POST of the same identity is refused with it. -/
theorem test_duplicate_handle : answered (.post 0 9 postFields) (busy .sending 0 0 false)
    (fun t => t.ram.octets 0x40 12 == [0, 4, 1, 5, 9, 0, 0, 0, 0x05, 0x03, 0, 0]) = true := by decide +kernel
/-- R5: a POST taken. -/
theorem test_post_taken : answered (.post 0 9 postFields) running
    (fun t => (t.dev.entry 0).state == .verifying && t.dev.vfy.queue == [0] && t.ram.octets 0x40 2 == [1, 1]) = true := by
  decide +kernel
/-- R2, R11: a handle of another generation is stale. -/
theorem test_withdraw_stale : answered (.withdraw 0 9 5 4) (busy .sending 0 0 false)
    (fun t => t.ram.octet 0x41 == 4 && (t.dev.entry 5).state == .ready) = true := by decide +kernel
/-- R14: a WITHDRAW of an entry in use. -/
theorem test_withdraw_in_use : answered (.withdraw 0 9 5 3) (busy .sending 0 0 false)
    (fun t => (t.dev.entry 5).state == .retiring && (t.dev.transfers 0).records.all (·.marked)) = true := by decide +kernel
/-- R123: the detail of the worked LINE_SET's return. -/
theorem test_line_set_returned : answered (.lineSet 0 9 workedLineSet) running
    (fun t => t.ram.octets 0x40 12 == [0, 2, 8, 1, 9, 0, 0, 0, 27, 0, 0, 0]) = true := by decide +kernel
/-- R42: ENROL of an UNUSED address. -/
theorem test_enrol : answered (.enrol 0 9 12 true 4) running
    (fun t => (t.dev.record 11).presence == .absent && (t.dev.record 11).weight == 4) = true := by decide +kernel
/-- R10, R18: the end of a first verification. -/
theorem test_verified : answered (.verificationEnd [])
    { holding running 0 (segment .verifying .whole 0 12) with ram := segmentRam, dev.vfy := { queue := [0], inFlight := true } }
    (fun t => (t.dev.entry 0).state == .ready) = true := by decide +kernel
/-- R132: an ACK of a CONT that completes the segment. -/
theorem test_ack_completes : answered (.ack 3) (waiting (busy .sending 3 0 false) .cont 1)
    (fun t => (t.dev.transfers 0).records.map (·.phase) == [.sealing]) = true := by decide +kernel
/-- R55: VERDICT STORED of a WHOLE for an untimed FARE. -/
theorem test_stored : answered (.verdict 1 1 12) (waiting (busy .sealing 3 3 false) .seal 1)
    (fun t => (t.dev.record 0).activeFare == 12 && (t.dev.transfers 0).records == []) = true := by decide +kernel
/-- R137: VERDICT STORED_PENDING clears the reject count. -/
theorem test_stored_pending : answered (.verdict 2 1 12)
    (having (waiting (busy .sealing 3 3 false) .seal 1) 0
      (joined.setCell .fare { status := .sending, held := 0, rejects := 2, hold := false, room := false }))
    (fun t => (t.dev.record 0).pendingFare == 12 && ((t.dev.record 0).cell .fare).rejects == 0) = true := by decide +kernel
/-- R51: an accepted STATUS rewrites the mirror of its record, here changing no field that it shows but the reply time. -/
theorem test_status_rewrites_mirror : answered (.status (readStatus [7, 0, 0, 0, 64, 0, 1]))
    (let r : ValRecord := { ValRecord.reset with presence := .present, serial := 7, maxPayload := 64 }
     let s := waiting (having running 0 { r with openSlots := 1, hotStatus := .none }) .poll 0
     { s with dev.fck.seconds := 9, dev.htq.epoch := some 0 })
    (fun t => t.dev.port.rosCounts == Vector.ofFn (fun a => if a = 0 then 1 else 0) && t.ram.octet 0xE7C == 9) = true := by
  decide +kernel
/-- R7: a CONT frame's walk meets the last record of a list that falls short of the size, though the octets asked are there. -/
theorem test_fetch_of_short_list :
    (fetchPayload segmentRam [] 0 { segment .ready .whole 0 12 with size := 4 } 1 1).toOption = none ∧
      (fetchPayload segmentRam [] 0 { segment .ready .whole 0 12 with size := 4 } 0 1).toOption = some [1] := by decide +kernel
/-- R118: a cycle does not end before the cycle timer has reached the cycle length, 100 ms. -/
theorem test_cycle_end_at_length :
    answered (.cycleEnd false) { running with dev.lnc.cycleTimer := 99999 } (fun t => t.dev.lnc.phase == .transfer) = true ∧
      answered (.cycleEnd false) { running with dev.lnc.cycleTimer := 100000 } (fun t => t.dev.lnc.phase == .rollCall) = true := by
  decide +kernel
/-- R47: a miss. -/
theorem test_missed : answered .replyTimeout (waiting (having running 0 joined) .poll 0)
    (fun t => (t.dev.record 0).misses == 1 && t.dev.lnc.heldOver.has 0) = true := by decide +kernel
/-- R86, R98: while a reply is awaited the octets before A5h are discarded, and so are those after the frame is complete. -/
theorem test_reply_among_other_octets : answered (.replyCheckFailed ([0, 0x5A] ++ replyFrame 1 1 (.ack 3) ++ [0xA5, 0]))
    (waiting (busy .sending 3 0 false) .cont 1) (fun t => (t.dev.transfers 0).records.map (·.phase) == [.sealing]) = true := by
  decide +kernel
/-- R98: the timer runs on over octets other than A5h. -/
theorem test_no_sync_no_reply : answered (.replyCheckFailed (List.replicate 10 0)) (waiting (having running 0 joined) .poll 0)
    (fun t => t == waiting (having running 0 joined) .poll 0) = true := by decide +kernel
/-- R61, R118: a cycle's end rewrites a record whose reply time changed in that cycle, and not one whose reply time changed in a
cycle that line enable broke off. -/
theorem test_cycle_end_rewrites :
    answered (.cycleEnd false) { having running 0 { joined with replyTime := .changedInCycle } with dev.lnc.cycleTimer := 100000 }
        (fun t => t.dev.port.rosCounts[0] == 1 && (t.dev.record 0).replyTime == .shown) = true ∧
      answered (.cycleEnd false) { having running 0 { joined with replyTime := .changedBefore } with dev.lnc.cycleTimer := 100000 }
        (fun t => t.dev.port.rosCounts[0] == 0 && (t.dev.record 0).replyTime == .changedBefore) = true := by decide +kernel
/-- R61, R110: a cycle that begins after line enable. -/
theorem test_cycle_after_line_enable : answered (.lineEnable true)
    (having (device .running) 0 { joined with replyTime := .changedInCycle })
    (fun t => (t.dev.record 0).replyTime == .changedBefore && t.dev.lnc.line == .cycle) = true := by decide +kernel
/-- R49: the third contention in succession. -/
theorem test_third_contention : answered .contention
    (let s := waiting (having running 0 { joined with contentions := 2 }) .poll 0
     { s with dev.lnc.exchange := s.dev.lnc.exchange.map fun (e : Exchange) => { e with phase := .receiving } })
    (fun t => (t.dev.record 0).presence == .clash && t.dev.lnc.line == .recoverCycle) = true := by decide +kernel

/-! ## States and operands that meet the statements' hypotheses -/

/-- An exchange to address 1, its reply awaited. -/
def asked (kind : ExchangeKind) (tag : Nat) : Exchange := { exchangeTo (some 0) kind tag 0 0 true [] with phase := .awaiting }

/-- The same, its reply arriving. -/
def heard (kind : ExchangeKind) (tag : Nat) : Exchange := { asked kind tag with phase := .receiving }

/-- With an exchange to address 1 whose reply is arriving. -/
def arriving (s : State) (kind : ExchangeKind) (tag : Nat) : State := { s with dev.lnc.exchange := some (heard kind tag) }

theorem test_meets_StepRunsFrontCommand : State.reset.pending = [] := rfl
theorem test_meets_SafeKept : running.safe ∧ (busy .sending 1 0 false).safe := by decide +kernel
theorem test_meets_IdentitiesKept : (busy .sending 1 0 false).identitiesOk := by unfold State.identitiesOk; decide +kernel
theorem test_meets_TransferRecordsKept :
    (busy .sending 1 0 false).dev.transfersOk ∧ (busy .sending 1 0 false).dev.offsetsOk := by
  unfold Device.transfersOk Device.offsetsOk; decide +kernel
theorem test_meets_PlansNameReadyEntriesKept : (busy .sending 1 0 false).dev.plansOk := by
  intro a j h
  have : j = .send .fare 5 3 1 := by
    revert a j; decide +kernel
  subst this; decide +kernel
theorem test_meets_InUseCountsKept :
    (busy .sending 1 0 false).dev.transfersOk ∧ (busy .sending 1 0 false).dev.plansOk ∧ (busy .sending 1 0 false).dev.usageOk :=
  ⟨test_meets_TransferRecordsKept.1, test_meets_PlansNameReadyEntriesKept, by unfold Device.usageOk; decide +kernel⟩
theorem test_meets_EntriesChangeByTheirLife :
    (busy .sending 1 0 false).dev.editionsOk ∧ Instr.prompt.operation.isReset = false ∧
      (∀ host, Instr.prompt.operation ≠ .sweep host) ∧ ((busy .sending 1 0 false).dev.entry 5).state ≠ .free ∧
      ((busy .sending 1 0 false).dev.entry 0).state = .free :=
  ⟨by unfold Device.editionsOk; decide +kernel, rfl, nofun, by decide +kernel, by decide +kernel⟩
/-- Octets of one value, evenly spaced. -/
def spaced (first step : Nat) (v : Octet) : Nat → Ram
  | 0 => []
  | n + 1 => (first, v) :: spaced (first + step) step v n

theorem find_spaced (x step : Nat) (v : Octet) (hs : 0 < step) (n first : Nat) :
    (spaced first step v n).find? (fun c => c.1 == x) =
      if first ≤ x ∧ x < first + step * n ∧ (x - first) % step = 0 then some (x, v) else none := by
  induction n generalizing first with
  | zero => simp [spaced]; omega
  | succ n ih =>
    rw [spaced, List.find?_cons]
    by_cases h : first = x
    · subst h; simp [Nat.pos_iff_ne_zero.mp hs]
    · have hb : (first == x) = false := by simpa using h
      simp only [show ((first, v).1 == x) = false from hb, ih]
      have e : step * (n + 1) = step * n + step := Nat.mul_succ step n
      by_cases k : first + step ≤ x
      · have m : (x - (first + step)) % step = (x - first) % step := by
          rw [show x - first = x - (first + step) + step by omega, Nat.add_mod_right]
        rw [m, e]; congr 1; simp; omega
      · rw [if_neg (by omega), if_neg]
        rintro ⟨h1, -, h3⟩
        have : x - first < step := by omega
        rw [Nat.mod_eq_of_lt this] at h3; omega

/-- RUNNING, with the mirrors as EXP writes them, every update count 0: the state copy, the generations of the 48 entries and
the weights of the 12 records (R198); every other octet is 0. -/
def mirrored : State := { running with ram := (24, 2) :: (spaced 0x845 32 1 48 ++ spaced 0xE45 128 1 12) }

/-- The octets of that RAM by their address. -/
def mirroredOctet (x : Nat) : Octet :=
  if x = 24 then 2
  else if 0x845 ≤ x ∧ x < 0xE45 ∧ (x - 0x845) % 32 = 0 then 1
  else if 0xE45 ≤ x ∧ x < 0x1445 ∧ (x - 0xE45) % 128 = 0 then 1 else 0

theorem octet_mirrored (x : Nat) : mirrored.ram.octet x = mirroredOctet x := by
  simp only [mirrored, Ram.octet, List.find?_cons, List.find?_append, find_spaced x 32 1 (by decide),
    find_spaced x 128 1 (by decide), mirroredOctet, unlistedOctet]
  by_cases h : x = 24
  · subst h; simp
  · have hb : ((24 : Nat) == x) = false := by simpa using fun e => h e.symm
    simp only [hb, h, if_false]
    by_cases h1 : 0x845 ≤ x ∧ x < 0xE45 ∧ (x - 0x845) % 32 = 0
    · simp [h1]
    · by_cases h2 : 0xE45 ≤ x ∧ x < 0x1445 ∧ (x - 0xE45) % 128 = 0
      · simp [h1, h2]
      · simp [h1, h2]

/-- A run of those octets. -/
def mirroredOctets : Nat → Nat → List Octet
  | _, 0 => []
  | a, n + 1 => mirroredOctet a :: mirroredOctets (a + 1) n

theorem octets_mirrored (n a : Nat) : mirrored.ram.octets a n = mirroredOctets a n := by
  induction n generalizing a with
  | zero => rfl
  | succ n ih => rw [Ram.octets, mirroredOctets, ih, octet_mirrored]

theorem test_meets_MirrorsKept : mirrored.mirrorsOk ∧ mirrored.settled ∧ mirrored.dev.port.device = .running ∧
    (∀ w ∈ (Instr.sweep [(12, 1)]).operation.hostWrites, mirrored.dev.partWrites w.1 = false) := by
  refine ⟨?_, by decide +kernel, rfl, by decide +kernel⟩
  unfold State.mirrorsOk
  simp only [octets_mirrored, octet_mirrored, Ram.field]
  decide +kernel

theorem test_meets_AreaWritesConfined :
    running.dev.partWrites 0x1780 = false ∧ running.dev.partWrites 0x177F = true ∧
      (running.softwareRam (.sweep [(12, 1)])).octet 12 = 1 ∧ (running.softwareRam (.badKind 0 0 9)).octet 0x42 = 9 ∧
      (device .halted).dev.port.device = .halted := by
  decide +kernel
theorem test_meets_DeviceStatesFollowRun :
    (Instr.run true).operation.isReset = false ∧
      answered (.run true) .reset (fun t => t.dev.port.device != State.reset.dev.port.device) = true := by decide +kernel
theorem test_meets_RegistersChangeByTheirCommands : Instr.prompt.operation.isReset = false ∧
    (∀ v, Instr.prompt.operation ≠ .xbaseWrite v) ∧ (∀ host, Instr.prompt.operation ≠ .sweep host) :=
  ⟨rfl, nofun, nofun⟩
theorem test_meets_EnrolmentKept : Instr.prompt.operation.isReset = false ∧ Instr.prompt.operation.mayEnrol = false ∧
    (running.dev.record 11).presence = .unused ∧ ((having running 11 { joined with presence := .clash }).dev.record 11).presence = .clash ∧
    ((having running 0 { joined with presence := .excluded }).dev.record 0).presence = .excluded := by decide +kernel
theorem test_meets_ExchangesBeginByGrant :
    answered (.rollCallPoll true) (having (inPhase .rollCall) 11 joined) (fun t => t.dev.lnc.exchange.isSome) = true ∧
      (having (inPhase .rollCall) 11 joined).dev.lnc.exchange = none ∧
      answered .prompt (waiting running .poll 0) (fun t => t.dev.lnc.exchange.isSome) = true := by decide +kernel

/-- COMMITTING on edition 12 at 100, at a moment of the fleet clock. -/
def committing (broadcast : Broadcast) (now : Word32) : State :=
  { running with dev := { running.dev with
      tgt.fare := { edition := 12, timing := some { activation := 100, lead := 30, hold := 60 } }
      act := { Coordinator.reset with state := .committing, edition := 12, activation := 100, lead := 30, hold := 60,
                                      opens := 70, holdEnds := 160, broadcast }
      fck := { seconds := now, valid := true, micros := 0 } } }

theorem test_meets_BroadcastAtItsTimeOnce :
    answered (.transferGrant true []) (committing .owed 100)
        (fun t => t.dev.lnc.exchange.map (·.kind) == some .commitAll) = true ∧
      (committing .made 100).dev.act.broadcast = .made ∧ Instr.prompt.operation.isReset = false ∧
      answered .prompt (committing .made 100) (fun t => t.dev.tgt.fare == (committing .made 100).dev.tgt.fare) = true := by
  decide +kernel
theorem test_meets_SlotsHeldUntilReturned :
    (keeping (holding running 0 { segment .verifying .whole 0 12 with pendingSlot := some 31 }) 31).slotsOk ∧
      (keeping (holding running 0 { segment .verifying .whole 0 12 with pendingSlot := some 31 }) 31).settled ∧
      (∀ host, Instr.prompt.operation ≠ .starting host) := by
  refine ⟨?_, by decide +kernel, nofun⟩
  unfold State.slotsOk; decide +kernel

/-- A STATUS of the joined validator. -/
def statusFields : StatusFields :=
  { serial := 7, maxPayload := 64, openSlots := 2, hotCapacity := 100, fareCapacity := 1000, blockCapacity := 1000
    heldT0 := 0, heldFare := 0, heldT1 := 0, heldT2 := 0, heldT3 := 0, activeFare := 12, pendingFare := 0, armed := false
    noticePending := false, hotEpoch := 7, hotHighWater := 0 }

theorem test_meets_ReplyReadAsSent :
    (0 < 4 ∧ replyValid .poll (.status statusFields) = true) ∧ (3 < 4 ∧ replyValid .cont (.ack 0xFFFFFF) = true) ∧
      replyValid .cont (.nak 1 0x11 0) = true ∧ replyValid .seal (.verdict 1 4 0xFFFF) = true ∧
      replyValid .seal (.verdict 5 0 0) = true ∧ replyValid .collect (.notice 0xFF (List.replicate 48 0x41)) = true := by
  decide +kernel
theorem test_meets_FrameLaidOut : 3 < 4 ∧ 0xFFFFFF < 2 ^ 24 ∧ (List.replicate 1024 (0 : Octet)).length ≤ 1024 := by
  decide +kernel
theorem test_meets_FetchIsSliceOfSegment : 1 ≤ (segment .ready .whole 0 12).fragments ∧
    (verifierWalk segmentRam [] 0 (segment .ready .whole 0 12).gather (segment .ready .whole 0 12).size
      (segment .ready .whole 0 12).fragments 0 0).toOption = some [1, 2, 3] ∧ 1 + 2 ≤ (segment .ready .whole 0 12).size := by
  decide +kernel

/-- A READY entry of a BLOCK tier. -/
def tierEntry (k : Nat) (form : Form) (base edition footprint : Nat) : Entry :=
  { segment .ready form base edition with stream := tierStream k, footprint }

/-- Address 1 joined, holding T0 of edition 36, under BLOCK target 38, with a chain and a WHOLE of T0. -/
def choices : State :=
  let s := having running 0 (joined.setHeld .blockT0 36)
  let s := holding (holding (holding s 1 (tierEntry 0 .delta 36 37 100)) 2 (tierEntry 0 .delta 37 38 100)) 3
    (tierEntry 0 .whole 0 38 100)
  { s with dev.tgt.block := 38 }

theorem test_meets_TargetFootprintFound : 3 < 4 ∧ choices.dev.targetFootprint 0 = some 100 ∧
    choices.dev.targetFootprint 3 = none := by decide +kernel
theorem test_meets_ReachWithinCapacity : choices.dev.tgt.block ≠ 0 ∧ choices.dev.computeReach 0 = (1, .unknown) := by
  decide +kernel
theorem test_meets_LinkCostCounted : 4194304 ≤ 4194304 ∧ 32 ≤ 32 ∧ 1 ≤ 1 := by decide
theorem test_meets_ChainsAreAllPaths : choices.dev.editionsOk ∧ choices.dev.chainCandidates .blockT0 36 38 = [[1, 2]] := by
  unfold Device.editionsOk; decide +kernel
theorem test_meets_ChainChosenByTests :
    choices.dev.bestChain 0 [[3], [1, 2], [2]] = some [2] ∧ choices.dev.bestChain 0 [] = none := by decide +kernel
theorem test_meets_PathChosenByCost :
    (∀ i j, (choices.dev.entry i).state = .ready → (choices.dev.entry j).state = .ready →
      sameIdentity (choices.dev.entry i) (choices.dev.entry j) = true → i = j) ∧ choices.dev.editionsOk ∧
      choices.dev.choosePath 0 .blockT0 36 38 = some [3] := by
  unfold Device.editionsOk; decide +kernel
theorem test_meets_PlanOrdered : choices.dev.editionsOk ∧ (choices.dev.computePlan 0).2.2 = [.send .blockT0 3 3 1] := by
  unfold Device.editionsOk; decide +kernel
/-- R63: the SENDs of a chain's entries in order, their links numbered from 1. -/
theorem test_jobs_of_chain : (choices.dev.sendJobs .blockT0 [1, 2] 1).map Job.send? =
    [some (.blockT0, 1, (choices.dev.entry 1).generation), some (.blockT0, 2, (choices.dev.entry 2).generation)] := by decide +kernel
theorem test_meets_StatusesInOrder :
    running.dev.tgt.block = 0 ∧ choices.dev.tgt.block ≠ 0 ∧
      ((choices.dev.computeReach 0).2 = .unknown ∧ Stream.tier? .blockT1 = some 1 ∧ (choices.dev.computeReach 0).1 ≤ 1) ∧
      ((having choices 0 { joined with blockCapacity := 99 }).dev.computeReach 0 = (0, .over) ∧ Stream.tier? .blockT0 = some 0) ∧
      (having (holding choices 4 (tierEntry 1 .whole 0 38 901)) 0 joined).dev.computeReach 0 = (1, .over) ∧
      ((∀ k, Stream.tier? .blockT0 = some k → k < (choices.dev.computeReach 0).1) ∧
        ((choices.dev.record 0).cell .blockT0).held ≠ 38 ∧ ((choices.dev.record 0).cell .blockT0).hold = false ∧
        ((choices.dev.record 0).cell .blockT0).room = false) := by
  refine ⟨by decide +kernel, by decide +kernel, by decide +kernel, by decide +kernel, by decide +kernel, ?_, by decide +kernel⟩
  intro k h; cases h; decide +kernel
theorem test_meets_RequestReadAsLaidOut :
    (∀ k, Request.post postFields = .unknown k → k.toNat = 0 ∨ 8 < k.toNat) ∧
      (Ram.cells 0x40 (Request.layout (.post postFields) 0xFFFF)).octets 0x40 64 = Request.layout (.post postFields) 0xFFFF ∧
      (Ram.cells 0x40 (Request.layout (.unknown 9) 0)).octets 0x40 64 = Request.layout (.unknown 9) 0 ∧
      (Ram.cells 0x40 (Request.layout (.unknown 0) 5)).octets 0x40 64 = Request.layout (.unknown 0) 5 :=
  ⟨nofun, by decide +kernel, by decide +kernel, by decide +kernel⟩
theorem test_meets_AreaFollowsChanges :
    running.settled ∧ Instr.cancel = Instr.cancel.operation ∧ (∀ host, Instr.cancel ≠ .starting host ∧ Instr.cancel ≠ .sweep host) ∧
      (∀ low, Instr.cancel ≠ .cycleEnd low) ∧ (∀ v, Instr.cancel ≠ .xclockWrite v) ∧ Instr.cancel.isReset = false ∧
      ((running.dev.transfers 0).records = [] ∧ running.dev.lnc.pendingConfig = none ∧ running.dev.tgt.heldFare = none ∧
        running.dev.lnc.exchange = none ∧ running.dev.openRecords 0 = 0) ∧ (∀ reply : Reply, Instr.cancel ≠ reply.command) ∧
      (∀ slot ref q, Instr.cancel ≠ Request.command slot ref q) ∧ (∀ kind text, Instr.cancel ≠ .notice kind text) :=
  ⟨by decide +kernel, rfl, fun _ => ⟨nofun, nofun⟩, nofun, nofun, rfl, by decide +kernel,
    fun r => by cases r <;> simp [Reply.command], fun _ _ q => by cases q <;> simp [Request.command], nofun⟩
theorem test_meets_RegistersWrittenAndRead : (device .off).dev.port.device = .off ∧ (device .halted).dev.port.device = .halted ∧
    running.dev.port.device ≠ .off := by decide +kernel

/-- In the transfer phase with a sweep in progress. -/
def sweeping : State := { running with dev.port.sweepInProgress := true }

theorem test_meets_RunAndSweepsFollowed :
    (device .off).safe ∧ (device .halted).safe ∧ running.safe ∧ (waiting running .poll 0).safe ∧ (device .stopping).safe ∧
      (device .stopping).dev.lnc.line = .idle ∧ (device .stopping).dev.vfy.queue = [] ∧ sweeping.safe ∧
      sweeping.dev.port.promptOwed = false ∧
      (sweeping.ram.hostWrites [(8, 1)]).field (sweeping.dev.areaBase + 12) 4 = sweeping.dev.port.seenCount.toNat := by
  and_intros <;> decide +kernel

/-- The broadcast in flight, its last frame being sent. -/
def broadcasting (left : Nat) : State :=
  let s := committing .owed 100
  { s with dev.lnc.exchange := some (exchangeTo none .commitAll 0 0 left false (leOctets 2 12)) }

theorem test_meets_LineEnableFollowed :
    State.reset.safe ∧ State.reset.dev.lnc.line = .idle ∧ running.safe ∧ running.dev.lnc.line ≠ .idle ∧
      running.dev.lnc.exchange = none ∧ (waiting (busy .sending 1 0 false) .cont 1).safe ∧ (broadcasting 2).safe ∧
      (broadcasting 2).dev.tgt.heldFare = none ∧ (device .running).safe ∧ (device .running).dev.lnc.line = .idle ∧
      (device .running).dev.lnc.pendingConfig = none ∧
      (having (device .running) 0 { joined with replyTime := .changedInCycle }).safe ∧ ∀ a, ¬((device .running).dev.record a).presence = .silent := by
  and_intros <;> decide +kernel

/-- A coordinator in a state, at a moment of the fleet clock, arming opening at 70 for 100. -/
def coordinating (x : CoordState) (now : Word32) : State :=
  let s := committing .notOwed now
  { s with dev.act.state := x }

theorem test_meets_ClockJudged :
    (∃ v, Instr.xclockWrite 70 = .xclockWrite v) ∧ (coordinating .loading 68).safe ∧
      answered .clockStep (coordinating .loading 68) (fun t => t.dev.fck.seconds.toNat < t.dev.act.opens) = true ∧
      answered .clockStep (coordinating .loading 69) (fun t => t.dev.act.opens == t.dev.fck.seconds.toNat) = true ∧
      (coordinating .arming 99).safe ∧ (coordinating .arming 99).awake ∧
      answered (.xclockWrite 69) (coordinating .arming 99) (fun t => t.dev.act.state == .loading) = true ∧
      (coordinating .idle 0).safe := by
  refine ⟨⟨_, rfl⟩, ?_⟩
  unfold State.awake; and_intros <;> decide +kernel
theorem test_meets_SweepTakesPendingSlots :
    sweeping.safe ∧ sweeping.dev.port.device = .running ∧ sweeping.dev.port.sweepInProgress = true ∧
      ({ sweeping with ram := sweeping.ram.hostWrites [(12, 1), (0x40, 1), (0x42, 9)] } : State).sweptSlots = [0] ∧
      (sweeping.ram.hostWrites [(12, 1), (0x40, 1), (0x42, 9)]).field (sweeping.dev.areaBase + 12) 4 ≠
        sweeping.dev.port.seenCount.toNat ∧
      (∀ a, (sweeping.ram.hostWrites [(12, 1), (0x40, 1), (0x42, 9)]).octet (sweeping.dev.areaBase + cellOffset a) = 1 →
        (sweeping.dev.record a).cellFilled = false) ∧
      ({ sweeping with dev.port.promptOwed := true } : State).safe := by and_intros <;> decide +kernel

/-- STARTING with a return owed of slot 31, in an epoch. -/
def restarting (epoch : Option Nat) : State :=
  let s := keeping (device .starting) 31
  { s with
    dev.port.returnsOwed := [{ slot := 31, status := .done, outcome := .done, detail := 0, kind := 2, ref := 9 }]
    dev.port.run := true, dev.htq.epoch := epoch }

theorem test_meets_StartingCarriedOut :
    (device .off).safe ∧ (restarting none).safe ∧ (restarting (some 7)).safe ∧
      Ram.field [] (restarting none).dev.areaBase 4 ≠ 0x47544C31 ∧
      (((restarting none).ram.hostWrites header).field 0 4 = 0x47544C31 ∧
        ((restarting none).ram.hostWrites header).field 4 2 = 1 ∧ ((restarting none).ram.hostWrites header).field 6 1 = 7) ∧
      ((restarting none).dev.port.returnsOwed.map (·.slot)).Nodup ∧ (restarting none).dev.port.held[(31 : Slot)] ≠ none ∧
      (restarting none).dev.port.lineEnable = false := by and_intros <;> decide +kernel
theorem test_meets_AreaFaultHalts :
    Instr.prompt = Instr.prompt.operation ∧ ((∃ host, Instr.starting [] = .starting host) ∧ (device .starting).safe) ∧
      ((∃ host, Instr.sweep [] = .sweep host) ∧ sweeping.safe) ∧ (device .stopping).safe ∧ running.safe ∧
      (∃ slot ref q, Instr.exclude 31 9 1 = Request.command slot ref q ∧ running.takes slot) ∧
      ({ holding running 5 (segment .verifying .whole 0 12) with dev.vfy := { queue := [5], inFlight := true } } : State).safe :=
  ⟨rfl, ⟨⟨_, rfl⟩, by decide +kernel⟩, ⟨⟨_, rfl⟩, by decide +kernel⟩, by decide +kernel, by decide +kernel,
    ⟨31, 9, .exclude 1, rfl, by unfold State.takes; decide +kernel⟩, by decide +kernel⟩

/-- RUNNING with no FREE entry. -/
def full : State := { running with dev.cat.entries := Vector.ofFn fun i => segment .ready .whole 0 (i.val + 20) }

theorem test_meets_PostDecided :
    (running.safe ∧ running.slotsOk ∧ running.takes 0 ∧ running.takes 31 ∧ running.identitiesOk) ∧
      (¬({ postFields with size := 4194305 } : PostFields).inRange ∧ ¬({ postFields with fragments := 65 } : PostFields).inRange ∧
        ¬({ postFields with stream := 5 } : PostFields).inRange ∧ ¬({ postFields with edition := 0 } : PostFields).inRange ∧
        ({ postFields with size := 4194304, fragments := 64, footprint := 16777215, edition := 65535 } : PostFields).inRange ∧
        postFields.inRange) ∧
      ((busy .sending 0 0 false).slotsOk ∧ ((busy .sending 0 0 false).dev.entry 5).hasIdentity postFields) ∧
      ((running.dev.entry 0).state = .free ∧ ∀ i, ¬(running.dev.entry i).hasIdentity postFields) ∧
      (full.safe ∧ full.slotsOk ∧ full.takes 0 ∧ full.identitiesOk ∧ (∀ i, (full.dev.entry i).state ≠ .free) ∧
        ∀ i, ¬(full.dev.entry i).hasIdentity postFields) := by
  unfold State.slotsOk State.takes State.identitiesOk PostFields.inRange Entry.hasIdentity; and_intros <;> decide +kernel

/-- RUNNING with an entry at index 5 and slot 31 held for it. -/
def slotted (e : Entry) : State := keeping (holding running 5 { e with pendingSlot := some 31 }) 31

theorem test_meets_WithdrawDecided :
    running.safe ∧ running.slotsOk ∧ running.takes 0 ∧
      (48 ≤ (48 : Octet).toNat ∧ (47 : Octet).toNat = (47 : CatIndex).val ∧ (running.dev.entry 47).state = .free) ∧
      (slotted (segment .retiring .whole 0 12)).slotsOk ∧ (slotted (segment .retiring .whole 0 12)).takes 0 ∧
      (slotted (segment .verifying .whole 0 12)).slotsOk ∧ (slotted (segment .verifying .whole 0 12)).safe ∧
      ((slotted (segment .verifying .whole 0 12)).dev.entry 5).generation = (3 : Octet).toNat ∧
      (holding running 5 (segment .ready .whole 0 12)).slotsOk ∧ (holding running 5 (segment .ready .whole 0 12)).awake ∧
      ((holding running 5 (segment .ready .whole 0 12)).dev.entry 5).inUse = 0 ∧
      (busy .sending 1 0 false).slotsOk ∧ (busy .sending 1 0 false).takes 0 ∧ ((busy .sending 1 0 false).dev.entry 5).inUse ≠ 0 ∧
      (∀ a, ((busy .sending 1 0 false).dev.transfers a).records.any (·.index == 5) = true →
        ((busy .sending 1 0 false).dev.record a).presence = .present) := by
  unfold State.slotsOk State.takes State.awake
  and_intros <;> decide +kernel

/-- A TARGET for BLOCK. -/
def blockTarget (edition : Half) : TargetFields :=
  { stream := 0, timed := false, edition, activation := 0, lead := 0, hold := 0 }

/-- A TARGET for FARE edition 12, timed. -/
def fareTarget (lead hold : Half) : TargetFields :=
  { stream := 1, timed := true, edition := 12, activation := 100, lead, hold }

theorem test_meets_BlockTargetSet :
    choices.safe ∧ choices.slotsOk ∧ choices.takes 31 ∧ choices.awake ∧ ¬({ blockTarget 1 with stream := 2 } : TargetFields).inRange ∧
      ¬({ blockTarget 1 with timed := true } : TargetFields).inRange ∧ (blockTarget 38).edition.toNat = choices.dev.tgt.block ∧
      (blockTarget 65535).edition.toNat ≠ choices.dev.tgt.block := by
  unfold State.slotsOk State.takes State.awake TargetFields.inRange
  and_intros <;> decide +kernel
/-- The line QUIET, the coordinator ARMING at 80, address 1 owed an ARM of edition 12. -/
def rearming : State :=
  let s := standingAt (having (coordinating .arming 80) 0 { joined with pendingFare := 12 }) 0
    { standing := .unarmed, disarmOwed := false, armRefused := false, attempts := 0 }
  { s with dev.lnc.line := .quiet }

theorem test_meets_FareTargetSet :
    running.safe ∧ running.slotsOk ∧ running.takes 0 ∧ running.awake ∧
      ((fareTarget 3600 600).inRange ∧ (fareTarget 0xFFFF 0xFFFF).inRange ∧ ¬(fareTarget 3601 0).inRange ∧ ¬(fareTarget 0 601).inRange) ∧
      (fareTarget 30 60).fareTarget ≠ running.dev.tgt.fare ∧
      ((coordinating .settled 100).slotsOk ∧ (coordinating .settled 100).takes 0 ∧
        (fareTarget 30 60).fareTarget = (coordinating .settled 100).dev.tgt.fare) ∧
      ((committing .owed 100).safe ∧ (committing .owed 100).slotsOk ∧ (committing .owed 100).takes 0 ∧
        (committing .owed 100).dev.act.state = .committing) ∧
      (¬running.dev.fck.reached 70 ∧ (coordinating .settled 70).dev.fck.reached 70) ∧
      (rearming.safe ∧ rearming.slotsOk ∧ rearming.takes 0 ∧ rearming.dev.lnc.line = .quiet ∧
        (fareTarget 30 61).fareTarget ≠ rearming.dev.tgt.fare ∧ (rearming.dev.record 0).presence = .present ∧
        (rearming.dev.record 0).pendingFare = (fareTarget 30 61).edition.toNat ∧ (rearming.dev.record 0).armedEdition = 0) := by
  unfold State.slotsOk State.takes State.awake TargetFields.inRange FleetClock.reached
  and_intros <;> decide +kernel
/-- R120, R165, R166: the new activation of the same edition comes to owe the ARM that the one before owed, and QUIET is left. -/
theorem test_restart_leaves_quiet : rearming.dev.actOwed 0 = some .arm ∧
    answered (.target 0 9 (fareTarget 30 61)) rearming
      (fun t => t.dev.act.state == .arming && t.dev.actOwed 0 == some .arm && t.dev.lnc.line == .cycle) = true := by
  decide +kernel

/-- A hot entry to add. -/
def hotFields (edition : Half) : HotFields := { card := 5, action := 1, tier := 3, edition }

/-- RUNNING with a full hot queue from a first sequence, under a BLOCK target. -/
def hotFull (first target : Nat) : State :=
  { running with dev := { running.dev with
      htq.queue := (List.range 64).map fun k => { sequence := first + k, card := 5, action := .block, tier := 0, edition := k + 1 }
      htq.nextSequence := first + 64, htq.newest := first + 63, tgt.block := target } }

theorem test_meets_HotEntriesAdded :
    running.safe ∧ running.slotsOk ∧ running.takes 0 ∧ running.awake ∧
      ((hotFields 1).inRange ∧ (hotFields 0xFFFF).inRange ∧ ¬(hotFields 0).inRange ∧
        ¬({ hotFields 1 with tier := 4 } : HotFields).inRange ∧ ¬({ hotFields 1 with action := 3 } : HotFields).inRange) ∧
      ((hotFull 1 2).safe ∧ (hotFull 1 2).slotsOk ∧ (hotFull 1 2).takes 0 ∧
        ((hotFull 1 2).dev.htq.queue.filter fun e => e.edition ≤ 2).length = 2 ∧ (hotFull 1 2).dev.htq.queue.length = 64) ∧
      (hotFull 1 0).safe ∧ seqDistance 1 (seqAdd (hotFull 1 2).dev.htq.nextSequence 2) ≤ 32767 := by
  unfold State.slotsOk State.takes State.awake HotFields.inRange
  and_intros <;> decide +kernel
/-- R152, R160: full, it evicts the oldest of the entries absorbed and no other, and the head that a validator counted still needs
stays. -/
theorem test_evicts_oldest : answered (.hotAdd 0 9 1 (hotFields 1) (hotFields 1) (hotFields 1)) (having (hotFull 1 64) 0 joined)
    (fun t => (t.dev.htq.queue.map (·.sequence)) == (List.range 64).map (· + 2) && t.dev.htq.evicted == 1) = true := by
  decide +kernel
theorem test_meets_EnrolDecided :
    running.safe ∧ running.slotsOk ∧ running.takes 0 ∧ addressIs 1 0 ∧ addressIs 12 11 ∧ 12 < (13 : Octet).toNat ∧
      4 < (5 : Octet).toNat ∧ (running.dev.record 11).presence = .unused ∧
      ((having running 0 joined).safe ∧ (having running 0 joined).slotsOk ∧ (having running 0 joined).takes 0 ∧
        ((having running 0 joined).dev.record 0).presence ≠ .unused ∧ (having running 0 joined).dev.act.state ≠ .committing) ∧
      ((waiting (having running 0 joined) .poll 0).safe ∧ (waiting (having running 0 joined) .poll 0).slotsOk ∧
        (waiting (having running 0 joined) .poll 0).awake ∧
        (waiting (having running 0 joined) .poll 0).dev.lnc.exchange.map (·.dest) = some (some 0)) := by
  unfold State.slotsOk State.takes State.awake addressIs
  and_intros <;> decide +kernel
theorem test_meets_ExcludeAndReadmitDecided :
    running.safe ∧ running.slotsOk ∧ running.takes 0 ∧ (running.dev.record 0).presence = .unused ∧
      ∀ p ∈ [Presence.excluded, .clash, .absent, .present, .silent],
        (having running 0 { joined with presence := p }).safe ∧ (having running 0 { joined with presence := p }).takes 0 ∧
          (having running 0 { joined with presence := p }).slotsOk ∧ (having running 0 { joined with presence := p }).awake ∧
          ((having running 0 { joined with presence := p }).dev.record 0).presence = p := by
  unfold State.slotsOk State.takes State.awake
  refine ⟨by decide +kernel, by decide +kernel, by decide +kernel, by decide +kernel, ?_⟩
  simp only [List.forall_mem_cons, List.not_mem_nil, false_implies, implies_true, and_true]
  and_intros <;> decide +kernel
/-- The same with an exchange in flight to the address that READMIT brings back. -/
theorem test_meets_ExcludeAndReadmitDecided_in_flight :
    ∀ p ∈ [Presence.excluded, .clash],
      (waiting (having running 0 { joined with presence := p }) .poll 0).safe ∧
        (waiting (having running 0 { joined with presence := p }) .poll 0).takes 0 ∧
        (waiting (having running 0 { joined with presence := p }) .poll 0).dev.lnc.exchange = some (asked .poll 0) ∧
        running.dev.act.state ≠ .committing := by
  unfold State.takes
  simp only [List.forall_mem_cons, List.not_mem_nil, false_implies, implies_true, and_true]
  and_intros <;> decide +kernel

/-- RUNNING, the line in a state. -/
def onLine (x : LineState) : State := { running with dev.lnc.line := x }

theorem test_meets_LineSetAndUnknownKinds :
    running.safe ∧ running.slotsOk ∧ running.takes 31 ∧ running.awake ∧ (onLine .quiet).safe ∧ (onLine .quiet).slotsOk ∧
      (onLine .quiet).takes 31 ∧ (onLine (.recoverQuiet false)).safe ∧ (onLine (.recoverQuiet false)).slotsOk ∧
      (onLine (.recoverQuiet false)).takes 0 ∧ State.reset.safe ∧ State.reset.slotsOk ∧ ¬State.reset.takes 0 ∧
      ¬(slotted (segment .verifying .whole 0 12)).takes 31 := by
  unfold State.slotsOk State.takes State.awake
  and_intros <;> decide +kernel

/-- The record of a RETIRING entry open, its WITHDRAW's slot held. -/
def retiring : State :=
  let s := keeping (busy .sending 1 0 true) 31
  holding { s with dev := s.dev.setPlan 0 [] } 5 { segment .retiring .whole 0 12 with inUse := 1, pendingSlot := some 31 }

theorem test_meets_CancelCarriedOut :
    State.reset.safe ∧ running.safe ∧ (onLine .quiet).safe ∧ (onLine .recoverCycle).safe ∧ (onLine (.recoverQuiet true)).safe ∧
      ({ onLine .cycle with dev.port.device := .stopping } : State).safe ∧ retiring.safe ∧ retiring.dev.transfersOk ∧
      retiring.dev.usageOk ∧ (retiring.dev.entry 5).state = .retiring ∧ (retiring.dev.entry 5).inUse ≠ 0 ∧
      retiring.dev.port.held[(31 : Slot)] ≠ none ∧
      ({ retiring with dev.port.device := .off, dev.lnc := .reset } : State).safe := by
  unfold Device.transfersOk Device.usageOk
  and_intros <;> decide +kernel

/-- The segment's verification under way, with segment RAM. -/
def verifying (e : Entry) (m : Ram) : State :=
  { slotted e with ram := m, dev.vfy := { queue := [5], inFlight := true } }

theorem test_meets_VerificationSettled :
    running.safe ∧ running.dev.vfy.inFlight = false ∧ (verifying (segment .verifying .whole 0 12) segmentRam).safe ∧
      (verifying (segment .verifying .whole 0 12) segmentRam).slotsOk ∧
      verify segmentRam [] 0 (segment .verifying .whole 0 12) = .matched ∧
      verify [] [] 0 (segment .verifying .whole 0 12) = .gatherBreak ∧
      verify segmentRam [⟨0x20010, 0x20010⟩] 0 (segment .verifying .whole 0 12) = .busError ∧
      verify segmentRam [] 0 { segment .verifying .whole 0 12 with check := 1 } = .mismatch ∧
      (verifying { segment .reverifying .whole 0 12 with rejecters := AddrSet.insert .empty 0 } segmentRam).safe ∧
      (verifying { segment .reverifying .whole 0 12 with inUse := 1 } []).safe ∧ running.awake := by
  unfold State.slotsOk State.awake
  and_intros <;> decide +kernel
/-- The segment's reverification under way for address 1, which has rejected FARE three times. -/
def rejected : State :=
  having (verifying { segment .reverifying .whole 0 12 with rejecters := AddrSet.insert .empty 0 } segmentRam) 0
    (joined.setCell .fare { joined.cell .fare with rejects := 3 })

/-- R18, R57: a match reports the rejecter of three rejects confirmed, whose hold is set, empties the set, and the entry is READY. -/
theorem test_reverified : answered (.verificationEnd []) rejected
    (fun t => (t.dev.entry 5).state == .ready && !(t.dev.entry 5).rejecters.has 0 &&
      ((t.dev.record 0).cell .fare).hold) = true := by decide +kernel
theorem test_meets_LineTimersFollowed :
    ((having running 0 { joined with presence := .silent, silenceTimer := some 10000000 }).dev.record 0).silenceOut 10 ∧
      ¬((having running 0 { joined with presence := .silent, silenceTimer := some 9999999 }).dev.record 0).silenceOut 10 ∧
      State.reset.safe ∧ (inPhase .rollCall).safe ∧ (running.safe ∧ running.dev.lnc.phase ≠ .rollCall ∧ running.dev.lnc.exchange = none) ∧
      (having running 0 { joined with replyTime := .changedInCycle }).safe ∧
      (having running 0 { joined with replyTime := .changedBefore }).safe ∧
      ({ running with dev.lnc.cycleTimer := 100000 } : State).safe ∧ running.dev.lnc.config.cycleLength * 1000 = 100000 ∧
      ({ running with dev.lnc.idleCount := 3 } : State).safe ∧ (onLine .quiet).safe ∧ (onLine (.recoverQuiet true)).safe ∧
      (onLine (.recoverQuiet false)).safe ∧ (onLine .recoverCycle).safe ∧ running.awake ∧
      (having running 0 { joined with presence := .silent, silenceTimer := some 10000000 }).safe ∧
      (having running 11 { joined with presence := .silent }).safe ∧
      ((having running 11 { joined with presence := .silent }).dev.record 11).presence = .silent ∧ 12 = (11 : Addr).val + 1 := by
  unfold State.awake
  refine ⟨⟨by decide +kernel, _, rfl, by decide⟩, ?_, ?_⟩
  · rintro ⟨-, n, h, k⟩; cases h; exact absurd k (by decide)
  · and_intros <;> decide +kernel

/-- In the transfer phase, address 12 owed a HOT of n entries. -/
def hotOwing (n : Nat) : State :=
  { having running 11 joined with
    dev.htq.queue := (List.range n).map fun k => { sequence := k + 1, card := 5, action := .block, tier := 0, edition := 1 } }

/-- In the transfer phase at a time of the cycle. -/
def atTime (s : State) (t : Nat) : State := { s with dev.lnc.cycleTimer := t }

/-- A standing record. -/
def standing (x : Standing) (disarmOwed : Bool) : StandingRecord :=
  { standing := x, disarmOwed, armRefused := false, attempts := 0 }

/-- SETTLED after the broadcast, address 1 CONFIRMED, its POLL answered. -/
def confirmed : State :=
  let s := waiting (standingAt (having (committing .made 100) 0 { joined with activeFare := 12 }) 0 (standing .confirmed false)) .poll 0
  { s with dev.act.state := .settled }

/-- In the transfer phase, address 1 joined and owed an exchange of ACT by a standing. -/
def actOwing (x : CoordState) (r : StandingRecord) : State := 
  standingAt (having (coordinating x 100) 0 { joined with pendingFare := 12 }) 0 r

/-- COMMITTING after the broadcast, address 1 LATE, its COMMIT awaiting the reply, a FARE target held or none. -/
def lateCommitting (held : Option FareTarget) : State :=
  let s := waiting (standingAt (having (committing .made 100) 0 { joined with pendingFare := 12 }) 0 (standing .late false)) .commit 0
  { s with dev.tgt.heldFare := held }

/-- R28, R172, R173: the last address CONFIRMED, the coordinator is SETTLED; a held target equal to the target is discarded, and
another one starts the coordinator over. -/
theorem test_settles_with_last_address :
    answered (.ack 12) (lateCommitting none) (fun t => t.dev.act.state == .settled && t.dev.port.causes.getLsbD 4) = true ∧
      answered (.ack 12) (lateCommitting (some (committing .made 100).dev.tgt.fare))
        (fun t => t.dev.act.state == .settled && t.dev.tgt.heldFare == none) = true ∧
      answered (.ack 12) (lateCommitting (some { edition := 13, timing := none }))
        (fun t => t.dev.act.state == .idle && t.dev.act.edition == 13 && t.dev.tgt.fare.edition == 13) = true := by
  decide +kernel
theorem test_meets_GrantOrderKept :
    (committing .owed 100).safe ∧ (committing .owed 100).dev.fck.reached 100 ∧ (atTime running 99280).dev.lnc.holds 36 ∧
      ¬(atTime running 99281).dev.lnc.holds 36 ∧
      ((hotOwing 2).safe ∧ ((hotOwing 2).dev.record 11).statusOwed = false ∧ (hotOwing 2).dev.hotOwed 11 = true ∧
        (∀ b, b ≠ 11 → (hotOwing 2).dev.hotOwed b = false)) ∧
      ((actOwing .idle (standing .unarmed true)).dev.actOwed 0 = some .disarm ∧ (actOwing .idle (standing .unarmed true)).safe) ∧
      ((actOwing .arming (standing .unarmed false)).dev.actOwed 0 = some .arm ∧ (actOwing .arming (standing .unarmed false)).safe) ∧
      ({ actOwing .settled (standing .unconfirmed false) with dev.act.broadcast := .made } : State).dev.actOwed 0 = some .confirmPoll ∧
      ({ actOwing .settled (standing .late false) with dev.act.broadcast := .made } : State).dev.actOwed 0 = some .commit ∧
      ((having running 0 { joined with noticePending := true }).safe ∧
        (having running 0 { joined with noticePending := true }).dev.collectOwed 0 = true) ∧
      (running.safe ∧ running.dev.fck.valid = false ∧ ∀ b, running.dev.offer b = none) := by
  unfold FleetClock.reached LineController.holds
  and_intros <;> decide +kernel
/-- The segment's record active, unless it is stacked, with BLOCK-T0 at index 6 at the head of the plan. -/
def headed (t : Transfers) : State :=
  let s := sending (busy .sending 1 0 false) 0 t
  { s with dev := s.dev.setPlan 0 [.send .blockT0 6 1 1, .send .fare 5 3 1] }

/-- A record of the head's entry. -/
def open6 : TransferRecord := { open5 .sending 1 0 false with tag := 0, index := 6, generation := 1, stream := .blockT0 }

/-- R129: the head of higher priority preempts with a new record under the lowest free tag; with its record in the stack, that record
changes places; with none active, it is taken out of the stack or created; the stack full, the active record goes on. -/
theorem test_offers_by_preemption :
    let fare := open5 .sending 1 0 false
    let made : TransferRecord := { open6 with tag := 0, size := ((headed (only fare)).dev.entry 6).size, sent := 0, phase := .opening }
    (headed (only fare)).dev.offer 0 = some (.next { active := some made, stack := [fare], abandonAll := false } true made) ∧
      (headed { only fare with stack := [open6] }).dev.offer 0 =
        some (.next { active := some open6, stack := [fare], abandonAll := false } false open6) ∧
      (headed { active := none, stack := [fare, open6], abandonAll := false }).dev.offer 0 =
        some (.next { active := some open6, stack := [fare], abandonAll := false } false open6) ∧
      (headed { active := none, stack := [], abandonAll := false }).dev.offer 0 =
        some (.next (only made) true made) ∧
      (headed { only fare with stack := [{ fare with tag := 2, stream := .blockT1 }] }).dev.offer 0 =
        some (.next { only fare with stack := [{ fare with tag := 2, stream := .blockT1 }] } false fare) := by decide +kernel
theorem test_meets_TurnsGranted :
    (∀ b, running.dev.lnc.heldOver.has b = false → (busy .sending 1 0 false).dev.hotOwed b = false ∧
      (busy .sending 1 0 false).dev.actOwed b = none ∧ (busy .sending 1 0 false).dev.collectOwed b = false) ∧
      (busy .sending 1 0 false).safe ∧ ((busy .sending 1 0 false).dev.offer 0).isSome = true ∧
      (∀ b, b ≠ 0 → ((busy .sending 1 0 false).dev.record b).presence ≠ .present) ∧
      ({ busy .sending 1 0 false with dev.lnc.turn := some (0, 1) } : State).safe ∧
      ((busy .sending 1 0 true).safe ∧ ((busy .sending 1 0 true).dev.transfers 0).records.find? (·.marked) ≠ none) ∧
      (sending (busy .sending 1 0 false) 0 { active := none, stack := [], abandonAll := true }).safe ∧
      (firstDrop [.drop .blockT3] = some .blockT3) ∧ (busy .opening 0 0 false).safe ∧ (busy .sealing 3 3 false).safe ∧
      (busy .storing 3 3 false).safe ∧
      ((atTime (busy .sending 1 0 false) 99280).dev.lnc.holds (burstEstimate 2 64 1) ∧
        ¬(atTime (busy .sending 1 0 false) 99481).dev.lnc.holds (burstEstimate 2 64 1)) ∧
      (fetchPayload segmentRam [] 0 (segment .ready .whole 0 12) 1 2).toOption = some [2, 3] ∧
      (fetchPayload [] [] 0 (segment .ready .whole 0 12) 1 2).toOption = none := by
  unfold LineController.holds
  and_intros <;> decide +kernel

/-- A frame to address 1 being sent. -/
def frameGoing (s : State) (kind : ExchangeKind) (tag left : Nat) : State :=
  { s with dev.lnc.exchange := some (exchangeTo (some 0) kind tag 0 left true []) }

theorem test_meets_PollsAndFramesFollowed :
    (inPhase .rollCall).safe ∧ (∀ a, ((inPhase .rollCall).dev.record a).presence = .unused) ∧
      (having (inPhase .rollCall) 11 { joined with presence := .absent }).safe ∧
      (having (inPhase .rollCall) 11 { joined with presence := .absent }).dev.lnc.probeCount = 0 ∧
      (waiting running .poll 0).safe ∧ (broadcasting 2).safe ∧ (broadcasting 0).safe ∧ (broadcasting 0).awake ∧
      (broadcasting 0).dev.lnc.deferral = none ∧ (frameGoing (busy .sending 1 0 false) .poll 0 0).safe ∧
      (frameGoing (busy .sending 1 0 false) .cont 1 3).safe ∧
      (((busy .sending 1 0 false).dev.transfers 0).byTag 1).isSome = true := by
  unfold State.awake
  and_intros <;> decide +kernel
theorem test_meets_MissesCounted :
    running.safe ∧ running.dev.lnc.exchange = none ∧ (waiting (having running 0 joined) .poll 0).safe ∧
      (waiting (having running 0 joined) .poll 0).awaits 0 { exchangeTo (some 0) .poll 0 0 0 true [] with phase := .awaiting } ∧
      replyValid .poll (.ack 0) = false ∧ (judgeReply (some 0) .poll 0 (0xA5 :: List.replicate 9 0)).toOption = none ∧
      (∀ o ∈ [(0 : Octet), 0x5A], o ≠ 0xA5) ∧ (replyFrame 1 1 (.ack 7)).head? = some 0xA5 ∧
      (judgeReply (some 0) .cont 1 (replyFrame 1 1 (.ack 7))).toOption = some (.ack 7) ∧
      (waiting (having running 0 { joined with presence := .excluded }) .poll 0).safe ∧
      (waiting (having running 0 { joined with misses := 1 }) .poll 0).safe ∧
      (waiting (having running 0 { joined with misses := 2 }) .poll 0).safe ∧
      (waiting (having running 0 { joined with misses := 2, silenceTimer := some 10000000 }) .poll 0).safe ∧
      (waiting (actOwing .settled (standing .late false)) .commit 0).safe ∧
      ((lateCommitting none).safe ∧ (lateCommitting none).awaits 0 (asked .commit 0) ∧ (lateCommitting none).dev.tgt.heldFare = none ∧
        ((lateCommitting none).dev.standing 0).standing = .late ∧ (lateCommitting none).dev.act.broadcast = .made) := by
  unfold State.awaits
  and_intros <;> decide +kernel
theorem test_meets_ContentionCounted :
    running.safe ∧ (broadcasting 2).safe ∧ (broadcasting 2).dev.lnc.deferral = none ∧ (broadcasting 2).dev.tgt.heldFare = none ∧
      (frameGoing (having running 0 joined) .poll 0 0).safe ∧ (frameGoing (having running 0 joined) .poll 0 0).dev.lnc.deferral = none ∧
      (frameGoing (having running 0 { joined with contentions := 1 }) .poll 0 0).safe ∧
      (frameGoing (having running 0 { joined with contentions := 2 }) .poll 0 0).safe ∧
      (frameGoing (having running 0 { joined with presence := .silent }) .poll 0 0).safe := by
  and_intros <;> decide +kernel

theorem test_meets_StatusApplied :
    ((arriving (having running 0 joined) .poll 0).safe ∧ (arriving (having running 0 joined) .poll 0).awaits 0 (heard .poll 0)) ∧
    (waiting (having running 0 joined) .poll 0).safe ∧ (waiting (having running 0 joined) .poll 0).awaits 0 (asked .poll 0) ∧
      (32 ≤ (32 : Half).toNat ∧ ¬32 ≤ (31 : Half).toNat ∧ (1024 : Half).toNat ≤ 1024 ∧ ¬(1025 : Half).toNat ≤ 1024) ∧
      (statusFields.openSlots.toNat ≤ 4 ∧ statusFields.serial.toNat = ((having running 0 joined).dev.record 0).serial) ∧
      (waiting (having running 0 { joined with presence := .silent }) .poll 0).safe ∧
      (waiting (having running 0 { joined with presence := .absent, serial := 8 }) .poll 0).safe ∧
      (waiting (actOwing .settled (standing .unconfirmed false)) .poll 0).safe ∧
      (confirmed.safe ∧ confirmed.awaits 0 (asked .poll 0) ∧ confirmed.dev.act.broadcast = .made ∧
        confirmed.dev.tgt.heldFare = none) ∧
      (waiting (actOwing .arming (standing .armed false)) .poll 0).safe ∧
      (waiting (actOwing .idle (standing .unarmed false)) .poll 0).safe ∧
      (waiting (actOwing .loading (standing .unarmed false)) .poll 0).safe ∧
      ({ confirmed with dev.act.standings := confirmed.dev.act.standings.set 0 (standing .lagging false) } : State).safe ∧
      (confirmed.dev.act.state = .settled ∧ (actOwing .idle (standing .unarmed false)).dev.act.edition = 12) := by
  unfold State.awaits
  and_intros <;> decide +kernel
/-- R168, R169, R172: in IDLE a report of the untimed target's edition pending makes an address LATE, clears arm refused, and, armed,
has a disarm owed. -/
theorem test_status_of_untimed_target : answered (.status { statusFields with activeFare := 11, pendingFare := 12, armed := true })
    (waiting (actOwing .idle { standing := .unarmed, disarmOwed := false, armRefused := true, attempts := 0 }) .poll 0)
    (fun t => t.dev.standing 0 == standing .late true) = true := by decide +kernel
/-- R171, R175, R177: at a unit change a CONFIRMED address becomes UNCONFIRMED and is judged CONFIRMED by the report of the same
STATUS, and the coordinator mirror is rewritten. -/
theorem test_unit_change_rewrites_coordinator : answered (.status { statusFields with serial := 8 }) confirmed
    (fun t => (t.dev.standing 0).standing == .confirmed && t.dev.port.coordCount == 1) = true := by decide +kernel
theorem test_meets_NoticeTaken :
    ((arriving (having running 0 joined) .collect 0).safe ∧
        (arriving (having running 0 joined) .collect 0).awaits 0 (heard .collect 0)) ∧
    (waiting (having running 0 joined) .collect 0).safe ∧ (waiting (having running 0 joined) .collect 0).awaits 0 (asked .collect 0) ∧
      (asked .collect 0).kind = .collect ∧ (List.replicate 48 (0x41 : Octet)).length ≤ 48 := by
  unfold State.awaits
  and_intros <;> decide +kernel
theorem test_meets_AckApplied :
    ((arriving (busy .sending 3 0 false) .cont 1).safe ∧ (arriving (busy .sending 3 0 false) .cont 1).awaits 0 (heard .cont 1)) ∧
    (∀ k ∈ [ExchangeKind.openSegment, .cont, .abandon, .abandonAll, .drop .blockT3, .hot 65534 1 true, .arm, .disarm, .commit],
      (waiting (busy .sending 3 0 false) k 1).awaits 0 (asked k 1)) ∧
      (waiting (busy .sending 3 0 false) .cont 1).safe ∧ ((waiting (busy .sending 3 0 false) .cont 1).dev.record 0).presence = .present ∧
      (((busy .sending 3 0 false).dev.transfers 0).byTag 1 = some (open5 .sending 3 0 false) ∧
        ((busy .sending 3 0 false).dev.transfers 0).byTag 2 = none) ∧
      ((3 : BitVec 24).toNat ≤ (open5 .sending 3 0 false).sent ∧ (open5 .sending 3 0 false).sent < (4 : BitVec 24).toNat) ∧
      (seqDistance 65534 1 ≤ seqDistance 65534 1 ∧ ¬seqDistance 65534 2 ≤ seqDistance 65534 1) ∧
      (waiting (actOwing .arming (standing .unarmed false)) .arm 0).safe ∧
      ((waiting (actOwing .committing (standing .unarmed false)) .arm 0).safe ∧
        (actOwing .committing (standing .unarmed false)).dev.act.broadcast ≠ .made) ∧
      (waiting (actOwing .settled (standing .late false)) .commit 0).safe ∧
      ((lateCommitting none).safe ∧ (lateCommitting none).awaits 0 (asked .commit 0) ∧ (lateCommitting none).dev.act.state = .committing ∧
        ((lateCommitting none).dev.standing 0).standing = .late) ∧
      ((lateCommitting (some { edition := 13, timing := none })).safe ∧ (12 : BitVec 24).toNat = (lateCommitting none).dev.act.edition ∧
        ∀ b, b ≠ 0 → ((lateCommitting none).dev.record b).presence = .unused) ∧
      ((waiting retiring .abandon 1).safe ∧ (retiring.dev.transfers 0).byTag 1 = some (open5 .sending 1 0 true) ∧
        (retiring.dev.entry 5).inUse ≤ 1) := by
  unfold State.awaits
  simp only [List.forall_mem_cons, List.not_mem_nil, false_implies, implies_true, and_true]
  and_intros <;> decide +kernel
/-- R15: the ABANDON of the last record of a RETIRING entry frees the entry and returns its WITHDRAW DONE. -/
theorem test_last_abandon_frees : answered (.ack 0) (waiting retiring .abandon 1)
    (fun t => (t.dev.entry 5).state == .free && t.dev.port.held[(31 : Slot)] == none && t.dev.port.deviceCount == 1) = true := by
  decide +kernel
theorem test_meets_NakApplied :
    ((arriving (busy .sending 3 0 false) .seal 1).safe ∧ (arriving (busy .sending 3 0 false) .seal 1).awaits 0 (heard .seal 1)) ∧
    (∀ k ∈ [ExchangeKind.openSegment, .cont, .seal, .abandon, .abandonAll, .drop .blockT3, .hot 65534 1 true, .arm, .disarm, .commit,
        .poll, .collect], (waiting (busy .sending 3 0 false) k 1).awaits 0 (asked k 1)) ∧
      (waiting (busy .sending 3 0 false) .cont 1).safe ∧
      (((List.range 9).map NakCause.ofCode?) =
        [none, some .check, some .order, some .kind, some .tag, some .length, some .room, some .slot, some .busy]) ∧
      (NakCause.order ∈ ExchangeKind.nakCauses .cont ∧ NakCause.tag ∈ ExchangeKind.nakCauses .abandonAll ∧
        NakCause.room ∈ ExchangeKind.nakCauses (.hot 65534 1 true) ∧ NakCause.busy ∈ ExchangeKind.nakCauses .seal ∧
        NakCause.slot ∈ ExchangeKind.nakCauses .openSegment ∧ NakCause.check ∈ ExchangeKind.nakCauses .disarm) ∧
      ((joined.countedAt 0).misses < LineConfig.default.retryLimit) ∧
      (waiting (actOwing .settled (standing .late false)) .commit 0).safe ∧ (lateCommitting none).safe := by
  unfold State.awaits
  simp only [List.forall_mem_cons, List.not_mem_nil, false_implies, implies_true, and_true]
  and_intros <;> decide +kernel
/-- R17, R57, R61: a reject counted on a RETIRING entry and taken back at once rewrites the roster mirror. -/
theorem test_reject_on_retiring_rewrites : answered (.verdict 3 1 0) (waiting retiring .seal 1)
    (fun t => ((t.dev.record 0).cell .fare).rejects == 0 && t.dev.port.rosCounts[0] == 1) = true := by decide +kernel
theorem test_meets_VerdictApplied :
    ((arriving (busy .sealing 3 3 false) .seal 1).safe ∧ (arriving (busy .sealing 3 3 false) .seal 1).awaits 0 (heard .seal 1)) ∧
    (waiting (busy .sealing 3 3 false) .seal 1).safe ∧ (waiting (busy .sealing 3 3 false) .seal 1).awaits 0 (asked .seal 1) ∧
      (1 ≤ (1 : Octet).toNat ∧ (5 : Octet).toNat ≤ 5) ∧ ((busy .sealing 3 3 false).dev.record 0).presence = .present ∧
      ((busy .sealing 3 3 false).dev.transfers 0).byTag 1 = some (open5 .sealing 3 3 false) ∧
      (1 : Octet).toNat = (open5 .sealing 3 3 false).stream.code.val ∧
      (waiting (holding (busy .sealing 3 3 false) 5 { segment .reverifying .whole 0 12 with inUse := 1 }) .seal 1).safe ∧
      (waiting retiring .seal 1).safe := by
  unfold State.awaits
  and_intros <;> decide +kernel

end Sys2Proof.Tests
end

