-- ==== Sys2Proof/Proofs/Reset.lean ====
section
/-! The state that the two kinds of reset leave (R21, R38, R62, R84, R107, R125, R148, R163, R179, R189, R197). -/

namespace Sys2Proof.Machine

section
variable (cause : ResetCause)

@[simp] theorem Device.entry_reset (i : CatIndex) : (Device.reset cause).entry i = .blank 1 .none := by
  simp [Device.entry, Device.reset]
@[simp] theorem Device.record_reset (a : Addr) : (Device.reset cause).record a = .reset := by
  simp [Device.record, Device.reset]
@[simp] theorem Device.plan_reset (a : Addr) : (Device.reset cause).plan a = [] := by
  simp [Device.plan, Device.reset]
@[simp] theorem Device.transfers_reset (a : Addr) :
    (Device.reset cause).transfers a = { active := none, stack := [], abandonAll := false } := by
  simp [Device.transfers, Device.reset]
@[simp] theorem Device.standing_reset (a : Addr) :
    (Device.reset cause).standing a =
      { standing := .notCounted, disarmOwed := false, armRefused := false, attempts := 0 } := by
  simp [Device.standing, Device.reset, Coordinator.reset]
@[simp] theorem ValRecord.cell_reset (s : Stream) :
    ValRecord.reset.cell s = { status := .idle, held := 0, rejects := 0, hold := false, room := false } := by
  simp [ValRecord.cell, ValRecord.reset]
@[simp] theorem Port.held_reset (slot : Slot) : (Port.reset cause).held[slot] = none := by simp [Port.reset]

/-- A device reset clears every block. -/
theorem Device.cleared_reset : (Device.reset cause).cleared := by
  refine ⟨by simp [Device.reset, Port.reset], fun i => by simp [Entry.blank, AddrSet.has],
    by simp [Device.reset], by simp [Device.reset], fun a => by simp; simp [ValRecord.reset], by simp, by simp,
    by simp [Device.reset, AddrSet.has], ?_, by simp [Device.reset, LineController.reset, AddrSet.has, LineConfig.default]⟩
  refine ⟨rfl, rfl, rfl, rfl, rfl, rfl, rfl, rfl, rfl, rfl, ?_, by simp⟩
  show Coordinator.reset.armedCount = 0
  decide

/-- A soft reset clears every block too: what it keeps is none of what `cleared` names (R197). -/
theorem Device.cleared_softReset (d : Device) : d.softReset.cleared := Device.cleared_reset .soft

end

/-- Settles O32: each reset answers a literal state, whose fields are read off. -/
theorem resetsClear : Obligations.ResetsClear := by
  refine ⟨fun source s => ⟨doDeviceReset source s, rfl, Device.cleared_reset _, rfl, rfl, rfl, ?_, rfl, rfl, rfl⟩,
    fun s => ⟨doSoftReset s, rfl, Device.cleared_softReset _, rfl, rfl, rfl, rfl, rfl, rfl, rfl⟩, fun _ => rfl⟩
  cases source <;> rfl

/-! ## Every invariant holds after reset -/

theorem Device.openRecords_reset (cause : ResetCause) (i : CatIndex) : (Device.reset cause).openRecords i = 0 := by
  simp [Device.openRecords, Transfers.records, allAddrs]

theorem State.reset_safe : State.reset.safe :=
  ⟨Ram.reset_wf, rfl, ⟨rfl, rfl⟩, .inl rfl, Nat.zero_le _, .inl rfl, fun _ => rfl⟩

/-- Settles O3: after reset every entry is FREE, every plan and transfer list empty, and the area is not accessed. -/
theorem resetMeetsInvariants : Obligations.ResetMeetsInvariants := by
  have entries (i) : State.reset.dev.entry i = .blank 1 .none := Device.entry_reset _ i
  have transfers (a) : (State.reset.dev.transfers a).records = [] := by
    rw [show State.reset.dev.transfers a = _ from Device.transfers_reset _ a]; rfl
  refine ⟨State.reset_safe, ?identities, ?records, ?offsets, ?plans, ?usage, ?editions, ?mirrors, ?slots⟩
  case identities => exact fun i j _ h => absurd (by rw [entries]; rfl) h
  case records =>
    intro a
    simp only [transfers, show State.reset.dev.record a = _ from Device.record_reset _ a]
    simp [ValRecord.reset]
  case offsets => intro a r h; rw [transfers] at h; cases h
  case plans =>
    intro a j h
    rw [show State.reset.dev.plan a = _ from Device.plan_reset _ a] at h; cases h
  case usage =>
    refine ⟨fun i => ?_, fun a r h => ?_⟩
    · rw [entries]; exact (Device.openRecords_reset _ i).symm
    · rw [transfers] at h; cases h
  case editions => exact fun i h => absurd (by rw [entries]; rfl) h
  case mirrors => rintro (h | h) <;> cases h
  case slots =>
    refine ⟨fun i slot h => ?_, fun ret h => ?_, List.nodup_nil⟩
    · rw [entries] at h; cases h
    · cases h

end Sys2Proof.Machine
end

