-- ==== Sys2Proof/Proofs/Segment.lean ====
section
/-! The check value of a segment in closed form (R9), and the fetch of a CONT frame against the Verifier's walk (R6, R7,
R134, R200). -/

namespace Sys2Proof.Machine

/-! ## The check value (R9) -/

/-- The number of words of a segment, an odd last octet standing alone. -/
def wordCount (l : List Octet) : Nat := (l.length + 1) / 2

/-- Word `i` of a segment, little-endian, octets past the end being 0. -/
def wordAt (l : List Octet) (i : Nat) : Nat := (l.getD (2 * i) 0).toNat + 256 * (l.getD (2 * i + 1) 0).toNat

/-- The sum of a segment's words. -/
def wordSum (l : List Octet) : Nat := ((List.range (wordCount l)).map (wordAt l)).sum

/-- The sum of each word times its place counted from the end. -/
def placeSum (l : List Octet) : Nat := ((List.range (wordCount l)).map fun i => (wordCount l - i) * wordAt l i).sum

theorem wordCount_cons_cons (a b : Octet) (l : List Octet) : wordCount (a :: b :: l) = wordCount l + 1 := by
  simp [wordCount]; omega

theorem wordAt_cons_cons (a b : Octet) (l : List Octet) (i : Nat) : wordAt (a :: b :: l) (i + 1) = wordAt l i := by
  simp [wordAt, show 2 * (i + 1) = 2 * i + 1 + 1 from by ring]

theorem wordSum_cons_cons (a b : Octet) (l : List Octet) :
    wordSum (a :: b :: l) = (a.toNat + 256 * b.toNat) + wordSum l := by
  simp only [wordSum, wordCount_cons_cons, List.range_succ_eq_map, List.map_cons, List.map_map, List.sum_cons]
  congr 2

theorem placeSum_cons_cons (a b : Octet) (l : List Octet) :
    placeSum (a :: b :: l) = (wordCount l + 1) * (a.toNat + 256 * b.toNat) + placeSum l := by
  simp only [placeSum, wordCount_cons_cons, List.range_succ_eq_map, List.map_cons, List.map_map, List.sum_cons]
  congr 2
  exact List.map_congr_left fun i _ => by simp [wordAt_cons_cons]

/-- R9's iteration adds to S1 the sum of the words, and to S2 the words by their places and S1 once for each word. -/
theorem checkSums_eq (l : List Octet) (s1 s2 : Nat) (h1 : s1 < 65535) (h2 : s2 < 65535) :
    checkSums l s1 s2 =
      ((s1 + wordSum l) % 65535, (s2 + wordCount l * s1 + placeSum l) % 65535) := by
  induction l using List.twoStepInduction generalizing s1 s2 with
  | nil => simp [checkSums, wordSum, placeSum, wordCount, Nat.mod_eq_of_lt, h1, h2]
  | singleton a =>
    have word : wordAt [a] 0 = a.toNat := by simp [wordAt]
    simp [checkSums, wordSum, placeSum, wordCount, word, Nat.add_assoc]
  | cons_cons a b l ih _ =>
    rw [checkSums, ih _ _ (Nat.mod_lt _ (by omega)) (Nat.mod_lt _ (by omega)), wordSum_cons_cons, placeSum_cons_cons,
      wordCount_cons_cons]
    generalize a.toNat + 256 * b.toNat = w
    refine Prod.ext ?_ ?_
    · simp only [Nat.mod_add_mod, Nat.add_assoc]
    · show Nat.ModEq 65535 _ _
      calc (s2 + (s1 + w) % 65535) % 65535 + wordCount l * ((s1 + w) % 65535) + placeSum l
          ≡ s2 + (s1 + w) + wordCount l * (s1 + w) + placeSum l [MOD 65535] := by
            have k := Nat.mod_modEq (s1 + w) 65535
            exact (((Nat.mod_modEq _ _).trans (k.add_left s2)).add (k.mul_left _)).add_right _
        _ = s2 + (wordCount l + 1) * s1 + ((wordCount l + 1) * w + placeSum l) := by ring

/-- Settles O20: `checkSums_eq` from S1 = S2 = 0, the two sums fitting the halves of the check value. -/
theorem checkValueOfWords : Obligations.CheckValueOfWords := by
  intro l
  have key := checkSums_eq l 0 0 (by omega) (by omega)
  simp only [Nat.zero_add, Nat.mul_zero] at key
  have h1 : wordSum l % 65535 < 65535 := Nat.mod_lt _ (by omega)
  have h2 : placeSum l % 65535 < 65535 := Nat.mod_lt _ (by omega)
  simp only [checkValue, key, BitVec.toNat_ofNat]
  exact Nat.mod_eq_of_lt (by omega)

/-! ## The fetch of a CONT frame (R6, R7, R134) -/

/-- Reads within a run that meets no bus error meet none. -/
theorem busError_within {bus : List HostRange} {a n b k : Nat} (h : busError bus a n = false) (hb : a ≤ b)
    (hk : b + k ≤ a + n) : busError bus b k = false := by
  simp only [busError, List.any_eq_false] at h ⊢
  intro r hr
  have := h r hr
  simp only [overlaps, Bool.and_eq_true, decide_eq_true_eq] at this ⊢
  omega

theorem Ram.octets_add (m : Ram) (a n k : Nat) : m.octets a (n + k) = m.octets a n ++ m.octets (a + n) k := by
  induction n generalizing a with
  | zero => simp [Ram.octets]
  | succ n ih => 
    rw [show n + 1 + k = (n + k) + 1 by omega, Ram.octets, ih, Ram.octets, show a + 1 + n = a + (n + 1) by omega]; rfl

theorem Ram.octets_drop (m : Ram) (a : Nat) {x n : Nat} (h : x ≤ n) :
    (m.octets a n).drop x = m.octets (a + x) (n - x) := by
  obtain ⟨k, rfl⟩ := Nat.exists_eq_add_of_le h
  rw [Ram.octets_add, List.drop_left' (by simp), Nat.add_sub_cancel_left]

theorem Ram.octets_take (m : Ram) (a n k : Nat) : (m.octets a n).take k = m.octets a (min k n) := by
  by_cases h : k ≤ n
  · obtain ⟨y, rfl⟩ := Nat.exists_eq_add_of_le h
    rw [Ram.octets_add, List.take_left' (by simp), min_eq_left (by omega)]
  · rw [List.take_of_length_le (by simp; omega), min_eq_right (by omega)]

/-- What one record of the Verifier's walk asks for, when the walk completes: the record and its fragment readable, the running
total within the size and reaching it at the last record; and the octets are the fragment's, then those of the rest. -/
theorem verifierWalk_succ {m : Ram} {bus : List HostRange} {area gather size left i total : Nat} {octets : List Octet}
    (h : verifierWalk m bus area gather size (left + 1) i total = .ok octets) :
    let f := readFragment m (recordAddress gather i)
    outsideArea area (recordAddress gather i) 16 = true ∧ busError bus (recordAddress gather i) 16 = false ∧
      lengthInRange f.length = true ∧ total + f.length ≤ size ∧ (left = 0 → total + f.length = size) ∧
      fragmentReadable area f = true ∧ busError bus f.address f.length = false ∧
      ∃ rest, verifierWalk m bus area gather size left (i + 1) (total + f.length) = .ok rest ∧
        octets = m.octets f.address f.length ++ rest := by
  simp only [verifierWalk] at h
  split at h
  · cases h
  split at h
  · cases h
  split at h
  · cases h
  split at h
  · cases h
  split at h
  · cases h
  split at h
  · cases h
  rename_i outside bus16 range readable busF _ rest hrest
  simp only [Bool.or_eq_true, Bool.not_eq_true', decide_eq_true_eq, Bool.and_eq_true, not_or, not_and, not_lt] at range
  obtain ⟨⟨⟨⟨len, fits⟩, -⟩, -⟩, last⟩ := range
  exact ⟨by simpa using outside, by simpa using bus16, by simpa using len, fits, fun k => by have := last k; omega,
    by simpa using readable, by simpa using busF, rest, hrest, by cases h; rfl⟩

/-- A walk that completes reads what is left of the segment. -/
theorem verifierWalk_length {m : Ram} {bus : List HostRange} {area gather size : Nat} (left i total : Nat)
    {octets : List Octet} (h : verifierWalk m bus area gather size left i total = .ok octets)
    (hl : left = 0 → total = size) : total + octets.length = size := by
  induction left generalizing i total octets with
  | zero =>
    obtain rfl := hl rfl
    cases h; rfl
  | succ left ih =>
    obtain ⟨-, -, -, -, last, -, -, rest, hrest, rfl⟩ := verifierWalk_succ h
    have := ih _ _ hrest last
    simp only [List.length_append, Ram.octets_length]; omega

/-- Where the Verifier's walk completes, a fetch from an offset at or past the octets walked gives the octets that the walk
reads there. -/
theorem fetchWalk_of_verifierWalk {m : Ram} {bus : List HostRange} {area gather size : Nat} (left i total offset need : Nat)
    {octets : List Octet} (h : verifierWalk m bus area gather size left i total = .ok octets)
    (hl : left = 0 → total = size) (ho : total ≤ offset) (hn : offset + need ≤ size) :
    fetchWalk m bus area gather size left i total offset need = .ok ((octets.drop (offset - total)).take need) := by
  induction left generalizing i total offset need octets with
  | zero =>
    obtain rfl : need = 0 := by have := hl rfl; omega
    simp [fetchWalk]
  | succ left ih =>
    cases need with
    | zero => simp [fetchWalk]
    | succ need =>
      obtain ⟨outside, bus16, len, fits, last, readable, busF, rest, hrest, rfl⟩ := verifierWalk_succ h
      generalize hf : readFragment m (recordAddress gather i) = f at *
      have guard : (!lengthInRange f.length || decide (size < total + f.length) ||
          (decide (left = 0) && decide (total + f.length < size))) = false := by
        simp only [len, Bool.not_true, Bool.false_or, Bool.or_eq_false_iff, decide_eq_false_iff_not, not_lt,
          Bool.and_eq_false_iff]
        exact ⟨fits, by by_cases k : left = 0 <;> simp [k]; have := last k; omega⟩
      simp only [fetchWalk, outside, bus16, hf, guard, readable, Bool.not_true, Bool.false_eq_true, if_false]
      by_cases skip : total + f.length ≤ offset
      · have gone : (m.octets f.address f.length).drop (offset - total) = [] :=
          List.drop_eq_nil_of_le (by simp; omega)
        rw [if_pos skip, ih _ _ _ _ hrest last skip hn, List.drop_append, gone, List.nil_append, Ram.octets_length,
          Nat.sub_add_eq]
      · rw [if_neg skip]
        generalize hh : min (need + 1) (total + f.length - offset) = here
        rw [busError_within busF (b := f.address + (offset - total)) (k := here) (by omega) (by omega)]
        have tail : fetchWalk m bus area gather size left (i + 1) (total + f.length) (offset + here) (need + 1 - here) =
            .ok (rest.take (need + 1 - here)) := by
          by_cases whole : need + 1 ≤ total + f.length - offset
          · rw [show need + 1 - here = 0 by omega]; simp [fetchWalk]
          · rw [ih _ _ _ _ hrest last (by omega) (by omega), show offset + here - (total + f.length) = 0 by omega]; rfl
        simp only [tail, Bool.false_eq_true, if_false]
        rw [List.drop_append_of_le_length (by simp; omega), List.take_append, Ram.octets_drop _ _ (by omega),
          Ram.octets_take, Ram.octets_length, show f.length - (offset - total) = total + f.length - offset by omega, hh,
          show need + 1 - (total + f.length - offset) = need + 1 - here by omega]

/-- Settles O21: the two walks from the first record. -/
theorem fetchIsSliceOfSegment : Obligations.FetchIsSliceOfSegment := by
  intro m bus area e octets offset n hf hv hn
  have walked : verifierWalk m bus area e.gather e.size e.fragments 0 0 = .ok octets := by
    revert hv
    cases verifierWalk m bus area e.gather e.size e.fragments 0 0 <;> simp [Except.toOption]
  refine ⟨by simpa using verifierWalk_length _ _ _ walked (by omega), ?_⟩
  rw [fetchPayload, fetchWalk_of_verifierWalk _ _ _ _ _ walked (by omega) (Nat.zero_le _) hn]
  rfl

end Sys2Proof.Machine
end

