-- ==== Sys2Proof/Proofs/Moves.lean ====
section
/-! The elementary changes of the blocks, and `Moves`: chains of them from one part to another. Each operation of the model is shown
once to be such a chain (`Sys2Proof/Proofs/Operations.lean` below); an invariant of the blocks is then one short case analysis over the
elementary changes. -/

namespace Sys2Proof.Machine

/-! ## Records of the Transfer Engine by what they name -/

/-- What identifies a transfer record and what it names: tag, index, generation and stream. -/
def TransferRecord.key (r : TransferRecord) : Nat × CatIndex × Nat × Stream := (r.tag, r.index, r.generation, r.stream)

/-- No two records of a validator have one tag. -/
def Device.tagsOk (d : Device) : Prop := ∀ a : Addr, ((d.transfers a).records.map (·.tag)).Nodup

theorem Transfers.records_remove (t : Transfers) (tag : Nat) :
    (t.remove tag).records = t.records.filter (·.tag != tag) := by
  cases h : t.active with
  | none => simp [Transfers.records, Transfers.remove, h]
  | some r => by_cases k : r.tag = tag <;> simp [Transfers.records, Transfers.remove, h, k, Option.filter]

theorem Transfers.records_change (t : Transfers) (pick : TransferRecord → Bool) (f : TransferRecord → TransferRecord) :
    (t.change pick f).records = t.records.map fun r => if pick r then f r else r := by
  cases h : t.active <;> simp [Transfers.records, Transfers.change, h]

/-- A change that keeps what the records name keeps it of all of them. -/
theorem Transfers.keys_change (t : Transfers) (pick : TransferRecord → Bool) {f : TransferRecord → TransferRecord}
    (hf : ∀ r, (f r).key = r.key) : (t.change pick f).records.map TransferRecord.key = t.records.map TransferRecord.key := by
  rw [Transfers.records_change, List.map_map]
  refine List.map_congr_left fun r _ => ?_
  by_cases k : pick r <;> simp [k, hf]

theorem Transfers.byTag_mem {t : Transfers} {tag : Nat} {r : TransferRecord} (h : t.byTag tag = some r) :
    r ∈ t.records ∧ r.tag = tag := by
  have := List.find?_some h
  exact ⟨List.mem_of_find?_eq_some h, by simpa using this⟩

/-! ## What a SEND job may name -/

/-- A SEND job names a READY entry of its stream, in its generation (R3, R63). -/
def Device.jobOk (d : Device) : Job → Prop
  | .send s i g _ => (d.entry i).state = .ready ∧ (d.entry i).generation = g ∧ (d.entry i).stream = s
  | .drop _ => True

theorem Device.plansOk_iff (d : Device) : d.plansOk ↔ ∀ a : Addr, ∀ j ∈ d.plan a, d.jobOk j := by
  unfold Device.plansOk
  refine forall_congr' fun a => forall_congr' fun j => forall_congr' fun _ => ?_
  cases j <;> rfl

/-! ## What a chain of changes may touch -/

/-- What a chain of changes may touch beside what replanning touches: the entries that change by more than the closing of their
records, the addresses of which ROS learns something or whose reply times begin afresh, the verify queue, ACT and TGT, HTQ, LNC,
and EXP with the clock; whether a POST may come into the catalogue; and whether a transfer record may be opened. -/
structure Scope where
  entry : CatIndex → Prop
  learned : Addr → Prop
  fresh : Addr → Prop
  vfy : Prop
  act : Prop
  hot : Prop
  lnc : Prop
  exp : Prop
  post : Prop
  opens : Prop

/-- Anything may change, POSTs coming in or not, reply times beginning afresh at some addresses, EXP and the clock changing or not. -/
def Scope.full (post : Prop) (fresh : Addr → Prop := fun _ => True) (exp : Prop := True) : Scope where
  entry := fun _ => True
  learned := fun _ => True
  fresh := fresh
  vfy := True
  act := True
  hot := True
  lnc := True
  exp := exp
  post := post
  opens := True

/-- What the counts of R15 rest on when a command begins; the plans only where a record may be opened. -/
structure Device.Good (S : Scope) (d : Device) : Prop where
  tags : d.tagsOk
  slots : ∀ a, (d.record a).openSlots ≤ 4
  plans : S.opens → d.plansOk
  usage : d.usageOk

/-- What the opening of a record rests on. -/
abbrev Device.GoodToOpen (d : Device) : Prop := d.Good (.full True)

theorem Device.Good.toOpen {S : Scope} {d : Device} (h : d.Good S) (hO : S.opens) : d.GoodToOpen := { h with plans := fun _ => h.plans hO }

/-- Beside the catalogue, the plans, the transfer records and the validator records, only what may change has changed. -/
structure Framed (S : Scope) (d e : Device) : Prop where
  port : S.exp ∨ { e.port with causes := d.port.causes } = d.port
  fck : S.exp ∨ e.fck = d.fck
  vfy : S.vfy ∨ e.vfy = d.vfy
  tgt : S.act ∨ e.tgt = d.tgt
  act : S.act ∨ e.act = d.act
  htq : S.hot ∨ e.htq = d.htq
  lnc : S.lnc ∨ S.act ∨ e.lnc = d.lnc

/-- A change that leaves the catalogue, the plans, the transfer records and the validator records alone. -/
structure Aside (S : Scope) (d e : Device) : Prop extends Framed S d e where
  cat : e.cat = d.cat
  pln : e.pln = d.pln
  xfr : e.xfr = d.xfr
  ros : e.ros = d.ros

theorem Framed.refl (S : Scope) (d : Device) : Framed S d d where
  port := .inr rfl
  fck := .inr rfl
  vfy := .inr rfl
  tgt := .inr rfl
  act := .inr rfl
  htq := .inr rfl
  lnc := .inr (.inr rfl)

theorem Framed.trans {S : Scope} {c d e : Device} (h : Framed S c d) (k : Framed S d e) : Framed S c e where
  port := h.port.elim .inl fun h1 => k.port.imp_right fun k1 => by rw [← h1, ← k1]
  fck := h.fck.elim .inl fun h1 => k.fck.imp_right (·.trans h1)
  vfy := h.vfy.elim .inl fun h1 => k.vfy.imp_right (·.trans h1)
  tgt := h.tgt.elim .inl fun h1 => k.tgt.imp_right (·.trans h1)
  act := h.act.elim .inl fun h1 => k.act.imp_right (·.trans h1)
  htq := h.htq.elim .inl fun h1 => k.htq.imp_right (·.trans h1)
  lnc := h.lnc.elim .inl fun h1 => h1.elim (.inr ∘ .inl) fun h1 => k.lnc.imp_right (·.imp_right (·.trans h1))

theorem Aside.refl (S : Scope) (d : Device) : Aside S d d := { Framed.refl S d with cat := rfl, pln := rfl, xfr := rfl, ros := rfl }

/-- A change of one validator record: what ROS has learned stays where it may not change; a reply time that the mirror shows is one it
showed before (R61); and the open slots stay within their bound (R40). -/
structure RecordStep (S : Scope) (a : Addr) (r r' : ValRecord) : Prop where
  learned : S.learned a ∨ r'.learned = r.learned
  reply : S.fresh a ∨ (r'.replyTime = .shown → r.replyTime = .shown ∧ r'.lastReply = r.lastReply)
  slots : r.openSlots ≤ 4 → r'.openSlots ≤ 4

theorem RecordStep.refl (S : Scope) (a : Addr) (r : ValRecord) : RecordStep S a r r where
  learned := .inr rfl
  reply := .inr fun h => ⟨h, rfl⟩
  slots := id

/-- An entry that a POST brings in at a FREE index: VERIFYING, in the generation that the index carries, of no identity in use, its
editions in order (R1, R4, R5). -/
structure Device.Posts (d : Device) (i : CatIndex) (x : Entry) : Prop where
  free : (d.entry i).state = .free
  verifying : x.state = .verifying
  generation : x.generation = (d.entry i).generation
  unused : x.inUse = 0
  delta : x.form = .delta → x.base < x.edition
  whole : x.form = .whole → x.base = 0
  fresh : ∀ j, (d.entry j).state ≠ .free → sameIdentity (d.entry j) x = false

/-- Chains of elementary changes from a part. The flag is set while READY entries may have left READY and the plans are not made
afresh yet (R3, R67). -/
inductive Moves (S : Scope) (c : Device) : Bool → Device → Prop
  | start {b : Bool} : Moves S c b c
  | stale {b : Bool} {d : Device} (h : Moves S c b d) : Moves S c true d
  | aside {b : Bool} {d e : Device} (h : Moves S c b d) (k : Aside S d e) : Moves S c b e
  | records {b : Bool} {d e : Device} (h : Moves S c b d) (k : e = { d with ros := e.ros, outbox := e.outbox })
      (hr : ∀ a, RecordStep S a (d.record a) (e.record a)) : Moves S c b e
  | plan {b : Bool} {d : Device} (h : Moves S c b d) (a : Addr) (p : List Job)
      (hp : ∀ j ∈ p, j ∈ d.plan a ∨ d.jobOk j) : Moves S c b (d.setPlan a p)
  /-- The records of a validator change without one being opened or closed. -/
  | arranged {b : Bool} {d : Device} (h : Moves S c b d) (a : Addr) (t : Transfers)
      (ht : c.Good S → (t.records.map TransferRecord.key).Perm ((d.transfers a).records.map TransferRecord.key)) :
      Moves S c b (d.setTransfers a t)
  | closed {b : Bool} {d : Device} (h : Moves S c b d) (a : Addr) (r : TransferRecord)
      (hr : c.Good S → r ∈ (d.transfers a).records) :
      Moves S c b ((d.setTransfers a ((d.transfers a).remove r.tag)).setEntry r.index
        { d.entry r.index with inUse := (d.entry r.index).inUse - 1 })
  | opened {b : Bool} {d : Device} (h : Moves S c b d) (a : Addr) (t : Transfers) (n : TransferRecord) (hO : S.opens)
      (ht : c.GoodToOpen → (t.records.map TransferRecord.key).Perm (n.key :: (d.transfers a).records.map TransferRecord.key) ∧
        (∀ r ∈ (d.transfers a).records, r.tag ≠ n.tag) ∧
        (d.entry n.index).state = .ready ∧ (d.entry n.index).generation = n.generation ∧
        (d.entry n.index).stream = n.stream) :
      Moves S c b ((d.setTransfers a t).setEntry n.index
        { d.entry n.index with inUse := (d.entry n.index).inUse + 1 })
  | freed {b : Bool} {d : Device} (h : Moves S c b d) (i : CatIndex) (fault : FaultCause)
      (hs : S.entry i ∨ (d.entry i).state = .retiring) (hf : (d.entry i).state ≠ .free)
      (hr : (d.entry i).state = .ready → b = true)
      (hu : (d.entry i).inUse = 0 ∨ (d.entry i).state = .verifying) : Moves S c b (d.freeEntry i fault)
  /-- An entry in use changes its state. -/
  | restated {b : Bool} {d : Device} (h : Moves S c b d) (i : CatIndex) (x : Entry) (hs : S.entry i)
      (hp : x.posted = (d.entry i).posted) (hu : x.inUse = (d.entry i).inUse) (hf : (d.entry i).state ≠ .free)
      (hx : x.state ≠ .free ∧ x.state ≠ .verifying) (hr : (d.entry i).state = .ready → x.state = .ready ∨ b = true) :
      Moves S c b (d.setEntry i x)
  | posted {b : Bool} {d : Device} (h : Moves S c b d) (i : CatIndex) (x : Entry) (hs : S.entry i ∧ S.post)
      (hx : d.Posts i x) : Moves S c b (d.setEntry i x)
  /-- Once every validator has been replanned, no plan is stale. -/
  | renewed {b : Bool} {d : Device} (h : Moves S c b d.replanAll) : Moves S c false d.replanAll

/-! ## What the elementary changes keep -/

variable {S : Scope} {c d : Device} {b : Bool}

theorem Moves.foldl {α : Type} {f : Device → α → Device} (l : List α)
    (hf : ∀ d x, Moves S c b d → Moves S c b (f d x)) (h : Moves S c b d) : Moves S c b (l.foldl f d) := by
  induction l generalizing d with
  | nil => exact h
  | cons x l ih => exact ih (hf _ x h)

theorem Moves.ite {p : Prop} [Decidable p] {x y : Device} (h : p → Moves S c b x) (k : ¬p → Moves S c b y) :
    Moves S c b (if p then x else y) := by
  split
  · exact h ‹_›
  · exact k ‹_›

theorem Aside.entry {e : Device} (h : Aside S d e) (i : CatIndex) : e.entry i = d.entry i := by
  simp only [Device.entry, h.cat]
theorem Aside.plan {e : Device} (h : Aside S d e) (a : Addr) : e.plan a = d.plan a := by simp only [Device.plan, h.pln]
theorem Aside.transfers {e : Device} (h : Aside S d e) (a : Addr) : e.transfers a = d.transfers a := by
  simp only [Device.transfers, h.xfr]
theorem Aside.record {e : Device} (h : Aside S d e) (a : Addr) : e.record a = d.record a := by
  simp only [Device.record, h.ros]

section
variable {e : Device} (k : e = { d with ros := e.ros, outbox := e.outbox })
include k

theorem Device.entry_of_records (i : CatIndex) : e.entry i = d.entry i := by rw [k]; rfl
theorem Device.plan_of_records (a : Addr) : e.plan a = d.plan a := by rw [k]; rfl
theorem Device.transfers_of_records (a : Addr) : e.transfers a = d.transfers a := by rw [k]; rfl

end

/-! ## Plans -/

/-- Every READY entry is READY still, of its generation and stream. -/
def Device.ReadyKept (d e : Device) : Prop :=
  ∀ i, (d.entry i).state = .ready →
    (e.entry i).state = .ready ∧ (e.entry i).generation = (d.entry i).generation ∧ (e.entry i).stream = (d.entry i).stream

theorem Device.ReadyKept.of_entry {e : Device} (h : ∀ i, e.entry i = d.entry i) : d.ReadyKept e :=
  fun i k => by rw [h]; exact ⟨k, rfl, rfl⟩

theorem Device.ReadyKept.trans {d e f : Device} (h : d.ReadyKept e) (k : e.ReadyKept f) : d.ReadyKept f := fun i r => by
  obtain ⟨r1, g1, s1⟩ := h i r
  obtain ⟨r2, g2, s2⟩ := k i r1
  exact ⟨r2, g2.trans g1, s2.trans s1⟩

theorem Device.readyKept_setEntry (d : Device) (i : CatIndex) (x : Entry)
    (h : (d.entry i).state = .ready →
      x.state = .ready ∧ x.generation = (d.entry i).generation ∧ x.stream = (d.entry i).stream) :
    d.ReadyKept (d.setEntry i x) := by
  intro j r
  rw [Device.entry_setEntry]
  split
  · subst j; exact h r
  · exact ⟨r, rfl, rfl⟩

theorem Device.ReadyKept.jobOk {e : Device} (h : d.ReadyKept e) {j : Job} (k : d.jobOk j) : e.jobOk j := by
  cases j with
  | drop => trivial
  | send s i g n =>
    obtain ⟨r, hg, hs⟩ := k
    obtain ⟨r', g', s'⟩ := h i r
    exact ⟨r', g'.trans hg, s'.trans hs⟩

/-- Plans stay true while READY entries stay. -/
theorem Device.ReadyKept.plansOk {e : Device} (h : d.ReadyKept e) (hp : ∀ a, ∀ j ∈ e.plan a, j ∈ d.plan a ∨ d.jobOk j)
    (k : d.plansOk) : e.plansOk := by
  rw [Device.plansOk_iff] at k ⊢
  exact fun a j hj => h.jobOk ((hp a j hj).elim (k a j) id)

theorem Entry.posted_eq {e f : Entry} (h : e.posted = f.posted) :
    e.generation = f.generation ∧ e.stream = f.stream ∧ e.form = f.form ∧ e.base = f.base ∧ e.edition = f.edition :=
  ⟨(Entry.mk.inj h).1, (Entry.mk.inj h).2.2.1, (Entry.mk.inj h).2.2.2.1, (Entry.mk.inj h).2.2.2.2.1,
    (Entry.mk.inj h).2.2.2.2.2.1⟩

/-- The plans stay true but while they are stale (R3, R63, R67). That replanning makes every plan true is shown below, of the
replanning itself. -/
theorem Moves.plansOk_of (renew : ∀ d : Device, d.replanAll.plansOk) (h : Moves S c b d) (hb : b = false)
    (hc : c.plansOk) : d.plansOk := by
  induction h with
  | start => exact hc
  | stale => cases hb
  | aside h k ih =>
    exact (Device.ReadyKept.of_entry k.entry).plansOk (fun a j hj => .inl (k.plan a ▸ hj)) (ih hb)
  | records h k hr ih =>
    exact (Device.ReadyKept.of_entry (Device.entry_of_records k)).plansOk
      (fun a j hj => .inl (Device.plan_of_records k a ▸ hj)) (ih hb)
  | @plan b d h a p hp ih =>
    refine Device.ReadyKept.plansOk (d := d) (.of_entry fun i => rfl) (fun a' j hj => ?_) (ih hb)
    rw [Device.plan_setPlan] at hj
    split at hj
    · subst a'; exact hp j hj
    · exact .inl hj
  | arranged h a t ht ih => exact ih hb
  | @closed b d h a r hr ih =>
    exact (Device.readyKept_setEntry (d.setTransfers a _) r.index
      { d.entry r.index with inUse := (d.entry r.index).inUse - 1 } fun k => ⟨k, rfl, rfl⟩).plansOk
      (fun a j hj => .inl hj) (show (d.setTransfers a _).plansOk from ih hb)
  | @opened b d h a t n hO ht ih =>
    exact (Device.readyKept_setEntry (d.setTransfers a t) n.index
      { d.entry n.index with inUse := (d.entry n.index).inUse + 1 } fun k => ⟨k, rfl, rfl⟩).plansOk
      (fun a j hj => .inl hj) (show (d.setTransfers a t).plansOk from ih hb)
  | freed h i fault hs hf hr hu ih =>
    exact (Device.readyKept_setEntry _ _ _ fun k => by rw [hr k] at hb; cases hb).plansOk (fun a j hj => .inl hj) (ih hb)
  | restated h i x hs hp hu hf hx hr ih =>
    refine (Device.readyKept_setEntry _ _ _ fun k => ?_).plansOk (fun a j hj => .inl hj) (ih hb)
    obtain ⟨hg, hstream, -⟩ := Entry.posted_eq hp
    exact ⟨(hr k).resolve_right (by simp [hb]), hg, hstream⟩
  | posted h i x hs hx ih =>
    exact (Device.readyKept_setEntry _ _ _ fun k => by rw [hx.free] at k; cases k).plansOk (fun a j hj => .inl hj) (ih hb)
  | renewed h => exact renew _

/-! ## In-use counts (R15) -/

/-- How many of a validator's records name an entry. -/
def Transfers.naming (t : Transfers) (i : CatIndex) : Nat := (t.records.filter (·.index == i)).length

theorem Device.openRecords_eq_sum (d : Device) (i : CatIndex) : d.openRecords i = ∑ a : Addr, (d.transfers a).naming i :=
  (Fin.sum_univ_def fun a : Addr => (d.transfers a).naming i).symm

theorem Device.openRecords_congr {e : Device} (h : ∀ a, e.transfers a = d.transfers a) (i : CatIndex) :
    e.openRecords i = d.openRecords i := by
  simp only [Device.openRecords_eq_sum, h]

theorem Device.openRecords_setTransfers (d : Device) (a : Addr) (t : Transfers) (i : CatIndex) :
    (d.setTransfers a t).openRecords i + (d.transfers a).naming i = d.openRecords i + t.naming i := by
  simp only [Device.openRecords_eq_sum, ← Finset.add_sum_erase _ _ (Finset.mem_univ a),
    Device.transfers_setTransfers_self]
  have others : ∑ x ∈ Finset.univ.erase a, ((d.setTransfers a t).transfers x).naming i =
      ∑ x ∈ Finset.univ.erase a, (d.transfers x).naming i :=
    Finset.sum_congr rfl fun x hx => by
      rw [Device.transfers_setTransfers, if_neg fun k => (Finset.mem_erase.1 hx).1 k.symm]
  rw [others]; omega

/-- No record names an entry that is named 0 times. -/
theorem Device.openRecords_eq_zero {d : Device} {i : CatIndex} (h : d.openRecords i = 0) (a : Addr) :
    ∀ r ∈ (d.transfers a).records, r.index ≠ i := by
  rw [Device.openRecords_eq_sum, Finset.sum_eq_zero_iff] at h
  have := List.eq_nil_of_length_eq_zero (h a (Finset.mem_univ a))
  simpa [List.filter_eq_nil_iff] using this

theorem Transfers.naming_eq_of_keys {t u : Transfers}
    (h : (t.records.map TransferRecord.key).Perm (u.records.map TransferRecord.key)) (i : CatIndex) :
    t.naming i = u.naming i := by
  have key (v : Transfers) : v.naming i = ((v.records.map TransferRecord.key).filter (·.2.1 == i)).length := by
    rw [List.filter_map, List.length_map]; rfl
  rw [key, key, (h.filter _).length_eq]

/-- A list of records of distinct tags is one of them and the rest. -/
theorem perm_cons_remove {l : List TransferRecord} {r : TransferRecord} (h : r ∈ l) (hn : (l.map (·.tag)).Nodup) :
    l.Perm (r :: l.filter (·.tag != r.tag)) := by
  induction l with
  | nil => cases h
  | cons q l ih =>
    rw [List.map_cons, List.nodup_cons] at hn
    obtain ⟨hq, hn⟩ := hn
    rcases List.mem_cons.1 h with rfl | h
    · have others : l.filter (·.tag != r.tag) = l :=
        List.filter_eq_self.2 fun x hx => by
          have : x.tag ≠ r.tag := fun k => hq (k ▸ List.mem_map_of_mem hx)
          simpa using this
      simp [others]
    · have : q.tag ≠ r.tag := fun k => hq (k ▸ List.mem_map_of_mem h)
      simp only [List.filter_cons, bne_iff_ne.2 this, if_true]
      exact ((ih h hn).cons q).trans (.swap _ _ _)

theorem Transfers.naming_remove {t : Transfers} {r : TransferRecord} (h : r ∈ t.records)
    (hn : (t.records.map (·.tag)).Nodup) (i : CatIndex) :
    (t.remove r.tag).naming i + (if r.index = i then 1 else 0) = t.naming i := by
  have := ((perm_cons_remove h hn).filter (·.index == i)).length_eq
  rw [Transfers.naming, Transfers.naming, Transfers.records_remove, this, List.filter_cons]
  by_cases k : r.index = i <;> simp [k]

/-- What a record asks of the entry it names (R15). -/
def TransferRecord.NamesIn (r : TransferRecord) (e : Entry) : Prop :=
  e.generation = r.generation ∧ e.stream = r.stream ∧ e.state ≠ .free ∧ e.state ≠ .verifying

theorem Device.usageOk_iff (d : Device) :
    d.usageOk ↔ (∀ i, (d.entry i).inUse = d.openRecords i) ∧
      ∀ a : Addr, ∀ r ∈ (d.transfers a).records, r.NamesIn (d.entry r.index) := Iff.rfl

/-- An entry that is FREE or VERIFYING is named by no record, nor is one whose in-use count is 0. -/
theorem Device.usageOk.unnamed (h : d.usageOk) {i : CatIndex}
    (hi : (d.entry i).inUse = 0 ∨ (d.entry i).state = .verifying ∨ (d.entry i).state = .free) :
    d.openRecords i = 0 := by
  rcases hi with hi | hi
  · rw [← h.1, hi]
  · rw [Device.openRecords_eq_sum, Finset.sum_eq_zero_iff]
    intro a _
    refine List.length_eq_zero_iff.2 (List.filter_eq_nil_iff.2 fun r hr k => ?_)
    obtain ⟨-, -, free, verifying⟩ := h.2 a r hr
    rw [beq_iff_eq.1 k] at free verifying
    exact hi.elim verifying free

/-- An entry that no record names may become any entry of in-use count 0. -/
theorem Device.usageOk.setEntry_unnamed (h : d.usageOk) {i : CatIndex} (hi : d.openRecords i = 0) {x : Entry}
    (hx : x.inUse = 0) : (d.setEntry i x).usageOk := by
  refine ⟨fun j => ?_, fun a r hr => ?_⟩
  · show _ = d.openRecords j
    rw [Device.entry_setEntry]
    split
    · subst j; rw [hx, hi]
    · exact h.1 j
  · rw [Device.entry_setEntry, if_neg fun k => Device.openRecords_eq_zero hi a r hr k.symm]
    exact h.2 a r hr

/-- The tags stay distinct, and the counts true (R15, R127). -/
theorem Moves.usageOk_tagsOk (h : Moves S c b d) (g : c.Good S) : d.usageOk ∧ d.tagsOk := by
  induction h with
  | start => exact ⟨g.usage, g.tags⟩
  | stale h ih => exact ih
  | aside h k ih =>
    obtain ⟨⟨counts, named⟩, tags⟩ := ih
    refine ⟨⟨fun i => ?_, fun a r hr => ?_⟩, fun a => by rw [k.transfers]; exact tags a⟩
    · rw [k.entry, Device.openRecords_congr k.transfers, counts]
    · rw [k.entry]; exact named a r (k.transfers a ▸ hr)
  | records h k hr ih =>
    obtain ⟨⟨counts, named⟩, tags⟩ := ih
    have transfers := Device.transfers_of_records k
    refine ⟨⟨fun i => ?_, fun a r hr => ?_⟩, fun a => by rw [transfers]; exact tags a⟩
    · rw [Device.entry_of_records k, Device.openRecords_congr transfers, counts]
    · rw [Device.entry_of_records k]; exact named a r (transfers a ▸ hr)
  | plan h a p hp ih => exact ih
  | @arranged b d h a t ht ih =>
    obtain ⟨⟨counts, named⟩, tags⟩ := ih
    have keys := ht g
    have perm : ∀ a', (((d.setTransfers a t).transfers a').records.map TransferRecord.key).Perm
        ((d.transfers a').records.map TransferRecord.key) := by
      intro a'
      rw [Device.transfers_setTransfers]
      split
      · subst a'; exact keys
      · exact .refl _
    refine ⟨⟨fun i => ?_, fun a' r hr => ?_⟩, fun a' => ?_⟩
    · have := Device.openRecords_setTransfers d a t i
      have := Transfers.naming_eq_of_keys keys i
      have := counts i
      show (d.entry i).inUse = _
      omega
    · obtain ⟨q, hq, hk⟩ := List.mem_map.1 ((perm a').mem_iff.1 (List.mem_map_of_mem hr))
      have := named a' q hq
      simp only [TransferRecord.key, Prod.mk.injEq] at hk
      obtain ⟨-, hi, hg, hs⟩ := hk
      simpa only [TransferRecord.NamesIn, ← hi, ← hg, ← hs, Device.setTransfers_entry] using this
    · have := ((perm a').map (·.1)).nodup_iff
      simp only [List.map_map] at this
      exact this.2 (tags a')
  | @closed b d h a r hr ih =>
    obtain ⟨⟨counts, named⟩, tags⟩ := ih
    have hmem := hr g
    have removed : ∀ a', ((d.setTransfers a ((d.transfers a).remove r.tag)).transfers a').records.Sublist
        (d.transfers a').records := by
      intro a'
      rw [Device.transfers_setTransfers]
      split
      · subst a'; rw [Transfers.records_remove]; exact List.filter_sublist
      · exact .refl _
    refine ⟨⟨fun i => ?_, fun a' q hq => ?_⟩, fun a' => (tags a').sublist ((removed a').map _)⟩
    · have h1 := Device.openRecords_setTransfers d a ((d.transfers a).remove r.tag) i
      have h2 := Transfers.naming_remove hmem (tags a) i
      have h3 := counts i
      show _ = (d.setTransfers a _).openRecords i
      rw [Device.entry_setEntry]
      by_cases k : r.index = i
      · subst i; simp only [if_true] at h2 ⊢; omega
      · simp only [if_neg k, Device.setTransfers_entry] at h2 ⊢; omega
    · have := named a' q ((removed a').subset hq)
      rw [Device.entry_setEntry]
      split
      · rename_i k; simpa only [TransferRecord.NamesIn, k] using this
      · exact this
  | @opened b d h a t n hO ht ih =>
    obtain ⟨⟨counts, named⟩, tags⟩ := ih
    obtain ⟨keys, fresh, ready, generation, stream⟩ := ht (g.toOpen hO)
    have cons : (t.records.map TransferRecord.key).Perm ((n :: (d.transfers a).records).map TransferRecord.key) := keys
    refine ⟨⟨fun i => ?_, fun a' q hq => ?_⟩, fun a' => ?_⟩
    · have h1 := Device.openRecords_setTransfers d a t i
      have h2 : t.naming i = (d.transfers a).naming i + if n.index = i then 1 else 0 := by
        rw [Transfers.naming_eq_of_keys
          (u := { active := none, stack := n :: (d.transfers a).records, abandonAll := false }) (by exact cons)]
        by_cases k : n.index = i <;> simp [Transfers.naming, Transfers.records, k]
      have h3 := counts i
      show _ = (d.setTransfers a t).openRecords i
      rw [Device.entry_setEntry]
      by_cases k : n.index = i
      · subst i; simp only [if_true] at h2 ⊢; omega
      · simp only [if_neg k, Device.setTransfers_entry] at h2 ⊢; omega
    · have key : q.NamesIn (d.entry q.index) := by
        rw [Device.setEntry_transfers, Device.transfers_setTransfers] at hq
        split at hq
        · obtain ⟨q', hq', hk⟩ := List.mem_map.1 (cons.mem_iff.1 (List.mem_map_of_mem hq))
          simp only [TransferRecord.key, Prod.mk.injEq] at hk
          obtain ⟨-, hi, hg, hs⟩ := hk
          rw [TransferRecord.NamesIn, ← hi, ← hg, ← hs]
          rcases List.mem_cons.1 hq' with rfl | hq'
          · exact ⟨generation, stream, by simp [ready], by simp [ready]⟩
          · exact named a q' hq'
        · exact named a' q hq
      rw [Device.entry_setEntry]
      split
      · rename_i k; simpa only [TransferRecord.NamesIn, k] using key
      · exact key
    · rw [Device.setEntry_transfers, Device.transfers_setTransfers]
      split
      · subst a'
        have := (cons.map (·.1)).nodup_iff
        simp only [List.map_map] at this
        refine this.2 (List.nodup_cons.2 ⟨fun k => ?_, tags a⟩)
        obtain ⟨q, hq, hk⟩ := List.mem_map.1 k
        exact fresh q hq hk
      · exact tags a'
  | freed h i fault hs hf hr hu ih =>
    exact ⟨ih.1.setEntry_unnamed (ih.1.unnamed (hu.imp_right .inl)) rfl, ih.2⟩
  | @restated b d h i x hs hp hu hf hx hr ih =>
    obtain ⟨⟨counts, named⟩, tags⟩ := ih
    obtain ⟨hg, hstream, -⟩ := Entry.posted_eq hp
    refine ⟨⟨fun j => ?_, fun a r hr => ?_⟩, tags⟩
    · show _ = d.openRecords j
      rw [Device.entry_setEntry]
      split
      · subst j; rw [hu, counts]
      · exact counts j
    · have := named a r hr
      rw [Device.entry_setEntry]
      split
      · rename_i k; subst k; exact ⟨hg.trans this.1, hstream.trans this.2.1, hx⟩
      · exact this
  | posted h i x hs hx ih =>
    exact ⟨ih.1.setEntry_unnamed (ih.1.unnamed (.inr (.inr hx.free))) hx.unused, ih.2⟩
  | renewed h ih => exact ih

theorem Moves.tagsOk (h : Moves S c b d) (g : c.Good S) : d.tagsOk := (h.usageOk_tagsOk g).2

/-! ## The life of an entry (R1, R2) -/

/-- What becomes of an entry where no POST comes in: in use it keeps what its POST fixed, until it is FREE with its generation
stepped; FREE it stays so, in its generation (R1, R2). -/
def Entry.Life (e x : Entry) : Prop :=
  (e.state ≠ .free →
    x.state ≠ .free ∧ x.posted = e.posted ∨ x.state = .free ∧ x.generation = stepGeneration e.generation) ∧
  (e.state = .free → x.state = .free ∧ x.generation = e.generation)

theorem Entry.Life.refl (e : Entry) : e.Life e := ⟨fun h => .inl ⟨h, rfl⟩, fun h => ⟨h, rfl⟩⟩

theorem Entry.Life.trans {e x y : Entry} (h : e.Life x) (k : x.Life y) : e.Life y := by
  refine ⟨fun he => ?_, fun he => ?_⟩
  · rcases h.1 he with ⟨hx, hp⟩ | ⟨hx, hg⟩
    · rcases k.1 hx with ⟨hy, kp⟩ | ⟨hy, kg⟩
      · exact .inl ⟨hy, kp.trans hp⟩
      · exact .inr ⟨hy, by rw [kg, (Entry.posted_eq hp).1]⟩
    · exact .inr ⟨(k.2 hx).1, (k.2 hx).2.trans hg⟩
  · obtain ⟨hx, hg⟩ := h.2 he
    exact ⟨(k.2 hx).1, (k.2 hx).2.trans hg⟩

/-- An entry set along its life. -/
theorem Device.life_setEntry (d : Device) (i j : CatIndex) {x : Entry} (h : (d.entry i).Life x) :
    (d.entry j).Life ((d.setEntry i x).entry j) := by
  rw [Device.entry_setEntry]
  split
  · subst j; exact h
  · exact .refl _

theorem Entry.life_inUse (e : Entry) (n : Nat) : e.Life { e with inUse := n } := ⟨fun h => .inl ⟨h, rfl⟩, fun h => ⟨h, rfl⟩⟩

theorem Entry.life_blank {e : Entry} (h : e.state ≠ .free) (fault : FaultCause) :
    e.Life (.blank (stepGeneration e.generation) fault) := ⟨fun _ => .inr ⟨rfl, rfl⟩, fun k => absurd k h⟩

/-- Where no POST comes in, every entry lives on (R1, R2). -/
theorem Moves.life (h : Moves S c b d) (hp : ¬S.post) (i : CatIndex) : (c.entry i).Life (d.entry i) := by
  induction h with
  | start => exact .refl _
  | stale h ih => exact ih
  | aside h k ih => rw [k.entry]; exact ih
  | records h k hr ih => rw [Device.entry_of_records k]; exact ih
  | plan h a p hp ih => exact ih
  | arranged h a t ht ih => exact ih
  | @closed b d h a r hr ih => exact ih.trans (Device.life_setEntry (d.setTransfers a _) _ _ (Entry.life_inUse _ _))
  | @opened b d h a t n hO ht ih => exact ih.trans (Device.life_setEntry (d.setTransfers a t) _ _ (Entry.life_inUse _ _))
  | freed h j fault hs hf hr hu ih => exact ih.trans (Device.life_setEntry _ _ _ (Entry.life_blank hf _))
  | restated h j x hs hp hu hf hx hr ih =>
    exact ih.trans (Device.life_setEntry _ _ _ ⟨fun _ => .inl ⟨hx.1, hp⟩, fun k => absurd k hf⟩)
  | posted h j x hs hx ih => exact absurd hs.2 hp
  | renewed h ih => exact ih

/-! ## Identities and editions (R1, R4, R5) -/

theorem sameIdentity_comm (e f : Entry) : sameIdentity e f = sameIdentity f e := by
  simp only [sameIdentity, Bool.beq_comm]

theorem sameIdentity_congr {e f : Entry} (h : e.posted = f.posted) (x : Entry) : sameIdentity e x = sameIdentity f x := by
  obtain ⟨-, hs, hf, hb, he⟩ := Entry.posted_eq h
  simp only [sameIdentity, hs, hf, hb, he]

/-- No two entries in use share an identity (R1). -/
def Device.identitiesOk (d : Device) : Prop :=
  ∀ i j : CatIndex, i ≠ j → (d.entry i).state ≠ .free → (d.entry j).state ≠ .free →
    sameIdentity (d.entry i) (d.entry j) = false

theorem Device.identitiesOk.setEntry (h : d.identitiesOk) (i : CatIndex) {x : Entry}
    (hx : x.state ≠ .free → ∀ j, i ≠ j → (d.entry j).state ≠ .free → sameIdentity (d.entry j) x = false) :
    (d.setEntry i x).identitiesOk := by
  intro j k hjk hj hk
  rcases eq_or_ne i j with rfl | hij
  · rw [Device.entry_setEntry_self] at hj ⊢
    rw [Device.entry_setEntry, if_neg hjk] at hk ⊢
    rw [sameIdentity_comm]; exact hx hj k hjk hk
  rcases eq_or_ne i k with rfl | hik
  · rw [Device.entry_setEntry_self] at hk ⊢
    rw [Device.entry_setEntry, if_neg hij] at hj ⊢
    exact hx hk j hij hj
  rw [Device.entry_setEntry, if_neg hij] at hj ⊢
  rw [Device.entry_setEntry, if_neg hik] at hk ⊢
  exact h j k hjk hj hk

/-- An entry changed in what it does not share with its identity. -/
theorem Device.identitiesOk.setEntry_posted (h : d.identitiesOk) (i : CatIndex) {x : Entry}
    (hp : x.posted = (d.entry i).posted) (hx : x.state ≠ .free → (d.entry i).state ≠ .free) :
    (d.setEntry i x).identitiesOk :=
  h.setEntry i fun hf j hij hj => by
    rw [sameIdentity_comm, sameIdentity_congr hp]; exact h i j hij (hx hf) hj

theorem Moves.identitiesOk (h : Moves S c b d) (hc : c.identitiesOk) : d.identitiesOk := by
  induction h with
  | start => exact hc
  | stale h ih => exact ih
  | aside h k ih => intro i j; simp only [k.entry]; exact ih i j
  | records h k hr ih => intro i j; simp only [Device.entry_of_records k]; exact ih i j
  | plan h a p hp ih => exact ih
  | arranged h a t ht ih => exact ih
  | @closed b d h a r hr ih =>
    exact Device.identitiesOk.setEntry_posted (d := d.setTransfers a _) ih _ rfl id
  | @opened b d h a t n hO ht ih =>
    exact Device.identitiesOk.setEntry_posted (d := d.setTransfers a _) ih _ rfl id
  | freed h i fault hs hf hr hu ih => exact ih.setEntry i fun k => absurd rfl k
  | restated h i x hs hp hu hf hx hr ih => exact ih.setEntry_posted i hp fun _ => hf
  | posted h i x hs hx ih => exact ih.setEntry i fun _ j _ hj => hx.fresh j hj
  | renewed h ih => exact ih

theorem Device.editionsOk.setEntry (h : d.editionsOk) (i : CatIndex) {x : Entry}
    (hx : x.state ≠ .free → (x.form = .delta → x.base < x.edition) ∧ (x.form = .whole → x.base = 0)) :
    (d.setEntry i x).editionsOk := by
  intro j hj
  rw [Device.entry_setEntry] at hj ⊢
  split at hj
  · rw [if_pos ‹_›]; exact hx hj
  · rw [if_neg ‹_›]; exact h j hj

theorem Moves.editionsOk (h : Moves S c b d) (hc : c.editionsOk) : d.editionsOk := by
  induction h with
  | start => exact hc
  | stale h ih => exact ih
  | aside h k ih => intro i; rw [k.entry]; exact ih i
  | records h k hr ih => intro i; rw [Device.entry_of_records k]; exact ih i
  | plan h a p hp ih => exact ih
  | arranged h a t ht ih => exact ih
  | @closed b d h a r hr ih => exact Device.editionsOk.setEntry (d := d.setTransfers a _) ih _ (ih r.index)
  | @opened b d h a t n hO ht ih => exact Device.editionsOk.setEntry (d := d.setTransfers a _) ih _ (ih n.index)
  | freed h i fault hs hf hr hu ih => exact ih.setEntry i fun k => absurd rfl k
  | restated h i x hs hp hu hf hx hr ih =>
    obtain ⟨-, -, form, base, edition⟩ := Entry.posted_eq hp
    exact ih.setEntry i fun _ => by rw [form, base, edition]; exact ih i hf
  | posted h i x hs hx ih => exact ih.setEntry i fun _ => ⟨hx.delta, hx.whole⟩
  | renewed h ih => exact ih

/-! ## What may not change does not -/

/-- An entry out of scope changes by the closing of its records alone, and by its becoming FREE where it was RETIRING. -/
theorem Moves.entryKept (h : Moves S c b d) {i : CatIndex} (hi : ¬S.entry i) (hc : (c.entry i).state ≠ .retiring) :
    (d.entry i).posted = (c.entry i).posted ∧ (d.entry i).state = (c.entry i).state := by
  induction h with
  | start => exact ⟨rfl, rfl⟩
  | stale h ih => exact ih
  | aside h k ih => rw [k.entry]; exact ih
  | records h k hr ih => rw [Device.entry_of_records k]; exact ih
  | plan h a p hp ih => exact ih
  | arranged h a t ht ih => exact ih
  | @closed b d h a r hr ih =>
    rw [Device.entry_setEntry]
    split
    · rename_i k; subst k; exact ih
    · exact ih
  | @opened b d h a t n hO ht ih =>
    rw [Device.entry_setEntry]
    split
    · rename_i k; subst k; exact ih
    · exact ih
  | freed h j fault hs hf hr hu ih =>
    rw [Device.freeEntry, Device.entry_setEntry, if_neg]
    · exact ih
    · rintro rfl
      exact hs.elim hi fun k => hc (ih.2 ▸ k)
  | restated h j x hs hp hu hf hx hr ih => rw [Device.entry_setEntry, if_neg (by rintro rfl; exact hi hs)]; exact ih
  | posted h j x hs hx ih => rw [Device.entry_setEntry, if_neg (by rintro rfl; exact hi hs.1)]; exact ih
  | renewed h ih => exact ih

theorem Moves.entriesKept (h : Moves S c b d) {except : Option CatIndex} (hs : ∀ i, S.entry i → except = some i) :
    c.entriesKept d except :=
  fun _ hi hc => h.entryKept (fun k => hi (hs _ k)) hc

/-- A validator record changes only as its steps allow. -/
theorem Moves.recordStep (h : Moves S c b d) (a : Addr) : RecordStep S a (c.record a) (d.record a) := by
  induction h with
  | start => exact .refl _ _ _
  | stale h ih => exact ih
  | aside h k ih => rw [k.record]; exact ih
  | records h k hr ih =>
    refine ⟨?_, ?_, (hr a).slots ∘ ih.slots⟩
    · exact ih.learned.elim .inl fun h1 => (hr a).learned.imp_right (·.trans h1)
    · refine ih.reply.elim .inl fun h1 => (hr a).reply.imp_right fun h2 hs => ?_
      obtain ⟨s1, l1⟩ := h2 hs
      exact ⟨(h1 s1).1, l1.trans (h1 s1).2⟩
  | plan h a p hp ih => exact ih
  | arranged h a t ht ih => exact ih
  | closed h a r hr ih => exact ih
  | opened h a t n hO ht ih => exact ih
  | freed h j fault hs hf hr hu ih => exact ih
  | restated h j x hs hp hu hf hx hr ih => exact ih
  | posted h j x hs hx ih => exact ih
  | renewed h ih => exact ih

theorem Moves.learnedKept (h : Moves S c b d) {except : Option Addr} (hs : ∀ a, S.learned a → except = some a) :
    c.learnedKept d except :=
  fun a ha => (h.recordStep a).learned.resolve_left fun k => ha (hs a k)

theorem Moves.framed (h : Moves S c b d) : Framed S c d := by
  induction h with
  | start => exact .refl _ _
  | stale h ih => exact ih
  | aside h k ih => exact ih.trans k.toFramed
  | records h k hr ih => rw [k]; exact { ih with }
  | plan h a p hp ih => exact { ih with }
  | arranged h a t ht ih => exact { ih with }
  | closed h a r hr ih => exact { ih with }
  | opened h a t n hO ht ih => exact { ih with }
  | freed h j fault hs hf hr hu ih => exact { ih with }
  | restated h j x hs hp hu hf hx hr ih => exact { ih with }
  | posted h j x hs hx ih => exact { ih with }
  | renewed h ih => exact ih

end Sys2Proof.Machine
end

