-- ==== Sys2Proof/Proofs/Replanning.lean ====
section
/-! What replanning makes of the plans (R63 to R79): every SEND job it writes names a READY entry, and taking a plan over leaves READY
entries and plans alone. -/

namespace Sys2Proof.Machine

/-! ## The jobs of a plan name READY entries (R3, R63, R72, R73) -/

/-- An entry READY of a stream, as a path's links are. -/
def Device.isLink (d : Device) (s : Stream) (i : CatIndex) : Prop := (d.entry i).state = .ready ∧ (d.entry i).stream = s

theorem Device.isLink_wholeCandidate {d : Device} {s : Stream} {target : Nat} {i : CatIndex}
    (h : d.wholeCandidate s target = some i) : d.isLink s i := by
  have := List.find?_some h
  simp only [Bool.and_eq_true, beq_iff_eq] at this
  exact this.1.1

theorem Device.isLink_deltasFrom {d : Device} {s : Stream} {base : Nat} {i : CatIndex} (h : i ∈ d.deltasFrom s base) :
    d.isLink s i := by
  have := (List.mem_filter.1 h).2
  simp only [Bool.and_eq_true, beq_iff_eq] at this
  exact this.1.1

theorem Device.isLink_chains {d : Device} {s : Stream} {target links base : Nat} {p : List CatIndex}
    (h : p ∈ d.chains s target links base) : ∀ i ∈ p, d.isLink s i := by
  induction links generalizing base p with
  | zero => simp [Device.chains] at h
  | succ links ih =>
    simp only [Device.chains, List.mem_flatMap] at h
    obtain ⟨i, hi, hp⟩ := h
    split at hp
    · simp only [List.mem_singleton] at hp
      subst hp
      simpa using Device.isLink_deltasFrom hi
    · split at hp
      · obtain ⟨q, hq, rfl⟩ := List.mem_map.1 hp
        exact List.forall_mem_cons.2 ⟨Device.isLink_deltasFrom hi, ih hq⟩
      · cases hp

/-- The chain chosen is one of the candidates. -/
theorem Device.bestChain_mem {d : Device} {a : Addr} {candidates : List (List CatIndex)} {p : List CatIndex}
    (h : d.bestChain a candidates = some p) : p ∈ candidates := by
  have key : ∀ (l : List (List CatIndex)) (best : Option (List CatIndex)),
      l.foldl (fun best p =>
        match best with
        | none => some p
        | some q => if d.chainBefore a p q then some p else some q) best = some p → best = some p ∨ p ∈ l := by
    intro l
    induction l with
    | nil => intro best k; exact .inl k
    | cons q l ih =>
      intro best k
      rcases ih _ k with k | k
      · cases best with
        | none => right; simp_all
        | some x => by_cases hb : d.chainBefore a q x <;> simp_all
      · exact .inr (List.mem_cons_of_mem _ k)
  exact (key candidates none h).resolve_left (by simp)

theorem Device.isLink_choosePath {d : Device} {a : Addr} {s : Stream} {held target : Nat} {p : List CatIndex}
    (h : d.choosePath a s held target = some p) : ∀ i ∈ p, d.isLink s i := by
  have chain {q} (hq : d.bestChain a (d.chainCandidates s held target) = some q) : ∀ i ∈ q, d.isLink s i := by
    have := Device.bestChain_mem hq
    unfold Device.chainCandidates at this
    split at this
    · exact Device.isLink_chains this
    · cases this
  have whole {i} (hi : d.wholeCandidate s target = some i) : ∀ j ∈ [i], d.isLink s j := by
    simpa using Device.isLink_wholeCandidate hi
  unfold Device.choosePath at h
  split at h
  · rename_i q i hq hi
    split at h <;> cases h
    · exact chain hq
    · exact whole hi
  · rename_i q hq _; cases h; exact chain hq
  · rename_i i _ hi; cases h; exact whole hi
  · cases h

theorem Device.jobOk_sendJobs {d : Device} {s : Stream} {p : List CatIndex} (h : ∀ i ∈ p, d.isLink s i) (link : Nat) :
    ∀ j ∈ d.sendJobs s p link, d.jobOk j := by
  induction p generalizing link with
  | nil => simp [Device.sendJobs]
  | cons i p ih =>
    obtain ⟨hi, hp⟩ := List.forall_mem_cons.1 h
    exact List.forall_mem_cons.2 ⟨⟨hi.1, rfl, hi.2⟩, ih hp _⟩

theorem jobOk_outsideReach (d : Device) (s : Stream) (k held : Nat) (stop : ReachStop) :
    ∀ j ∈ (outsideReach s k held stop).2, d.jobOk j := by
  unfold outsideReach
  split
  · by_cases h0 : k = 0 <;> by_cases h1 : held = 0 <;> simp [h0, h1, Device.jobOk]
  · simp

theorem Device.jobOk_streamPlan (d : Device) (a : Addr) (reach : Nat × ReachStop) (s : Stream) :
    ∀ j ∈ (d.streamPlan a reach s).2, d.jobOk j := by
  have noJobs : ∀ j ∈ ([] : List Job), d.jobOk j := by simp
  have path : ∀ j ∈ (d.pathStatus a s).2, d.jobOk j := by
    unfold Device.pathStatus
    split
    · exact noJobs
    · rename_i p hp
      split
      · exact Device.jobOk_sendJobs (Device.isLink_choosePath hp) 1
      · exact noJobs
  unfold Device.streamPlan
  dsimp only
  split
  · exact noJobs
  · split
    · exact jobOk_outsideReach _ _ _ _ _
    · split
      · exact noJobs
      · split
        · exact noJobs
        · split
          · exact noJobs
          · exact path

/-- A plan computed names READY entries alone (R3, R63). -/
theorem Device.jobOk_computePlan (d : Device) (a : Addr) : ∀ j ∈ (d.computePlan a).2.2, d.jobOk j := by
  intro j hj
  have jobs : j ∈ (allStreams.map (d.streamPlan a (d.computeReach a))).flatMap (·.2) := by
    rcases List.mem_append.1 (List.mem_of_mem_take hj) with h | h
    · exact (List.mem_filter.1 (List.mem_reverse.1 h)).1
    · exact (List.mem_filter.1 h).1
  obtain ⟨x, hx, hj⟩ := List.mem_flatMap.1 jobs
  obtain ⟨s, -, rfl⟩ := List.mem_map.1 hx
  exact Device.jobOk_streamPlan _ _ _ _ j hj

/-! ## What taking a plan over leaves alone -/

/-- Every plan is as before, and every READY entry is READY still: what the closing of records leaves alone. -/
structure Device.Sheds (d e : Device) : Prop where
  pln : e.pln = d.pln
  ready : d.ReadyKept e

theorem Device.Sheds.refl (d : Device) : d.Sheds d := ⟨rfl, .of_entry fun _ => rfl⟩
theorem Device.Sheds.trans {d e f : Device} (h : d.Sheds e) (k : e.Sheds f) : d.Sheds f :=
  ⟨k.pln.trans h.pln, h.ready.trans k.ready⟩
theorem Device.Sheds.foldl {α : Type} {f : Device → α → Device} (l : List α) (hf : ∀ d x, Device.Sheds d (f d x)) (d : Device) :
    d.Sheds (l.foldl f d) := by
  induction l generalizing d with
  | nil => exact .refl d
  | cons x l ih => exact (hf d x).trans (ih _)

theorem Device.Sheds.of_eq {d e : Device} (hp : e.pln = d.pln) (hc : e.cat = d.cat) : d.Sheds e :=
  ⟨hp, .of_entry fun i => by simp only [Device.entry, hc]⟩

theorem Device.sheds_putRecord (d : Device) (a : Addr) (r : ValRecord) : d.Sheds (d.putRecord a r) := .of_eq rfl rfl
theorem Device.sheds_setRecord (d : Device) (a : Addr) (r : ValRecord) : d.Sheds (d.setRecord a r) := .of_eq rfl rfl
theorem Device.sheds_rosterChanged (d : Device) (a : Addr) (r : ValRecord) : d.Sheds (d.rosterChanged a r) := .of_eq rfl rfl
theorem Device.sheds_reportExit (d : Device) : d.Sheds d.reportExit := .of_eq rfl rfl
theorem Device.sheds_raise (d : Device) (x : Cause) : d.Sheds (d.raise x) := .of_eq rfl rfl
theorem Device.sheds_setTransfers (d : Device) (a : Addr) (t : Transfers) : d.Sheds (d.setTransfers a t) := .of_eq rfl rfl
theorem Device.sheds_giveBack (d : Device) (slot st o n) : d.Sheds (d.giveBack slot st o n) := by
  unfold Device.giveBack; split <;> exact .of_eq rfl rfl

/-- The WITHDRAW waiting on an entry, if one is, returned DONE (R15). -/
def Device.withdrawDone (d : Device) (slot : Option Slot) : Device := slot.elim d fun slot => d.giveBack slot .done .done 0

/-- A RETIRING entry of in-use count 0 becomes FREE, with what is returned and raised for it (R15). -/
theorem Device.freeIfRetired_pos {d : Device} {i : CatIndex} (h : (d.entry i).state = .retiring ∧ (d.entry i).inUse = 0) :
    d.freeIfRetired i =
      if (d.entry i).fault = .checkMismatch ∨ (d.entry i).fault = .fetchFault then
        ((d.freeEntry i (d.entry i).fault).withdrawDone (d.entry i).pendingSlot).raise .catalogue
      else (d.freeEntry i (d.entry i).fault).withdrawDone (d.entry i).pendingSlot := by
  rw [Device.freeIfRetired, if_pos h]
  cases (d.entry i).pendingSlot <;> rfl

theorem Device.freeIfRetired_neg {d : Device} {i : CatIndex}
    (h : ¬((d.entry i).state = .retiring ∧ (d.entry i).inUse = 0)) : d.freeIfRetired i = d := by
  rw [Device.freeIfRetired, if_neg h]

theorem Device.sheds_withdrawDone (d : Device) (slot : Option Slot) : d.Sheds (d.withdrawDone slot) := by
  cases slot
  · exact .refl d
  · exact d.sheds_giveBack _ _ _ _

theorem Device.sheds_freeIfRetired (d : Device) (i : CatIndex) : d.Sheds (d.freeIfRetired i) := by
  by_cases h : (d.entry i).state = .retiring ∧ (d.entry i).inUse = 0
  · have freed : d.Sheds (d.freeEntry i (d.entry i).fault) :=
      ⟨rfl, Device.readyKept_setEntry _ _ _ fun k => by rw [h.1] at k; cases k⟩
    have returned := freed.trans (Device.sheds_withdrawDone _ (d.entry i).pendingSlot)
    rw [Device.freeIfRetired_pos h]
    split
    · exact returned.trans (Device.sheds_raise _ _)
    · exact returned
  · rw [Device.freeIfRetired_neg h]; exact .refl d

theorem Device.sheds_closeRecord (d : Device) (a : Addr) (r : TransferRecord) : d.Sheds (d.closeRecord a r) := by
  have closed : (d.setTransfers a ((d.transfers a).remove r.tag)).Sheds ((d.setTransfers a ((d.transfers a).remove r.tag)).setEntry r.index
      { d.entry r.index with inUse := (d.entry r.index).inUse - 1 }) :=
    ⟨rfl, Device.readyKept_setEntry (d.setTransfers a _) _ _ fun k => ⟨k, rfl, rfl⟩⟩
  exact (d.sheds_setTransfers a _).trans
    (closed.trans ((Device.sheds_freeIfRetired _ r.index).trans (Device.sheds_setRecord _ a _)))

theorem Device.sheds_dropRecords (d : Device) (a : Addr) (pick) : d.Sheds (d.dropRecords a pick) :=
  .foldl _ (fun d r => d.sheds_closeRecord a r) d

theorem Device.sheds_dropMarkedIfAway (d : Device) (a : Addr) : d.Sheds (d.dropMarkedIfAway a) := by
  unfold Device.dropMarkedIfAway; split
  · exact .refl d
  · exact d.sheds_dropRecords a _

theorem Device.sheds_markRecords (d : Device) (a : Addr) (pick) : d.Sheds (d.markRecords a pick) := by
  unfold Device.markRecords
  extract_lets t d1 d2
  have h1 : d.Sheds d1 := d.sheds_setTransfers a _
  have h2 : d1.Sheds d2 := .foldl _ (fun d r => d.sheds_setRecord a _) d1
  exact (h1.trans h2).trans (d2.sheds_dropMarkedIfAway a)

theorem Device.sheds_takePlan (d : Device) (a : Addr) : d.Sheds (d.takePlan a) := by
  unfold Device.takePlan
  extract_lets d1
  have h1 : d.Sheds d1 := d.sheds_markRecords a _
  exact h1.trans (.foldl _ (fun d r => d.sheds_putRecord a _) d1)

/-! ## What a replan makes of a plan -/

/-- The plan that a replan writes (R42, R64, R66). -/
def Device.planFor (d : Device) (a : Addr) : List Job :=
  if (d.record a).presence = .present ∨ (d.record a).presence = .silent then (d.computePlan a).2.2 else []

theorem Device.jobOk_planFor (d : Device) (a : Addr) : ∀ j ∈ d.planFor a, d.jobOk j := by
  unfold Device.planFor
  split
  · exact d.jobOk_computePlan a
  · simp

/-- The part with a computed plan taken over by XFR (R68 steps 5 to 7), the record handed over if it has changed. -/
def Device.replanned (d : Device) (a : Addr) : Device :=
  (((d.setPlan a (d.computePlan a).2.2).putRecord a
    ((d.record a).planned (d.computePlan a).1 (d.computePlan a).2.1)).takePlan a).rosterChanged a (d.record a)

theorem Device.replan_pos {d : Device} {a : Addr} (h : (d.record a).presence = .present ∨ (d.record a).presence = .silent) :
    d.replan a =
      if hasNewJob (d.plan a) (d.computePlan a).2.2 then (d.replanned a).reportExit else d.replanned a := by
  rw [Device.replan, if_pos h]; rfl

theorem Device.replan_neg {d : Device} {a : Addr}
    (h : ¬((d.record a).presence = .present ∨ (d.record a).presence = .silent)) :
    d.replan a = (d.emptyPlan a).takePlan a := by
  rw [Device.replan, if_neg h]

/-- A replan is its plan set, then a change that leaves plans and READY entries alone. -/
theorem Device.sheds_replan (d : Device) (a : Addr) : (d.setPlan a (d.planFor a)).Sheds (d.replan a) := by
  by_cases h : (d.record a).presence = .present ∨ (d.record a).presence = .silent
  · rw [Device.replan_pos h, Device.planFor, if_pos h]
    have planned : (d.setPlan a (d.computePlan a).2.2).Sheds (d.replanned a) :=
      (Device.sheds_putRecord _ a _).trans ((Device.sheds_takePlan _ a).trans (Device.sheds_rosterChanged _ a _))
    split
    · exact planned.trans (Device.sheds_reportExit _)
    · exact planned
  · rw [Device.replan_neg h, Device.planFor, if_neg h]
    exact (Device.sheds_setRecord (d.setPlan a []) a _).trans (Device.sheds_takePlan _ a)

theorem Device.plan_replan (d : Device) (a b : Addr) :
    (d.replan a).plan b = if a = b then d.planFor a else d.plan b := by
  have h : (d.replan a).plan b = (d.setPlan a (d.planFor a)).plan b := by
    simp only [Device.plan, (d.sheds_replan a).pln]
  rw [h, Device.plan_setPlan]

theorem Device.readyKept_replan (d : Device) (a : Addr) : d.ReadyKept (d.replan a) := (d.sheds_replan a).ready

/-- After a replan of every validator every plan names READY entries (R67). -/
theorem Device.plansOk_replanAll (d : Device) : d.replanAll.plansOk := by
  have key : ∀ (l : List Addr) (d : Device) (a : Addr), (a ∈ l ∨ ∀ j ∈ d.plan a, d.jobOk j) →
      ∀ j ∈ (l.foldl (fun d a => d.replan a) d).plan a, (l.foldl (fun d a => d.replan a) d).jobOk j := by
    intro l
    induction l with
    | nil => intro d a h; exact h.resolve_left (by simp)
    | cons x l ih =>
      intro d a h
      refine ih (d.replan x) a ?_
      rcases h with h | h
      · rcases List.mem_cons.1 h with rfl | h
        · right
          rw [Device.plan_replan, if_pos rfl]
          exact fun j hj => (d.readyKept_replan a).jobOk (d.jobOk_planFor a j hj)
        · exact .inl h
      · right
        intro j hj
        rw [Device.plan_replan] at hj
        split at hj
        · subst x; exact (d.readyKept_replan a).jobOk (d.jobOk_planFor a j hj)
        · exact (d.readyKept_replan x).jobOk (h j hj)
  rw [Device.plansOk_iff]
  exact fun a => key allAddrs d a (.inl (by revert a; decide))

/-- The plans stay true but while they are stale (R3, R63, R67). -/
theorem Moves.plansOk {S : Scope} {c d : Device} (h : Moves S c false d) (hc : c.plansOk) : d.plansOk :=
  h.plansOk_of Device.plansOk_replanAll rfl hc

end Sys2Proof.Machine
end

