-- ==== Sys2Proof/Proofs/Operations.lean ====
section
/-! Each operation of the blocks is a chain of elementary changes (`Moves`), under the scope that its rules give it. The lemmas follow
the order of the model's files. -/

namespace Sys2Proof.Machine

/-! ## What of a record ROS has learned -/

/-- A record changed in its streams but for the held editions, in reach and in the reply time shown, has learned nothing. -/
theorem ValRecord.learned_eq {r r' : ValRecord} (held : ∀ s, r'.heldOf s = r.heldOf s)
    (rest : { r' with streams := r.streams, reach := r.reach, replyTime := r.replyTime } = r) : r'.learned = r.learned := by
  have streams : ∀ k : Fin 5, r'.streams[k].held = r.streams[k].held := by
    intro k
    fin_cases k
    · exact held .blockT0
    · exact held .fare
    · exact held .blockT1
    · exact held .blockT2
    · exact held .blockT3
  unfold ValRecord.learned ValRecord.mapCells
  simp only [streams]
  exact congrArg (fun q : ValRecord => { q with
    streams := Vector.ofFn fun k => { status := .idle, held := r.streams[k].held, rejects := 0, hold := false, room := false }
    reach := 0, replyTime := .shown }) rest

theorem ValRecord.learned_setCell (r : ValRecord) (s : Stream) {x : StreamCell} (h : x.held = (r.cell s).held) :
    (r.setCell s x).learned = r.learned := by
  refine ValRecord.learned_eq (fun t => ?_) rfl
  rw [ValRecord.heldOf, ValRecord.cell_setCell]
  split
  · subst t; exact h
  · rfl

theorem ValRecord.learned_setStatus (r : ValRecord) (s : Stream) (st : StreamStatus) :
    (r.setStatus s st).learned = r.learned := r.learned_setCell s rfl

theorem ValRecord.learned_mapCells (r : ValRecord) {f : StreamCell → StreamCell} (h : ∀ x, (f x).held = x.held) :
    (r.mapCells f).learned = r.learned :=
  ValRecord.learned_eq (fun s => by rw [ValRecord.heldOf, ValRecord.cell_mapCells, h]; rfl) rfl

theorem ValRecord.learned_planned (r : ValRecord) (reach : Nat) (l : List StreamStatus) :
    (r.planned reach l).learned = r.learned :=
  ValRecord.learned_eq (fun s => by simp [ValRecord.heldOf, ValRecord.cell, ValRecord.planned]) rfl

/-- A fold of cell changes that keep what is held. -/
theorem ValRecord.learned_foldl (r : ValRecord) (l : List Stream) {f : StreamCell → StreamCell} (h : ∀ x, (f x).held = x.held) :
    (l.foldl (fun r s => r.setCell s (f (r.cell s))) r).learned = r.learned := by
  induction l generalizing r with
  | nil => rfl
  | cons s l ih => exact (ih _).trans (r.learned_setCell s (h _))

theorem ValRecord.learned_retargeted (r : ValRecord) (l : List Stream) : (r.retargeted l).learned = r.learned :=
  r.learned_foldl l (f := fun x => { x with rejects := 0, hold := false, room := false }) fun _ => rfl

theorem ValRecord.retargeted_replyTime (r : ValRecord) (l : List Stream) : (r.retargeted l).replyTime = r.replyTime := by
  have := congrArg ValRecord.replyTime (r.retargeted_streams l)
  exact this

theorem ValRecord.learned_roomsCleared (r q : ValRecord) : (r.roomsCleared q).learned = r.learned := by
  unfold ValRecord.roomsCleared
  extract_lets src fare
  have hfare : fare.learned = r.learned := by
    unfold fare
    split
    · exact r.learned_setCell _ rfl
    · rfl
  split
  · exact (fare.learned_foldl tierStreams (f := fun x => { x with room := false }) fun _ => rfl).trans hfare
  · exact hfare

theorem ValRecord.roomsCleared_replyTime (r q : ValRecord) : (r.roomsCleared q).replyTime = r.replyTime := by
  unfold ValRecord.roomsCleared
  extract_lets src fare
  have hfare : fare.replyTime = r.replyTime := by
    unfold fare
    split <;> rfl
  split
  · exact hfare
  · exact hfare

theorem ValRecord.filled_replyTime (r : ValRecord) (f : StatusFields) :
    (r.filled f).replyTime = r.replyTime ∧ (r.filled f).lastReply = r.lastReply := ⟨rfl, rfl⟩
theorem ValRecord.filled_openSlots (r : ValRecord) (f : StatusFields) : (r.filled f).openSlots = f.openSlots.toNat := rfl

theorem ValRecord.learned_cycleOver (r : ValRecord) : r.cycleOver.learned = r.learned := rfl

/-- What is learned tells the fields other than those replanning and rewriting touch. -/
theorem ValRecord.of_learned {r r' : ValRecord} (h : r'.learned = r.learned) :
    r'.presence = r.presence ∧ r'.openSlots = r.openSlots ∧ r'.lastReply = r.lastReply := by
  have p := congrArg ValRecord.presence h
  have o := congrArg ValRecord.openSlots h
  have l := congrArg ValRecord.lastReply h
  exact ⟨p, o, l⟩

theorem RecordStep.of_learned {S : Scope} {a : Addr} {r r' : ValRecord} (h : r'.learned = r.learned)
    (ht : r'.replyTime = r.replyTime) : RecordStep S a r r' where
  learned := .inr h
  reply := .inr fun k => ⟨ht ▸ k, (ValRecord.of_learned h).2.2⟩
  slots := by rw [(ValRecord.of_learned h).2.1]; exact id

variable {S : Scope} {c d : Device} {b : Bool}

/-! ## Changes of one record -/

theorem Device.moves_setRecord {a : Addr} {r : ValRecord} (h : Moves S c b d) (hr : RecordStep S a (d.record a) r) :
    Moves S c b (d.setRecord a r) :=
  h.records rfl fun x => by
    rw [Device.record_setRecord]
    split
    · subst x; exact hr
    · exact .refl _ _ _

theorem Device.moves_putRecord {a : Addr} {r : ValRecord} (h : Moves S c b d) (hr : RecordStep S a (d.record a) r) :
    Moves S c b (d.putRecord a r) :=
  h.records rfl fun x => by
    rw [Device.record_putRecord]
    split
    · subst x; exact hr
    · exact .refl _ _ _

theorem Device.moves_mapRecords {f : Addr → ValRecord → ValRecord} (h : Moves S c b d) (hf : ∀ a, RecordStep S a (d.record a) (f a (d.record a))) : Moves S c b (d.mapRecords f) :=
  h.records rfl fun a => by rw [Device.record_mapRecords]; exact hf a

/-- A record changed at an address of which ROS may learn, its reply time and open slots kept. -/
theorem Device.moves_setRecord_learning {a : Addr} {r : ValRecord} (h : Moves S c b d) (hL : S.learned a) (ht : r.replyTime = (d.record a).replyTime ∧ r.lastReply = (d.record a).lastReply) (hs : r.openSlots = (d.record a).openSlots) : Moves S c b (d.setRecord a r) :=
  Device.moves_setRecord h
    { learned := .inl hL, reply := .inr fun k => ⟨ht.1 ▸ k, ht.2⟩, slots := by rw [hs]; exact id }

@[simp] theorem Device.moves_rosterChanged {a r} (h : Moves S c b d) : Moves S c b (d.rosterChanged a r) :=
  h.aside { Aside.refl S d with }
@[simp] theorem Device.moves_handOver {p} (h : Moves S c b d) : Moves S c b (d.handOver p) := h.aside { Aside.refl S d with }
@[simp] theorem Device.moves_raise {x} (h : Moves S c b d) : Moves S c b (d.raise x) :=
  h.aside { Aside.refl S d with }
@[simp] theorem Device.moves_reportExit (h : Moves S c b d) : Moves S c b d.reportExit := h.aside { Aside.refl S d with }
@[simp] theorem Device.moves_giveBack {slot st o n} (h : Moves S c b d) : Moves S c b (d.giveBack slot st o n) := by
  unfold Device.giveBack; split <;> simp [h]
theorem Device.moves_withdrawDone {slot} (h : Moves S c b d) : Moves S c b (d.withdrawDone slot) := by
  cases slot
  · exact h
  · exact Device.moves_giveBack h
@[simp] theorem Device.moves_setAct {x} (h : Moves S c b d) (hA : S.act) : Moves S c b (d.setAct x) :=
  h.aside { Aside.refl S d with act := .inl hA }
@[simp] theorem Device.moves_setStanding {a x} (h : Moves S c b d) (hA : S.act) : Moves S c b (d.setStanding a x) :=
  Device.moves_setAct h hA
@[simp] theorem Device.moves_setHot {x} (h : Moves S c b d) (hH : S.hot) : Moves S c b (d.setHot x) :=
  h.aside { Aside.refl S d with htq := .inl hH }
/-- LNC's state replaced. -/
theorem Device.moves_lnc {l : LineController} (h : Moves S c b d) (hN : S.lnc) : Moves S c b { d with lnc := l } :=
  h.aside { Aside.refl S d with lnc := .inl hN }
/-- The verify queue replaced. -/
theorem Device.moves_vfy {v : Verifier} (h : Moves S c b d) (hV : S.vfy) : Moves S c b { d with vfy := v } :=
  h.aside { Aside.refl S d with vfy := .inl hV }
@[simp] theorem Device.moves_unqueue {i} (h : Moves S c b d) (hV : S.vfy) : Moves S c b (d.unqueue i) :=
  Device.moves_vfy h hV

/-! ## XFR: closing and marking -/

/-- A RETIRING entry becomes FREE in any scope. -/
@[simp] theorem Device.moves_freeIfRetired {i} (h : Moves S c b d) : Moves S c b (d.freeIfRetired i) := by
  by_cases k : (d.entry i).state = .retiring ∧ (d.entry i).inUse = 0
  · have freed : Moves S c b (d.freeEntry i (d.entry i).fault) :=
      h.freed i _ (.inr k.1) (by simp [k.1]) (by simp [k.1]) (.inl k.2)
    rw [Device.freeIfRetired_pos k]
    split
    · exact Device.moves_raise (Device.moves_withdrawDone freed)
    · exact Device.moves_withdrawDone freed
  · rw [Device.freeIfRetired_neg k]; exact h

@[simp] theorem Device.moves_fixStatus {a s} (h : Moves S c b d) : Moves S c b (d.fixStatus a s) :=
  Device.moves_setRecord h (.of_learned (ValRecord.learned_setStatus _ _ _) rfl)

theorem Device.moves_closeRecord {a r} (h : Moves S c b d) (hr : c.Good S → r ∈ (d.transfers a).records) :
    Moves S c b (d.closeRecord a r) :=
  Device.moves_fixStatus (Device.moves_freeIfRetired (h.closed a r hr))

theorem Device.moves_closeByTag {a} {tag r} (h : Moves S c b d) (hr : (d.transfers a).byTag tag = some r) :
    Moves S c b (d.closeRecord a r) := Device.moves_closeRecord h fun _ => (Transfers.byTag_mem hr).1

theorem Device.xfr_freeIfRetired (d : Device) (i : CatIndex) : (d.freeIfRetired i).xfr = d.xfr := by
  have done (e : Device) (slot : Option Slot) : (e.withdrawDone slot).xfr = e.xfr := by
    cases slot
    · rfl
    · simp only [Device.withdrawDone, Option.elim, Device.giveBack]; split <;> rfl
  by_cases k : (d.entry i).state = .retiring ∧ (d.entry i).inUse = 0
  · rw [Device.freeIfRetired_pos k]
    split
    · exact done _ _
    · exact done _ _
  · rw [Device.freeIfRetired_neg k]

/-- A closed record has left its place, and no other record has moved (R128). -/
theorem Device.transfers_closeRecord (d : Device) (a a' : Addr) (r : TransferRecord) :
    (d.closeRecord a r).transfers a' = if a = a' then (d.transfers a).remove r.tag else d.transfers a' := by
  have : (d.closeRecord a r).transfers a' = (d.setTransfers a ((d.transfers a).remove r.tag)).transfers a' := by
    unfold Device.closeRecord Device.entryClosed Device.fixStatus
    simp only [Device.transfers, Device.setRecord_xfr, Device.xfr_freeIfRetired, Device.setEntry_xfr]
  rw [this, Device.transfers_setTransfers]

/-- Records dropped one after another: each stands when its turn comes, the tags being distinct. -/
theorem Device.moves_closeRecords {a : Addr} {l : List TransferRecord} (h : Moves S c b d)
    (hl : c.Good S → (l.map (·.tag)).Nodup ∧ ∀ r ∈ l, r ∈ (d.transfers a).records) :
    Moves S c b (l.foldl (fun d r => d.closeRecord a r) d) := by
  induction l generalizing d with
  | nil => exact h
  | cons r l ih =>
    refine ih (Device.moves_closeRecord h fun g => (hl g).2 r (by simp)) fun g => ?_
    obtain ⟨tags, mem⟩ := hl g
    rw [List.map_cons, List.nodup_cons] at tags
    refine ⟨tags.2, fun q hq => ?_⟩
    rw [Device.transfers_closeRecord, if_pos rfl, Transfers.records_remove]
    refine List.mem_filter.2 ⟨mem q (List.mem_cons_of_mem _ hq), ?_⟩
    have : q.tag ≠ r.tag := fun k => tags.1 (k ▸ List.mem_map_of_mem hq)
    simpa using this

@[simp] theorem Device.moves_dropRecords {a pick} (h : Moves S c b d) : Moves S c b (d.dropRecords a pick) := by
  refine Device.moves_closeRecords h fun g => ⟨?_, fun r hr => ?_⟩
  · rw [List.map_reverse, List.nodup_reverse]
    exact (h.tagsOk g a).sublist (List.filter_sublist.map _)
  · exact (List.mem_filter.1 (List.mem_reverse.1 hr)).1

/-- Records dropped: those under other tags stay, and other validators' records do (R128). -/
theorem Device.records_closeRecords (a : Addr) (l : List TransferRecord) (d : Device) :
    ((l.foldl (fun d r => d.closeRecord a r) d).transfers a).records =
      (d.transfers a).records.filter fun q => l.all fun r => q.tag != r.tag := by
  induction l generalizing d with
  | nil => simp
  | cons r l ih =>
    rw [List.foldl_cons, ih, Device.transfers_closeRecord, if_pos rfl, Transfers.records_remove, List.filter_filter]
    exact List.filter_congr fun q _ => by simp [Bool.and_comm]

theorem Device.records_dropRecords_all (d : Device) (a : Addr) :
    ((d.dropRecords a fun _ => true).transfers a).records = [] := by
  rw [Device.dropRecords, Device.records_closeRecords, List.filter_eq_nil_iff]
  intro q hq k
  have := List.all_eq_true.1 k q (by simpa using hq)
  simp at this

@[simp] theorem Device.moves_dropAll {a x} (h : Moves S c b d) : Moves S c b (d.dropAll a x) :=
  (Device.moves_dropRecords h).arranged a _ fun _ => by rw [Device.records_dropRecords_all]; exact .refl _
@[simp] theorem Device.moves_dropMarkedIfAway {a} (h : Moves S c b d) : Moves S c b (d.dropMarkedIfAway a) := by
  unfold Device.dropMarkedIfAway; split <;> simp [h]
/-- Records changed in their place, each naming what it did. -/
theorem Device.moves_change {a : Addr} {pick} {f : TransferRecord → TransferRecord} (h : Moves S c b d) (hf : ∀ r, (f r).key = r.key) : Moves S c b (d.setTransfers a ((d.transfers a).change pick f)) :=
  h.arranged a _ fun _ => by rw [Transfers.keys_change _ _ hf]
theorem Device.moves_changeRecord {a tag} {f : TransferRecord → TransferRecord} (h : Moves S c b d) (hf : ∀ r, (f r).key = r.key) : Moves S c b (d.changeRecord a tag f) := Device.moves_change h hf
@[simp] theorem Device.moves_goBack {a tag} (h : Moves S c b d) : Moves S c b (d.changeRecord a tag (·.goBack)) :=
  Device.moves_changeRecord h fun _ => rfl
@[simp] theorem Device.moves_at {a tag x} (h : Moves S c b d) : Moves S c b (d.changeRecord a tag (·.at x)) :=
  Device.moves_changeRecord h fun _ => rfl
@[simp] theorem Device.moves_markRecords {a pick} (h : Moves S c b d) : Moves S c b (d.markRecords a pick) := by
  unfold Device.markRecords
  extract_lets t d1 d2
  have h1 : Moves S c b d1 := Device.moves_change h fun _ => rfl
  exact Device.moves_dropMarkedIfAway (.foldl _ (fun d r k => Device.moves_fixStatus k) h1)
@[simp] theorem Device.moves_markEntry {i} (h : Moves S c b d) : Moves S c b (d.markEntry i) :=
  .foldl _ (fun _ a k => Device.moves_markRecords k) h
@[simp] theorem Device.moves_takePlan {a} (h : Moves S c b d) : Moves S c b (d.takePlan a) := by
  unfold Device.takePlan
  exact .foldl _ (fun d r k => Device.moves_putRecord k (.of_learned (ValRecord.learned_setStatus _ _ _) rfl))
    (Device.moves_markRecords h)
@[simp] theorem Device.moves_openSlotsLowered {a n} (h : Moves S c b d) : Moves S c b (d.openSlotsLowered a n) :=
  Device.moves_dropRecords h

/-! ## XFR: the arrangement of an offer (R127, R129) -/

/-- What the arrangement of an offer asks of the records as they stand: the same records, or one more, under a tag of its own, for a
READY entry. -/
def Offer.Fits (c : Device) (a : Addr) : Offer → Prop
  | .next t true n => c.GoodToOpen →
      (t.records.map TransferRecord.key).Perm (n.key :: (c.transfers a).records.map TransferRecord.key) ∧
        (∀ r ∈ (c.transfers a).records, r.tag ≠ n.tag) ∧
        (c.entry n.index).state = .ready ∧ (c.entry n.index).generation = n.generation ∧ (c.entry n.index).stream = n.stream
  | .next t false _ => c.GoodToOpen →
      (t.records.map TransferRecord.key).Perm ((c.transfers a).records.map TransferRecord.key)
  | _ => True

/-- With at most 3 records a tag of 0 to 3 is free (R127). -/
theorem Transfers.freeTag_fresh {t : Transfers} (h : t.records.length ≤ 3) : ∀ r ∈ t.records, r.tag ≠ t.freeTag := by
  have some_free : ∃ n ∈ [0, 1, 2, 3], (t.byTag n).isNone := by
    by_contra k
    have taken : ∀ n ∈ [0, 1, 2, 3], n ∈ t.records.map (·.tag) := by
      intro n hn
      by_contra hn'
      refine k ⟨n, hn, ?_⟩
      rw [Option.isNone_iff_eq_none, Transfers.byTag, List.find?_eq_none]
      exact fun r hr hk => hn' (beq_iff_eq.1 hk ▸ List.mem_map_of_mem hr)
    have := (List.subperm_of_subset (by decide : [0, 1, 2, 3].Nodup) taken).length_le
    simp at this; omega
  obtain ⟨n, hn⟩ := Option.isSome_iff_exists.1 (List.find?_isSome.2 some_free)
  have free := List.find?_some hn
  intro r hr k
  rw [Transfers.freeTag, hn, Option.getD_some] at k
  rw [Option.isNone_iff_eq_none, Transfers.byTag, List.find?_eq_none] at free
  exact free r hr (beq_iff_eq.2 k)

theorem sendHead_mem {l : List Job} {s : Stream} {i : CatIndex} {g : Nat} (h : sendHead l = some (s, i, g)) :
    ∃ link, Job.send s i g link ∈ l := by
  induction l with
  | nil => cases h
  | cons j l ih =>
    cases j with
    | send s' i' g' link => cases h; exact ⟨link, by simp⟩
    | drop => exact (ih h).imp fun _ k => List.mem_cons_of_mem _ k

/-- The send head names a READY entry while the plans are true. -/
theorem Device.GoodToOpen.sendHead {a : Addr} {s : Stream} {i : CatIndex} {g : Nat} (h : c.GoodToOpen)
    (k : sendHead (c.plan a) = some (s, i, g)) :
    (c.entry i).state = .ready ∧ (c.entry i).generation = g ∧ (c.entry i).stream = s := by
  obtain ⟨link, hj⟩ := sendHead_mem k
  exact (Device.plansOk_iff c).1 (h.plans trivial) a _ hj

/-- A stacked record taken out and put in front of the stack, whatever comes between. -/
theorem perm_of_stacked {l : List TransferRecord} {q : TransferRecord} (h : q ∈ l) (hn : (l.map (·.tag)).Nodup)
    (top : List TransferRecord) :
    ((q :: (top ++ l.filter (·.tag != q.tag))).map TransferRecord.key).Perm ((top ++ l).map TransferRecord.key) :=
  List.Perm.map _ (List.perm_middle.symm.trans ((perm_cons_remove h hn).symm.append_left top))

theorem Device.fits_arrange {a : Addr} {o : Offer} (h : c.arrange a = some o) : o.Fits c a := by
  have stack (g : c.GoodToOpen) : ((c.transfers a).stack.map (·.tag)).Nodup :=
    (g.tags a).sublist ((List.sublist_append_right _ _).map _)
  have stacked {i g q} (hq : (c.transfers a).stacked i g = some q) : q ∈ (c.transfers a).stack :=
    List.mem_of_find?_eq_some hq
  unfold Device.arrange at h
  extract_lets t slots at h
  split at h
  · cases h
  · cases h; exact fun _ => .refl _
  · rename_i r s i g active head
    have records : t.records = r :: t.stack := by rw [Transfers.records, active]; rfl
    split at h
    · split at h
      · rename_i q hq
        cases h
        intro good
        show List.Perm _ (t.records.map _)
        rw [records]
        exact perm_of_stacked (stacked hq) (stack good) [r]
      · split at h
        · rename_i room
          cases h
          intro good
          simp only [Bool.and_eq_true, decide_eq_true_eq] at room
          have := good.slots a
          have few : t.records.length ≤ 3 := by rw [records]; simp only [List.length_cons]; omega
          refine ⟨?_, Transfers.freeTag_fresh few, Device.GoodToOpen.sendHead good head⟩
          show List.Perm _ (_ :: t.records.map _)
          rw [records]; exact .refl _
        · cases h; exact fun _ => .refl _
    · cases h; exact fun _ => .refl _
  · rename_i s i g active head
    have records : t.records = t.stack := by rw [Transfers.records, active]; rfl
    split at h
    · rename_i q hq
      cases h
      intro good
      show List.Perm _ (t.records.map _)
      rw [records]
      exact perm_of_stacked (stacked hq) (stack good) []
    · split at h
      · rename_i room
        cases h
        intro good
        simp only [Bool.and_eq_true, decide_eq_true_eq] at room
        have := good.slots a
        have few : t.records.length ≤ 3 := by rw [records]; omega
        refine ⟨?_, Transfers.freeTag_fresh few, Device.GoodToOpen.sendHead good head⟩
        show List.Perm _ (_ :: t.records.map _)
        rw [records]; exact .refl _
      · cases h

theorem Device.fits_offer {a : Addr} {o : Offer} (h : c.offer a = some o) : o.Fits c a := by
  unfold Device.offer at h
  dsimp only at h
  split at h
  · cases h; trivial
  · split at h
    · cases h; trivial
    · split at h
      · split at h
        · exact Device.fits_arrange h
        · cases h; trivial
      · exact Device.fits_arrange h

theorem Device.moves_makeOffer {a : Addr} {o : Offer} (hO : S.opens) (h : Moves S c b d) (ht : d.xfr = c.xfr) (he : d.cat = c.cat) (ho : o.Fits c a) : Moves S c b (d.makeOffer a o) := by
  have transfers : d.transfers a = c.transfers a := by simp only [Device.transfers, ht]
  have entry (i) : d.entry i = c.entry i := by simp only [Device.entry, he]
  cases o with
  | next t created n =>
    refine .foldl _ (fun d r k => Device.moves_fixStatus k) ?_
    cases created with
    | true => exact h.opened a t n hO fun g => by rw [transfers, entry]; exact ho g
    | false => exact h.arranged a t fun g => by rw [transfers]; exact ho (g.toOpen hO)
  | _ => exact h

/-! ## PLN -/

@[simp] theorem Device.moves_emptyPlan {a} (h : Moves S c b d) : Moves S c b (d.emptyPlan a) :=
  Device.moves_setRecord (h.plan a [] (by simp)) (.of_learned (ValRecord.learned_planned _ _ _) rfl)
@[simp] theorem Device.moves_replan {a} (h : Moves S c b d) : Moves S c b (d.replan a) := by
  by_cases k : (d.record a).presence = .present ∨ (d.record a).presence = .silent
  · have h1 : Moves S c b (d.setPlan a (d.computePlan a).2.2) := h.plan a _ fun j hj => .inr (d.jobOk_computePlan a j hj)
    have h2 : Moves S c b (d.replanned a) :=
      Device.moves_rosterChanged (Device.moves_takePlan
        (Device.moves_putRecord h1 (.of_learned (ValRecord.learned_planned _ _ _) rfl)))
    rw [Device.replan_pos k]
    split
    · exact Device.moves_reportExit h2
    · exact h2
  · rw [Device.replan_neg k]; simp [h]
@[simp] theorem Device.moves_replanAll (h : Moves S c b d) : Moves S c b d.replanAll :=
  .foldl _ (fun _ a k => Device.moves_replan k) h
/-- READY entries may have left READY before every validator is replanned (R67). -/
theorem Device.renewed_replanAll (h : Moves S c b d) : Moves S c false d.replanAll := (Device.moves_replanAll h).renewed
@[simp] theorem Device.moves_removeSend {a r} (h : Moves S c b d) : Moves S c b (d.removeSend a r) :=
  h.plan a _ fun _ hj => .inl (List.mem_filter.1 hj).1
@[simp] theorem Device.moves_removeDrop {a s} (h : Moves S c b d) : Moves S c b (d.removeDrop a s) :=
  h.plan a _ fun _ hj => .inl (List.mem_filter.1 hj).1

/-! ## HTQ -/

section
variable (hH : S.hot)
include hH

@[simp] theorem Device.moves_judgeRetirement (h : Moves S c b d) : Moves S c b d.judgeRetirement :=
  Device.moves_setHot h hH
@[simp] theorem Device.moves_restartDone {a} (h : Moves S c b d) : Moves S c b (d.restartDone a) :=
  h.aside { Aside.refl S d with htq := .inl hH }

end

section
variable {a : Addr} (hL : S.learned a)
include hL

theorem Device.moves_setHotStatus {st} (h : Moves S c b d) : Moves S c b (d.setHotStatus a st) := by
  unfold Device.setHotStatus
  dsimp only
  have h1 : Moves S c b (d.setRecord a { d.record a with hotStatus := st }) :=
    Device.moves_setRecord_learning h hL ⟨rfl, rfl⟩ rfl
  split <;> simp [h1]
theorem Device.moves_heldBlockChanged (h : Moves S c b d) : Moves S c b (d.heldBlockChanged a) := by
  unfold Device.heldBlockChanged
  split
  · exact Device.moves_setHotStatus hL h
  · exact h
theorem Device.moves_hotStatusOnStatus {r} (h : Moves S c b d) : Moves S c b (d.hotStatusOnStatus a r) := by
  unfold Device.hotStatusOnStatus
  dsimp only
  split
  · exact Device.moves_setHotStatus hL h
  · split
    · exact Device.moves_setHotStatus hL h
    · split
      · exact Device.moves_heldBlockChanged hL h
      · exact h
theorem Device.moves_hotReported {x y} (hH : S.hot) (h : Moves S c b d) : Moves S c b (d.hotReported a x y) := by
  unfold Device.hotReported
  extract_lets q joins keep src d1
  have h1 : Moves S c b d1 := Device.moves_setRecord_learning h hL ⟨rfl, rfl⟩ rfl
  split
  · exact h1.aside { Aside.refl S d1 with htq := .inl hH }
  · exact h1

end

/-! ## ACT and TGT -/

section
variable (hA : S.act)
include hA

@[simp] theorem Device.moves_decideCommit {x} (h : Moves S c b d) : Moves S c b (d.decideCommit x) :=
  Device.moves_raise (Device.moves_setAct h hA)
@[simp] theorem Device.moves_judgeCommit (h : Moves S c b d) : Moves S c b d.judgeCommit := by
  unfold Device.judgeCommit
  dsimp only
  split
  · split
    · exact Device.moves_decideCommit hA h
    · split
      · exact Device.moves_decideCommit hA h
      · exact h
  · exact h
@[simp] theorem Device.moves_judgeTime (h : Moves S c b d) : Moves S c b d.judgeTime := by
  unfold Device.judgeTime
  split
  · split
    · exact Device.moves_judgeCommit hA (Device.moves_raise (Device.moves_setAct h hA))
    · exact h
  · split
    · exact Device.moves_judgeCommit hA h
    · exact Device.moves_raise (Device.moves_setAct h hA)
  · exact h

omit hA in
@[simp] theorem Device.moves_actWorkReported {x} (h : Moves S c b d) : Moves S c b (d.actWorkReported x) := by
  unfold Device.actWorkReported; split <;> simp [h]
@[simp] theorem Device.moves_startOver (h : Moves S c b d) : Moves S c b d.startOver := by
  unfold Device.startOver
  extract_lets standings src src' d1
  have h1 : Moves S c b d1 := h.aside { Aside.refl S d with act := .inl hA, lnc := .inr (.inl hA) }
  exact Device.moves_actWorkReported (Device.moves_judgeTime hA (Device.moves_raise (Device.moves_handOver h1)))

omit hA in
@[simp] theorem Device.moves_replanLifted {a r l} (h : Moves S c b d) : Moves S c b (d.replanLifted a r l) := by
  unfold Device.replanLifted
  dsimp only
  split <;> split <;> simp [h]

omit hA in
@[simp] theorem Device.moves_targetChanged {l} (h : Moves S c b d) : Moves S c b (d.targetChanged l) :=
  .foldl _ (fun _ a k => Device.moves_replanLifted k)
    (Device.moves_mapRecords h fun _ =>
      .of_learned (ValRecord.learned_retargeted _ _) (ValRecord.retargeted_replyTime _ _))
theorem Device.moves_tgt {x : TargetTable} (h : Moves S c b d) : Moves S c b { d with tgt := x } :=
  h.aside { Aside.refl S d with tgt := .inl hA }
theorem Device.moves_act {x : Coordinator} (h : Moves S c b d) : Moves S c b { d with act := x } :=
  h.aside { Aside.refl S d with act := .inl hA }
@[simp] theorem Device.moves_setFareTarget {t} (h : Moves S c b d) : Moves S c b (d.setFareTarget t) := by
  unfold Device.setFareTarget
  exact Device.moves_startOver hA (Device.moves_replanAll (Device.moves_targetChanged (Device.moves_tgt hA h)))
theorem Device.moves_setBlockTarget {t} (h : Moves S c b d) : Moves S c b (d.setBlockTarget t) := by
  unfold Device.setBlockTarget
  exact Device.moves_replanAll (Device.moves_targetChanged (Device.moves_tgt hA h))
@[simp] theorem Device.moves_applyHeldTarget (h : Moves S c b d) : Moves S c b d.applyHeldTarget := by
  unfold Device.applyHeldTarget
  split
  · exact h
  · have h1 := Device.moves_tgt hA h (x := { d.tgt with heldFare := none })
    dsimp only
    split
    · exact h1
    · exact Device.moves_setFareTarget hA h1
@[simp] theorem Device.moves_judgeSettled (h : Moves S c b d) : Moves S c b d.judgeSettled := by
  unfold Device.judgeSettled
  dsimp only
  split
  · exact Device.moves_applyHeldTarget hA (Device.moves_raise (Device.moves_setAct h hA))
  · exact h
@[simp] theorem Device.moves_judgeActivation (h : Moves S c b d) : Moves S c b d.judgeActivation :=
  Device.moves_judgeSettled hA (Device.moves_judgeCommit hA h)
@[simp] theorem Device.moves_broadcastMade (h : Moves S c b d) : Moves S c b d.broadcastMade := by
  unfold Device.broadcastMade
  exact Device.moves_judgeSettled hA (Device.moves_handOver (Device.moves_act hA h))
/-- A standing changed and the activation judged on it (R167, R173). -/
theorem Device.moves_standingJudged {a x} (h : Moves S c b d) : Moves S c b (d.setStanding a x).judgeActivation :=
  Device.moves_judgeActivation hA (Device.moves_setStanding h hA)
@[simp] theorem Device.moves_fareReport {a} (h : Moves S c b d) : Moves S c b (d.fareReport a) :=
  Device.moves_standingJudged hA h
@[simp] theorem Device.moves_actUnitChange {a} (h : Moves S c b d) : Moves S c b (d.actUnitChange a) :=
  Device.moves_setStanding h hA
@[simp] theorem Device.moves_actPresence {a o n} (h : Moves S c b d) : Moves S c b (d.actPresence a o n) :=
  Device.moves_standingJudged hA h
@[simp] theorem Device.moves_armAcked {a} (h : Moves S c b d) : Moves S c b (d.armAcked a) := by
  unfold Device.armAcked
  dsimp only
  split
  · exact Device.moves_standingJudged hA h
  · exact h
@[simp] theorem Device.moves_armRefusedBy {a} (h : Moves S c b d) : Moves S c b (d.armRefusedBy a) :=
  Device.moves_setStanding h hA
@[simp] theorem Device.moves_disarmAcked {a} (h : Moves S c b d) : Moves S c b (d.disarmAcked a) :=
  Device.moves_setStanding h hA
@[simp] theorem Device.moves_commitAcked {a} (h : Moves S c b d) : Moves S c b (d.commitAcked a) := by
  unfold Device.commitAcked
  dsimp only
  split
  · exact Device.moves_standingJudged hA h
  · exact h
@[simp] theorem Device.moves_commitFailed {a} (h : Moves S c b d) : Moves S c b (d.commitFailed a) := by
  unfold Device.commitFailed
  dsimp only
  split
  · exact Device.moves_standingJudged hA h
  · exact h

/-! ## ROS: presence and the outcomes of exchanges -/

@[simp] theorem Device.moves_leftPresent {a} (h : Moves S c b d) : Moves S c b (d.leftPresent a) :=
  h.aside { Aside.refl S d with lnc := .inr (.inl hA) }
@[simp] theorem Device.moves_voidExchange {a v} (h : Moves S c b d) : Moves S c b (d.voidExchange a v) :=
  h.aside { Aside.refl S d with lnc := .inr (.inl hA) }

end

section
variable (hA : S.act) (hH : S.hot)
include hA hH

theorem Device.moves_presenceChanged {a o} (h : Moves S c b d) : Moves S c b (d.presenceChanged a o) := by
  unfold Device.presenceChanged
  extract_lets new d1 d2
  have h1 : Moves S c b d1 := by
    unfold d1
    split
    · exact Device.moves_leftPresent hA h
    · exact h
  have h2 : Moves S c b d2 := by
    unfold d2
    cases new <;> simp [h1]
  exact Device.moves_actPresence hA (Device.moves_judgeRetirement hH h2)

variable {a : Addr} (hL : S.learned a)
include hL

theorem Device.moves_silenceOver (h : Moves S c b d) : Moves S c b (d.silenceOver a) := by
  unfold Device.silenceOver
  dsimp only
  exact Device.moves_raise (Device.moves_presenceChanged hA hH (Device.moves_voidExchange hA
    (Device.moves_setRecord_learning h hL ⟨rfl, rfl⟩ rfl)))
theorem Device.moves_judgeSilence (h : Moves S c b d) : Moves S c b (d.judgeSilence a) := by
  unfold Device.judgeSilence
  exact .ite (fun _ => Device.moves_silenceOver hA hH hL h) fun _ => h

omit hA hH in
theorem Device.moves_replyTimed (h : Moves S c b d) : Moves S c b (d.replyTimed a) := by
  unfold Device.replyTimed
  dsimp only
  refine Device.moves_setRecord h { learned := .inl hL, reply := .inr fun k => ?_, slots := id }
  dsimp only at k ⊢
  split at k
  · rename_i same; exact ⟨k, same.symm⟩
  · cases k

omit hA hH in
theorem Device.moves_counted0 (h : Moves S c b d) : Moves S c b (d.counted0 a) := by
  unfold Device.counted0
  exact Device.moves_setRecord_learning h hL ⟨rfl, rfl⟩ rfl
theorem Device.moves_enterPresent (h : Moves S c b d) : Moves S c b (d.enterPresent a) := by
  unfold Device.enterPresent
  dsimp only
  exact .ite (fun _ => Device.moves_raise (Device.moves_presenceChanged hA hH
    (Device.moves_setRecord_learning h hL ⟨rfl, rfl⟩ rfl))) fun _ => h
theorem Device.moves_miss (h : Moves S c b d) : Moves S c b (d.miss a) := by
  unfold Device.miss
  extract_lets r n d1
  have h1 : Moves S c b d1 := Device.moves_setRecord_learning h hL ⟨rfl, rfl⟩ rfl
  refine .ite (fun _ => ?_) fun _ => h1
  exact Device.moves_judgeSilence hA hH hL (Device.moves_raise (Device.moves_presenceChanged hA hH
    (Device.moves_setRecord_learning h1 hL ⟨rfl, rfl⟩ rfl)))
theorem Device.moves_validReply {x} (h : Moves S c b d) : Moves S c b (d.validReply a x) := by
  unfold Device.validReply
  extract_lets d1 d2 d3
  have h1 : Moves S c b d1 := Device.moves_replyTimed hL h
  have h2 : Moves S c b d2 := .ite (fun _ => Device.moves_counted0 hL h1) fun _ => h1
  have h3 : Moves S c b d3 := .ite (fun _ => Device.moves_enterPresent hA hH hL h2) fun _ => h2
  exact .ite (fun _ => h3) fun _ => Device.moves_miss hA hH hL h3
theorem Device.moves_contended (h : Moves S c b d) : Moves S c b (d.contended a) := by
  unfold Device.contended
  extract_lets r n d1 src d2
  have h1 : Moves S c b d1 := Device.moves_setRecord_learning h hL ⟨rfl, rfl⟩ rfl
  have h2 : Moves S c b d2 := Device.moves_setRecord_learning h1 hL ⟨rfl, rfl⟩ rfl
  exact .ite (fun _ => Device.moves_raise (Device.moves_presenceChanged hA hH h2))
    fun _ => Device.moves_miss hA hH hL h1

/-! ## ROS: what XFR reports, STATUS, NOTICE and requests -/

omit hA in
theorem Device.moves_heldChanged {s x} (h : Moves S c b d) : Moves S c b (d.heldChanged a s x) := by
  unfold Device.heldChanged
  exact .ite (fun _ => Device.moves_judgeRetirement hH (Device.moves_heldBlockChanged hL h)) fun _ => h
theorem Device.moves_stored {s x} (h : Moves S c b d) : Moves S c b (d.stored a s x) := by
  unfold Device.stored
  extract_lets before r0 src r1 r2 d1
  have step : RecordStep S a (d.record a) r2 := by
    unfold r2
    split <;> exact { learned := .inl hL, reply := .inr fun k => ⟨k, rfl⟩, slots := id }
  have h1 : Moves S c b d1 :=
    Device.moves_heldChanged hH hL (Device.moves_replan (Device.moves_setRecord h step))
  exact .ite (fun _ => Device.moves_fareReport hA h1) fun _ => h1

omit hH in
theorem Device.moves_storedPending {x} (h : Moves S c b d) : Moves S c b (d.storedPending a x) := by
  unfold Device.storedPending
  dsimp only
  exact Device.moves_fareReport hA (Device.moves_replan (Device.moves_setRecord_learning h hL ⟨rfl, rfl⟩ rfl))

omit hA in
theorem Device.moves_tierDropped {s} (h : Moves S c b d) : Moves S c b (d.tierDropped a s) := by
  unfold Device.tierDropped
  dsimp only
  exact Device.moves_heldChanged hH hL (Device.moves_replan (Device.moves_setRecord_learning h hL ⟨rfl, rfl⟩ rfl))

omit hA hH in
theorem Device.moves_oweStatus (h : Moves S c b d) : Moves S c b (d.oweStatus a) := by
  unfold Device.oweStatus
  exact Device.moves_setRecord_learning h hL ⟨rfl, rfl⟩ rfl

omit hA hH hL in
@[simp] theorem Device.moves_roomShort {a s} (h : Moves S c b d) : Moves S c b (d.roomShort a s) := by
  unfold Device.roomShort
  dsimp only
  exact Device.moves_replan (Device.moves_setRecord h (.of_learned (ValRecord.learned_setCell _ s rfl) rfl))

omit hA hH hL in
@[simp] theorem Device.moves_rejectCounted {a s} (h : Moves S c b d) : Moves S c b (d.rejectCounted a s) := by
  unfold Device.rejectCounted
  dsimp only
  exact Device.moves_setRecord h (.of_learned (ValRecord.learned_setCell _ s rfl) rfl)

omit hA hH hL in
@[simp] theorem Device.moves_reverified {a s x} (h : Moves S c b d) : Moves S c b (d.reverified a s x) := by
  unfold Device.reverified
  dsimp only
  split
  · split
    · exact Device.moves_replan (Device.moves_raise
        (Device.moves_setRecord h (.of_learned (ValRecord.learned_setCell _ s rfl) rfl)))
    · exact h
  · exact Device.moves_setRecord h (.of_learned (ValRecord.learned_setCell _ s rfl) rfl)

omit hA hH hL in
@[simp] theorem Device.moves_reverifiedAll {l s x} (h : Moves S c b d) : Moves S c b (d.reverifiedAll l s x) :=
  .foldl _ (fun _ _ k => .ite (fun _ => Device.moves_reverified k) fun _ => k) h

omit hA in
theorem Device.moves_unitChanged (h : Moves S c b d) : Moves S c b (d.unitChanged a) := by
  unfold Device.unitChanged
  dsimp only
  exact Device.moves_raise (Device.moves_restartDone hH (Device.moves_setRecord
    (Device.moves_emptyPlan (Device.moves_dropAll h))
    { learned := .inl hL, reply := .inr fun k => ⟨k, rfl⟩, slots := fun _ => Nat.zero_le _ }))

theorem Device.moves_applyStatus {f : StatusFields} (h : Moves S c b d) (hf : f.openSlots.toNat ≤ 4) :
    Moves S c b (d.applyStatus a f) := by
  unfold Device.applyStatus
  extract_lets before unit entered d1 d2 d3 d4 d5 d6 d7 d8
  have h1 : Moves S c b d1 := .ite (fun _ => Device.moves_unitChanged hH hL h) fun _ => h
  have h2 : Moves S c b d2 :=
    Device.moves_counted0 hL (Device.moves_replyTimed hL (Device.moves_setRecord h1
      { learned := .inl hL
        reply := .inr fun k => ⟨(ValRecord.filled_replyTime _ f).1 ▸ k, (ValRecord.filled_replyTime _ f).2⟩
        slots := fun _ => (ValRecord.filled_openSlots _ f).symm ▸ hf }))
  have h3 : Moves S c b d3 :=
    Device.moves_handOver (.ite (fun _ => Device.moves_enterPresent hA hH hL h2) fun _ => h2)
  have h4 : Moves S c b d4 := Device.moves_setRecord h3
    (.of_learned (ValRecord.learned_roomsCleared _ _) (ValRecord.roomsCleared_replyTime _ _))
  have h5 : Moves S c b d5 := .ite (fun _ => Device.moves_replan h4) fun _ => h4
  have h6 : Moves S c b d6 := .ite (fun _ => Device.moves_openSlotsLowered h5) fun _ => h5
  have h7 : Moves S c b d7 :=
    Device.moves_judgeRetirement hH (Device.moves_hotReported hL hH (Device.moves_hotStatusOnStatus hL h6))
  have h8 : Moves S c b d8 := .ite (fun _ => Device.moves_actUnitChange hA h7) fun _ => h7
  exact Device.moves_fareReport hA h8

omit hA hH in
theorem Device.moves_noticeTaken {k t} (h : Moves S c b d) : Moves S c b (d.noticeTaken a k t) := by
  unfold Device.noticeTaken
  dsimp only
  exact Device.moves_handOver (Device.moves_setRecord_learning h hL ⟨rfl, rfl⟩ rfl)

theorem Device.moves_enrolled {w} (hF : S.fresh a) (h : Moves S c b d) : Moves S c b (d.enrolled a w) := by
  unfold Device.enrolled
  dsimp only
  exact Device.moves_reportExit (Device.moves_presenceChanged hA hH (Device.moves_setRecord h
    { learned := .inl hL, reply := .inl hF, slots := fun _ => Nat.zero_le _ }))
theorem Device.moves_unenrolled (hF : S.fresh a) (h : Moves S c b d) : Moves S c b (d.unenrolled a) := by
  unfold Device.unenrolled
  dsimp only
  exact Device.moves_restartDone hH (Device.moves_setRecord
    (Device.moves_presenceChanged hA hH (Device.moves_voidExchange hA
      (Device.moves_setRecord_learning h hL ⟨rfl, rfl⟩ rfl)))
    { learned := .inl hL, reply := .inl hF, slots := fun _ => Nat.zero_le _ })
theorem Device.moves_excluded (h : Moves S c b d) : Moves S c b (d.excluded a) := by
  unfold Device.excluded
  dsimp only
  exact Device.moves_presenceChanged hA hH (Device.moves_voidExchange hA
    (Device.moves_setRecord_learning h hL ⟨rfl, rfl⟩ rfl))
theorem Device.moves_readmittedToAbsent (h : Moves S c b d) : Moves S c b (d.readmittedToAbsent a) := by
  unfold Device.readmittedToAbsent
  dsimp only
  exact Device.moves_reportExit (Device.moves_presenceChanged hA hH (Device.moves_voidExchange hA
    (Device.moves_setRecord_learning h hL ⟨rfl, rfl⟩ rfl)))

omit hA hH hL in
theorem Device.moves_readmittedInPlace {a} (h : Moves S c b d) : Moves S c b (d.readmittedInPlace a) := by
  unfold Device.readmittedInPlace
  extract_lets r hadHold d1
  have h1 : Moves S c b d1 :=
    Device.moves_setRecord h (.of_learned (ValRecord.learned_mapCells _ fun _ => rfl) rfl)
  exact .ite (fun _ => Device.moves_replan h1) fun _ => h1

end

end Sys2Proof.Machine
end

