-- ==== Sys2Proof/Proofs/Answers.lean ====
section
/-! What CAT makes of the Verifier's results and of XFR's reports, and what the owners of exchanges make of replies and misses, as
chains of elementary changes (`Moves`). -/

namespace Sys2Proof.Machine

/-- Nothing may change beside what replanning touches. -/
def Scope.narrow : Scope where
  entry := fun _ => False
  learned := fun _ => False
  fresh := fun _ => False
  vfy := False
  act := False
  hot := False
  lnc := False
  exp := False
  post := False
  opens := False

variable {S : Scope} {c d : Device} {b : Bool}

/-- What a chain in the narrow scope keeps of an entry that is not RETIRING. -/
theorem Moves.kept_of_narrow {b : Bool} {e : Device} (h : Moves Scope.narrow d b e) {i : CatIndex}
    (hs : (d.entry i).state ≠ .retiring) :
    (e.entry i).posted = (d.entry i).posted ∧ (e.entry i).state = (d.entry i).state :=
  h.entryKept (fun k => k) hs

/-! ## CAT: the Verifier's results -/

/-- Rejects taken back leave CAT alone. -/
theorem Device.cat_reverifiedAll_false (d : Device) (set : AddrSet) (s : Stream) : (d.reverifiedAll set s false).cat = d.cat := by
  have one (d : Device) (a : Addr) : (if set.has a then d.reverified a s false else d).cat = d.cat := by
    split
    · rfl
    · rfl
  have all (l : List Addr) (d : Device) :
      (l.foldl (fun d a => if set.has a then d.reverified a s false else d) d).cat = d.cat := by
    induction l generalizing d with
    | nil => rfl
    | cons a l ih => exact (ih _).trans (one d a)
  exact all allAddrs d

theorem Device.entry_reverifiedAll_false (d : Device) (set : AddrSet) (s : Stream) (i : CatIndex) :
    (d.reverifiedAll set s false).entry i = d.entry i := by
  simp only [Device.entry, Device.cat_reverifiedAll_false]

/-- A slot returned where one waits. -/
theorem Device.moves_giveBack? {slot : Option Slot} {f : Slot → Device} (h : Moves S c b d)
    (hf : ∀ slot, Moves S c b (f slot)) : Moves S c b (match slot with | some slot => f slot | none => d) := by
  cases slot
  · exact h
  · exact hf _

theorem Device.moves_postFailed {i x o} (hE : S.entry i) (hs : (d.entry i).state = .verifying) (h : Moves S c b d) :
    Moves S c b (d.postFailed i x o) := by
  have freed : Moves S c b (d.freeEntry i x) :=
    h.freed i x (.inl hE) (by simp [hs]) (by simp [hs]) (.inr hs)
  unfold Device.postFailed
  dsimp only
  split
  · exact Device.moves_giveBack freed
  · exact freed

theorem Device.moves_postVerified {i} (hE : S.entry i) (hs : (d.entry i).state = .verifying) (h : Moves S c b d) :
    Moves S c b (d.postVerified i) := by
  have ready : Moves S c b (d.setEntry i { d.entry i with state := .ready, pendingSlot := none }).replanAll :=
    Device.moves_replanAll (h.restated i _ hE rfl rfl (by simp [hs]) (by simp) (by simp))
  unfold Device.postVerified
  dsimp only
  split
  · exact Device.moves_giveBack ready
  · exact ready

theorem Device.moves_firstVerified {i v} (hE : S.entry i) (hs : (d.entry i).state = .verifying) (h : Moves S c b d) :
    Moves S c b (d.firstVerified i v) := by
  cases v
  · exact Device.moves_postVerified hE hs h
  all_goals exact Device.moves_postFailed hE hs h

theorem Device.moves_reverifyFailed {i x} (hE : S.entry i) (hs : (d.entry i).state = .reverifying) (h : Moves S c b d) :
    Moves S c b (d.reverifyFailed i x) := by
  unfold Device.reverifyFailed
  extract_lets e d1 d2
  have same : d1.entry i = d.entry i := Device.entry_reverifiedAll_false _ _ _ _
  have h1 : Moves S c b d1 := Device.moves_reverifiedAll h
  have h2 : Moves S c b d2 :=
    h1.restated i _ hE (by rw [same]; rfl) (by rw [same]) (by simp [same, hs]) (by simp) (by simp [same, hs])
  exact Device.moves_freeIfRetired (Device.moves_raise h2)

theorem Device.moves_reverifyPassed {i} (hE : S.entry i) (hs : (d.entry i).state = .reverifying) (h : Moves S c b d) :
    Moves S c b (d.reverifyPassed i) := by
  unfold Device.reverifyPassed
  extract_lets d1 src d2
  have same : (d1.entry i).state = .reverifying :=
    ((Device.moves_reverifiedAll (S := Scope.narrow) (b := false) .start).kept_of_narrow (by simp [hs])).2.trans hs
  have h1 : Moves S c b d1 := Device.moves_reverifiedAll h
  have h2 : Moves S c b d2 := h1.restated i _ hE rfl rfl (by simp [same]) (by simp) (by simp)
  exact Device.moves_raise (Device.moves_replanAll h2)

theorem Device.moves_reverifyEnded {i v} (hE : S.entry i) (hs : (d.entry i).state = .reverifying) (h : Moves S c b d) :
    Moves S c b (d.reverifyEnded i v) := by
  cases v
  · exact Device.moves_reverifyPassed hE hs h
  all_goals exact Device.moves_reverifyFailed hE hs h

theorem Device.moves_endVerification {i v} (hE : S.entry i) (hV : S.vfy) (h : Moves S c b d) :
    Moves S c b (d.endVerification i v) := by
  have h1 := Device.moves_vfy (v := { queue := d.vfy.queue.drop 1, inFlight := false }) h hV
  unfold Device.endVerification
  dsimp only
  split
  · rename_i hs; exact Device.moves_firstVerified hE hs h1
  · rename_i hs; exact Device.moves_reverifyEnded hE hs h1
  all_goals exact h1

theorem Device.moves_verificationEnded {m l} (hE : ∀ i, d.vfy.queue.head? = some i → S.entry i) (hV : S.vfy)
    (h : Moves S c b d) : Moves S c b (d.verificationEnded m l) := by
  unfold Device.verificationEnded
  split
  · rename_i hq; exact Device.moves_endVerification (hE _ (by rw [hq]; rfl)) hV h
  · exact h

/-! ## CAT: XFR's reports -/

/-- An entry in use becomes RETIRING; from READY the plans go stale by it. -/
theorem Device.moves_retire {i x slot} (hE : S.entry i) (hf : (d.entry i).state ≠ .free)
    (hr : (d.entry i).state = .ready → b = true) (h : Moves S c b d) : Moves S c b (d.retire i x slot) := by
  unfold Device.retire
  exact Device.moves_markEntry (h.restated i _ hE rfl rfl hf (by simp) fun k => .inr (hr k))

theorem Device.moves_rejectReported {i a s st} (hE : S.entry i) (hV : S.vfy)
    (hs : st = .ready ∨ st = .reverifying → (d.entry i).state = st) (h : Moves S c false d) :
    Moves S c false (d.rejectReported i a s st) := by
  cases st
  case ready =>
    have hs := hs (.inl rfl)
    have h1 := h.stale.restated i { d.entry i with state := .reverifying, rejecters := AddrSet.empty.insert a } hE rfl rfl
      (by simp [hs]) (by simp) (by simp)
    exact Device.moves_raise (Device.renewed_replanAll (Device.moves_markEntry (Device.moves_vfy h1 hV)))
  case reverifying =>
    have hs := hs (.inr rfl)
    exact h.restated i _ hE rfl rfl (by simp [hs]) (by simp [hs]) (by simp [hs])
  case retiring =>
    show Moves S c false (d.reverified a s false)
    exact Device.moves_reverified h
  all_goals exact h

theorem Device.moves_fetchFaultReported {i} (hE : S.entry i) (hV : S.vfy) (h : Moves S c false d) :
    Moves S c false (d.fetchFaultReported i) := by
  unfold Device.fetchFaultReported
  dsimp only
  split
  · rename_i hs
    exact Device.moves_raise (Device.renewed_replanAll (Device.moves_retire hE (by simp [hs]) (fun _ => rfl) h.stale))
  · rename_i hs
    have same : (((d.unqueue i).reverifiedAll (d.entry i).rejecters (d.entry i).stream false).entry i) = d.entry i :=
      Device.entry_reverifiedAll_false _ _ _ _
    exact Device.moves_raise (Device.moves_retire hE (by simp [same, hs]) (by simp [same, hs])
      (Device.moves_reverifiedAll (Device.moves_unqueue h hV)))
  all_goals exact h

/-! ## LNC: the beginning and end of exchanges -/

section
variable (hN : S.lnc)
include hN

theorem Device.moves_clearExchange (h : Moves S c b d) : Moves S c b d.clearExchange := Device.moves_lnc h hN
theorem Device.moves_beginExchange {x1 x2 x3 x4 x5 x6} (h : Moves S c b d) :
    Moves S c b (d.beginExchange x1 x2 x3 x4 x5 x6) := Device.moves_lnc h hN
theorem Device.moves_recover (h : Moves S c b d) : Moves S c b d.recover := by
  unfold Device.recover
  split
  · exact Device.moves_lnc h hN
  · exact Device.moves_lnc h hN
  all_goals exact h

end

theorem Device.moves_burstBack {e} (h : Moves S c b d) : Moves S c b (d.burstBack e) := by
  unfold Device.burstBack
  split
  · exact .ite (fun _ => Device.moves_goBack h) fun _ => h
  · exact h

theorem Device.moves_cutExchange (hN : S.lnc) (hA : S.act ∨ ∀ e, d.lnc.exchange = some e → e.kind ≠ .commitAll)
    (h : Moves S c b d) : Moves S c b d.cutExchange := by
  unfold Device.cutExchange
  split
  · exact h
  · rename_i e he
    have h1 : Moves S c b (d.clearExchange.burstBack e) := Device.moves_burstBack (Device.moves_clearExchange hN h)
    refine .ite (fun k => ?_) fun _ => h1
    exact Device.moves_broadcastMade (hA.resolve_right fun n => n e he k) h1

theorem Device.moves_lineToIdle (hN : S.lnc) (hA : S.act ∨ ∀ e, d.lnc.exchange = some e → e.kind ≠ .commitAll)
    (h : Moves S c b d) : Moves S c b d.lineToIdle :=
  Device.moves_lnc (Device.moves_cutExchange hN hA h) hN

/-- With no exchange in flight the line's entry into IDLE ends none. -/
theorem Device.moves_idleIfStopping (hN : S.lnc) (h : Moves S c b d) : Moves S c b d.idleIfStopping := by
  unfold Device.idleIfStopping
  exact .ite (fun k => Device.moves_lineToIdle hN (.inr fun e he => by rw [k.2] at he; cases he) h) fun _ => h

/-! ## The owner's answer to a reply -/

theorem Device.moves_abandonAllDone {a} (h : Moves S c b d) : Moves S c b (d.abandonAllDone a) :=
  h.arranged a _ fun _ => .refl _

theorem Device.moves_reopened {a tag} (h : Moves S c b d) : Moves S c b (d.changeRecord a tag (·.reopened)) :=
  Device.moves_changeRecord h fun _ => rfl

theorem Device.moves_openAcked {a r x} (h : Moves S c b d) : Moves S c b (d.openAcked a r x).device := by
  unfold Device.openAcked
  split
  · exact Device.moves_at h
  · exact h

theorem Device.moves_contAcked {a r x} (h : Moves S c b d) : Moves S c b (d.contAcked a r x).device := by
  unfold Device.contAcked
  split
  · exact Device.moves_at h
  · exact Device.moves_goBack h

theorem Device.moves_abandoned {a tag} (h : Moves S c b d) : Moves S c b (d.abandoned a tag).device := by
  unfold Device.abandoned
  split
  · rename_i hr; exact Device.moves_closeByTag h hr
  · exact h

section
variable {a : Addr} (hA : S.act) (hH : S.hot) (hL : S.learned a)

theorem Device.moves_hotAcked {x1 x2 x3 x} (hH : S.hot) (hL : S.learned a) (h : Moves S c b d) :
    Moves S c b (d.hotAcked a x1 x2 x3 x).device := by
  unfold Device.hotAcked
  split
  · extract_lets src d1 d2
    have h1 : Moves S c b d1 := Device.moves_setRecord_learning h hL ⟨rfl, rfl⟩ rfl
    have h2 : Moves S c b d2 := .ite (fun _ => Device.moves_restartDone hH h1) fun _ => h1
    exact Device.moves_judgeRetirement hH h2
  · exact h

theorem Device.moves_armAck {a x} (hA : S.act) (h : Moves S c b d) : Moves S c b (d.armAck a x).device := by
  unfold Device.armAck
  split
  · exact Device.moves_armAcked hA h
  · split
    · exact Device.moves_armRefusedBy hA h
    · exact h

theorem Device.moves_disarmAck {a x} (hA : S.act) (h : Moves S c b d) : Moves S c b (d.disarmAck a x).device := by
  unfold Device.disarmAck
  split
  · exact Device.moves_disarmAcked hA h
  · exact h

theorem Device.moves_commitAck {a x} (hA : S.act) (h : Moves S c b d) : Moves S c b (d.commitAck a x).device := by
  unfold Device.commitAck
  split
  · exact Device.moves_commitAcked hA h
  · exact Device.moves_commitFailed hA h

include hA hH hL in
/-- Whatever an ACK answers. -/
theorem Device.moves_ackJudged {e x} (h : Moves S c b d) : Moves S c b (d.ackJudged e a x).device := by
  unfold Device.ackJudged
  split
  · split
    · exact Device.moves_openAcked h
    · exact h
  · split
    · exact Device.moves_contAcked h
    · exact h
  · exact Device.moves_abandoned h
  · exact Device.moves_abandonAllDone h
  · exact Device.moves_tierDropped hH hL (Device.moves_removeDrop h)
  · exact Device.moves_hotAcked hH hL h
  · split
    · exact h
    · exact Device.moves_armAck hA h
  · split
    · exact h
    · exact Device.moves_disarmAck hA h
  · split
    · exact h
    · exact Device.moves_commitAck hA h
  all_goals exact h

theorem Device.moves_noRoom {a r} (hr : c.Good S → r ∈ (d.transfers a).records) (h : Moves S c b d) :
    Moves S c b (d.noRoom a r) := Device.moves_roomShort (Device.moves_closeRecord h hr)

theorem Device.moves_nakRecord {k r x n} (hL : S.learned a) (hr : c.Good S → r ∈ (d.transfers a).records) (h : Moves S c b d) :
    Moves S c b (d.nakRecord a k r x n).device := by
  cases n
  case check => exact Device.moves_goBack h
  case order =>
    simp only [Device.nakRecord]
    split
    · exact Device.moves_at h
    · exact Device.moves_goBack h
  case kind => exact h
  case tag => exact Device.moves_reopened h
  case length => exact Device.moves_oweStatus hL (Device.moves_goBack h)
  case room => exact Device.moves_noRoom hr h
  case slot => exact Device.moves_replan (Device.moves_dropAll h)
  case busy =>
    simp only [Device.nakRecord, busyReply]
    exact .ite (fun _ => Device.moves_changeRecord h fun _ => rfl) fun _ => Device.moves_goBack h

theorem Device.moves_nakHot {n} (hH : S.hot) (hL : S.learned a) (h : Moves S c b d) : Moves S c b (d.nakHot a n).device := by
  cases n
  case kind => exact Device.moves_judgeRetirement hH (Device.moves_setHotStatus hL h)
  case room =>
    exact Device.moves_judgeRetirement hH (.ite (fun _ => Device.moves_setHotStatus hL h) fun _ => h)
  case length => exact Device.moves_oweStatus hL h
  all_goals exact h

theorem Device.moves_nakAct {e a n} (hA : S.act) (h : Moves S c b d) : Moves S c b (d.nakAct e a n).device := by
  have h1 : Moves S c b (if e.kind = .commit ∧ !e.actStale then d.commitFailed a else d) :=
    .ite (fun _ => Device.moves_commitFailed hA h) fun _ => h
  unfold Device.nakAct
  dsimp only
  split
  · exact h1
  · exact h1

include hA hH hL in
/-- Whatever a NAK answers. -/
theorem Device.moves_nakJudged {e n x} (h : Moves S c b d) : Moves S c b (d.nakJudged e a n x).device := by
  have record : Moves S c b
      (match (d.transfers a).byTag e.tag with
        | some r => d.nakRecord a e.kind r x n
        | none => if n = NakCause.busy then busyReply d else accepted d).device := by
    split
    · rename_i hr; exact Device.moves_nakRecord hL (fun _ => (Transfers.byTag_mem hr).1) h
    · split
      · exact h
      · exact h
  unfold Device.nakJudged
  split
  · exact record
  · exact record
  · exact record
  · split
    · exact Device.moves_abandoned h
    · exact h
    · exact h
  · split
    · exact Device.moves_abandonAllDone h
    · exact h
    · exact h
  · split
    · exact h
    · exact h
  · exact Device.moves_nakHot hH hL h
  · exact Device.moves_nakAct hA h
  · exact Device.moves_nakAct hA h
  · exact Device.moves_nakAct hA h
  all_goals exact h

/-- What CAT is told of a reject is true: the entry is in the state in which the VERDICT found it, where it matters. -/
theorem Device.moves_rejectedCheck {r} (hE : S.entry r.index) (hV : S.vfy) (hr : r ∈ (d.transfers a).records)
    (h : Moves S c false d) : Moves S c false (d.rejectedCheck a r) := by
  have closed : Moves Scope.narrow d false ((d.closeRecord a r).rejectCounted a r.stream) :=
    Device.moves_rejectCounted (Device.moves_closeRecord .start fun _ => hr)
  unfold Device.rejectedCheck
  refine Device.moves_rejectReported hE hV (fun k => ?_)
    (Device.moves_rejectCounted (Device.moves_closeRecord h fun _ => hr))
  exact (closed.kept_of_narrow (by rcases k with k | k <;> simp [k])).2

include hA hH hL in
theorem Device.moves_verdictOn {r x y z} (hE : S.entry r.index) (hV : S.vfy) (hr : r ∈ (d.transfers a).records)
    (h : Moves S c false d) : Moves S c false (d.verdictOn a r x y z).device := by
  have closed : Moves S c false (d.closeRecord a r) := Device.moves_closeRecord h fun _ => hr
  unfold Device.verdictOn
  split
  · exact h
  · split
    · dsimp only [accepted]
      exact Device.moves_stored hA hH hL (Device.moves_removeSend closed)
    · split
      · dsimp only [accepted]
        exact Device.moves_storedPending hA hL (Device.moves_removeSend closed)
      · exact h
    · dsimp only [accepted]
      exact Device.moves_rejectedCheck hE hV hr h
    · dsimp only [accepted]
      exact Device.moves_oweStatus hL closed
    · dsimp only [accepted]
      exact Device.moves_noRoom (fun _ => hr) h
    · exact h

include hA hH hL in
theorem Device.moves_verdictJudged {e x y z} (hE : ∀ r, (d.transfers a).byTag e.tag = some r → S.entry r.index) (hV : S.vfy)
    (h : Moves S c false d) : Moves S c false (d.verdictJudged e a x y z).device := by
  unfold Device.verdictJudged
  split
  · rename_i r hr; exact Device.moves_verdictOn hA hH hL (hE r hr) hV (Transfers.byTag_mem hr).1 h
  · exact h

include hA hH hL in
theorem Device.moves_statusJudged {f} (h : Moves S c b d) : Moves S c b (d.statusJudged a f).device := by
  unfold Device.statusJudged
  split
  · rename_i hf
    simp only [statusInRange, Bool.and_eq_true, decide_eq_true_eq] at hf
    exact Device.moves_applyStatus hA hH hL h hf.2
  · exact h

theorem Device.moves_noticeJudged {k t} (hL : S.learned a) (h : Moves S c b d) : Moves S c b (d.noticeJudged a k t).device := by
  unfold Device.noticeJudged
  split
  · exact Device.moves_noticeTaken hL h
  · exact h

include hA hH hL in
/-- Whatever the reply. -/
theorem Device.moves_judged {e r} (hE : ∀ r, (d.transfers a).byTag e.tag = some r → S.entry r.index) (hV : S.vfy)
    (h : Moves S c false d) : Moves S c false (d.judged e a r).device := by
  cases r
  case status => exact Device.moves_statusJudged hA hH hL h
  case notice => exact Device.moves_noticeJudged hL h
  case ack => exact Device.moves_ackJudged hA hH hL h
  case nak =>
    simp only [Device.judged]
    split
    · exact Device.moves_nakJudged hA hH hL h
    · exact h
  case verdict => exact Device.moves_verdictJudged hA hH hL hE hV h

/-! ## The outcome at ROS and at the arbiter -/

theorem Device.moves_holdOver {a} (hA : S.act) (h : Moves S c b d) : Moves S c b (d.holdOver a) := Device.moves_leftPresent hA h

include hA hH hL in
theorem Device.moves_reportEnding {x e} (h : Moves S c b d) : Moves S c b (d.reportEnding a x e) := by
  cases e
  case clean =>
    have h1 := Device.moves_validReply hA hH hL (x := true) h
    exact .ite (fun _ => Device.moves_holdOver hA h1) fun _ => h1
  case counted => exact Device.moves_holdOver hA (Device.moves_validReply hA hH hL h)
  case miss => exact Device.moves_holdOver hA (Device.moves_miss hA hH hL h)
  case contention => exact Device.moves_holdOver hA (Device.moves_contended hA hH hL h)
  case unreported => exact h

theorem Device.moves_ownerMissed {e a} (hA : S.act) (h : Moves S c b d) : Moves S c b (d.ownerMissed e a) := by
  have h1 : Moves S c b (d.burstBack e) := Device.moves_burstBack h
  exact .ite (fun _ => Device.moves_commitFailed hA h1) fun _ => h1

include hA hH hL in
theorem Device.moves_replyEnds {e r} (hN : S.lnc) (hE : ∀ r, (d.transfers a).byTag e.tag = some r → S.entry r.index) (hV : S.vfy)
    (h : Moves S c false d) : Moves S c false (d.replyEnds e a r) := by
  have h1 := Device.moves_clearExchange hN h
  unfold Device.replyEnds
  extract_lets isStatus d1 j
  refine .ite (fun _ => Device.moves_idleIfStopping hN h1) fun _ => Device.moves_idleIfStopping hN ?_
  exact Device.moves_reportEnding hA hH hL (Device.moves_judged hA hH hL (d := d.clearExchange) hE hV h1)

include hA hH hL in
theorem Device.moves_missEnds {e n} (hN : S.lnc) (h : Moves S c b d) : Moves S c b (d.missEnds e a n) := by
  have h1 := Device.moves_clearExchange hN h
  unfold Device.missEnds
  extract_lets d1
  refine .ite (fun _ => Device.moves_idleIfStopping hN h1) fun _ => Device.moves_idleIfStopping hN ?_
  exact Device.moves_reportEnding hA hH hL (Device.moves_ownerMissed hA h1)

end

end Sys2Proof.Machine
end

