-- ==== Sys2Proof/Proofs/Commands.lean ====
section
/-! The line, the arbiter and the requests as chains of elementary changes (`Moves`). -/

namespace Sys2Proof.Machine

variable {S : Scope} {c d : Device} {b : Bool}

/-! ## LNC: cycles -/

/-- Where no record is SILENT no silence is over (R48). -/
theorem Device.judgeSilence_eq {a : Addr} (h : (d.record a).presence ≠ .silent) : d.judgeSilence a = d := by
  unfold Device.judgeSilence
  rw [if_neg fun k => h k.1]

/-- A replan of every validator leaves what ROS has learned. -/
theorem Device.learned_replanAll (d : Device) (a : Addr) : (d.replanAll.record a).learned = (d.record a).learned :=
  ((Device.moves_replanAll (S := Scope.narrow) (b := false) .start).recordStep a).learned.resolve_left fun k => k

theorem Device.moves_cycleOver (h : Moves S c b d) : Moves S c b d.cycleOver := by
  refine h.records rfl fun a => ?_
  rw [Device.cycleOver_record]
  refine { learned := .inr rfl, reply := .inr fun k => ⟨?_, rfl⟩, slots := id }
  dsimp only [ValRecord.cycleOver] at k
  split at k
  · cases k
  · exact k

/-- A cycle's beginning judges silences, where a record is SILENT (R48, R110). -/
theorem Device.moves_cycleStart {fresh} (hN : S.lnc)
    (hq : (S.act ∧ S.hot ∧ ∀ a, S.learned a) ∨ ∀ a, (d.record a).presence ≠ .silent) (h : Moves S c b d) :
    Moves S c b (d.cycleStart fresh) := by
  unfold Device.cycleStart
  extract_lets old new src d1 d2 d3 d4
  have h1 : Moves S c b d1 := Device.moves_lnc h hN
  have h2 : Moves S c b d2 := .ite (fun _ => Device.moves_replanAll h1) fun _ => h1
  have h3 : Moves S c b d3 := by
    rcases hq with ⟨hA, hH, hL⟩ | hs
    · exact .foldl _ (fun _ a k => Device.moves_judgeSilence hA hH (hL a) k) h2
    · have same (a : Addr) : (d2.record a).learned = (d.record a).learned := by
        unfold d2
        split
        · exact d1.learned_replanAll a
        · rfl
      have : d3 = d2 := List.foldl_fixed' (fun a => Device.judgeSilence_eq
        (by rw [(ValRecord.of_learned (same a)).1]; exact hs a)) _
      rw [this]; exact h2
  exact Device.moves_lnc (Device.moves_cycleOver h3) hN

theorem Device.moves_judgeAttention {x} (hN : S.lnc)
    (hq : (S.act ∧ S.hot ∧ ∀ a, S.learned a) ∨ ∀ a, (d.record a).presence ≠ .silent) (h : Moves S c b d) :
    Moves S c b (d.judgeAttention x) := by
  have h1 := Device.moves_lnc (l := { d.lnc with attnLow := x }) h hN
  unfold Device.judgeAttention
  exact .ite (fun _ => Device.moves_cycleStart (d := { d with lnc := { d.lnc with attnLow := x } }) hN hq h1) fun _ => h1

/-- The exit event: a cycle begins from QUIET, where no record is SILENT (R119, R120). -/
theorem Device.moves_takeExit {before} (hN : S.lnc)
    (hq : (S.act ∧ S.hot ∧ ∀ a, S.learned a) ∨ (d.lnc.line = .quiet → ∀ a, (d.record a).presence ≠ .silent))
    (h : Moves S c b d) : Moves S c b (d.takeExit before) := by
  unfold Device.takeExit
  extract_lets taken src d1
  suffices Moves S c b d1 from this.aside { Aside.refl S d1 with }
  unfold d1
  split
  · rename_i k
    exact .ite (fun _ => Device.moves_cycleStart hN (hq.imp_right fun q => q k) h) fun _ => h
  · exact Device.moves_lnc h hN
  all_goals exact h

/-! ## Anything may change: cycles, grants, frames and the clock -/

variable {post xp : Prop} {fr : Addr → Prop}

theorem Device.moves_fullCycle {fresh} (h : Moves (.full post fr xp) c b d) : Moves (.full post fr xp) c b (d.cycleStart fresh) :=
  Device.moves_cycleStart trivial (.inl ⟨trivial, trivial, fun _ => trivial⟩) h

theorem Device.moves_fullAttention {x} (h : Moves (.full post fr xp) c b d) : Moves (.full post fr xp) c b (d.judgeAttention x) :=
  Device.moves_judgeAttention trivial (.inl ⟨trivial, trivial, fun _ => trivial⟩) h

/-- LNC's state replaced. -/
theorem Device.moves_line {l : LineController} (h : Moves (.full post fr xp) c b d) :
    Moves (.full post fr xp) c b { d with lnc := l } := Device.moves_lnc h trivial

/-- EXP's own state replaced. -/
theorem Device.moves_port {p : Port} (h : Moves (.full post fr) c b d) : Moves (.full post fr) c b { d with port := p } :=
  h.aside { Aside.refl (.full post fr) d with port := .inl trivial }

/-- LNC alone has changed. -/
theorem Device.moves_lineOnly {e : Device} (h : e = { d with lnc := e.lnc }) : Moves (.full post fr xp) d b e := by
  rw [h]; exact Device.moves_line .start

theorem Device.moves_judgeQuiet {x} (h : Moves (.full post fr xp) c b d) : Moves (.full post fr xp) c b (d.judgeQuiet x) := by
  unfold Device.judgeQuiet
  extract_lets config n
  split
  · exact Device.moves_fullAttention (Device.moves_line h)
  · exact Device.moves_fullCycle (Device.moves_line h)

theorem Device.moves_handReplyTimes (h : Moves S c b d) : Moves S c b d.handReplyTimes :=
  .foldl _ (fun _ _ k => .ite (fun _ => Device.moves_handOver k) fun _ => k) h

theorem Device.moves_endCycle {x} (h : Moves (.full post fr xp) c b d) : Moves (.full post fr xp) c b (d.endCycle x) := by
  unfold Device.endCycle
  exact .ite (fun _ => Device.moves_judgeQuiet (Device.moves_handReplyTimes h)) fun _ => h

theorem Device.moves_lineMayStart (h : Moves (.full post fr xp) c b d) : Moves (.full post fr xp) c b d.lineMayStart := by
  unfold Device.lineMayStart
  exact .ite (fun _ => Device.moves_fullCycle h) fun _ => h

theorem Device.moves_keepaliveExpired (h : Moves (.full post fr xp) c b d) : Moves (.full post fr xp) c b d.keepaliveExpired := by
  unfold Device.keepaliveExpired
  split
  · exact Device.moves_fullCycle h
  · exact Device.moves_line h
  all_goals exact h

theorem Device.moves_attention (h : Moves (.full post fr xp) c b d) : Moves (.full post fr xp) c b d.attention := by
  unfold Device.attention
  split
  · exact Device.moves_fullAttention h
  all_goals exact h

theorem Device.moves_guardPassed {x} (h : Moves (.full post fr xp) c b d) : Moves (.full post fr xp) c b (d.guardPassed x) := by
  have h1 := Device.moves_line (l := { d.lnc with guardTimer := none }) h
  unfold Device.guardPassed
  dsimp only
  split
  · exact Device.moves_line h
  · exact Device.moves_fullCycle h1
  · exact Device.moves_fullAttention (Device.moves_line h)
  all_goals exact h1

theorem Device.moves_rollCall {x} (h : Moves (.full post fr xp) c b d) : Moves (.full post fr xp) c b (d.rollCall x) := by
  unfold Device.rollCall
  refine .ite (fun _ => ?_) fun _ => h
  split
  · exact Device.moves_line (Device.moves_line h)
  · exact Device.moves_line h

/-! ### Grants: until an offer is made LNC alone has changed -/

theorem Device.moves_fetchFaulted {a tag i} (h : Moves (.full post fr xp) c false d) :
    Moves (.full post fr xp) c false (d.fetchFaulted a tag i) := by
  unfold Device.fetchFaulted
  exact Device.moves_markRecords (Device.moves_fetchFaultReported trivial trivial
    (Device.moves_goBack (Device.moves_clearExchange trivial h)))

theorem Device.moves_beginCont {m l x a r n} (h : Moves (.full post fr xp) c false d) :
    Moves (.full post fr xp) c false (d.beginCont m l x a r n) := by
  unfold Device.beginCont
  dsimp only
  split
  · exact Device.moves_fetchFaulted h
  · exact Device.moves_beginExchange trivial (Device.moves_changeRecord h fun _ => rfl)

/-- An offer of the part as the command finds it fits, whatever LNC has noted. -/
theorem Device.fits_offer_lnc {l : LineController} {a : Addr} {o : Offer} (h : ({ d with lnc := l } : Device).offer a = some o) :
    o.Fits d a := by
  have fits := Device.fits_offer h
  cases o with
  | next t created n =>
    cases created with
    | true => exact fun g => fits { tags := g.tags, slots := g.slots, plans := g.plans, usage := g.usage }
    | false => exact fun g => fits { tags := g.tags, slots := g.slots, plans := g.plans, usage := g.usage }
  | _ => trivial

section
variable {l : LineController} {a : Addr} {o : Offer} (ho : o.Fits d a)
include ho

/-- The arrangement of an offer made, LNC alone having changed. -/
theorem Device.moves_offered : Moves (.full post fr xp) d false (({ d with lnc := l } : Device).makeOffer a o) :=
  Device.moves_makeOffer trivial (Device.moves_lineOnly rfl) rfl rfl ho

theorem Device.moves_grantRecord {m ranges x r} :
    Moves (.full post fr xp) d false (({ d with lnc := l } : Device).grantRecord m ranges x a o r) := by
  unfold Device.grantRecord
  split
  · exact .ite (fun _ => Device.moves_beginExchange trivial (Device.moves_changeRecord
      (Device.moves_offered (l := { l with grantMade := true }) ho) fun _ => rfl)) fun _ => Device.moves_lineOnly rfl
  · exact .ite (fun _ => Device.moves_lineOnly rfl) fun _ =>
      Device.moves_beginCont (Device.moves_offered (l := { l with grantMade := true }) ho)
  all_goals
    exact .ite (fun _ => Device.moves_beginExchange trivial
      (Device.moves_offered (l := { l with grantMade := true }) ho)) fun _ => Device.moves_lineOnly rfl

theorem Device.moves_grantOffer {m ranges x} :
    Moves (.full post fr xp) d false (({ d with lnc := l } : Device).grantOffer m ranges x a o) := by
  unfold Device.grantOffer
  split
  case h_4 => exact Device.moves_grantRecord ho
  all_goals exact .ite (fun _ => Device.moves_lineOnly rfl) fun _ => Device.moves_lineOnly rfl

end

theorem Device.moves_orPoll {l x a e} (he : Moves (.full post fr xp) d b e) :
    Moves (.full post fr xp) d b (({ d with lnc := l } : Device).orPoll x a e) :=
  .ite (fun _ => .ite (fun _ => Device.moves_lineOnly rfl) fun _ => Device.moves_lineOnly rfl) fun _ => he

theorem Device.moves_grantTurn {l m ranges x a} :
    Moves (.full post fr xp) d false (({ d with lnc := l } : Device).grantTurn m ranges x a) := by
  unfold Device.grantTurn
  split
  · exact Device.moves_lineOnly rfl
  · rename_i o ho
    exact Device.moves_orPoll
      (Device.moves_grantOffer (l := { l with turn := turnLowered l.turn }) (Device.fits_offer_lnc ho))

/-- A turn begun or gone on with changes LNC alone. -/
theorem Device.turnBegun_lnc {e : Device} {a : Addr} (h : d.turnBegun = some (e, a)) : e = { d with lnc := e.lnc } := by
  have fresh {o : Option Addr} (h : (o.map fun a =>
      (({ d with lnc.pointer := Addr.number a, lnc.turn := some (a, (d.record a).weight) } : Device), a)) = some (e, a)) :
      e = { d with lnc := e.lnc } := by
    cases o
    · cases h
    · cases h; rfl
  unfold Device.turnBegun at h
  dsimp only at h
  split at h
  · split at h
    · cases h; rfl
    · exact fresh h
  · exact fresh h

theorem Device.moves_grantAct {x a k} : Moves (.full post fr xp) d false (d.grantAct x a k) := by
  refine Device.moves_orPoll (l := d.lnc) ?_
  cases k <;> exact .ite (fun _ => Device.moves_lineOnly rfl) fun _ => Device.moves_lineOnly rfl

theorem Device.moves_grant {m ranges x} : Moves (.full post fr xp) d false (d.grant m ranges x) := by
  unfold Device.grant
  refine .ite (fun _ => .ite (fun _ => Device.moves_lineOnly rfl) fun _ => Device.moves_lineOnly rfl) fun _ => ?_
  split
  · exact Device.moves_orPoll (l := d.lnc) (.ite (fun _ => Device.moves_lineOnly rfl) fun _ => Device.moves_lineOnly rfl)
  · split
    · split
      · exact Device.moves_grantAct
      · exact .start
    · split
      · exact Device.moves_orPoll (l := d.lnc) (.ite (fun _ => Device.moves_lineOnly rfl) fun _ => Device.moves_lineOnly rfl)
      · split
        · rename_i e a h
          rw [Device.turnBegun_lnc h]; exact Device.moves_grantTurn
        · exact Device.moves_lineOnly rfl

theorem Device.moves_transferGrant {m ranges x} : Moves (.full post fr xp) d false (d.transferGrant m ranges x) := by
  unfold Device.transferGrant
  exact .ite (fun _ => Device.moves_idleIfStopping trivial Device.moves_grant) fun _ => .start

/-! ### Frames, contention and replies -/

theorem Device.moves_commitSent {e x} (h : Moves (.full post fr xp) c b d) : Moves (.full post fr xp) c b (d.commitSent e x) := by
  unfold Device.commitSent
  exact .ite (fun _ => Device.moves_idleIfStopping trivial (Device.moves_broadcastMade trivial
    (Device.moves_clearExchange trivial h))) fun _ => Device.moves_line h

theorem Device.moves_contSent {m l e a x} (h : Moves (.full post fr xp) c false d) :
    Moves (.full post fr xp) c false (d.contSent m l e a x) := by
  unfold Device.contSent
  split
  · exact Device.moves_idleIfStopping trivial (Device.moves_line (Device.moves_beginCont h))
  · exact Device.moves_idleIfStopping trivial (Device.moves_clearExchange trivial h)

theorem Device.moves_frameSent {m l x} (h : Moves (.full post fr xp) c false d) :
    Moves (.full post fr xp) c false (d.frameSent m l x) := by
  unfold Device.frameSent
  split
  · refine .ite (fun _ => ?_) fun _ => h
    split
    · exact Device.moves_commitSent h
    · exact .ite (fun _ => Device.moves_contSent h) fun _ => Device.moves_line h
  · exact h

theorem Device.moves_syncReceived (h : Moves (.full post fr xp) c b d) : Moves (.full post fr xp) c b d.syncReceived := by
  unfold Device.syncReceived
  split
  · exact .ite (fun _ => Device.moves_line h) fun _ => h
  · exact h

theorem Device.moves_fullMiss {e a n} (h : Moves (.full post fr xp) c b d) : Moves (.full post fr xp) c b (d.missEnds e a n) :=
  Device.moves_missEnds trivial trivial trivial trivial h

theorem Device.moves_reply {r} (h : Moves (.full post fr xp) c false d) : Moves (.full post fr xp) c false (d.reply r) := by
  unfold Device.reply
  split
  · split
    · exact .ite (fun _ => .ite (fun _ => Device.moves_replyEnds trivial trivial trivial trivial (fun _ _ => trivial) trivial h)
        fun _ => Device.moves_fullMiss h) fun _ => h
    · exact h
  · exact h

theorem Device.moves_missed {p} (h : Moves (.full post fr xp) c b d) : Moves (.full post fr xp) c b (d.missed p) := by
  unfold Device.missed
  split
  · split
    · exact .ite (fun _ => Device.moves_fullMiss h) fun _ => h
    · exact h
  · exact h

theorem Device.moves_replyOctets {l} (h : Moves (.full post fr xp) c false d) : Moves (.full post fr xp) c false (d.replyOctets l) := by
  unfold Device.replyOctets
  split
  · dsimp only
    refine .ite (fun _ => h) fun _ => ?_
    split
    · exact Device.moves_reply h
    · exact Device.moves_missed h
  · exact h

theorem Device.moves_contention (h : Moves (.full post fr xp) c b d) : Moves (.full post fr xp) c b d.contention := by
  have h1 := Device.moves_recover (S := .full post fr xp) trivial h
  unfold Device.contention
  split
  · refine .ite (fun _ => ?_) fun _ => h
    split
    · exact Device.moves_idleIfStopping trivial (Device.moves_broadcastMade trivial (Device.moves_clearExchange trivial h1))
    · exact Device.moves_fullMiss h1
  · exact h

/-! ### The clock and silence -/

theorem Device.moves_clockChanged (hA : S.act) (h : Moves S c b d) : Moves S c b d.clockChanged := by
  unfold Device.clockChanged
  exact Device.moves_judgeTime hA (.ite (fun _ => Device.moves_handOver h) fun _ => h)

/-- The clock replaced, and judged. -/
theorem Device.moves_clock {f : FleetClock} (hX : S.exp) (hA : S.act) (h : Moves S c b d) :
    Moves S c b ({ d with fck := f } : Device).clockChanged :=
  Device.moves_clockChanged hA (h.aside { Aside.refl S d with fck := .inl hX })

theorem Device.moves_silenceExpired {n} (h : Moves (.full post fr xp) c b d) : Moves (.full post fr xp) c b (d.silenceExpired n) := by
  unfold Device.silenceExpired
  split
  · exact .ite (fun _ => Device.moves_silenceOver trivial trivial trivial h) fun _ => h
  · exact h

theorem Device.moves_ticked (h : Moves (.full post fr) c b d) : Moves (.full post fr) c b d.ticked := by
  have h1 : Moves (.full post fr) c b { d with ros.records := Vector.ofFn fun (a : Addr) => (d.record a).ticked } := by
    refine h.records rfl fun a => ?_
    have : ({ d with ros.records := Vector.ofFn fun (a : Addr) => (d.record a).ticked } : Device).record a =
        (d.record a).ticked := by simp [Device.record]
    rw [this]
    exact { learned := .inl trivial, reply := .inr fun k => ⟨k, rfl⟩, slots := id }
  exact h1.aside
    { cat := rfl, pln := rfl, xfr := rfl, ros := rfl, port := .inl trivial, fck := .inl trivial, vfy := .inr rfl,
      tgt := .inr rfl, act := .inr rfl, htq := .inr rfl, lnc := .inl trivial }

/-! ## CANCEL (R196) -/

theorem Device.moves_dropEverything (h : Moves S c b d) : Moves S c b d.dropEverything :=
  .foldl _ (fun _ _ k => Device.moves_dropAll k) h

theorem Device.moves_emptyPlans (h : Moves S c b d) : Moves S c b d.emptyPlans :=
  .foldl _ (fun _ a k => k.plan a [] (by simp)) h

theorem Device.moves_cancel (hN : S.lnc) (hA : S.act ∨ ∀ e, d.lnc.exchange = some e → e.kind ≠ .commitAll)
    (h : Moves S c b d) : Moves S c b d.cancel := by
  have h1 : Moves S c b d.cutExchange.recover := Device.moves_recover hN (Device.moves_cutExchange hN hA h)
  unfold Device.cancel
  exact Device.moves_idleIfStopping hN (Device.moves_replanAll (Device.moves_emptyPlans (Device.moves_dropEverything
    (Device.moves_lnc h1 hN))))

/-! ## Requests (R185) -/

theorem Device.moves_refuse {slot o n} (h : Moves S c b d) : Moves S c b (d.refuse slot o n) := Device.moves_giveBack h
theorem Device.moves_done {slot n} (h : Moves S c b d) : Moves S c b (d.done slot n) := Device.moves_giveBack h

/-- The identity of a POST in range is in order (R4). -/
theorem postInRange_form {f : PostFields} {s : Stream} {form : Form} (h : postInRange? f = some (s, form)) :
    (form = .delta → f.base.toNat < f.edition.toNat) ∧ (form = .whole → f.base.toNat = 0) := by
  unfold postInRange? at h
  split at h
  · cases h
  · dsimp only at h
    split at h
    · cases h
    · rename_i form' hform
      split at h
      · cases h
        split at hform
        · split at hform
          · rename_i base
            cases hform; simp [base]
          · cases hform
        · split at hform
          · split at hform
            · rename_i range
              cases hform; simp [range.2]
            · cases hform
          · cases hform
      · cases h

/-- A POST that CAT takes brings in an entry of no identity in use (R5). -/
theorem Device.posts_postedEntry {f : PostFields} {s : Stream} {form : Form} {slot : Slot} {i : CatIndex}
    (hf : postInRange? f = some (s, form)) (hd : d.duplicateOf (postedEntry f s form 1 slot) = none)
    (hi : d.lowestFree = some i) : d.Posts i (postedEntry f s form (d.entry i).generation slot) := by
  have free := List.find?_some hi
  simp only [beq_iff_eq] at free
  obtain ⟨delta, whole⟩ := postInRange_form hf
  refine { free, verifying := rfl, generation := rfl, unused := rfl, delta, whole, fresh := fun j hj => ?_ }
  have := List.find?_eq_none.1 hd j (List.mem_finRange j)
  simp only [Bool.and_eq_true, bne_iff_ne, ne_eq, not_and, Bool.not_eq_true] at this
  exact this hj

theorem Device.moves_postRequest {slot f} (hE : ∀ i, S.entry i) (hP : S.post) (hV : S.vfy) (h : Moves S c b d) :
    Moves S c b (d.postRequest slot f) := by
  unfold Device.postRequest
  split
  · exact Device.moves_refuse h
  · rename_i s form hf
    split
    · exact Device.moves_refuse h
    · rename_i hd
      split
      · exact Device.moves_refuse h
      · rename_i i hi
        exact Device.moves_vfy (h.posted i _ ⟨hE i, hP⟩ (Device.posts_postedEntry hf hd hi)) hV

/-- A handle that passes its check names an entry in use, in its generation (R2). -/
theorem Device.checkHandle_ok {index generation : Octet} {i : CatIndex} (h : d.checkHandle index generation = .ok i) :
    i.val = index.toNat ∧ (d.entry i).state ≠ .free ∧ (d.entry i).generation = generation.toNat := by
  unfold Device.checkHandle at h
  split at h
  · dsimp only at h
    split at h
    · cases h
    · rename_i k
      cases h
      rw [not_or, not_not] at k
      exact ⟨rfl, k.1, k.2⟩
  · cases h

theorem Device.moves_withdrawVerifying {slot i} (hE : S.entry i) (hV : S.vfy) (hs : (d.entry i).state = .verifying)
    (h : Moves S c b d) : Moves S c b (d.withdrawVerifying slot i) := by
  have freed : Moves S c b ((d.unqueue i).freeEntry i .withdrawn) :=
    (Device.moves_unqueue h hV).freed i _ (.inl hE) (show (d.entry i).state ≠ _ by simp [hs])
      (fun k => absurd (hs.symm.trans k) (by simp)) (.inr hs)
  unfold Device.withdrawVerifying
  dsimp only
  split
  · exact Device.moves_done (Device.moves_refuse freed)
  · exact Device.moves_done freed

theorem Device.moves_withdrawReady {slot i} (hE : S.entry i) (hs : (d.entry i).state = .ready) (h : Moves S c false d) :
    Moves S c false (d.withdrawReady slot i) := by
  unfold Device.withdrawReady
  split
  · rename_i hu
    exact Device.moves_done (Device.renewed_replanAll
      (h.stale.freed i .withdrawn (.inl hE) (by simp [hs]) (fun _ => rfl) (.inl hu)))
  · exact Device.renewed_replanAll (Device.moves_retire hE (by simp [hs]) (fun _ => rfl) h.stale)

theorem Device.moves_withdrawReverifying {slot i} (hE : S.entry i) (hV : S.vfy) (hs : (d.entry i).state = .reverifying)
    (h : Moves S c b d) : Moves S c b (d.withdrawReverifying slot i) := by
  unfold Device.withdrawReverifying
  extract_lets e d1
  have same : d1.entry i = d.entry i := Device.entry_reverifiedAll_false (d.unqueue i) _ _ _
  have h1 : Moves S c b d1 := Device.moves_reverifiedAll (Device.moves_unqueue h hV)
  split
  · rename_i hu
    exact Device.moves_done (h1.freed i _ (.inl hE) (by simp [same, hs]) (by simp [same, hs]) (.inl (by rw [same]; exact hu)))
  · exact Device.moves_retire hE (by simp [same, hs]) (by simp [same, hs]) h1

theorem Device.moves_withdrawRequest {slot index generation} (hE : ∀ i : CatIndex, i.val = index.toNat → S.entry i) (hV : S.vfy)
    (h : Moves S c false d) : Moves S c false (d.withdrawRequest slot index generation) := by
  unfold Device.withdrawRequest
  split
  · exact Device.moves_refuse h
  · rename_i i hi
    have hE := hE i (Device.checkHandle_ok hi).1
    split
    · rename_i hs; exact Device.moves_withdrawVerifying hE hV hs h
    · rename_i hs; exact Device.moves_withdrawReady hE hs h
    · rename_i hs; exact Device.moves_withdrawReverifying hE hV hs h
    all_goals exact Device.moves_refuse h

theorem Device.moves_targetRequest {slot f} (hA : S.act) (h : Moves S c b d) : Moves S c b (d.targetRequest slot f) := by
  unfold Device.targetRequest
  split
  · exact Device.moves_refuse h
  · unfold Device.fareTargetRequest
    split
    · split
      · exact Device.moves_done (Device.moves_tgt hA h)
      · exact Device.moves_done (Device.moves_tgt hA h)
    · split
      · exact Device.moves_done h
      · exact Device.moves_done (Device.moves_setFareTarget hA h)
  · unfold Device.blockTargetRequest
    split
    · exact Device.moves_done h
    · exact Device.moves_done (Device.moves_setBlockTarget hA h)

theorem Device.moves_appendHot {e} (hH : S.hot) (hL : ∀ a, S.learned a) (h : Moves S c b d) : Moves S c b (d.appendHot e) := by
  unfold Device.appendHot
  dsimp only
  exact Device.moves_setHot
    (Device.moves_mapRecords h fun a => { learned := .inl (hL a), reply := .inr fun k => ⟨k, rfl⟩, slots := id }) hH

theorem Device.moves_hotAddRequest {slot x y z w} (hH : S.hot) (hL : ∀ a, S.learned a) (h : Moves S c b d) :
    Moves S c b (d.hotAddRequest slot x y z w) := by
  unfold Device.hotAddRequest
  split
  · exact Device.moves_refuse h
  · split
    · exact Device.moves_refuse h
    · rename_i e he
      have room : Moves S c b e := by
        unfold Device.makeRoom at he
        dsimp only at he
        split at he
        · cases he
        · split at he
          · cases he; exact h
          · split at he
            · cases he
              exact Device.moves_judgeRetirement hH (Device.moves_raise (Device.moves_setHot h hH))
            · cases he
      exact Device.moves_done (Device.moves_reportExit (.foldl _ (fun _ _ k => Device.moves_appendHot hH hL k) room))

theorem Device.moves_enrolRequest {slot x y z} (hF : ∀ a, addrOf? x.toNat = some a → fr a) (h : Moves (.full post fr xp) c b d) :
    Moves (.full post fr xp) c b (d.enrolRequest slot x y z) := by
  unfold Device.enrolRequest
  split
  · exact Device.moves_refuse h
  · rename_i a ha
    have hF := hF a ha
    dsimp only
    split
    · split
      · exact Device.moves_refuse h
      · exact Device.moves_done (.ite (fun _ => Device.moves_enrolled trivial trivial trivial hF h)
          fun _ => Device.moves_setRecord_learning h trivial ⟨rfl, rfl⟩ rfl)
    · exact Device.moves_done (.ite (fun _ => h) fun _ => Device.moves_unenrolled trivial trivial trivial hF h)

theorem Device.moves_excludeRequest {slot x} (h : Moves (.full post fr xp) c b d) :
    Moves (.full post fr xp) c b (d.excludeRequest slot x) := by
  unfold Device.excludeRequest
  split
  · exact Device.moves_refuse h
  · dsimp only
    split
    · exact Device.moves_refuse h
    · exact Device.moves_done h
    all_goals exact Device.moves_done (Device.moves_excluded trivial trivial trivial h)

theorem Device.moves_readmitRequest {slot x} (h : Moves (.full post fr xp) c b d) :
    Moves (.full post fr xp) c b (d.readmitRequest slot x) := by
  unfold Device.readmitRequest
  split
  · exact Device.moves_refuse h
  · dsimp only
    split
    · exact Device.moves_refuse h
    · exact Device.moves_done (Device.moves_readmittedToAbsent trivial trivial trivial h)
    · exact Device.moves_done (Device.moves_readmittedToAbsent trivial trivial trivial h)
    all_goals exact Device.moves_done (Device.moves_readmittedInPlace h)

/-- Whatever the request; a POST brings an entry in. -/
theorem Device.moves_request {slot q} (hp : post ∨ ∀ f, q ≠ .post f)
    (hF : ∀ x y z a, q = .enrol x y z → addrOf? x.toNat = some a → fr a) (h : Moves (.full post fr xp) c false d) :
    Moves (.full post fr xp) c false (d.request slot q) := by
  cases q
  case post f =>
    exact Device.moves_postRequest (fun _ => trivial) (hp.resolve_right fun k => k f rfl) trivial h
  case withdraw => exact Device.moves_withdrawRequest (fun _ _ => trivial) trivial h
  case target => exact Device.moves_targetRequest trivial h
  case hotAdd => exact Device.moves_hotAddRequest trivial (fun _ => trivial) h
  case enrol => exact Device.moves_enrolRequest (fun a ha => hF _ _ _ a rfl ha) h
  case exclude => exact Device.moves_excludeRequest h
  case readmit => exact Device.moves_readmitRequest h
  case lineSet => exact Device.moves_done (Device.moves_reportExit (Device.moves_line h))
  case unknown => exact Device.moves_refuse h

end Sys2Proof.Machine
end

