-- ==== Sys2Proof/Proofs/Steps.lean ====
section
/-! EXP's writing, the conclusion of commands, sweeps and STARTING as chains of elementary changes (`Moves`); and with them every
operation but the resets. The invariants of the blocks are settled here. -/

namespace Sys2Proof.Machine

/-- Everything but entries, the verify queue and the coming in of POSTs may change: what exit events and EXP's writing ask. -/
structure Scope.Open (S : Scope) : Prop where
  learned : ∀ a, S.learned a
  fresh : ∀ a, S.fresh a
  act : S.act
  hot : S.hot
  lnc : S.lnc
  exp : S.exp

theorem Scope.open_full (post : Prop) : (Scope.full post).Open where
  learned := fun _ => trivial
  fresh := fun _ => trivial
  act := trivial
  hot := trivial
  lnc := trivial
  exp := trivial

variable {S : Scope} (O : S.Open) {c d : Device} {b : Bool}

/-! ## EXP's writing -/

section
include O

/-- What EXP's writing changes of the part: EXP itself, and the flags of validator records that publishing sets. -/
theorem Written.moves {q r : Run} (h : Written q r) (k : Moves S c b q.state.dev) : Moves S c b r.state.dev := by
  have records : Moves S c b { q.state.dev with ros := r.state.dev.ros, outbox := r.state.dev.outbox } := by
    refine k.records rfl fun a => { learned := .inl (O.learned a), reply := .inl (O.fresh a), slots := ?_ }
    have := h.records a
    rw [← this]
    exact id
  refine records.aside { port := .inl O.exp, fck := .inr h.fck, vfy := .inr ?_, tgt := .inr h.tgt, act := .inr h.act, htq := .inr h.htq,
                         lnc := .inr (.inr h.lnc), cat := h.cat, pln := ?_, xfr := ?_, ros := rfl }
  · rw [← h.blocks]
  · rw [← h.blocks]
  · rw [← h.blocks]

theorem Device.moves_of_kept {e : Device} (h : d.Kept e) (k : Moves S c b d) : Moves S c b e := Written.moves O h k

theorem Run.moves_publish {r : Run} {before} (k : Moves S c b r.state.dev) : Moves S c b (r.publish before).state.dev :=
  Written.moves O (Run.written_publish (.refl r) before) k

theorem Run.moves_settle {r : Run} {before} (k : Moves S c b r.state.dev) : Moves S c b (r.settle before).state.dev :=
  Run.moves_publish O (r := r.always (·.takeExit before))
    (Device.moves_takeExit O.lnc (.inl ⟨O.act, O.hot, O.learned⟩) k)

/-! ## Entry into HALTED (R195) -/

theorem Device.moves_exp {p : Port} (h : Moves S c b d) : Moves S c b { d with port := p } :=
  h.aside { Aside.refl S d with port := .inl O.exp }

theorem Device.moves_release {slot} (h : Moves S c b d) : Moves S c b (d.release slot) := Device.moves_exp O h

theorem Device.moves_abandonFirst {i} (hE : S.entry i) (h : Moves S c b d) : Moves S c b (d.abandonFirst i) := by
  unfold Device.abandonFirst
  dsimp only
  split
  · rename_i hs
    have freed : Moves S c b (d.freeEntry i .none) := h.freed i _ (.inl hE) (by simp [hs]) (by simp [hs]) (.inr hs)
    split
    · exact Device.moves_release O freed
    · exact freed
  · exact h

theorem Device.moves_haltVerifier (hE : ∀ i ∈ d.vfy.queue, S.entry i) (hV : S.vfy) (h : Moves S c b d) :
    Moves S c b d.haltVerifier := by
  have each (l : List CatIndex) (hl : ∀ i ∈ l, S.entry i) {e : Device} (k : Moves S c b e) :
      Moves S c b (l.foldl Device.abandonFirst e) := by
    induction l generalizing e with
    | nil => exact k
    | cons i l ih =>
      exact ih (fun j hj => hl j (List.mem_cons_of_mem _ hj)) (Device.moves_abandonFirst O (hl i List.mem_cons_self) k)
  exact Device.moves_vfy (each _ hE h) hV

/-- HALTED cuts the exchange and frees the entries in VERIFYING; nothing else of the blocks changes but what follows from a broadcast
so cut. -/
theorem Device.moves_enterHalted (hE : ∀ i ∈ d.vfy.queue, S.entry i) (hV : S.vfy) (h : Moves S c b d) :
    Moves S c b d.enterHalted := by
  unfold Device.enterHalted
  extract_lets src d1
  have idle : Moves S c b ({ d with port.device := .halted } : Device).stopSweeps.lineToIdle :=
    Device.moves_lineToIdle O.lnc (.inl O.act) (Device.moves_exp O (Device.moves_exp O h))
  have queue : ({ d with port.device := .halted } : Device).stopSweeps.lineToIdle.vfy = d.vfy :=
    (Device.moves_lineToIdle (S := { Scope.full False with vfy := False }) (b := false) trivial (.inl trivial)
      .start).framed.vfy.resolve_left fun k => k
  have h1 : Moves S c b d1 := Device.moves_raise (Device.moves_haltVerifier O (by rw [queue]; exact hE) hV idle)
  have left : Moves S c b (d1.outbox.foldl Device.leave d1) := Device.moves_of_kept O (Device.kept_leaveAll d1 _) h1
  exact left.aside { Aside.refl S (d1.outbox.foldl Device.leave d1) with }

theorem Device.moves_judgeInterrupt (h : Moves S c b d) : Moves S c b d.judgeInterrupt := Device.moves_exp O h

theorem Run.moves_finish {r : Run} (hE : ∀ i ∈ r.state.dev.vfy.queue, S.entry i) (hV : S.vfy) (h : Moves S c b r.state.dev) :
    Moves S c b r.finish.dev := by
  unfold Run.finish
  exact Device.moves_judgeInterrupt O (.ite (fun _ => h) fun _ => Device.moves_enterHalted O hE hV h)

/-! ## Steps of a command -/

omit O in
theorem Run.moves_inside {r : Run} {f : Device → Device} (h : Moves S c b r.state.dev) (hf : Moves S c b (f r.state.dev)) :
    Moves S c b (r.inside f).state.dev := by
  unfold Run.inside
  split
  · exact hf
  · exact h

end

/-! ## Whole commands -/

variable {post : Prop}

theorem State.moves_act {s : State} {bus : AreaBus} {f : Device → Device} (h : Moves (.full post) s.dev false (f s.dev)) :
    Moves (.full post) s.dev false (s.act bus f).dev :=
  Run.moves_finish (Scope.open_full post) (fun _ _ => trivial) trivial (Run.moves_settle (Scope.open_full post) h)

theorem Run.moves_take {r : Run} {slot ref q} (hp : post ∨ ∀ f, q ≠ .post f) (h : Moves (.full post) c false r.state.dev) :
    Moves (.full post) c false (r.take slot ref q).state.dev := by
  have h1 : Moves (.full post) c false ((r.writeTaken slot).read).state.dev :=
    Written.moves (Scope.open_full post) (Run.written_read (Run.written_writeTaken (.refl r) slot)) h
  unfold Run.take
  dsimp only
  split
  · exact Run.moves_settle (Scope.open_full post) (Run.moves_inside h1
      (Device.moves_request hp (fun _ _ _ _ _ _ => trivial) (Device.moves_port h1)))
  · exact h1

theorem State.moves_takeRequest {s : State} {bus slot ref q} (hp : post ∨ ∀ f, q ≠ .post f) :
    Moves (.full post) s.dev false (s.takeRequest bus slot ref q).dev := by
  unfold State.takeRequest
  split
  · refine Run.moves_finish (Scope.open_full post) (fun _ _ => trivial) trivial (Run.moves_take hp ?_)
    rw [State.withRequest_dev]; exact .start
  · exact .start

/-! ### Sweeps -/

theorem Device.moves_endSweep (h : Moves (.full post) c b d) : Moves (.full post) c b d.endSweep := by
  have h1 := Device.moves_port (p := { d.port with sweepInProgress := false }) h
  unfold Device.endSweep
  exact .ite (fun _ => Device.moves_port (Device.moves_port h1)) fun _ => h1

theorem Device.moves_callSweep (h : Moves (.full post) c b d) : Moves (.full post) c b d.callSweep := by
  unfold Device.callSweep
  exact .ite (fun _ => Device.moves_port h) fun _ => Device.moves_port h

theorem Device.moves_cells {f : Addr → ValRecord → ValRecord} (h : Moves (.full post) c b d)
    (hf : ∀ a r, (f a r).openSlots = r.openSlots) : Moves (.full post) c b (d.mapRecords f) :=
  Device.moves_mapRecords h fun a =>
    { learned := .inl trivial, reply := .inl trivial, slots := by rw [hf]; exact id }

theorem Run.moves_sweepSlot {r : Run} {slot} (hp : post) (h : Moves (.full post) c false r.state.dev) :
    Moves (.full post) c false (r.sweepSlot slot).state.dev := by
  unfold Run.sweepSlot
  split
  · exact Run.moves_take (.inl hp) h
  · exact h

theorem Run.moves_sweepActs {r : Run} {count} (hp : post) (h : Moves (.full post) c false r.state.dev) :
    Moves (.full post) c false (r.sweepActs count).state.dev := by
  have opened := Scope.open_full post
  unfold Run.sweepActs
  extract_lets r1 s slots r2 r3 changed r4
  have h1 : Moves (.full post) c false r1.state.dev := Written.moves opened (Run.written_read (.refl r)) h
  have h2 : Moves (.full post) c false r2.state.dev :=
    Run.moves_settle opened (Run.moves_inside h1 (Device.moves_cells (Device.moves_port h1) fun a x => by exact apply_ite ValRecord.openSlots _ _ _ |>.trans (ite_self _)))
  have h3 : Moves (.full post) c false r3.state.dev := by
    have each (l : List Slot) (r : Run) (k : Moves (.full post) c false r.state.dev) :
        Moves (.full post) c false (l.foldl Run.sweepSlot r).state.dev := by
      induction l generalizing r with
      | nil => exact k
      | cons slot l ih => exact ih _ (Run.moves_sweepSlot hp k)
    exact each slots r2 h2
  have h4 : Moves (.full post) c false r4.state.dev := Run.moves_inside h3 (Device.moves_port h3)
  split
  · exact Written.moves opened (Run.written_writeSeen (.refl r4)) h4
  · exact h4

theorem Run.moves_sweep {r : Run} (hp : post) (h : Moves (.full post) c false r.state.dev) :
    Moves (.full post) c false r.sweep.state.dev := by
  unfold Run.sweep
  extract_lets r1 count interval r2 r3
  have h1 : Moves (.full post) c false r1.state.dev :=
    Written.moves (Scope.open_full post) (Run.written_read (.refl r)) h
  have h2 : Moves (.full post) c false r2.state.dev := Run.moves_inside h1 (Device.moves_port h1)
  have h3 : Moves (.full post) c false r3.state.dev := by
    unfold r3
    split
    · exact Run.moves_sweepActs hp h2
    · exact h2
  exact Run.moves_inside h3 (Device.moves_endSweep h3)

/-! ### STARTING and STOPPING's end -/

theorem Device.moves_headerTaken {x y} (h : Moves (.full post) c b d) : Moves (.full post) c b (d.headerTaken x y) := by
  have epoch : Moves (.full post) c b (d.epochRule x) := by
    unfold Device.epochRule
    split
    · exact Device.moves_judgeRetirement trivial h
    · exact Device.moves_setHot (Device.moves_cells h fun a r => rfl) trivial
  exact Device.moves_port epoch

theorem Device.moves_enterStopping (h : Moves (.full post) c b d) : Moves (.full post) c b d.enterStopping := by
  unfold Device.enterStopping
  exact Device.moves_idleIfStopping trivial (Device.moves_handOver (Device.moves_port (Device.moves_port h)))

theorem Run.moves_startingSteps {r : Run} (h : Moves (.full post) c false r.state.dev) :
    Moves (.full post) c false r.startingSteps.state.dev := by
  have opened := Scope.open_full post
  unfold Run.startingSteps
  extract_lets s r1 r2 aborted r3 r4 r5 r6 r7 before
  have h2 : Moves (.full post) c false r2.state.dev :=
    Written.moves opened (Run.written_read (.refl r1)) (Device.moves_headerTaken h)
  have h3 : Moves (.full post) c false r3.state.dev := Run.moves_inside h2 (Device.moves_cells h2 fun a x => rfl)
  have h6 : Moves (.full post) c false r6.state.dev :=
    Written.moves opened (Run.written_returnAborted (Run.written_writeOwed (Run.written_republish (.refl r3)) _) _) h3
  have h7 : Moves (.full post) c false r7.state.dev :=
    Written.moves opened (Run.written_writeState (.refl (r6.inside Device.nowRunning)))
      (Run.moves_inside h6 (Device.moves_port (Device.moves_port h6)))
  split
  · exact Run.moves_settle opened (.ite (fun _ => Device.moves_lineMayStart h7) fun _ => Device.moves_enterStopping h7)
  · exact h7

theorem Run.moves_starting {r : Run} (h : Moves (.full post) c false r.state.dev) :
    Moves (.full post) c false r.starting.state.dev := by
  have h1 : Moves (.full post) c false r.read.state.dev :=
    Written.moves (Scope.open_full post) (Run.written_read (.refl r)) h
  unfold Run.starting
  dsimp only
  split
  · split
    · exact Run.moves_startingSteps h1
    · exact Device.moves_raise (Device.moves_port h1)
  · exact h1

theorem Device.moves_setRun {v} (h : Moves (.full post) c b d) : Moves (.full post) c b (d.setRun v) := by
  have h1 := Device.moves_port (p := { d.port with run := v }) h
  unfold Device.setRun
  dsimp only
  split
  · exact Device.moves_port h
  · exact Device.moves_enterStopping h1
  · exact Device.moves_port h
  · exact h1

theorem Device.moves_setLineEnable {v} (h : Moves (.full post) c b d) : Moves (.full post) c b (d.setLineEnable v) := by
  have h1 := Device.moves_port (p := { d.port with lineEnable := v }) h
  unfold Device.setLineEnable
  exact .ite (fun _ => Device.moves_lineMayStart h1) fun _ => .ite (fun _ => h1)
    fun _ => Device.moves_lineToIdle trivial (.inl trivial) h1

/-! ### Every operation -/

/-- Whether POSTs come in by an operation: a POST, or a sweep, which may take one. -/
def bringsPosts (op : Instr) : Prop := (∃ slot ref f, op = .post slot ref f) ∨ ∃ host, op = .sweep host

theorem runOperation_moves {op : Instr} (hr : op.isReset = false) (hp : bringsPosts op → post) (bus : AreaBus) (s : State) :
    Moves (.full post) s.dev false (runOperation op bus s).dev := by
  cases op
  all_goals
    dsimp only [runOperation, doRun, doLineEnable, doPrompt, doCancel, doXbaseWrite, doCauseClear, doXmaskWrite,
      doXclockWrite, doRegisterWriteOther, doStarting, doStoppingEnd, doSweepTimerExpiry, doSweep, doPost, doWithdraw,
      doTarget, doHotAdd, doEnrol, doExclude, doReadmit, doLineSet, doBadKind, doVerificationStart, doVerificationEnd,
      doClockStep, doSilenceExpiry, doCycleEnd, doKeepaliveExpiry, doAttentionEvent, doRollCallPoll, doTransferGrant,
      doLineFree, doDeferralExpiry, doFrameSent, doReplyTimeout, doFrameIncomplete, doMalformedReply, doContention,
      doGuardTimeExpiry, doReplyCheckFailed, doStatus, doNotice, doAck, doNak, doVerdict, doSyncOctetReceived]
  case deviceReset => cases hr
  case softReset => cases hr
  case run => exact State.moves_act (Device.moves_setRun .start)
  case lineEnable => exact State.moves_act (Device.moves_setLineEnable .start)
  case prompt =>
    unfold Device.prompt
    exact .ite (fun _ => Device.moves_callSweep (Device.moves_port .start)) fun _ => .start
  case cancel => exact State.moves_act (Device.moves_cancel trivial (.inl trivial) .start)
  case xbaseWrite =>
    unfold Device.writeXbase
    exact .ite (fun _ => Device.moves_port .start) fun _ => .start
  case causeClear =>
    unfold Device.clearCauses
    exact Device.moves_port (Device.moves_port .start)
  case xmaskWrite =>
    unfold Device.writeXmask
    exact Device.moves_port (Device.moves_port .start)
  case xclockWrite => exact State.moves_act (Device.moves_clock trivial trivial .start)
  case registerWriteOther => exact .start
  case starting host =>
    split
    · exact Run.moves_finish (Scope.open_full post) (fun _ _ => trivial) trivial (Run.moves_starting .start)
    · exact .start
  case stoppingEnd =>
    split
    · have h1 : Moves (.full post) s.dev false (({ state := s, bus } : Run).write 24 [num DeviceState.off.code]).state.dev :=
        Written.moves (Scope.open_full post) (Run.written_write (.refl _) (partRun_header (by simp))) .start
      exact Run.moves_finish (Scope.open_full post) (fun _ _ => trivial) trivial (Run.moves_inside h1 (Device.moves_port h1))
    · exact .start
  case areaFault => exact .start
  case sweepTimerExpiry =>
    unfold Device.sweepTimerExpired
    exact .ite (fun _ => Device.moves_callSweep (Device.moves_port .start)) fun _ => .start
  case sweep host =>
    split
    · exact Run.moves_finish (Scope.open_full post) (fun _ _ => trivial) trivial
        (Run.moves_sweep (hp (.inr ⟨host, rfl⟩)) .start)
    · exact .start
  case post slot ref f => exact State.moves_takeRequest (.inl (hp (.inl ⟨slot, ref, f, rfl⟩)))
  case withdraw => exact State.moves_takeRequest (.inr nofun)
  case target => exact State.moves_takeRequest (.inr nofun)
  case hotAdd => exact State.moves_takeRequest (.inr nofun)
  case enrol => exact State.moves_takeRequest (.inr nofun)
  case exclude => exact State.moves_takeRequest (.inr nofun)
  case readmit => exact State.moves_takeRequest (.inr nofun)
  case lineSet => exact State.moves_takeRequest (.inr nofun)
  case badKind => exact State.moves_takeRequest (.inr nofun)
  case verificationStart =>
    unfold Device.startVerification
    exact .ite (fun _ => Device.moves_vfy .start trivial) fun _ => .start
  case verificationEnd => exact State.moves_act (Device.moves_verificationEnded (fun _ _ => trivial) trivial .start)
  case clockStep => exact State.moves_act (Device.moves_clock trivial trivial .start)
  case silenceExpiry => exact State.moves_act (Device.moves_silenceExpired .start)
  case cycleEnd => exact State.moves_act (Device.moves_endCycle .start)
  case keepaliveExpiry => exact State.moves_act (Device.moves_keepaliveExpired .start)
  case attentionEvent => exact State.moves_act (Device.moves_attention .start)
  case rollCallPoll => exact State.moves_act (Device.moves_rollCall .start)
  case transferGrant => exact State.moves_act Device.moves_transferGrant
  case lineFree =>
    unfold Device.frameBegins
    exact Device.moves_line .start
  case deferralExpiry =>
    unfold Device.frameBegins
    exact Device.moves_line .start
  case frameSent => exact State.moves_act (Device.moves_frameSent .start)
  case replyTimeout => exact State.moves_act (Device.moves_missed .start)
  case frameIncomplete => exact State.moves_act (Device.moves_missed .start)
  case malformedReply => exact State.moves_act (Device.moves_missed .start)
  case contention => exact State.moves_act (Device.moves_contention .start)
  case guardTimeExpiry => exact State.moves_act (Device.moves_guardPassed .start)
  case replyCheckFailed => exact State.moves_act (Device.moves_replyOctets .start)
  case status => exact State.moves_act (Device.moves_reply .start)
  case notice => exact State.moves_act (Device.moves_reply .start)
  case ack => exact State.moves_act (Device.moves_reply .start)
  case nak => exact State.moves_act (Device.moves_reply .start)
  case verdict => exact State.moves_act (Device.moves_reply .start)
  case syncOctetReceived => exact Device.moves_syncReceived .start

/-- Every command is its operation carried out with some bus towards the area (R195). -/
theorem exec_eq_runOperation (c : Instr) (s : State) :
    ∃ bus, exec c s = .next (runOperation c.operation bus s) ∧ ((∀ op n, c ≠ .areaFault op n) → bus = .sound) := by
  cases c
  case areaFault op n => exact ⟨.failsAfter n, rfl, fun h => absurd rfl (h op n)⟩
  all_goals exact ⟨.sound, rfl, fun _ => rfl⟩

end Sys2Proof.Machine
end

