-- ==== Sys2Proof/Proofs/Invariants.lean ====
section
/-! The invariants of the catalogue: identities, SEND jobs, in-use counts and the life of an entry, each one case analysis over the
elementary changes of a step. -/

namespace Sys2Proof.Machine

/-- The catalogue, the plans and the transfer records as a reset leaves them. -/
def Device.afterReset (d : Device) : Prop :=
  ∃ cause, d.cat = (Device.reset cause).cat ∧ d.pln = (Device.reset cause).pln ∧ d.xfr = (Device.reset cause).xfr

theorem runOperation_afterReset {op : Instr} (h : op.isReset = true) (bus : AreaBus) (s : State) :
    (runOperation op bus s).dev.afterReset := by
  cases op
  case deviceReset source => exact ⟨resetCauseOf source, rfl, rfl, rfl⟩
  case softReset => exact ⟨.soft, rfl, rfl, rfl⟩
  all_goals cases h

/-- A step is a chain of elementary changes, or a reset. -/
theorem step_moves {s t : State} (h : step s = .next t) : Moves (.full True) s.dev false t.dev ∨ t.dev.afterReset := by
  unfold step at h
  split at h
  · cases h; exact .inl (Device.moves_ticked .start)
  · rename_i op rest _
    obtain ⟨bus, run, -⟩ := exec_eq_runOperation op { s with pending := rest }
    rw [run] at h
    cases h
    cases hr : op.operation.isReset
    · exact .inl (runOperation_moves hr (fun _ => trivial) bus { s with pending := rest })
    · exact .inr (runOperation_afterReset hr bus _)

namespace Device.afterReset

variable {d : Device} (h : d.afterReset)
include h

theorem entry (i : CatIndex) : d.entry i = .blank 1 .none := by
  obtain ⟨cause, hc, -, -⟩ := h
  rw [Device.entry, hc]; exact Device.entry_reset cause i
theorem plan (a : Addr) : d.plan a = [] := by
  obtain ⟨cause, -, hp, -⟩ := h
  rw [Device.plan, hp]; exact Device.plan_reset cause a
theorem records (a : Addr) : (d.transfers a).records = [] := by
  obtain ⟨cause, -, -, hx⟩ := h
  have : d.transfers a = (Device.reset cause).transfers a := by rw [Device.transfers, hx]; rfl
  rw [this, Device.transfers_reset]; rfl

end Device.afterReset

/-- Settles O5: an entry becomes in use by a POST alone, which is refused where its identity is in use. -/
theorem identitiesKept : Obligations.IdentitiesKept := by
  intro s hs t ht
  rcases step_moves ht with moves | reset
  · exact moves.identitiesOk hs
  · exact fun i j _ hi => absurd (by rw [reset.entry]; rfl) hi

/-- Settles O7: a READY entry leaves READY only where every validator is replanned after it. -/
theorem plansNameReadyEntriesKept : Obligations.PlansNameReadyEntriesKept := by
  intro s hs t ht
  rcases step_moves ht with moves | reset
  · exact moves.plansOk hs
  · intro a j hj; rw [reset.plan] at hj; cases hj

/-- Settles O8: counts change as records are opened and closed, and nothing else does both. -/
theorem inUseCountsKept : Obligations.InUseCountsKept := by
  intro s transfers plans usage t ht
  rcases step_moves ht with moves | reset
  · have good : s.dev.Good (.full True) :=
      { tags := fun a => (transfers a).2.2.2.1, slots := fun a => (transfers a).2.1, plans := fun _ => plans, usage }
    exact (moves.usageOk_tagsOk good).1
  · refine ⟨fun i => ?_, fun a r hr => ?_⟩
    · have none (a : Addr) : ((t.dev.transfers a).records.filter (·.index == i)).length = 0 := by rw [reset.records]; rfl
      rw [reset.entry]
      simp [Device.openRecords, none, Entry.blank]
    · rw [reset.records] at hr; cases hr

/-! ## The life of an entry over a command -/

/-- What HALTED makes of an entry: FREE where it stands in VERIFYING (R12). -/
theorem Device.entry_abandonFirst (d : Device) (i j : CatIndex) :
    (d.abandonFirst i).entry j =
      if i = j ∧ (d.entry j).state = .verifying then .blank (stepGeneration (d.entry j).generation) .none else d.entry j := by
  have freed : (d.freeEntry i .none).entry j =
      if i = j then .blank (stepGeneration (d.entry i).generation) .none else d.entry j := Device.entry_setEntry d i j _
  unfold Device.abandonFirst
  dsimp only
  by_cases hs : (d.entry i).state = .verifying
  · rw [if_pos hs]
    have target : (if i = j then .blank (stepGeneration (d.entry i).generation) .none else d.entry j) =
        if i = j ∧ (d.entry j).state = .verifying then .blank (stepGeneration (d.entry j).generation) .none else d.entry j := by
      by_cases k : i = j
      · subst j; simp [hs]
      · simp [k]
    rw [← target, ← freed]
    cases (d.entry i).pendingSlot <;> rfl
  · rw [if_neg hs, if_neg]
    rintro ⟨rfl, k⟩; exact hs k

theorem Device.entry_haltVerifier (d : Device) (j : CatIndex) :
    d.haltVerifier.entry j =
      if j ∈ d.vfy.queue ∧ (d.entry j).state = .verifying then .blank (stepGeneration (d.entry j).generation) .none
      else d.entry j := by
  have each (l : List CatIndex) (e : Device) : (l.foldl Device.abandonFirst e).entry j =
      if j ∈ l ∧ (e.entry j).state = .verifying then .blank (stepGeneration (e.entry j).generation) .none else e.entry j := by
    induction l generalizing e with
    | nil => simp
    | cons i l ih =>
      rw [List.foldl_cons, ih, Device.entry_abandonFirst]
      by_cases hs : (e.entry j).state = .verifying
      · by_cases hi : i = j
        · simp [hi, hs, Entry.blank]
        · simp [hi, hs, Ne.symm hi]
      · simp [hs]
  exact each d.vfy.queue d

/-- Every change but of entries, of the verify queue and the coming in of POSTs. -/
def Scope.noEntry : Scope := { Scope.full False with entry := fun _ => False, vfy := False }

theorem Scope.open_noEntry : Scope.noEntry.Open := { Scope.open_full False with }

/-- The part as it enters HALTED, before the Verifier's entries are freed. -/
def Device.haltedLine (d : Device) : Device := ({ d with port.device := .halted } : Device).stopSweeps.lineToIdle

theorem Device.moves_haltedLine (d : Device) : Moves .noEntry d false d.haltedLine :=
  Device.moves_lineToIdle trivial (.inl trivial)
    (Device.moves_exp Scope.open_noEntry (Device.moves_exp Scope.open_noEntry .start))

/-- At HALTED an entry in VERIFYING of the verify queue is FREE (R12). -/
theorem Device.free_enterHalted {d : Device} {i : CatIndex} (hq : i ∈ d.vfy.queue) (hs : (d.entry i).state = .verifying) :
    (d.enterHalted.entry i).state = .free := by
  have line := d.moves_haltedLine
  have queue : d.haltedLine.vfy = d.vfy := line.framed.vfy.resolve_left fun k => k
  have state := (line.entryKept (i := i) (fun k => k) (by simp [hs])).2
  have left : d.enterHalted.entry i = d.haltedLine.haltVerifier.entry i :=
    Written.entry (Device.kept_leaveAll (d.haltedLine.haltVerifier.raise .area) _) i
  rw [left, Device.entry_haltVerifier, if_pos ⟨by rw [queue]; exact hq, state.trans hs⟩]
  rfl

theorem Device.halted_enterHalted (d : Device) : d.enterHalted.port.device = .halted := by
  have line : d.haltedLine.port.device = .halted := (Device.stir_lineToIdle (.refl _)).device
  have kept (l : List CatIndex) (e : Device) : (l.foldl Device.abandonFirst e).port.device = e.port.device := by
    induction l generalizing e with
    | nil => rfl
    | cons i l ih =>
      refine (ih _).trans ?_
      unfold Device.abandonFirst
      dsimp only
      split
      · split <;> rfl
      · rfl
  have left : d.enterHalted.port.device = d.haltedLine.haltVerifier.port.device :=
    Written.device (Device.kept_leaveAll (d.haltedLine.haltVerifier.raise .area) _)
  exact left.trans ((kept _ d.haltedLine).trans line)

/-- A POST brings in an entry, or changes entries as their lives go. -/
theorem Device.postRequest_cases (d : Device) (slot : Slot) (f : PostFields) :
    Moves (.full False) d false (d.postRequest slot f) ∨
      ∃ i x, d.Posts i x ∧ d.postRequest slot f = { d.setEntry i x with vfy.queue := d.vfy.queue ++ [i] } := by
  unfold Device.postRequest
  split
  · exact .inl (Device.moves_refuse .start)
  · rename_i s form hf
    split
    · exact .inl (Device.moves_refuse .start)
    · rename_i hd
      split
      · exact .inl (Device.moves_refuse .start)
      · rename_i i hi
        exact .inr ⟨i, _, Device.posts_postedEntry hf hd hi, rfl⟩

/-- What a POST makes of an entry: its life goes on; or it was FREE and is VERIFYING now, or FREE again in HALTED (R5, R12). -/
def Entry.PostLife (e x : Entry) (halted : Prop) : Prop :=
  e.Life x ∨ e.state = .free ∧ (x.state = .verifying ∧ x.generation = e.generation ∨ halted ∧ x.state = .free)

/-- With no POST coming in, what follows a request leaves entries to their lives. -/
theorem Run.life_settle_finish (r : Run) (before : Device) (i : CatIndex) :
    (r.state.dev.entry i).Life ((r.settle before).finish.dev.entry i) :=
  (Run.moves_finish (b := false) (Scope.open_full False) (fun _ _ => trivial) trivial
    (Run.moves_settle (Scope.open_full False) .start)).life (fun k => k) i

/-- An entry brought in stands in VERIFYING after the command, or is FREE in HALTED (R5, R12). -/
theorem Run.posted_settle_finish {r : Run} {before : Device} {i : CatIndex} (hq : i ∈ r.state.dev.vfy.queue)
    (hs : (r.state.dev.entry i).state = .verifying) :
    ((r.settle before).finish.dev.entry i).state = .verifying ∧
        ((r.settle before).finish.dev.entry i).generation = (r.state.dev.entry i).generation ∨
      (r.settle before).finish.dev.port.device = .halted ∧ ((r.settle before).finish.dev.entry i).state = .free := by
  have settled : Moves .noEntry r.state.dev false (r.settle before).state.dev :=
    Run.moves_settle Scope.open_noEntry .start
  obtain ⟨posted, state⟩ := settled.entryKept (i := i) (fun k => k) (by simp [hs])
  have queue : (r.settle before).state.dev.vfy = r.state.dev.vfy := settled.framed.vfy.resolve_left fun k => k
  unfold Run.finish
  dsimp only
  split
  · exact .inl ⟨state.trans hs, (Entry.posted_eq posted).1⟩
  · exact .inr ⟨Device.halted_enterHalted _, Device.free_enterHalted (by rw [queue]; exact hq) (state.trans hs)⟩

theorem State.postLife_takePost {s : State} {bus slot ref f} (i : CatIndex) :
    (s.dev.entry i).PostLife ((s.takeRequest bus slot ref (.post f)).dev.entry i)
      ((s.takeRequest bus slot ref (.post f)).dev.port.device = .halted) := by
  unfold State.takeRequest
  split
  swap
  · exact .inl (.refl _)
  generalize hr : ({ state := s.withRequest slot ref (.post f), bus } : Run) = r
  have dev : r.state.dev = s.dev := by rw [← hr]; exact State.withRequest_dev s slot ref _
  rw [← dev]
  have taken : Written r ((r.writeTaken slot).read) := Run.written_read (Run.written_writeTaken (.refl r) slot)
  unfold Run.take
  dsimp only
  generalize (r.writeTaken slot).read = q at *
  split
  swap
  · rw [← taken.entry i]
    exact .inl ((Run.moves_finish (b := false) (Scope.open_full False) (fun _ _ => trivial) trivial .start).life (fun k => k) i)
  rename_i alive
  generalize hh : q.state.dev.hold slot { kind := (Request.post f).kind, ref } = h
  have held : h.entry i = r.state.dev.entry i := by rw [← taken.entry i, ← hh]; rfl
  generalize hp : q.inside (fun d => (d.hold slot { kind := (Request.post f).kind, ref }).request slot (.post f)) = p
  have request : p.state.dev = h.postRequest slot f := by
    rw [← hp, ← hh]; unfold Run.inside; rw [if_pos alive]; rfl
  have after := p.life_settle_finish r.state.dev i
  rcases h.postRequest_cases slot f with refused | ⟨j, x, posts, posted⟩
  · exact .inl (.trans (by rw [← held, request]; exact refused.life (fun k => k) i) after)
  rw [posted] at request
  by_cases k : j = i
  · subst k
    have entry : p.state.dev.entry j = x := by rw [request]; exact Device.entry_setEntry_self h j x
    rcases Run.posted_settle_finish (r := p) (before := r.state.dev) (i := j) (by rw [request]; simp)
      (by rw [entry]; exact posts.verifying) with ⟨state, generation⟩ | halted
    · exact .inr ⟨by rw [← held]; exact posts.free, .inl ⟨state, by rw [generation, entry, posts.generation, held]⟩⟩
    · exact .inr ⟨by rw [← held]; exact posts.free, .inr halted⟩
  · have entry : p.state.dev.entry i = h.entry i := by
      rw [request]; exact (Device.entry_setEntry h j i x).trans (if_neg k)
    rw [← held, ← entry]; exact .inl after

/-- Settles O9: POST apart, entries live on over every chain of elementary changes. -/
theorem entriesChangeByTheirLife : Obligations.EntriesChangeByTheirLife := by
  intro c s i editions reset sweep t ht
  obtain ⟨bus, run, -⟩ := exec_eq_runOperation c s
  rw [run] at ht
  cases ht
  refine ⟨(runOperation_moves reset (post := True) (fun _ => trivial) bus s).editionsOk editions, ?_⟩
  have life : (s.dev.entry i).Life ((runOperation c.operation bus s).dev.entry i) ∨
      (∃ slot ref f, c.operation = .post slot ref f) ∧ (s.dev.entry i).PostLife ((runOperation c.operation bus s).dev.entry i)
        ((runOperation c.operation bus s).dev.port.device = .halted) := by
    by_cases hp : ∃ slot ref f, c.operation = .post slot ref f
    · refine .inr ⟨hp, ?_⟩
      obtain ⟨slot, ref, f, hp⟩ := hp
      rw [hp]; exact State.postLife_takePost i
    · exact .inl ((runOperation_moves (post := False) reset
        (fun k => k.elim hp fun ⟨host, k⟩ => sweep host k) bus s).life (fun k => k) i)
  rcases life with life | ⟨⟨slot, ref, f, hp⟩, life | ⟨free, brought⟩⟩
  · exact ⟨life.1, fun free => .inl (life.2 free)⟩
  · exact ⟨life.1, fun free => .inl (life.2 free)⟩
  · exact ⟨fun used => absurd free used, fun _ => .inr ⟨slot, ref, f, hp, brought⟩⟩

end Sys2Proof.Machine
end

