-- ==== Sys2Proof/Proofs/Area.lean ====
section
/-! What EXP's writing leaves of the exchange area and of the part, told through views: a run of host RAM with what it shows of the
part. Each of EXP's writes keeps a view that it neither touches nor changes the source of. -/

namespace Sys2Proof.Machine

/-! ## What holds while no access has faulted -/

/-- What holds of a command under way unless an access has faulted. -/
def Run.Has (r : Run) (P : State → Prop) : Prop := r.alive = true → P r.state

variable {r : Run} {P Q : State → Prop}

theorem Run.access_alive {f : State → State} (h : (r.access f).alive = true) :
    r.alive = true ∧ (r.access f).state = f r.state := by
  unfold Run.access at h ⊢
  split at h
  · rename_i k; simp [Run.alive, k]
  · cases h
  · rename_i k; simp [Run.alive, k]
  · exact absurd h (by simp [Run.alive, *])

theorem Run.Has.access {f : State → State} (h : r.Has P) (hf : ∀ s, P s → Q (f s)) : (r.access f).Has Q := fun k => by
  obtain ⟨alive, state⟩ := Run.access_alive k
  rw [state]; exact hf _ (h alive)

@[simp] theorem Run.inside_alive (f : Device → Device) : (r.inside f).alive = r.alive := by
  unfold Run.inside; split <;> rfl

theorem Run.inside_state {f : Device → Device} (h : r.alive = true) :
    (r.inside f).state = { r.state with dev := f r.state.dev } := by
  unfold Run.inside; rw [if_pos h]

theorem Run.Has.inside {f : Device → Device} (h : r.Has P) (hf : ∀ s, P s → Q { s with dev := f s.dev }) :
    (r.inside f).Has Q := fun k => by
  rw [Run.inside_alive] at k
  rw [Run.inside_state k]; exact hf _ (h k)

theorem Run.Has.always {f : Device → Device} (h : r.Has P) (hf : ∀ s, P s → Q { s with dev := f s.dev }) :
    (r.always f).Has Q := fun k => hf _ (h k)

theorem Run.Has.imp (h : r.Has P) (hf : ∀ s, P s → Q s) : r.Has Q := fun k => hf _ (h k)

theorem Run.Has.and (h : r.Has P) (k : r.Has Q) : r.Has fun s => P s ∧ Q s := fun x => ⟨h x, k x⟩

theorem Run.Has.ite {p : Prop} [Decidable p] {x y : Run} (h : p → x.Has P) (k : ¬p → y.Has P) :
    (if p then x else y).Has P := by
  split
  · exact h ‹_›
  · exact k ‹_›

theorem Run.Has.foldl {α : Type} {f : Run → α → Run} (l : List α) (h : r.Has P)
    (hf : ∀ x ∈ l, ∀ r : Run, r.Has P → (f r x).Has P) : (l.foldl f r).Has P := by
  induction l generalizing r with
  | nil => exact h
  | cons x l ih =>
    exact ih (hf x List.mem_cons_self r h) fun y hy => hf y (List.mem_cons_of_mem _ hy)

/-! ## Views -/

/-- A run of host RAM, in an area of a given base, with what it shows of the part. -/
structure View where
  base : Nat
  first : Nat
  length : Nat
  What : Type
  what : Device → What
  claim : What → List Octet → Prop

/-- The area lies at the view's base, and the view's octets show what they are to show. -/
def State.sees (v : View) (s : State) : Prop :=
  s.dev.areaBase = v.base ∧ v.claim (v.what s.dev) (s.ram.octets v.first v.length)

/-- A run of the area lies apart from a view. -/
def View.Apart (v : View) (offset n : Nat) : Prop :=
  v.base + offset + n ≤ v.first ∨ v.first + v.length ≤ v.base + offset

/-- A change inside the part leaves what a view shows. -/
def View.Blind (v : View) (f : Device → Device) : Prop := ∀ d, v.what (f d) = v.what d

variable {v : View}

theorem Run.Has.write {o : Nat} {l : List Octet} (h : r.Has (State.sees v)) (hv : v.Apart o l.length) :
    (r.write o l).Has (State.sees v) :=
  h.access fun s ⟨base, claim⟩ => by
    refine ⟨base, ?_⟩
    show v.claim _ ((s.ram.write _ l).octets _ _)
    rw [base, Ram.octets_write_outside (by rcases hv with k | k <;> omega)]
    exact claim

theorem Run.Has.changed {f : Device → Device} (h : r.Has (State.sees v)) (hv : v.Blind f)
    (ha : ∀ d, (f d).areaBase = d.areaBase) : (r.inside f).Has (State.sees v) :=
  h.inside fun s ⟨base, claim⟩ => ⟨(ha _).trans base, by rw [hv]; exact claim⟩

theorem Run.Has.changedAlways {f : Device → Device} (h : r.Has (State.sees v)) (hv : v.Blind f)
    (ha : ∀ d, (f d).areaBase = d.areaBase) : (r.always f).Has (State.sees v) :=
  h.always fun s ⟨base, claim⟩ => ⟨(ha _).trans base, by rw [hv]; exact claim⟩

theorem Run.Has.read (h : r.Has P) : r.read.Has P := h.access fun _ k => k

/-- The area at a base that the host address space holds. -/
def State.areaAt (base : Nat) (s : State) : Prop := s.dev.areaBase = base

theorem Config.area_fits (s : State) : s.dev.areaBase + 8192 ≤ Config.hostSpace := by
  have := s.dev.port.xbase.isLt
  simp only [Device.areaBase, Config.areaSize, Config.hostSpace]
  omega

/-- What has been written reads back, and the part is as before. -/
theorem Run.has_written {o : Nat} {l : List Octet} (ho : o + l.length ≤ 8192) :
    (r.write o l).Has fun s => s.dev = r.state.dev ∧ s.ram.octets (s.dev.areaBase + o) l.length = l := fun k => by
  obtain ⟨-, state⟩ := Run.access_alive k
  have := Config.area_fits r.state
  refine ⟨by rw [Run.write, state], ?_⟩
  rw [Run.write, state]
  exact Ram.octets_write_self _ _ _ (by omega)

/-! ## What each write spares -/

/-- The update counts stepped. -/
def Device.countCat (d : Device) (i : CatIndex) : Device :=
  { d with port.catCounts := d.port.catCounts.set i (d.port.catCounts[i] + 1) }
def Device.countRos (d : Device) (a : Addr) : Device :=
  let d := d.putRecord a { d.record a with replyTime := .shown }
  { d with port.rosCounts := d.port.rosCounts.set a (d.port.rosCounts[a] + 1) }
def Device.countCoord (d : Device) : Device := { d with port.coordCount := d.port.coordCount + 1 }

/-- A catalogue record's rewriting leaves a view as it is. -/
def View.sparesCat (v : View) (i : CatIndex) : Prop := v.Apart (catOffset i) 32 ∧ v.Blind (·.countCat i)
def View.sparesRos (v : View) (a : Addr) : Prop := v.Apart (rosOffset a) 128 ∧ v.Blind (·.countRos a)
def View.sparesCoord (v : View) : Prop := v.Apart coordOffset 64 ∧ v.Blind Device.countCoord

/-- A count of what the part has given back, in the header (R181). -/
def View.sparesCount (v : View) : Prop := v.Apart 20 4 ∧ v.Blind Device.stepDeviceCount

/-- What is handed over, when it is carried out, leaves a view as it is. -/
def View.sparesPub (v : View) : Publication → Prop
  | .slotReturn ret =>
    v.Apart (slotOffset ret.slot) 12 ∧ v.sparesCount ∧ v.Blind (·.raise .slot) ∧ v.Blind (·.release ret.slot)
  | .noticeFill a _ _ => v.Apart (cellOffset a) 64 ∧ v.sparesCount ∧ v.Blind (·.raise .notice)
  | .catRewrite _ | .rosterRewrite _ | .coordRewrite | .summaryRewrite => True
  | .clockCopy => v.Apart 25 1 ∧ v.Apart 28 4
  | .stateCopy => v.Apart 24 1

/-- Part of a run that lies apart lies apart. -/
theorem View.Apart.sub {o n p k : Nat} (h : v.Apart o n) (ho : o ≤ p) (hn : p + k ≤ o + n) : v.Apart p k := by
  rcases h with h | h
  · exact .inl (by omega)
  · exact .inr (by omega)

theorem Run.Has.writeCat {i : CatIndex} (h : r.Has (State.sees v)) (hv : v.sparesCat i) :
    (r.writeCat i).Has (State.sees v) := by
  obtain ⟨apart, blind⟩ := hv
  have body : (r.write (catOffset i + 4) (catBody (r.state.dev.entry i))).Has (State.sees v) :=
    h.write (apart.sub (by omega) (by rw [catBody_length]))
  exact (body.changed (f := (·.countCat i)) blind fun _ => rfl).write (apart.sub (le_refl _) (by simp))

theorem Run.Has.writeRos {a : Addr} (h : r.Has (State.sees v)) (hv : v.sparesRos a) :
    (r.writeRos a).Has (State.sees v) := by
  obtain ⟨apart, blind⟩ := hv
  have body : (r.write (rosOffset a + 4) (rosBody (r.state.dev.record a))).Has (State.sees v) :=
    h.write (apart.sub (by omega) (by rw [rosBody_length]))
  exact (body.changed (f := (·.countRos a)) blind fun _ => rfl).write (apart.sub (le_refl _) (by simp))

theorem Run.Has.writeCoord (h : r.Has (State.sees v)) (hv : v.sparesCoord) : r.writeCoord.Has (State.sees v) := by
  obtain ⟨apart, blind⟩ := hv
  have body : (r.write (coordOffset + 4) (coordBody r.state.dev.act)).Has (State.sees v) :=
    h.write (apart.sub (by omega) (by rw [coordBody_length]))
  exact (body.changed (f := Device.countCoord) blind fun _ => rfl).write (apart.sub (le_refl _) (by simp))

theorem Run.Has.writeSummary (h : r.Has (State.sees v)) (hv : v.Apart 32 8) : r.writeSummary.Has (State.sees v) :=
  h.write (by rw [hotSummary_length]; exact hv)
theorem Run.Has.writeSeen (h : r.Has (State.sees v)) (hv : v.Apart 16 4) : r.writeSeen.Has (State.sees v) :=
  h.write (by rw [leOctets_length]; exact hv)
theorem Run.Has.writeDeviceCount (h : r.Has (State.sees v)) (hv : v.Apart 20 4) : r.writeDeviceCount.Has (State.sees v) :=
  h.write (by rw [leOctets_length]; exact hv)
theorem Run.Has.writeState (h : r.Has (State.sees v)) (hv : v.Apart 24 1) : r.writeState.Has (State.sees v) := h.write hv
theorem Run.Has.writeClock (h : r.Has (State.sees v)) (hv : v.Apart 25 1 ∧ v.Apart 28 4) :
    r.writeClock.Has (State.sees v) := (h.write hv.1).write (by rw [leOctets_length]; exact hv.2)

theorem Run.Has.returnSlot {ret : Return} (h : r.Has (State.sees v)) (hv : v.sparesPub (.slotReturn ret)) :
    (r.returnSlot ret).Has (State.sees v) := by
  obtain ⟨slot, ⟨count, blind⟩, raise, release⟩ := hv
  have body : (r.write (slotOffset ret.slot + 1) (returnBody ret)).Has (State.sees v) :=
    h.write (slot.sub (by omega) (by rw [returnBody_length]))
  have owner := body.write (o := slotOffset ret.slot) (l := [0]) (slot.sub (le_refl _) (by simp))
  have counted := (owner.changed blind fun _ => rfl).writeDeviceCount count
  exact (counted.changed raise fun _ => rfl).changedAlways release fun _ => rfl

theorem Run.Has.fillNotice {a kind text} (h : r.Has (State.sees v)) (hv : v.sparesPub (.noticeFill a kind text)) :
    (r.fillNotice a kind text).Has (State.sees v) := by
  obtain ⟨cell, ⟨count, blind⟩, raise⟩ := hv
  have body : (r.write (cellOffset a + 1) (cellBody kind text)).Has (State.sees v) :=
    h.write (cell.sub (by omega) (by rw [cellBody_length]))
  have owner := body.write (o := cellOffset a) (l := [0]) (cell.sub (le_refl _) (by simp))
  unfold Run.fillNotice
  refine .ite (fun _ => ?_) fun dead k => absurd k dead
  exact ((owner.changed blind fun _ => rfl).writeDeviceCount count).changed raise fun _ => rfl

theorem Run.Has.carryOut {p : Publication} (h : r.Has (State.sees v)) (hv : v.sparesPub p) :
    (r.carryOut p).Has (State.sees v) := by
  cases p
  case slotReturn => exact h.returnSlot hv
  case noticeFill => exact h.fillNotice hv
  case clockCopy => exact h.writeClock hv
  case stateCopy => exact h.writeState hv
  all_goals exact h

/-- While no access faults, what is handed over is carried out one after another. -/
theorem Run.Has.carryOutAll {l : List Publication} (h : r.Has P)
    (hl : ∀ p ∈ l, ∀ r : Run, r.Has P → (r.carryOut p).Has P) : (r.carryOutAll l).Has P := by
  induction l generalizing r with
  | nil => exact h
  | cons p l ih =>
    exact .ite (fun _ => ih (hl p List.mem_cons_self r h) fun q hq => hl q (List.mem_cons_of_mem _ hq))
      fun dead k => absurd k dead

/-! ## Mirrors and publication -/

/-- What the rewriting of the mirrors at the end of a command leaves of a view. -/
structure View.SparesMirrors (v : View) (before after : Device) (out : List Publication) : Prop where
  cat : ∀ i, catDirty before after out i = true → v.sparesCat i
  ros : ∀ a, rosDirty before after out a = true → v.sparesRos a
  coord : mirrorDue out .coordRewrite (coordBody before.act) (coordBody after.act) = true → v.sparesCoord
  summary : mirrorDue out .summaryRewrite (hotSummary before.htq) (hotSummary after.htq) = true → v.Apart 32 8

theorem Run.Has.writeMirrors {before : Device} {out : List Publication} (h : r.Has (State.sees v))
    (hv : v.SparesMirrors before r.state.dev out) : (r.writeMirrors before out).Has (State.sees v) := by
  unfold Run.writeMirrors
  extract_lets after r1 r2 r3
  have h1 : r1.Has (State.sees v) := h.foldl _ fun i hi r k => k.writeCat (hv.cat i (List.mem_filter.1 hi).2)
  have h2 : r2.Has (State.sees v) := h1.foldl _ fun a ha r k => k.writeRos (hv.ros a (List.mem_filter.1 ha).2)
  have h3 : r3.Has (State.sees v) := .ite (fun k => h2.writeCoord (hv.coord k)) fun _ => h2
  exact .ite (fun k => h3.writeSummary (hv.summary k)) fun _ => h3

end Sys2Proof.Machine
end

