-- ==== Sys2Proof/Proofs/Mirrors.lean ====
section
/-! The mirrors of the exchange area as views, and how publication keeps them true: a mirror is rewritten where what it shows has
changed, and stands where it has not. -/

namespace Sys2Proof.Machine

/-! ## The mirrors as views (R20, R61, R161, R177, R181) -/

/-- Octets that show what a function of the part gives. -/
def View.of (base offset length : Nat) (what : Device → List Octet) : View where
  base := base
  first := base + offset
  length := length
  What := List Octet
  what := what
  claim := fun w l => l = w

def catView (base : Nat) (i : CatIndex) : View :=
  .of base (catOffset i) 32 fun d => leOctets 4 (d.port.catCounts[i]).toNat ++ catBody (d.entry i)
def coordView (base : Nat) : View :=
  .of base coordOffset 64 fun d => leOctets 4 d.port.coordCount.toNat ++ coordBody d.act
def summaryView (base : Nat) : View := .of base 32 8 fun d => hotSummary d.htq
def seenView (base : Nat) : View := .of base 16 4 fun d => leOctets 4 d.port.seenCount.toNat
def countView (base : Nat) : View := .of base 20 4 fun d => leOctets 4 d.port.deviceCount.toNat
def stateView (base : Nat) : View := .of base 24 1 fun d => [num d.port.device.code]

/-- A roster mirror shows its record, the last valid reply time where nothing has changed it since (R61). -/
def rosClaim (w : Word32 × ValRecord) (l : List Octet) : Prop :=
  l.take 60 = leOctets 4 w.1.toNat ++ (rosBody w.2).take 56 ∧
    (w.2.replyTime = .shown → leValue (l.drop 60) = w.2.lastReply % 2 ^ 32)
def rosView (base : Nat) (a : Addr) : View where
  base := base
  first := base + rosOffset a
  length := 64
  What := Word32 × ValRecord
  what := fun d => (d.port.rosCounts[a], d.record a)
  claim := rosClaim

/-- Where the area lies, and nothing more. -/
def areaView (base : Nat) : View where
  base := base
  first := base
  length := 0
  What := Unit
  what := fun _ => ()
  claim := fun _ _ => True

theorem State.sees_area {base : Nat} {s : State} : s.sees (areaView base) ↔ s.areaAt base := and_iff_left trivial

/-- The views that a state's mirrors are. -/
inductive mirrorView (base : Nat) : View → Prop
  | area : mirrorView base (areaView base)
  | cat (i) : mirrorView base (catView base i)
  | ros (a) : mirrorView base (rosView base a)
  | coord : mirrorView base (coordView base)
  | summary : mirrorView base (summaryView base)
  | seen : mirrorView base (seenView base)
  | count : mirrorView base (countView base)
  | state : mirrorView base (stateView base)

theorem State.sees_of {base o n : Nat} {what : Device → List Octet} {s : State} (h : s.dev.areaBase = base) :
    s.sees (.of base o n what) ↔ s.ram.octets (s.dev.areaBase + o) n = what s.dev := by
  simp only [State.sees, View.of, h, true_and]

theorem State.sees_ros {base : Nat} {a : Addr} {s : State} (h : s.dev.areaBase = base) :
    s.sees (rosView base a) ↔
      s.ram.octets (s.dev.areaBase + rosOffset a) 60 =
        leOctets 4 (s.dev.port.rosCounts[a]).toNat ++ (rosBody (s.dev.record a)).take 56 ∧
      ((s.dev.record a).replyTime = .shown →
        s.ram.field (s.dev.areaBase + rosOffset a + 60) 4 = (s.dev.record a).lastReply % 2 ^ 32) := by
  simp only [State.sees, rosView, rosClaim, h, true_and, Ram.field]
  rw [Ram.octets_take, Ram.octets_drop _ _ (by omega)]
  rfl

/-- A state's mirrors are true when every view of them is, while the area is accessed. -/
theorem State.mirrorsOk_iff {s : State} {base : Nat} (h : s.dev.areaBase = base) :
    s.mirrorsOk ↔ (s.dev.port.device = .running ∨ s.dev.port.device = .stopping → ∀ v, mirrorView base v → s.sees v) := by
  refine forall_congr' fun _ => ⟨fun ⟨cat, ros, coord, summary, counts, state⟩ v hv => ?_, fun all => ?_⟩
  · have seenCount : s.ram.octets (s.dev.areaBase + 16) 4 = leOctets 4 s.dev.port.seenCount.toNat ∧
        s.ram.octets (s.dev.areaBase + 20) 4 = leOctets 4 s.dev.port.deviceCount.toNat := by
      exact List.append_inj ((Ram.octets_add _ _ 4 4).symm.trans counts) (by simp)
    cases hv with
    | area => exact State.sees_area.2 h
    | cat i => exact (State.sees_of h).2 (cat i)
    | ros a => exact (State.sees_ros h).2 (ros a)
    | coord => exact (State.sees_of h).2 coord
    | summary => exact (State.sees_of h).2 summary
    | seen => exact (State.sees_of h).2 seenCount.1
    | count => exact (State.sees_of h).2 seenCount.2
    | state => exact (State.sees_of h).2 (by simp [Ram.octets, state])
  · have seen := (State.sees_of h).1 (all _ .seen)
    have count := (State.sees_of h).1 (all _ .count)
    have state := (State.sees_of h).1 (all _ .state)
    refine ⟨fun i => (State.sees_of h).1 (all _ (.cat i)), fun a => (State.sees_ros h).1 (all _ (.ros a)),
      (State.sees_of h).1 (all _ .coord), (State.sees_of h).1 (all _ .summary), ?_, ?_⟩
    · rw [← seen, ← count]; exact Ram.octets_add _ _ 4 4
    · simpa [Ram.octets] using state

/-! ## A rewriting makes its mirror true -/

variable {r : Run} {base : Nat}

/-- A body written, something changed inside the part, and a count written in front of the body (R188). -/
theorem Run.has_record {o : Nat} {l : List Octet} {f : Device → Device} {count : Device → Word32} {P : State → Prop}
    (h : r.Has P) (ho : o + 4 + l.length ≤ 8192) (ha : ∀ d, (f d).areaBase = d.areaBase) :
    ((((r.write (o + 4) l).inside f).write o
      (leOctets 4 (count ((r.write (o + 4) l).inside f).state.dev).toNat)).Has fun s =>
        P r.state ∧ s.dev = f r.state.dev ∧
          s.ram.octets (s.dev.areaBase + o) (4 + l.length) = leOctets 4 (count s.dev).toNat ++ l) := fun k => by
  obtain ⟨alive, state⟩ := Run.access_alive k
  rw [Run.inside_alive] at alive
  obtain ⟨begun, body⟩ := Run.access_alive alive
  have dev : ((r.write (o + 4) l).inside f).state.dev = f r.state.dev := by
    rw [Run.inside_state alive]; show f (r.write _ l).state.dev = _; rw [Run.write, body]
  have ram : ((r.write (o + 4) l).inside f).state.ram = r.state.ram.write (r.state.dev.areaBase + (o + 4)) l := by
    rw [Run.inside_state alive]; show (r.write _ l).state.ram = _; rw [Run.write, body]
  have fits := Config.area_fits r.state
  refine ⟨h begun, by rw [Run.write, state]; exact dev, ?_⟩
  rw [Run.write, state]
  show Ram.octets (Ram.write _ _ _) _ _ = _
  rw [Ram.octets_add, dev, ram]
  show Ram.octets (Ram.write _ (Device.areaBase (f _) + o) _) (Device.areaBase (f _) + o) _ ++
      Ram.octets _ (Device.areaBase (f _) + o + 4) _ = _
  rw [ha]
  congr 1
  · have := Ram.octets_write_self (r.state.ram.write (r.state.dev.areaBase + (o + 4)) l) (r.state.dev.areaBase + o)
      (leOctets 4 (count (f r.state.dev)).toNat) (by simp; omega)
    simpa using this
  · rw [Ram.octets_write_outside (by simp only [leOctets_length]; omega), Nat.add_assoc]
    exact Ram.octets_write_self _ _ _ (by omega)

theorem Run.writeCat_shows {i : CatIndex} (h : r.Has (State.sees (areaView base))) : (r.writeCat i).Has (State.sees (catView base i)) := by
  have := catOffset_lt i
  refine (Run.has_record (f := (·.countCat i)) (count := fun d => d.port.catCounts[i]) h (by simp; omega) fun _ => rfl).imp ?_
  rintro s ⟨area, dev, octets⟩
  have at_base : s.dev.areaBase = base := by rw [dev]; exact area.1
  refine (State.sees_of at_base).2 ?_
  rw [catBody_length] at octets
  rw [octets, dev]; rfl

theorem Run.writeCoord_shows (h : r.Has (State.sees (areaView base))) : r.writeCoord.Has (State.sees (coordView base)) := by
  refine (Run.has_record (f := Device.countCoord) (count := fun d => d.port.coordCount) h (by simp [coordOffset])
    fun _ => rfl).imp ?_
  rintro s ⟨area, dev, octets⟩
  have at_base : s.dev.areaBase = base := by rw [dev]; exact area.1
  refine (State.sees_of at_base).2 ?_
  rw [coordBody_length] at octets
  rw [octets, dev]; rfl

/-- The body of a roster mirror ends in the last valid reply time and 64 octets of 0 (R199). -/
theorem rosBody_tail (r : ValRecord) :
    ∃ front, rosBody r = front ++ (leOctets 4 r.lastReply ++ List.replicate 64 0) ∧ front.length = 56 := by
  refine ⟨_, List.append_assoc _ _ _, ?_⟩
  have := rosBody_length r
  unfold rosBody at this
  rw [List.length_append, List.length_append, leOctets_length, List.length_replicate] at this
  omega

/-- A roster mirror as it is written: the count, the body but the octets from 60 on, and the last valid reply time. -/
theorem rosClaim_written (w : Word32 × ValRecord) {l : List Octet} (h : l = leOctets 4 w.1.toNat ++ rosBody w.2) :
    rosClaim w (l.take 64) := by
  obtain ⟨front, body, length⟩ := rosBody_tail w.2
  subst h
  rw [rosClaim, body]
  have whole : (leOctets 4 w.1.toNat ++ (front ++ (leOctets 4 w.2.lastReply ++ List.replicate 64 0))).take 64 =
      leOctets 4 w.1.toNat ++ front ++ leOctets 4 w.2.lastReply := by
    rw [← List.append_assoc, ← List.append_assoc]
    exact List.take_left' (by simp [length])
  rw [whole, List.take_left' (by simp [length]), List.drop_left' (by simp [length]), List.take_left' length,
    leValue_leOctets]
  exact ⟨rfl, fun _ => rfl⟩

theorem Run.writeRos_shows {a : Addr} (h : r.Has (State.sees (areaView base))) : (r.writeRos a).Has (State.sees (rosView base a)) := by
  have := rosOffset_lt a
  refine (Run.has_record (f := (·.countRos a)) (count := fun d => d.port.rosCounts[a]) h (by simp; omega) fun _ => rfl).imp ?_
  rintro s ⟨area, dev, octets⟩
  have at_base : s.dev.areaBase = base := by rw [dev]; exact area.1
  have body : rosBody (s.dev.record a) = rosBody (r.state.dev.record a) := by
    have : s.dev.record a = { r.state.dev.record a with replyTime := .shown } := by
      rw [dev]; exact (Device.record_putRecord _ _ _ _).trans (if_pos rfl)
    rw [this]; rfl
  have claim := rosClaim_written (s.dev.port.rosCounts[a], s.dev.record a) (l := s.ram.octets (s.dev.areaBase + rosOffset a) 128)
    (by rw [body, ← octets, rosBody_length])
  rw [Ram.octets_take, at_base] at claim
  exact ⟨at_base, claim⟩

theorem Run.write_shows {o n : Nat} {what : Device → List Octet} (h : r.Has (State.sees (areaView base))) (ho : o + n ≤ 8192)
    (hn : (what r.state.dev).length = n) : (r.write o (what r.state.dev)).Has (State.sees (.of base o n what)) := fun k => by
  obtain ⟨alive, -⟩ := Run.access_alive k
  obtain ⟨dev, octets⟩ := Run.has_written (r := r) (l := what r.state.dev) (by omega) k
  have at_base : (r.write o (what r.state.dev)).state.dev.areaBase = base := by rw [dev]; exact (h alive).1
  rw [State.sees_of at_base, dev]
  rw [hn, dev] at octets; exact octets

theorem Run.writeSummary_shows (h : r.Has (State.sees (areaView base))) : r.writeSummary.Has (State.sees (summaryView base)) :=
  Run.write_shows (what := fun d => hotSummary d.htq) h (by omega) (hotSummary_length _)
theorem Run.writeSeen_shows (h : r.Has (State.sees (areaView base))) : r.writeSeen.Has (State.sees (seenView base)) :=
  Run.write_shows (what := fun d => leOctets 4 d.port.seenCount.toNat) h (by omega) (leOctets_length _ _)
theorem Run.writeDeviceCount_shows (h : r.Has (State.sees (areaView base))) : r.writeDeviceCount.Has (State.sees (countView base)) :=
  Run.write_shows (what := fun d => leOctets 4 d.port.deviceCount.toNat) h (by omega) (leOctets_length _ _)
theorem Run.writeState_shows (h : r.Has (State.sees (areaView base))) : r.writeState.Has (State.sees (stateView base)) :=
  Run.write_shows (what := fun d => [num d.port.device.code]) h (by omega) rfl

/-! ## A mirror stays true under every write -/

variable {v : View}

theorem mirrorView.base_eq (hv : mirrorView base v) : v.base = base := by cases hv <;> rfl

/-- A true view says where the area lies. -/
theorem mirrorView.area_of (hv : mirrorView base v) (h : r.Has (State.sees v)) : r.Has (State.sees (areaView base)) :=
  h.imp fun _ k => ⟨k.1.trans hv.base_eq, trivial⟩

/-- The offsets of a view's octets within the area. -/
theorem View.Apart.of_offsets {lo : Nat} {o n : Nat} (hf : v.first = v.base + lo) (h : o + n ≤ lo ∨ lo + v.length ≤ o) :
    v.Apart o n := by
  rw [View.Apart, hf]; omega

theorem getElem_set_fin {α : Type} {n : Nat} (l : Vector α n) (i j : Fin n) (x : α) :
    (l.set i x)[j] = if i = j then x else l[j] := by
  simp only [Fin.getElem_fin, Vector.getElem_set, Fin.ext_iff]

/-- A catalogue record's rewriting leaves every other mirror. -/
theorem mirrorView.sparesCat (hv : mirrorView base v) (i : CatIndex) : v.sparesCat i ∨ v = catView base i := by
  have low : 0x840 ≤ catOffset i := by simp only [catOffset]; omega
  have high := catOffset_lt i
  cases hv with
  | cat j =>
    by_cases hij : i = j
    · exact .inr (by rw [hij])
    · refine .inl ⟨.of_offsets (lo := catOffset j) rfl ?_, fun d => ?_⟩
      · have : i.val ≠ j.val := fun k => hij (Fin.ext k)
        simp only [catOffset, catView, View.of]; omega
      · show leOctets 4 ((d.port.catCounts.set i _)[j]).toNat ++ _ = _
        rw [getElem_set_fin, if_neg hij]; rfl
  | area => exact .inl ⟨.inr (by simp only [areaView]; omega), fun _ => rfl⟩
  | ros a => exact .inl ⟨.of_offsets (lo := rosOffset a) rfl (.inl (by simp only [rosOffset]; omega)), fun _ => rfl⟩
  | coord => exact .inl ⟨.of_offsets (lo := coordOffset) rfl (.inl (by simp only [coordOffset]; omega)), fun _ => rfl⟩
  | summary => exact .inl ⟨.of_offsets (lo := 32) rfl (.inr (by simp only [summaryView, View.of]; omega)), fun _ => rfl⟩
  | seen => exact .inl ⟨.of_offsets (lo := 16) rfl (.inr (by simp only [seenView, View.of]; omega)), fun _ => rfl⟩
  | count => exact .inl ⟨.of_offsets (lo := 20) rfl (.inr (by simp only [countView, View.of]; omega)), fun _ => rfl⟩
  | state => exact .inl ⟨.of_offsets (lo := 24) rfl (.inr (by simp only [stateView, View.of]; omega)), fun _ => rfl⟩

theorem mirrorView.sparesRos (hv : mirrorView base v) (a : Addr) : v.sparesRos a ∨ v = rosView base a := by
  have low : 0xE40 ≤ rosOffset a := by simp only [rosOffset]; omega
  have high := rosOffset_lt a
  cases hv with
  | ros b =>
    by_cases hab : a = b
    · exact .inr (by rw [hab])
    · refine .inl ⟨.of_offsets (lo := rosOffset b) rfl ?_, fun d => ?_⟩
      · have : a.val ≠ b.val := fun k => hab (Fin.ext k)
        simp only [rosOffset, rosView]; omega
      · refine Prod.ext ?_ ?_
        · exact (getElem_set_fin _ _ _ _).trans (if_neg hab)
        · exact (Device.record_putRecord _ _ _ _).trans (if_neg hab)
  | area => exact .inl ⟨.inr (by simp only [areaView]; omega), fun _ => rfl⟩
  | cat i =>
    have := catOffset_lt i
    exact .inl ⟨.of_offsets (lo := catOffset i) rfl (.inr (by simp only [catView, View.of]; omega)), fun _ => rfl⟩
  | coord => exact .inl ⟨.of_offsets (lo := coordOffset) rfl (.inl (by simp only [coordOffset]; omega)), fun _ => rfl⟩
  | summary => exact .inl ⟨.of_offsets (lo := 32) rfl (.inr (by simp only [summaryView, View.of]; omega)), fun _ => rfl⟩
  | seen => exact .inl ⟨.of_offsets (lo := 16) rfl (.inr (by simp only [seenView, View.of]; omega)), fun _ => rfl⟩
  | count => exact .inl ⟨.of_offsets (lo := 20) rfl (.inr (by simp only [countView, View.of]; omega)), fun _ => rfl⟩
  | state => exact .inl ⟨.of_offsets (lo := 24) rfl (.inr (by simp only [stateView, View.of]; omega)), fun _ => rfl⟩

theorem mirrorView.sparesCoord (hv : mirrorView base v) : v.sparesCoord ∨ v = coordView base := by
  cases hv with
  | coord => exact .inr rfl
  | area => exact .inl ⟨.inr (by simp only [areaView]; omega), fun _ => rfl⟩
  | cat i =>
    have := catOffset_lt i
    exact .inl ⟨.of_offsets (lo := catOffset i) rfl (.inr (by simp only [catView, View.of, coordOffset]; omega)), fun _ => rfl⟩
  | ros a =>
    have := rosOffset_lt a
    exact .inl ⟨.of_offsets (lo := rosOffset a) rfl (.inr (by simp only [rosView, coordOffset]; omega)), fun _ => rfl⟩
  | summary => exact .inl ⟨.of_offsets (lo := 32) rfl (.inr (by simp [summaryView, View.of, coordOffset])), fun _ => rfl⟩
  | seen => exact .inl ⟨.of_offsets (lo := 16) rfl (.inr (by simp [seenView, View.of, coordOffset])), fun _ => rfl⟩
  | count => exact .inl ⟨.of_offsets (lo := 20) rfl (.inr (by simp [countView, View.of, coordOffset])), fun _ => rfl⟩
  | state => exact .inl ⟨.of_offsets (lo := 24) rfl (.inr (by simp [stateView, View.of, coordOffset])), fun _ => rfl⟩

/-- A mirror lies above the header and the slots, or is one of the header's fields. -/
theorem mirrorView.above_or_header (hv : mirrorView base v) :
    (∀ o n, o + n ≤ 0x840 → v.Apart o n) ∨
      v = summaryView base ∨ v = seenView base ∨ v = countView base ∨ v = stateView base := by
  cases hv with
  | area => exact .inl fun o n _ => .inr (by simp only [areaView]; omega)
  | cat i => exact .inl fun o n h => .of_offsets (lo := catOffset i) rfl (.inl (by simp only [catOffset]; omega))
  | ros a => exact .inl fun o n h => .of_offsets (lo := rosOffset a) rfl (.inl (by simp only [rosOffset]; omega))
  | coord => exact .inl fun o n h => .of_offsets (lo := coordOffset) rfl (.inl (by simp only [coordOffset]; omega))
  | summary => exact .inr (.inl rfl)
  | seen => exact .inr (.inr (.inl rfl))
  | count => exact .inr (.inr (.inr (.inl rfl)))
  | state => exact .inr (.inr (.inr (.inr rfl)))

/-- The clock copy, the slots and the notice cells are no mirrors. -/
theorem mirrorView.apart_free {o n : Nat} (hv : mirrorView base v)
    (h : 25 ≤ o ∧ o + n ≤ 32 ∨ 40 ≤ o ∧ o + n ≤ 0x840 ∨ 0x1480 ≤ o) : v.Apart o n := by
  cases hv with
  | area => exact .inr (by simp only [areaView]; omega)
  | cat i =>
    have := catOffset_lt i
    exact .of_offsets (lo := catOffset i) rfl (by simp only [catOffset, catView, View.of] at this ⊢; omega)
  | ros a =>
    have := rosOffset_lt a
    exact .of_offsets (lo := rosOffset a) rfl (by simp only [rosOffset, rosView] at this ⊢; omega)
  | coord => exact .of_offsets (lo := coordOffset) rfl (by simp only [coordOffset, coordView, View.of]; omega)
  | summary => exact .of_offsets (lo := 32) rfl (by simp only [summaryView, View.of]; omega)
  | seen => exact .of_offsets (lo := 16) rfl (by simp only [seenView, View.of]; omega)
  | count => exact .of_offsets (lo := 20) rfl (by simp only [countView, View.of]; omega)
  | state => exact .of_offsets (lo := 24) rfl (by simp only [stateView, View.of]; omega)

theorem mirrorView.sparesSummary (hv : mirrorView base v) : v.Apart 32 8 ∨ v = summaryView base := by
  rcases hv.above_or_header with h | rfl | rfl | rfl | rfl
  · exact .inl (h 32 8 (by omega))
  · exact .inr rfl
  all_goals exact .inl (.inr (by simp [seenView, countView, stateView, View.of]))

theorem mirrorView.sparesSeen (hv : mirrorView base v) : v.Apart 16 4 ∨ v = seenView base := by
  rcases hv.above_or_header with h | rfl | rfl | rfl | rfl
  · exact .inl (h 16 4 (by omega))
  · exact .inl (.inl (by simp [summaryView, View.of]))
  · exact .inr rfl
  all_goals exact .inl (.inl (by simp [countView, stateView, View.of]))

theorem mirrorView.sparesState (hv : mirrorView base v) : v.Apart 24 1 ∨ v = stateView base := by
  rcases hv.above_or_header with h | rfl | rfl | rfl | rfl
  · exact .inl (h 24 1 (by omega))
  · exact .inl (.inl (by simp [summaryView, View.of]))
  · exact .inl (.inr (by simp [seenView, View.of]))
  · exact .inl (.inr (by simp [countView, View.of]))
  · exact .inr rfl

theorem mirrorView.apartCount (hv : mirrorView base v) : v.Apart 20 4 ∨ v = countView base := by
  rcases hv.above_or_header with h | rfl | rfl | rfl | rfl
  · exact .inl (h 20 4 (by omega))
  · exact .inl (.inl (by simp [summaryView, View.of]))
  · exact .inl (.inr (by simp [seenView, View.of]))
  · exact .inr rfl
  · exact .inl (.inl (by simp [stateView, View.of]))

theorem mirrorView.blind_raise (hv : mirrorView base v) (x : Cause) : v.Blind (·.raise x) := by
  cases hv <;> exact fun _ => rfl

theorem mirrorView.blind_release (hv : mirrorView base v) (slot : Slot) : v.Blind (·.release slot) := by
  cases hv <;> exact fun _ => rfl

theorem mirrorView.blind_outbox (hv : mirrorView base v) (f : List Publication → List Publication) :
    v.Blind fun d => { d with outbox := f d.outbox } := by
  cases hv <;> exact fun _ => rfl

theorem mirrorView.sparesCount (hv : mirrorView base v) : v.sparesCount ∨ v = countView base := by
  rcases hv.apartCount with apart | rfl
  · cases hv with
    | count => exact .inr rfl
    | _ => exact .inl ⟨apart, fun _ => rfl⟩
  · exact .inr rfl

/-! ## Every write of EXP keeps every mirror true -/

section
variable (hv : mirrorView base v)
include hv

theorem mirrorView.writeCat {i} (h : r.Has (State.sees v)) : (r.writeCat i).Has (State.sees v) := by
  rcases hv.sparesCat i with spares | rfl
  · exact h.writeCat spares
  · exact Run.writeCat_shows (hv.area_of h)

theorem mirrorView.writeRos {a} (h : r.Has (State.sees v)) : (r.writeRos a).Has (State.sees v) := by
  rcases hv.sparesRos a with spares | rfl
  · exact h.writeRos spares
  · exact Run.writeRos_shows (hv.area_of h)

theorem mirrorView.writeCoord (h : r.Has (State.sees v)) : r.writeCoord.Has (State.sees v) := by
  rcases hv.sparesCoord with spares | rfl
  · exact h.writeCoord spares
  · exact Run.writeCoord_shows (hv.area_of h)

theorem mirrorView.writeSummary (h : r.Has (State.sees v)) : r.writeSummary.Has (State.sees v) := by
  rcases hv.sparesSummary with spares | rfl
  · exact h.writeSummary spares
  · exact Run.writeSummary_shows (hv.area_of h)

theorem mirrorView.writeSeen (h : r.Has (State.sees v)) : r.writeSeen.Has (State.sees v) := by
  rcases hv.sparesSeen with spares | rfl
  · exact h.writeSeen spares
  · exact Run.writeSeen_shows (hv.area_of h)

theorem mirrorView.writeState (h : r.Has (State.sees v)) : r.writeState.Has (State.sees v) := by
  rcases hv.sparesState with spares | rfl
  · exact h.writeState spares
  · exact Run.writeState_shows (hv.area_of h)

theorem mirrorView.writeClock (h : r.Has (State.sees v)) : r.writeClock.Has (State.sees v) :=
  h.writeClock ⟨hv.apart_free (by omega), hv.apart_free (by omega)⟩

/-- The device count stepped and written. -/
theorem mirrorView.countStepped (h : r.Has (State.sees v)) :
    (r.inside Device.stepDeviceCount).writeDeviceCount.Has (State.sees v) := by
  rcases hv.sparesCount with ⟨apart, blind⟩ | rfl
  · exact (h.changed blind fun _ => rfl).writeDeviceCount apart
  · exact Run.writeDeviceCount_shows ((hv.area_of h).changed (fun _ => rfl) fun _ => rfl)

theorem mirrorView.returnSlot {ret} (h : r.Has (State.sees v)) : (r.returnSlot ret).Has (State.sees v) := by
  have low := slotOffset_lt ret.slot
  have high : 0x40 ≤ slotOffset ret.slot := by simp only [slotOffset]; omega
  have body : (r.write (slotOffset ret.slot + 1) (returnBody ret)).Has (State.sees v) :=
    h.write (hv.apart_free (by rw [returnBody_length]; omega))
  have owner := body.write (o := slotOffset ret.slot) (l := [0]) (hv.apart_free (by simp only [List.length_singleton]; omega))
  exact ((hv.countStepped owner).changed (hv.blind_raise _) fun _ => rfl).changedAlways (hv.blind_release _) fun _ => rfl

theorem mirrorView.fillNotice {a kind text} (h : r.Has (State.sees v)) : (r.fillNotice a kind text).Has (State.sees v) := by
  have high : 0x1480 ≤ cellOffset a := by simp only [cellOffset]; omega
  have body : (r.write (cellOffset a + 1) (cellBody kind text)).Has (State.sees v) := h.write (hv.apart_free (by omega))
  have owner := body.write (o := cellOffset a) (l := [0]) (hv.apart_free (by omega))
  unfold Run.fillNotice
  exact .ite (fun _ => (hv.countStepped owner).changed (hv.blind_raise _) fun _ => rfl) fun dead k => absurd k dead

theorem mirrorView.carryOut {p} (h : r.Has (State.sees v)) : (r.carryOut p).Has (State.sees v) := by
  cases p
  case slotReturn => exact hv.returnSlot h
  case noticeFill => exact hv.fillNotice h
  case clockCopy => exact hv.writeClock h
  case stateCopy => exact hv.writeState h
  all_goals exact h

theorem mirrorView.carryOutAll {l} (h : r.Has (State.sees v)) : (r.carryOutAll l).Has (State.sees v) :=
  h.carryOutAll fun _ _ _ k => hv.carryOut k

end

/-- The device state copy handed over is written. -/
theorem Run.carryOutAll_state {l : List Publication} (hl : .stateCopy ∈ l) (h : r.Has (State.sees (areaView base))) :
    (r.carryOutAll l).Has (State.sees (stateView base)) := by
  induction l generalizing r with
  | nil => cases hl
  | cons p l ih =>
    refine .ite (fun _ => ?_) fun dead k => absurd k dead
    rcases List.mem_cons.1 hl with rfl | hl
    · exact mirrorView.state.carryOutAll (Run.writeState_shows h)
    · exact ih hl (mirrorView.area.carryOut h)

/-! ## Publication makes every mirror true -/

/-- A mirror that publication rewrites. -/
inductive mirrorView.Due (before after : Device) (out : List Publication) (base : Nat) : View → Prop
  | cat {i} (h : catDirty before after out i = true) : Due before after out base (catView base i)
  | ros {a} (h : rosDirty before after out a = true) : Due before after out base (rosView base a)
  | coord (h : mirrorDue out .coordRewrite (coordBody before.act) (coordBody after.act) = true) :
      Due before after out base (coordView base)
  | summary (h : mirrorDue out .summaryRewrite (hotSummary before.htq) (hotSummary after.htq) = true) :
      Due before after out base (summaryView base)
  | state (h : .stateCopy ∈ out) : Due before after out base (stateView base)

/-- Of a list of writes one makes a view true, and those after it keep it. -/
theorem Run.Has.foldl_shows {α : Type} {f : Run → α → Run} {l : List α} {x : α} (hx : x ∈ l) (h : r.Has P)
    (before : ∀ y, ∀ r : Run, r.Has P → (f r y).Has P) (shows : ∀ r : Run, r.Has P → (f r x).Has Q)
    (after : ∀ y, ∀ r : Run, r.Has Q → (f r y).Has Q) : (l.foldl f r).Has Q := by
  induction l generalizing r with
  | nil => cases hx
  | cons y l ih =>
    rcases List.mem_cons.1 hx with rfl | hx
    · exact (shows r h).foldl l fun y _ => after y
    · exact ih hx (before y r h)

theorem mirrorView.writeMirrors {before : Device} {out : List Publication} (hv : mirrorView base v)
    (h : r.Has (State.sees v)) : (r.writeMirrors before out).Has (State.sees v) := by
  unfold Run.writeMirrors
  extract_lets after r1 r2 r3
  have h1 : r1.Has (State.sees v) := h.foldl _ fun _ _ _ k => hv.writeCat k
  have h2 : r2.Has (State.sees v) := h1.foldl _ fun _ _ _ k => hv.writeRos k
  have h3 : r3.Has (State.sees v) := .ite (fun _ => hv.writeCoord h2) fun _ => h2
  exact .ite (fun _ => hv.writeSummary h3) fun _ => h3

/-- The mirrors due are rewritten before what is handed over is carried out. -/
theorem mirrorView.Due.writeMirrors {before : Device} {out : List Publication} (hd : mirrorView.Due before r.state.dev out base v)
    (area : r.Has (State.sees (areaView base))) :
    (r.writeMirrors before out).Has (State.sees v) ∨ .stateCopy ∈ out ∧ v = stateView base := by
  unfold Run.writeMirrors
  extract_lets after r1 r2 r3
  have h1 : r1.Has (State.sees (areaView base)) := area.foldl _ fun _ _ _ k => mirrorView.area.writeCat k
  have h2 : r2.Has (State.sees (areaView base)) := h1.foldl _ fun _ _ _ k => mirrorView.area.writeRos k
  have h3 : r3.Has (State.sees (areaView base)) := .ite (fun _ => mirrorView.area.writeCoord h2) fun _ => h2
  cases hd with
  | @cat i h =>
    have hv : mirrorView base (catView base i) := .cat i
    have k1 : r1.Has (State.sees (catView base i)) :=
      area.foldl_shows (List.mem_filter.2 ⟨List.mem_finRange i, h⟩) (fun _ _ => mirrorView.area.writeCat)
        (fun _ => Run.writeCat_shows) fun _ _ => hv.writeCat
    have k2 : r2.Has (State.sees (catView base i)) := k1.foldl _ fun _ _ _ => hv.writeRos
    have k3 : r3.Has (State.sees (catView base i)) := .ite (fun _ => hv.writeCoord k2) fun _ => k2
    exact .inl (.ite (fun _ => hv.writeSummary k3) fun _ => k3)
  | @ros a h =>
    have hv : mirrorView base (rosView base a) := .ros a
    have k2 : r2.Has (State.sees (rosView base a)) :=
      h1.foldl_shows (List.mem_filter.2 ⟨List.mem_finRange a, h⟩) (fun _ _ => mirrorView.area.writeRos)
        (fun _ => Run.writeRos_shows) fun _ _ => hv.writeRos
    have k3 : r3.Has (State.sees (rosView base a)) := .ite (fun _ => hv.writeCoord k2) fun _ => k2
    exact .inl (.ite (fun _ => hv.writeSummary k3) fun _ => k3)
  | coord h =>
    have k3 : r3.Has (State.sees (coordView base)) := .ite (fun _ => Run.writeCoord_shows h2) fun k => absurd h k
    exact .inl (.ite (fun _ => mirrorView.coord.writeSummary k3) fun _ => k3)
  | summary h => exact .inl (.ite (fun _ => Run.writeSummary_shows h3) fun k => absurd h k)
  | state h => exact .inr ⟨h, rfl⟩

/-- Publication in an open area makes true every mirror that it rewrites, and leaves true every other. -/
theorem mirrorView.publish {before : Device} (hv : mirrorView base v) (area : r.Has (State.sees (areaView base)))
    (opened : r.state.dev.areaOpen = true)
    (h : r.Has (State.sees v) ∨ mirrorView.Due before r.state.dev r.state.dev.outbox base v) :
    (r.publish before).Has (State.sees v) := by
  intro alive
  unfold Run.publish at alive ⊢
  extract_lets out wasAlive r1 r2 at alive ⊢
  have emptied : r1.Has (State.sees (areaView base)) := area.changedAlways (mirrorView.area.blind_outbox fun _ => []) fun _ => rfl
  have mirrors : r2.Has (State.sees v) ∨ .stateCopy ∈ out ∧ v = stateView base := by
    rcases h with h | h
    · exact .inl (hv.writeMirrors (h.changedAlways (hv.blind_outbox fun _ => []) fun _ => rfl))
    · exact Due.writeMirrors (by cases h with
        | cat h => exact .cat h
        | ros h => exact .ros h
        | coord h => exact .coord h
        | summary h => exact .summary h
        | state h => exact .state h) emptied
  split at alive
  · rename_i open_
    rw [if_pos open_]
    split at alive
    · rename_i written
      rw [if_pos written]
      rcases mirrors with seen | ⟨handed, rfl⟩
      · exact hv.carryOutAll seen alive
      · exact Run.carryOutAll_state handed (mirrorView.area.writeMirrors emptied) alive
    · rename_i dead; exact absurd alive dead
  · rename_i closed
    have : r1.state.dev.areaOpen = true := opened
    exact absurd (by rw [this]; exact alive) closed

end Sys2Proof.Machine
end

