-- ==== Sys2Proof/Proofs/MirrorsKept.lean ====
section
/-! Every command keeps the mirrors of the exchange area true (R20, R51, R61, R161, R177, R181, R188): what the blocks change is due to
be rewritten when it is published, and EXP's own writing keeps every mirror. -/

namespace Sys2Proof.Machine

/-- Every mirror shows what it mirrors, in an area of a given base. -/
def State.Mirrored (base : Nat) (s : State) : Prop := ∀ v, mirrorView base v → s.sees v

/-- A state's mirrors are true when they are so while the area is accessed. -/
theorem State.mirrorsOk_of {s : State} {base : Nat} (h : s.dev.areaOpen = true → s.Mirrored base) : s.mirrorsOk := by
  intro k
  have all := h (by simpa [Device.areaOpen] using k)
  exact (State.mirrorsOk_iff (all _ .area).1).2 (fun _ => all) k

theorem State.mirrorsOk.mirrored {s : State} (h : s.mirrorsOk) (k : s.dev.areaOpen = true) : s.Mirrored s.dev.areaBase :=
  (State.mirrorsOk_iff rfl).1 h (by simpa [Device.areaOpen] using k)

theorem State.mirrorsOk_closed {s : State} (h : s.dev.areaOpen = false) : s.mirrorsOk :=
  State.mirrorsOk_of (base := 0) fun k => absurd (h.symm.trans k) (by simp)

/-! ## What is due to be rewritten -/

/-- The update counts and the two counts of the header. -/
def Port.counts (p : Port) : Vector Word32 48 × Vector Word32 12 × Word32 × Word32 × Word32 :=
  (p.catCounts, p.rosCounts, p.coordCount, p.seenCount, p.deviceCount)

/-- What a command has changed since `before` is such that publication makes every mirror true: EXP's counts and the area's base are
as before, the device state copy is handed over when the state has changed, and a reply time that the mirror shows has not changed
unless the record is handed over (R61). -/
structure Device.Ripe (before d : Device) : Prop where
  base : d.areaBase = before.areaBase
  counts : d.port.counts = before.port.counts
  device : d.port.device = before.port.device ∨ .stateCopy ∈ d.outbox
  reply : ∀ a : Addr, .rosterRewrite a ∈ d.outbox ∨
    ((d.record a).replyTime = .shown →
      (before.record a).replyTime = .shown ∧ (d.record a).lastReply = (before.record a).lastReply)

theorem mirrorDue_eq_false {α : Type} [BEq α] [LawfulBEq α] {out : List Publication} {p : Publication} {x y : α}
    (h : mirrorDue out p x y = false) : p ∉ out ∧ x = y := by
  simp only [mirrorDue, Bool.or_eq_false_iff, List.contains_eq_mem, decide_eq_false_iff_not, bne_eq_false_iff_eq] at h
  exact h

theorem catBody_congr {e f : Entry} (h : e.shown = f.shown) : catBody e = catBody f :=
  calc catBody e = catBody e.shown := rfl
    _ = catBody f := by rw [h]; rfl

/-- A roster mirror but its last valid reply time and the octets of 0 shows what counts as a change of the record (R61). -/
theorem rosBody_front (r : ValRecord) : (rosBody r).take 56 = (rosBody r.shown).take 56 := by
  obtain ⟨front, body, shown⟩ : ∃ front, rosBody r = front ++ (leOctets 4 r.lastReply ++ List.replicate 64 0) ∧
      rosBody r.shown = front ++ (leOctets 4 0 ++ List.replicate 64 0) := ⟨_, List.append_assoc _ _ _, List.append_assoc _ _ _⟩
  have length : front.length = 56 := by
    have := rosBody_length r
    rw [body, List.length_append, List.length_append, leOctets_length, List.length_replicate] at this
    omega
  rw [body, shown, List.take_left' length, List.take_left' length]

section
variable {base : Nat} {v : View} {before d : Device} {s : State}

/-- A mirror is true still, or due to be rewritten. -/
theorem Device.Ripe.seen_or_due (h : Device.Ripe before d) (hv : mirrorView base v) (seen : State.sees v { s with dev := before }) :
    State.sees v { s with dev := d } ∨ mirrorView.Due before d d.outbox base v := by
  have still (k : v.what d = v.what before) : State.sees v { s with dev := d } :=
    ⟨h.base.trans seen.1, by rw [k]; exact seen.2⟩
  have counts := h.counts
  simp only [Port.counts, Prod.mk.injEq] at counts
  obtain ⟨cat, ros, coord, seenCount, deviceCount⟩ := counts
  cases hv with
  | area => exact .inl (still rfl)
  | cat i =>
    cases k : catDirty before d d.outbox i with
    | true => exact .inr (.cat k)
    | false =>
      refine .inl (still ?_)
      obtain ⟨-, same⟩ := mirrorDue_eq_false k
      show leOctets 4 (d.port.catCounts[i]).toNat ++ catBody (d.entry i) = _
      rw [cat, catBody_congr same.symm]; rfl
  | ros a =>
    cases k : rosDirty before d d.outbox a with
    | true => exact .inr (.ros k)
    | false =>
      obtain ⟨absent, same⟩ := mirrorDue_eq_false k
      have reply := (h.reply a).resolve_left absent
      obtain ⟨at_base, front, time⟩ := seen
      refine .inl ⟨h.base.trans at_base, ?_, fun shown => ?_⟩
      · refine front.trans ?_
        show leOctets 4 (before.port.rosCounts[a]).toNat ++ (rosBody (before.record a)).take 56 =
          leOctets 4 (d.port.rosCounts[a]).toNat ++ (rosBody (d.record a)).take 56
        rw [ros, rosBody_front, same, ← rosBody_front]
      · obtain ⟨shownBefore, time_eq⟩ := reply shown
        exact (time shownBefore).trans (congrArg (· % 2 ^ 32) time_eq.symm)
  | coord =>
    cases k : mirrorDue d.outbox .coordRewrite (coordBody before.act) (coordBody d.act) with
    | true => exact .inr (.coord k)
    | false =>
      refine .inl (still ?_)
      obtain ⟨-, same⟩ := mirrorDue_eq_false k
      show leOctets 4 d.port.coordCount.toNat ++ coordBody d.act = _
      rw [coord, ← same]; rfl
  | summary =>
    cases k : mirrorDue d.outbox .summaryRewrite (hotSummary before.htq) (hotSummary d.htq) with
    | true => exact .inr (.summary k)
    | false => exact .inl (still (mirrorDue_eq_false k).2.symm)
  | seen => exact .inl (still (congrArg (fun w : Word32 => leOctets 4 w.toNat) seenCount))
  | count => exact .inl (still (congrArg (fun w : Word32 => leOctets 4 w.toNat) deviceCount))
  | state =>
    rcases h.device with same | handed
    · exact .inl (still (congrArg (fun x : DeviceState => [num x.code]) same))
    · exact .inr (.state handed)

end

/-- Changes of the blocks are ripe for publication, once exit events have been answered: they start from what ROS and EXP's counts
were, and leave EXP alone. -/
theorem Device.Ripe.of_moves {before c e : Device} {b : Bool} {post : Prop} {fr : Addr → Prop} (x : Device)
    (hr : c.ros = before.ros) (hb : c.areaBase = before.areaBase) (hc : c.port.counts = before.port.counts)
    (h : Moves (.full post fr False) c b e) (hd : c.port.device = before.port.device ∨ .stateCopy ∈ e.outbox)
    (hf : ∀ a, fr a → .rosterRewrite a ∈ e.outbox) : Device.Ripe before (e.takeExit x) := by
  have taken : Moves (.full post fr False) c b (e.takeExit x) :=
    Device.moves_takeExit trivial (.inl ⟨trivial, trivial, fun _ => trivial⟩) h
  have port := taken.framed.port.resolve_left id
  have grows : ∀ p, p ∈ e.outbox → p ∈ (e.takeExit x).outbox := fun p hp => (Device.stir_takeExit (.refl e) x).outbox.subset hp
  refine { base := .trans ?_ hb, counts := .trans ?_ hc, device := hd.imp (fun k => .trans ?_ k) (grows _), reply := fun a => ?_ }
  · rw [Device.areaBase, Device.areaBase, ← port]
  · rw [← port]; rfl
  · rw [← port]
  · refine (taken.recordStep a).reply.imp (fun k => grows _ (hf a k)) fun k shown => ?_
    have same : c.record a = before.record a := by rw [Device.record, hr]; rfl
    rw [← same]; exact k shown

/-! ## Publication and the end of a command -/

variable {base : Nat} {r : Run} {before : Device}

/-- The area is accessed, and every mirror is true. -/
def State.Shown (base : Nat) (s : State) : Prop := s.dev.areaOpen = true ∧ s.Mirrored base

theorem Run.publish_alive (h : (r.publish before).alive = true) : r.alive = true := by
  cases k : r.alive with
  | true => rfl
  | false =>
    have failed : r.bus = .failed := by simpa [Run.alive] using k
    exact absurd h (by simp [Run.alive, (Run.written_publish (.refl r) before).failed failed])

/-- Changes ripe for publication, settled, leave every mirror true. -/
theorem Run.Has.settle (h : r.Has fun s => State.Mirrored base { s with dev := before }) (opened : r.state.dev.areaOpen = true)
    (ripe : Device.Ripe before (r.state.dev.takeExit before)) : (r.settle before).Has (State.Shown base) := by
  intro alive
  have begun : r.alive = true := Run.publish_alive (r := r.always (·.takeExit before)) alive
  have openedStill : (r.state.dev.takeExit before).areaOpen = true := by
    rw [Device.areaOpen, (Device.stir_takeExit (.refl _) before).device]; exact opened
  have due (v : View) (hv : mirrorView base v) := ripe.seen_or_due (s := r.state) hv (h begun v hv)
  refine ⟨?_, fun v hv => ?_⟩
  · have kept := (Run.written_publish (.refl (r.always (·.takeExit before))) before).device
    rw [Run.settle, Device.areaOpen, kept]
    exact openedStill
  · have area : (r.always (·.takeExit before)).Has (State.sees (areaView base)) := fun _ =>
      ⟨ripe.base.trans (h begun _ .area).1, trivial⟩
    exact hv.publish area openedStill ((due v hv).imp_left fun seen _ => seen) alive

theorem Device.halted_closed {d : Device} (h : d.port.device = .halted) : d.areaOpen = false := by simp [Device.areaOpen, h]

/-- At the end of a command the mirrors are true when they were at the end of its run; HALTED accesses no area. -/
theorem Run.Has.finish (h : r.Has fun s => s.dev.areaOpen = true → s.Mirrored base) : r.finish.mirrorsOk := by
  cases k : r.alive with
  | false =>
    refine State.mirrorsOk_closed (Device.halted_closed ?_)
    simp only [Run.finish, k]
    exact Device.halted_enterHalted _
  | true =>
    rw [Run.finish_alive r k]
    refine State.mirrorsOk_of (base := base) fun opened v hv => ?_
    have seen := h k opened v hv
    cases hv <;> exact seen

theorem Run.settle_closed (h : r.state.dev.areaOpen = false) : (r.settle before).state.dev.areaOpen = false := by
  have kept := (Run.written_publish (.refl (r.always (·.takeExit before))) before).device
  rw [Run.settle, Device.areaOpen, kept]
  show Device.areaOpen (r.state.dev.takeExit before) = false
  rw [Device.areaOpen, (Device.stir_takeExit (.refl _) before).device]; exact h

/-- A command that is one change inside the part: where the area is accessed afterwards, it was before, or the state copy is handed
over. -/
theorem State.act_mirrorsOk {s : State} {bus : AreaBus} {f : Device → Device} (hs : s.mirrorsOk)
    (hf : (f s.dev).areaOpen = true → s.dev.areaOpen = true ∧ Device.Ripe s.dev ((f s.dev).takeExit s.dev)) :
    (s.act bus f).mirrorsOk := by
  cases opened : (f s.dev).areaOpen with
  | false =>
    have closed := Run.settle_closed (r := { state := { s with dev := f s.dev }, bus }) (before := s.dev) opened
    exact Run.Has.finish (base := 0) fun _ k => absurd (closed.symm.trans k) (by simp)
  | true =>
    obtain ⟨before, ripe⟩ := hf opened
    exact Run.Has.finish ((Run.Has.settle (r := { state := { s with dev := f s.dev }, bus }) (fun _ => hs.mirrored before) opened
      ripe).imp fun _ k _ => k.2)

/-- A command that is one chain of changes of the blocks, from a part that differs in what no mirror shows. -/
theorem State.act_mirrorsOk_of_moves {s : State} {bus : AreaBus} {f : Device → Device} {c : Device} {b : Bool} {post : Prop}
    (hs : s.mirrorsOk) (h : Moves (.full post (fun _ => False) False) c b (f s.dev)) (hr : c.ros = s.dev.ros)
    (hb : c.areaBase = s.dev.areaBase) (hc : c.port.counts = s.dev.port.counts) (hd : c.port.device = s.dev.port.device) :
    (s.act bus f).mirrorsOk := by
  refine State.act_mirrorsOk hs fun opened => ⟨?_, .of_moves _ hr hb hc h (.inl hd) fun _ => False.elim⟩
  have port := h.framed.port.resolve_left id
  have : (f s.dev).port.device = s.dev.port.device := by rw [← hd, ← port]
  rw [Device.areaOpen, ← this]; exact opened

/-! ## RUN (R190, R192) -/

/-- Entering STOPPING is ripe for publication. -/
theorem Device.ripe_enterStopping {before d : Device} (x : Device) (hr : d.ros = before.ros) (hb : d.areaBase = before.areaBase)
    (hc : d.port.counts = before.port.counts) : Device.Ripe before (d.enterStopping.takeExit x) := by
  let stopping := ({ d with port.device := .stopping } : Device).stopSweeps.handOver .stateCopy
  have handed : .stateCopy ∈ d.enterStopping.outbox :=
    (Device.stir_idleIfStopping (.refl stopping)).outbox.subset (by simp [stopping, Device.handOver])
  exact .of_moves x (c := stopping) (post := False) (fr := fun _ => False) (b := false) hr hb hc
    (Device.moves_idleIfStopping trivial .start) (.inr handed) fun _ => False.elim

theorem Run.mirrorsOk_setRun {s : State} {value : Bool} (bus : AreaBus) (hs : s.mirrorsOk) : (s.act bus (·.setRun value)).mirrorsOk := by
  refine State.act_mirrorsOk hs fun opened => ?_
  have unchanged : Device.Ripe s.dev (({ s.dev with port.run := value } : Device).takeExit s.dev) :=
    .of_moves _ (c := { s.dev with port.run := value }) (post := False) (fr := fun _ => False) (b := false) rfl rfl rfl .start
      (.inl rfl) fun _ => False.elim
  unfold Device.setRun at opened ⊢
  dsimp only at opened ⊢
  split at opened
  · cases opened
  · rename_i k
    exact ⟨by simp [Device.areaOpen, k], Device.ripe_enterStopping _ rfl rfl rfl⟩
  · cases opened
  · exact ⟨opened, unchanged⟩

/-! ## Requests (R184, R185) -/

/-- A record changed in what counts as a change is handed over (R61). -/
theorem Device.mem_outbox_setRecord {d : Device} {a : Addr} {x : ValRecord} (h : (d.record a).shown ≠ x.shown) :
    .rosterRewrite a ∈ (d.setRecord a x).outbox := by
  have : rewriteOf (d.record a).shown x.shown (.rosterRewrite a) = [.rosterRewrite a] := if_pos (by simpa using h)
  simp only [Device.setRecord, this, List.mem_append, List.mem_singleton, or_true]

theorem Device.mem_outbox_enrolled {d : Device} {a : Addr} (h : (d.record a).presence = .unused) (w : Nat) :
    .rosterRewrite a ∈ (d.enrolled a w).outbox := by
  unfold Device.enrolled
  extract_lets src fresh
  have changed : (d.record a).shown ≠ fresh.shown := fun k => by
    have : (d.record a).presence = .absent := congrArg ValRecord.presence k
    rw [h] at this; cases this
  exact (Device.calm_reportExit (Device.calm_presenceChanged (.refl (d.setRecord a fresh)) a .unused)).outbox.subset
    (Device.mem_outbox_setRecord changed)

theorem Device.mem_outbox_unenrolled {d : Device} {a : Addr} (h : (d.record a).presence ≠ .unused) :
    .rosterRewrite a ∈ (d.unenrolled a).outbox := by
  unfold Device.unenrolled
  extract_lets old src d1
  have changed : (d.record a).shown ≠ ({ d.record a with presence := .unused } : ValRecord).shown := fun k =>
    h (congrArg ValRecord.presence k)
  have first : .rosterRewrite a ∈ d1.outbox :=
    (Device.calm_presenceChanged (Device.calm_voidExchange (.refl _) a .byRequest) a old).outbox.subset
      (Device.mem_outbox_setRecord changed)
  exact (Device.calm_restartDone (Device.calm_setRecord (.refl d1) a _) a).outbox.subset first

/-- What an ENROL begins afresh it hands over (R43, R61). -/
theorem Device.moves_enrol {c : Device} {slot : Slot} {x : Octet} {y : Bool} {z : Octet} {post : Prop} :
    ∃ fr, Moves (.full post fr False) c false (c.enrolRequest slot x y z) ∧
      ∀ a, fr a → .rosterRewrite a ∈ (c.enrolRequest slot x y z).outbox := by
  have done_grows (d : Device) (n : Nat) (p) (hp : p ∈ d.outbox) : p ∈ (d.done slot n).outbox :=
    (Device.calm_giveBack (.refl d) slot _ _ _).outbox.subset hp
  unfold Device.enrolRequest
  split
  · exact ⟨fun _ => False, Device.moves_refuse .start, fun _ => False.elim⟩
  · rename_i a ha
    extract_lets old
    have enrolled : Moves (.full post (· = a) False) c false (c.enrolled a z.toNat) :=
      Device.moves_enrolled trivial trivial trivial rfl .start
    have unenrolled : Moves (.full post (· = a) False) c false (c.unenrolled a) :=
      Device.moves_unenrolled trivial trivial trivial rfl .start
    split
    · split
      · exact ⟨fun _ => False, Device.moves_refuse .start, fun _ => False.elim⟩
      · by_cases unused : old = .unused
        · rw [if_pos unused]
          refine ⟨(· = a), Device.moves_done enrolled, ?_⟩
          rintro _ rfl
          exact done_grows _ _ _ (Device.mem_outbox_enrolled unused _)
        · rw [if_neg unused]
          exact ⟨fun _ => False, Device.moves_done (Device.moves_setRecord_learning .start trivial ⟨rfl, rfl⟩ rfl),
            fun _ => False.elim⟩
    · by_cases unused : old = .unused
      · rw [if_pos unused]
        exact ⟨fun _ => False, Device.moves_done .start, fun _ => False.elim⟩
      · rw [if_neg unused]
        refine ⟨(· = a), Device.moves_done unenrolled, ?_⟩
        rintro _ rfl
        exact done_grows _ _ _ (Device.mem_outbox_unenrolled unused)

/-- Every request is a chain of changes, and reply times that begin afresh are handed over. -/
theorem Device.moves_requested {c : Device} (slot : Slot) (q : Request) :
    ∃ fr, Moves (.full True fr False) c false (c.request slot q) ∧ ∀ a, fr a → .rosterRewrite a ∈ (c.request slot q).outbox := by
  cases q
  case enrol => exact Device.moves_enrol
  all_goals exact ⟨fun _ => False, Device.moves_request (.inl trivial) (fun _ _ _ _ k => nomatch k) .start, fun _ => False.elim⟩

theorem mirrorView.apart_slot {v : View} (hv : mirrorView base v) {slot : Slot} {k n : Nat} (h : k + n ≤ 64) :
    v.Apart (slotOffset slot + k) n := by
  have := slotOffset_lt slot
  have : 0x40 ≤ slotOffset slot := by simp only [slotOffset]; omega
  exact hv.apart_free (by omega)

theorem State.Shown.writeTaken {slot : Slot} (h : r.Has (State.Shown base)) : (r.writeTaken slot).Has (State.Shown base) :=
  h.access fun s ⟨opened, mirrored⟩ => ⟨opened, fun v hv => by
    obtain ⟨at_base, claim⟩ := mirrored v hv
    refine ⟨at_base, ?_⟩
    have outside {k : Nat} (hk : k + 1 ≤ 64) :
        v.first + v.length ≤ s.dev.areaBase + slotOffset slot + k ∨ s.dev.areaBase + slotOffset slot + k + 1 ≤ v.first := by
      rw [at_base]
      rcases hv.apart_slot (slot := slot) hk with apart | apart
      · exact .inr (by omega)
      · exact .inl (by omega)
    show v.claim _ (Ram.octets _ _ _)
    rw [Ram.octets_write_outside (outside (k := 3) (by omega)), Ram.octets_write_outside (outside (k := 1) (by omega))]
    exact claim⟩

/-- A change inside the part of a run whose mirrors are true, settled. -/
theorem State.Shown.settleInside {f : Device → Device} (h : r.Has (State.Shown base)) {before : Device}
    (start : r.alive = true → r.state.dev = before)
    (hf : Device.Ripe before ((f before).takeExit before)) (hd : (f before).port.device = before.port.device) :
    ((r.inside f).settle before).Has (State.Shown base) := by
  cases alive : r.alive with
  | false =>
    intro k
    have := Run.publish_alive (r := (r.inside f).always (·.takeExit before)) k
    exact absurd (alive.symm.trans ((Run.inside_alive f).symm.trans this)) (by simp)
  | true =>
    obtain rfl := start alive
    have dev : (r.inside f).state.dev = f r.state.dev := by rw [Run.inside_state alive]
    obtain ⟨opened, mirrored⟩ := h alive
    refine Run.Has.settle (fun _ => ?_) ?_ (by rw [dev]; exact hf)
    · rw [Run.inside_state alive]; exact mirrored
    · rw [dev, Device.areaOpen, hd]; exact opened

theorem Run.writeTaken_dev {r : Run} {slot : Slot} (h : (r.writeTaken slot).read.alive = true) : (r.writeTaken slot).read.state.dev = r.state.dev := by
  obtain ⟨begun, read⟩ := Run.access_alive h
  obtain ⟨-, written⟩ := Run.access_alive begun
  rw [Run.read, read]
  exact (congrArg State.dev written).trans rfl

/-- A take leaves every mirror true. -/
theorem State.Shown.take {slot : Slot} {ref : Half} {q : Request} (h : r.Has (State.Shown base)) :
    (r.take slot ref q).Has (State.Shown base) := by
  have taken : ((r.writeTaken slot).read).Has (State.Shown base) := (State.Shown.writeTaken h).read
  unfold Run.take
  extract_lets before r1
  refine .ite (fun alive => ?_) fun _ => taken
  obtain ⟨fr, moves, handed⟩ := (before.hold slot { kind := q.kind, ref }).moves_requested slot q
  refine State.Shown.settleInside taken Run.writeTaken_dev
    (.of_moves _ (c := before.hold slot { kind := q.kind, ref }) rfl rfl rfl moves (.inl rfl) handed) ?_
  have port := moves.framed.port.resolve_left id
  show _ = (before.hold slot { kind := q.kind, ref }).port.device
  rw [← port]

/-! ## Software's writes -/

theorem mirrorView.partWrites {v : View} {d : Device} (hv : mirrorView d.areaBase v) {x : Nat} (h1 : v.first ≤ x)
    (h2 : x < v.first + v.length) : d.partWrites x = true := by
  rw [Device.partWrites, Bool.and_eq_true, decide_eq_true_eq]
  suffices d.areaBase ≤ v.first ∧ PartRun (v.first - d.areaBase) v.length from
    ⟨by omega, this.2 _ (by omega) (by omega)⟩
  cases hv with
  | area => exact ⟨le_refl _, fun x h1 h2 => by simp only [areaView] at h1 h2; omega⟩
  | cat i =>
    have := catOffset_lt i
    have : 0x840 ≤ catOffset i := by simp only [catOffset]; omega
    refine ⟨Nat.le_add_right _ _, ?_⟩
    simp only [catView, View.of, Nat.add_sub_cancel_left]
    exact partRun_mirror (by omega) (by omega)
  | ros a =>
    have := rosOffset_lt a
    have : 0x840 ≤ rosOffset a := by simp only [rosOffset]; omega
    refine ⟨Nat.le_add_right _ _, ?_⟩
    simp only [rosView, Nat.add_sub_cancel_left]
    exact partRun_mirror (by omega) (by omega)
  | coord =>
    refine ⟨Nat.le_add_right _ _, ?_⟩
    simp only [coordView, View.of, Nat.add_sub_cancel_left]
    exact partRun_mirror (by simp [coordOffset]) (by simp [coordOffset])
  | _ =>
    refine ⟨Nat.le_add_right _ _, ?_⟩
    simp only [summaryView, seenView, countView, stateView, View.of, Nat.add_sub_cancel_left]
    exact partRun_header (by omega)

/-- Software's writes, none of them of the part's octets, leave every mirror true. -/
theorem State.mirrored_afterHost {s : State} {host : List Host.Cell} (h : s.Mirrored s.dev.areaBase)
    (hw : ∀ w ∈ host, s.dev.partWrites w.1 = false) : (s.afterHost host).Mirrored s.dev.areaBase := fun v hv => by
  obtain ⟨at_base, claim⟩ := h v hv
  refine ⟨at_base, ?_⟩
  show v.claim _ ((s.ram.hostWrites host).octets _ _)
  have same : (s.ram.hostWrites host).octets v.first v.length = s.ram.octets v.first v.length :=
    Ram.octets_congr fun x h1 h2 => Ram.octet_hostWrites_outside fun w hw' k =>
      absurd ((hw w hw').symm.trans (k ▸ hv.partWrites h1 h2)) (by simp)
  rw [same]; exact claim

/-- A request left in a slot leaves every mirror true. -/
theorem State.mirrored_withRequest {s : State} {slot : Slot} {ref : Half} {q : Request} (h : s.Mirrored s.dev.areaBase) :
    (s.withRequest slot ref q).Mirrored s.dev.areaBase := by
  unfold State.withRequest
  split
  · exact h
  · intro v hv
    obtain ⟨at_base, claim⟩ := h v hv
    refine ⟨at_base, ?_⟩
    show v.claim _ (Ram.octets _ _ _)
    rw [Ram.octets_write_outside]
    · exact claim
    · have apart := hv.apart_slot (slot := slot) (k := 0) (n := (q.layout ref).length) (by rw [Request.layout_length])
      rw [State.slotBase, at_base]
      rcases apart with k | k
      · exact .inr (by omega)
      · exact .inl (by omega)

theorem State.mirrorsOk_takeRequest {s : State} {bus : AreaBus} {slot : Slot} {ref : Half} {q : Request} (hs : s.mirrorsOk) :
    (s.takeRequest bus slot ref q).mirrorsOk := by
  unfold State.takeRequest
  split
  · rename_i taken
    have running : s.dev.port.device = .running := by
      simp only [Device.mayTake, Bool.and_eq_true, beq_iff_eq] at taken
      exact taken.1
    have opened : s.dev.areaOpen = true := by simp [Device.areaOpen, running]
    have shown : Run.Has { state := s.withRequest slot ref q, bus } (State.Shown s.dev.areaBase) := fun _ =>
      ⟨by rw [State.withRequest_dev]; exact opened, State.mirrored_withRequest (hs.mirrored opened)⟩
    exact ((State.Shown.take shown).imp fun _ k _ => k.2).finish
  · exact hs

/-! ## Sweeps (R183) -/

/-- What a state shows after a change inside the part that no mirror shows. -/
theorem State.Shown.inside {f : Device → Device} (h : r.Has (State.Shown base)) (hv : ∀ v, mirrorView base v → v.Blind f)
    (ha : ∀ d, (f d).areaBase = d.areaBase) (hd : ∀ d, (f d).port.device = d.port.device) :
    (r.inside f).Has (State.Shown base) :=
  Run.Has.inside h fun s ⟨opened, mirrored⟩ =>
    ⟨by rw [Device.areaOpen, hd]; exact opened, fun v k => ⟨(ha _).trans (mirrored v k).1, by rw [hv v k]; exact (mirrored v k).2⟩⟩

theorem Device.ripe_cellsFreed {d : Device} {free : Addr → Bool} (x : Device) :
    Device.Ripe d ((({ d with port.promptOwed := false } : Device).cellsFreed free).takeExit x) := by
  refine .of_moves x (c := { d with port.promptOwed := false }) (post := False) (fr := fun _ => False) (b := false) rfl rfl rfl
    (Device.moves_mapRecords .start fun a => ?_) (.inl rfl) fun _ => False.elim
  split
  · exact { learned := .inl trivial, reply := .inr fun k => ⟨k, rfl⟩, slots := id }
  · exact .refl _ _ _

/-- The seen count taken, and written when it has changed (R183). -/
theorem State.Shown.seenCount {count : Word32} (h : r.Has (State.Shown base)) :
    (if r.state.dev.port.seenCount != count then (r.inside fun d => { d with port.seenCount := count }).writeSeen
      else r.inside fun d => { d with port.seenCount := count }).Has (State.Shown base) := by
  let taken := r.inside fun d => { d with port.seenCount := count }
  have area : taken.Has (State.sees (areaView base)) := h.inside fun s k => k.2 _ .area
  have others {v : View} (hv : mirrorView base v) (hs : v ≠ seenView base) : taken.Has (State.sees v) :=
    h.inside fun s k => by
      have seen := k.2 v hv
      cases hv
      case seen => exact absurd rfl hs
      all_goals exact seen
  have opened : taken.Has fun s => s.dev.areaOpen = true := h.inside fun s k => k.1
  refine .ite (fun changed => ?_) fun unchanged => ?_
  · intro alive
    obtain ⟨begun, state⟩ := Run.access_alive alive
    refine ⟨by rw [Run.writeSeen, Run.write, state]; exact opened begun, fun v hv => ?_⟩
    by_cases hs : v = seenView base
    · subst hs; exact Run.writeSeen_shows area alive
    · exact hv.writeSeen (others hv hs) alive
  · have same : r.state.dev.port.seenCount = count := by simpa using unchanged
    intro alive
    have begun : r.alive = true := (Run.inside_alive _).symm.trans alive
    rw [Run.inside_state begun]
    have : ({ r.state.dev with port.seenCount := count } : Device) = r.state.dev := by rw [← same]
    show State.Shown base { r.state with dev := { r.state.dev with port.seenCount := count } }
    rw [this]; exact h begun

theorem State.Shown.sweepActs {count : Word32} (h : r.Has (State.Shown base)) : (r.sweepActs count).Has (State.Shown base) := by
  unfold Run.sweepActs
  extract_lets r1 s slots r2 r3 changed r4
  have h1 : r1.Has (State.Shown base) := h.read
  have h2 : r2.Has (State.Shown base) := State.Shown.settleInside h1 (fun _ => rfl) (Device.ripe_cellsFreed _) rfl
  have h3 : r3.Has (State.Shown base) := h2.foldl _ fun slot _ r k => by
    unfold Run.sweepSlot
    exact .ite (fun _ => State.Shown.take k) fun _ => k
  exact State.Shown.seenCount h3

theorem State.Shown.sweep (h : r.Has (State.Shown base)) : r.sweep.Has (State.Shown base) := by
  unfold Run.sweep
  extract_lets r1 count interval r2 r3
  have h2 : r2.Has (State.Shown base) :=
    State.Shown.inside h.read (fun v hv => by cases hv <;> exact fun _ => rfl) (fun _ => rfl) fun _ => rfl
  have h3 : r3.Has (State.Shown base) := .ite (fun _ => State.Shown.sweepActs h2) fun _ => h2
  have blind (v : View) (hv : mirrorView base v) : v.Blind Device.endSweep := fun d => by
    unfold Device.endSweep
    dsimp only
    split <;> cases hv <;> rfl
  have port (d : Device) : d.endSweep.port.xbase = d.port.xbase ∧ d.endSweep.port.device = d.port.device := by
    unfold Device.endSweep
    dsimp only
    split <;> exact ⟨rfl, rfl⟩
  exact State.Shown.inside h3 blind (fun d => congrArg (fun x : BitVec 51 => x.toNat * Config.areaSize) (port d).1) fun d => (port d).2

theorem State.mirrorsOk_sweep {s : State} {host : List Host.Cell} {bus : AreaBus} (hs : s.mirrorsOk)
    (hw : ∀ w ∈ host, s.dev.partWrites w.1 = false) : (doSweep host bus s).mirrorsOk := by
  have written : (s.afterHost host).dev.areaOpen = true → (s.afterHost host).Mirrored s.dev.areaBase := fun opened =>
    State.mirrored_afterHost (hs.mirrored opened) hw
  unfold doSweep
  dsimp only
  split
  · rename_i k
    have opened : (s.afterHost host).dev.areaOpen = true := by simp [Device.areaOpen, k.1]
    exact ((State.Shown.sweep (r := { state := s.afterHost host, bus }) fun _ => ⟨opened, written opened⟩).imp
      fun _ k _ => k.2).finish
  · exact State.mirrorsOk_of written

/-! ## STARTING (R193) -/

/-- Step 4 of STARTING makes every mirror true. -/
theorem Run.republish_mirrored (h : r.Has (State.sees (areaView base))) : r.republish.Has (State.Mirrored base) := by
  unfold Run.republish
  extract_lets r1 r2 r3 r4
  have emptied {v : View} (hv : mirrorView base v) (k : r1.Has (State.sees v)) : r2.Has (State.sees v) :=
    k.changedAlways (hv.blind_outbox fun l => l.filter (!·.isRewrite)) fun _ => rfl
  have cats {v : View} (hv : mirrorView base v) (k : r2.Has (State.sees v)) : r3.Has (State.sees v) :=
    k.foldl _ fun _ _ _ => hv.writeCat
  have roster {v : View} (hv : mirrorView base v) (k : r3.Has (State.sees v)) : r4.Has (State.sees v) :=
    k.foldl _ fun _ _ _ => hv.writeRos
  have counted {v : View} {r : Run} (hv : mirrorView base v) (k : r.Has (State.sees v)) :
      r.writeDeviceCount.writeClock.Has (State.sees v) := by
    refine hv.writeClock ?_
    rcases hv.apartCount with apart | rfl
    · exact k.writeDeviceCount apart
    · exact Run.writeDeviceCount_shows (hv.area_of k)
  have rest {v : View} {r : Run} (hv : mirrorView base v) (k : r.Has (State.sees v)) :
      r.writeCoord.writeSummary.writeSeen.writeDeviceCount.writeClock.Has (State.sees v) :=
    counted hv (hv.writeSeen (hv.writeSummary (hv.writeCoord k)))
  have area1 : r1.Has (State.sees (areaView base)) := mirrorView.area.writeState h
  have area2 := emptied mirrorView.area area1
  have area3 := cats mirrorView.area area2
  have area4 := roster mirrorView.area area3
  intro alive v hv
  refine (?_ : Run.Has _ (State.sees v)) alive
  cases hv with
  | area => exact rest .area area4
  | cat i =>
    exact rest (.cat i) (roster (.cat i) (area2.foldl_shows (List.mem_finRange i) (fun _ _ => mirrorView.area.writeCat)
      (fun _ => Run.writeCat_shows) fun _ _ => (mirrorView.cat i).writeCat))
  | ros a =>
    exact rest (.ros a) (area3.foldl_shows (List.mem_finRange a) (fun _ _ => mirrorView.area.writeRos)
      (fun _ => Run.writeRos_shows) fun _ _ => (mirrorView.ros a).writeRos)
  | coord =>
    exact counted .coord (mirrorView.coord.writeSeen (mirrorView.coord.writeSummary (Run.writeCoord_shows area4)))
  | summary =>
    exact counted .summary (mirrorView.summary.writeSeen (Run.writeSummary_shows (mirrorView.area.writeCoord area4)))
  | seen =>
    exact counted .seen (Run.writeSeen_shows (mirrorView.area.writeSummary (mirrorView.area.writeCoord area4)))
  | count =>
    exact mirrorView.count.writeClock (Run.writeDeviceCount_shows (mirrorView.area.writeSeen
      (mirrorView.area.writeSummary (mirrorView.area.writeCoord area4))))
  | state => exact rest .state (roster .state (cats .state (emptied .state (Run.writeState_shows h))))

section
variable {v : View} (hv : mirrorView base v)
include hv

theorem mirrorView.writeOwed {l : List Return} (h : r.Has (State.sees v)) : (r.writeOwed l).Has (State.sees v) := by
  induction l generalizing r with
  | nil => exact h
  | cons ret rest ih =>
    have blind : v.Blind fun d => { d with port.returnsOwed := rest } := by cases hv <;> exact fun _ => rfl
    exact .ite (fun _ => ih (hv.returnSlot (h.changedAlways blind fun _ => rfl))) fun _ => h

theorem mirrorView.returnAborted {l : List Return} (h : r.Has (State.sees v)) : (r.returnAborted l).Has (State.sees v) := by
  induction l generalizing r with
  | nil => exact h
  | cons ret rest ih => exact .ite (fun _ => ih (hv.returnSlot h)) fun _ => h

/-- Step 7 of STARTING changes the device state and writes its copy. -/
theorem mirrorView.nowRunning (h : r.Has (State.sees v)) : (r.inside Device.nowRunning).writeState.Has (State.sees v) := by
  rcases hv.sparesState with apart | rfl
  · cases hv
    case state => exact Run.writeState_shows (h.inside fun s k => ⟨k.1, trivial⟩)
    all_goals exact Run.Has.writeState (h.inside fun s k => k) apart
  · exact Run.writeState_shows (h.inside fun s k => ⟨k.1, trivial⟩)

end

theorem Device.ripe_afterRunning {d : Device} (x : Device) : Device.Ripe d (d.afterRunning.takeExit x) := by
  unfold Device.afterRunning
  split
  · exact .of_moves x (post := False) (fr := fun _ => False) (b := false) rfl rfl rfl (Device.moves_lineMayStart .start) (.inl rfl)
      fun _ => False.elim
  · exact Device.ripe_enterStopping x rfl rfl rfl

theorem Device.afterRunning_open {d : Device} (h : d.port.device = .running) : d.afterRunning.areaOpen = true := by
  unfold Device.afterRunning
  split
  · have port := (Device.moves_lineMayStart (d := d) (post := False) (fr := fun _ => False) (xp := False) (b := false)
      .start).framed.port.resolve_left id
    have : d.lineMayStart.port.device = d.port.device := by rw [← port]
    rw [Device.areaOpen, this, h]; rfl
  · have : d.enterStopping.port.device = .stopping := (Device.stir_idleIfStopping (.refl _)).device
    rw [Device.areaOpen, this]; rfl

/-- The steps of STARTING leave every mirror true once the area is accessed. -/
theorem Run.startingSteps_mirrored :
    ∃ base, r.startingSteps.Has fun s => s.dev.areaOpen = true → s.Mirrored base := by
  unfold Run.startingSteps
  extract_lets s r1 r2 aborted r3 r4 r5 r6 r7 before
  refine ⟨r1.state.dev.areaBase, ?_⟩
  have h2 : r2.Has (State.sees (areaView r1.state.dev.areaBase)) := Run.Has.read fun _ => ⟨rfl, trivial⟩
  have h4 : r4.Has (State.Mirrored r1.state.dev.areaBase) := Run.republish_mirrored (h2.inside fun _ k => k)
  have h7 : r7.Has (State.Mirrored r1.state.dev.areaBase) := fun alive v hv =>
    hv.nowRunning (hv.returnAborted (hv.writeOwed fun k => h4 k v hv)) alive
  refine .ite (fun alive => ?_) fun dead k => absurd k dead
  have running : before.port.device = .running := by
    obtain ⟨begun, state⟩ := Run.access_alive alive
    have : before = (r6.inside Device.nowRunning).state.dev := (congrArg State.dev state).trans rfl
    rw [this, Run.inside_state ((Run.inside_alive _).symm.trans begun)]; rfl
  have opened := Device.afterRunning_open running
  exact (Run.Has.settle (r := r7.always Device.afterRunning) (before := before) (fun _ => h7 alive) opened
    (Device.ripe_afterRunning _)).imp fun _ k _ => k.2

theorem State.mirrorsOk_starting {s : State} {host : List Host.Cell} {bus : AreaBus} (hs : s.mirrorsOk)
    (hw : ∀ w ∈ host, s.dev.partWrites w.1 = false) : (doStarting host bus s).mirrorsOk := by
  unfold doStarting
  dsimp only
  split
  · unfold Run.starting
    dsimp only
    split
    · rename_i alive
      split
      · obtain ⟨base, mirrored⟩ := Run.startingSteps_mirrored (r := Run.read { state := s.afterHost host, bus })
        exact mirrored.finish
      · refine Run.Has.finish (base := 0) fun _ k => ?_
        cases k
    · rename_i dead
      exact Run.Has.finish (base := 0) fun alive => absurd alive dead
  · exact State.mirrorsOk_of fun opened => State.mirrored_afterHost (hs.mirrored opened) hw

/-! ## Every command -/

theorem State.mirrorsOk_setLineEnable {s : State} {value : Bool} (bus : AreaBus) (hs : s.mirrorsOk) :
    (s.act bus (·.setLineEnable value)).mirrorsOk := by
  refine State.act_mirrorsOk_of_moves (c := { s.dev with port.lineEnable := value }) (post := False) (b := false) hs ?_ rfl rfl rfl rfl
  unfold Device.setLineEnable
  exact .ite (fun _ => Device.moves_lineMayStart .start) fun _ => .ite (fun _ => .start)
    fun _ => Device.moves_lineToIdle trivial (.inl trivial) .start

/-- A command that is one chain of changes of the blocks. -/
theorem State.mirrorsOk_moved {s : State} {bus : AreaBus} {f : Device → Device} (hs : s.mirrorsOk)
    (h : Moves (.full False (fun _ => False) False) s.dev false (f s.dev)) : (s.act bus f).mirrorsOk :=
  State.act_mirrorsOk_of_moves hs h rfl rfl rfl rfl

theorem State.mirrorsOk_stoppingEnd {s : State} (bus : AreaBus) (hs : s.mirrorsOk) : (doStoppingEnd bus s).mirrorsOk := by
  unfold doStoppingEnd
  split
  · refine Run.Has.finish (base := 0) ?_
    refine Run.Has.inside (P := fun _ => True) (fun _ => trivial) fun s _ k => ?_
    have : s.dev.stopped.areaOpen = false := by
      unfold Device.stopped Device.areaOpen
      dsimp only
      split <;> rfl
    exact absurd (this.symm.trans k) (by simp)
  · exact hs

theorem runOperation_mirrorsOk {op : Instr} {s : State} (bus : AreaBus) (hs : s.mirrorsOk)
    (hw : ∀ w ∈ op.hostWrites, s.dev.partWrites w.1 = false) : (runOperation op bus s).mirrorsOk := by
  cases op
  all_goals
    dsimp only [runOperation, doRun, doLineEnable, doPrompt, doCancel, doXbaseWrite, doCauseClear, doXmaskWrite,
      doXclockWrite, doRegisterWriteOther, doSweepTimerExpiry, doPost, doWithdraw,
      doTarget, doHotAdd, doEnrol, doExclude, doReadmit, doLineSet, doBadKind, doVerificationStart, doVerificationEnd,
      doClockStep, doSilenceExpiry, doCycleEnd, doKeepaliveExpiry, doAttentionEvent, doRollCallPoll, doTransferGrant,
      doLineFree, doDeferralExpiry, doFrameSent, doReplyTimeout, doFrameIncomplete, doMalformedReply, doContention,
      doGuardTimeExpiry, doReplyCheckFailed, doStatus, doNotice, doAck, doNak, doVerdict, doSyncOctetReceived]
  case run => exact Run.mirrorsOk_setRun bus hs
  case starting => exact State.mirrorsOk_starting hs hw
  case stoppingEnd => exact State.mirrorsOk_stoppingEnd bus hs
  case sweep => exact State.mirrorsOk_sweep hs hw
  case areaFault => exact hs
  case registerWriteOther => exact hs
  case deviceReset => exact State.mirrorsOk_closed rfl
  case softReset => exact State.mirrorsOk_closed rfl
  case post | withdraw | target | hotAdd | enrol | exclude | readmit | lineSet | badKind => exact State.mirrorsOk_takeRequest hs
  case lineEnable => exact State.mirrorsOk_setLineEnable bus hs
  case prompt =>
    unfold Device.prompt Device.callSweep
    split
    · split <;> exact hs
    · exact hs
  case xbaseWrite =>
    unfold Device.writeXbase
    split
    · rename_i k
      refine State.mirrorsOk_closed ?_
      rcases k with k | k <;> simp [Device.areaOpen, k]
    · exact hs
  case sweepTimerExpiry =>
    unfold Device.sweepTimerExpired Device.callSweep
    split
    · split <;> exact hs
    · exact hs
  case verificationStart =>
    unfold Device.startVerification
    split <;> exact hs
  case causeClear | xmaskWrite | lineFree | deferralExpiry => exact hs
  case xclockWrite | clockStep =>
    exact State.act_mirrorsOk_of_moves (c := { s.dev with fck := _ }) (post := False) (b := false) hs
      (Device.moves_clockChanged trivial .start) rfl rfl rfl rfl
  case syncOctetReceived =>
    unfold Device.syncReceived
    split
    · split <;> exact hs
    · exact hs
  case cancel => exact State.mirrorsOk_moved hs (Device.moves_cancel trivial (.inl trivial) .start)
  case verificationEnd => exact State.mirrorsOk_moved hs (Device.moves_verificationEnded (fun _ _ => trivial) trivial .start)
  case silenceExpiry => exact State.mirrorsOk_moved hs (Device.moves_silenceExpired .start)
  case cycleEnd => exact State.mirrorsOk_moved hs (Device.moves_endCycle .start)
  case keepaliveExpiry => exact State.mirrorsOk_moved hs (Device.moves_keepaliveExpired .start)
  case attentionEvent => exact State.mirrorsOk_moved hs (Device.moves_attention .start)
  case rollCallPoll => exact State.mirrorsOk_moved hs (Device.moves_rollCall .start)
  case transferGrant => exact State.mirrorsOk_moved hs Device.moves_transferGrant
  case frameSent => exact State.mirrorsOk_moved hs (Device.moves_frameSent .start)
  case replyTimeout | frameIncomplete | malformedReply => exact State.mirrorsOk_moved hs (Device.moves_missed .start)
  case contention => exact State.mirrorsOk_moved hs (Device.moves_contention .start)
  case guardTimeExpiry => exact State.mirrorsOk_moved hs (Device.moves_guardPassed .start)
  case replyCheckFailed => exact State.mirrorsOk_moved hs (Device.moves_replyOctets .start)
  case status | notice | ack | nak | verdict => exact State.mirrorsOk_moved hs (Device.moves_reply .start)

/-- Settles O10: what a command changes in the blocks is rewritten where its mirror shows it, and EXP's own writing keeps every mirror
true. -/
theorem mirrorsKept : Obligations.MirrorsKept := by
  intro c s hs _ hw t ht
  obtain ⟨bus, run, -⟩ := exec_eq_runOperation c s
  obtain rfl : runOperation c.operation bus s = t := Host.Outcome.next.inj (run.symm.trans ht)
  exact runOperation_mirrorsOk bus hs hw

end Sys2Proof.Machine
end

