-- ==== Sys2Proof/Proofs/Publication.lean ====
section
/-! Publication over a sound bus: what it makes of the part, exactly, and of the octets of the area. -/

namespace Sys2Proof.Machine

variable {r : Run}

/-! ## Accesses over a sound bus -/

theorem Run.alive_of_sound (h : r.bus = .sound) : r.alive = true := by simp [Run.alive, h]

theorem Run.access_sound {f : State → State} (h : r.bus = .sound) : r.access f = { r with state := f r.state } := by
  unfold Run.access; rw [h]

theorem Run.inside_sound {f : Device → Device} (h : r.bus = .sound) : r.inside f = r.always f := by
  unfold Run.inside; rw [if_pos (Run.alive_of_sound h)]; rfl

theorem Run.write_sound {o : Nat} {l : List Octet} (h : r.bus = .sound) :
    (r.write o l).bus = .sound ∧ (r.write o l).state.dev = r.state.dev := by
  rw [Run.write, Run.access_sound h]; exact ⟨h, rfl⟩

/-- A run whose bus is sound, with what its part is. -/
def Run.Is (r : Run) (d : Device) : Prop := r.bus = .sound ∧ r.state.dev = d

variable {d : Device}

theorem Run.Is.write {o : Nat} {l : List Octet} (h : r.Is d) : (r.write o l).Is d := by
  obtain ⟨bus, dev⟩ := h
  obtain ⟨bus', dev'⟩ := Run.write_sound (o := o) (l := l) bus
  exact ⟨bus', dev'.trans dev⟩

theorem Run.Is.always {f : Device → Device} (h : r.Is d) : (r.always f).Is (f d) := by
  obtain ⟨bus, rfl⟩ := h; exact ⟨bus, rfl⟩

theorem Run.Is.inside {f : Device → Device} (h : r.Is d) : (r.inside f).Is (f d) := by
  rw [Run.inside_sound h.1]; exact h.always

theorem Run.Is.alive (h : r.Is d) : r.alive = true := Run.alive_of_sound h.1

theorem Run.Is.foldl {α : Type} {f : Run → α → Run} {g : Device → α → Device} (l : List α)
    (hf : ∀ (r : Run) (d : Device) (x : α), r.Is d → (f r x).Is (g d x)) (h : r.Is d) : (l.foldl f r).Is (l.foldl g d) := by
  induction l generalizing r d with
  | nil => exact h
  | cons x l ih => exact ih (hf r d x h)

/-! ## What publication makes of the part -/

/-- The mirrors that a command has changed, counted as rewritten. -/
def Device.mirrorsCounted (d before : Device) (out : List Publication) : Device :=
  let e := (allIndices.filter (catDirty before d out)).foldl Device.countCat d
  let e := (allAddrs.filter (rosDirty before d out)).foldl Device.countRos e
  if mirrorDue out .coordRewrite (coordBody before.act) (coordBody d.act) then e.countCoord else e

/-- One thing handed over, counted as carried out. -/
def Device.carriedOut (d : Device) : Publication → Device
  | .slotReturn ret => (d.stepDeviceCount.raise .slot).release ret.slot
  | .noticeFill _ _ _ => d.stepDeviceCount.raise .notice
  | .catRewrite _ | .rosterRewrite _ | .coordRewrite | .summaryRewrite | .clockCopy | .stateCopy => d

/-- What publication over a sound bus makes of the part. -/
def Device.published (d before : Device) : Device :=
  if d.areaOpen then d.outbox.foldl Device.carriedOut (({ d with outbox := [] } : Device).mirrorsCounted before d.outbox)
  else d.outbox.foldl Device.leave { d with outbox := [] }

theorem Run.Is.writeCat {i : CatIndex} (h : r.Is d) : (r.writeCat i).Is (d.countCat i) :=
  (h.write.inside (f := (·.countCat i))).write
theorem Run.Is.writeRos {a : Addr} (h : r.Is d) : (r.writeRos a).Is (d.countRos a) :=
  (h.write.inside (f := (·.countRos a))).write
theorem Run.Is.writeCoord (h : r.Is d) : r.writeCoord.Is d.countCoord := (h.write.inside (f := Device.countCoord)).write

theorem Run.Is.writeMirrors {before : Device} {out : List Publication} (h : r.Is d) :
    (r.writeMirrors before out).Is (d.mirrorsCounted before out) := by
  obtain ⟨bus, rfl⟩ := h
  have h0 : r.Is r.state.dev := ⟨bus, rfl⟩
  unfold Run.writeMirrors Device.mirrorsCounted
  extract_lets after r1 r2 r3 e1 e2
  have h1 : r1.Is e1 := h0.foldl _ fun _ _ _ => Run.Is.writeCat
  have h2 : r2.Is e2 := h1.foldl _ fun _ _ _ => Run.Is.writeRos
  have h3 : r3.Is (if mirrorDue out .coordRewrite (coordBody before.act) (coordBody after.act) then e2.countCoord else e2) := by
    unfold r3
    split
    · exact h2.writeCoord
    · exact h2
  split
  · exact h3.write
  · exact h3

theorem Run.Is.carryOut {p : Publication} (h : r.Is d) : (r.carryOut p).Is (d.carriedOut p) := by
  cases p
  case slotReturn ret => exact (h.write.write.inside (f := Device.stepDeviceCount)).write.inside.always
  case noticeFill a kind text =>
    have filled : ((r.write (cellOffset a + 1) (cellBody kind text)).write (cellOffset a) [0]).Is d := h.write.write
    show Run.Is (ite _ _ _) _
    rw [if_pos filled.alive]
    exact (filled.inside (f := Device.stepDeviceCount)).write.inside
  case clockCopy => exact h.write.write
  case stateCopy => exact h.write
  all_goals exact h

theorem Run.Is.carryOutAll {l : List Publication} (h : r.Is d) : (r.carryOutAll l).Is (l.foldl Device.carriedOut d) := by
  induction l generalizing r d with
  | nil => exact h
  | cons p l ih =>
    rw [Run.carryOutAll, if_pos h.alive]
    exact ih h.carryOut

theorem Run.Is.publish {before : Device} (h : r.Is d) : (r.publish before).Is (d.published before) := by
  obtain ⟨bus, rfl⟩ := h
  have h0 : r.Is r.state.dev := ⟨bus, rfl⟩
  unfold Run.publish Device.published
  extract_lets out wasAlive r1 r2 src
  have h1 : r1.Is { r.state.dev with outbox := [] } := h0.always (f := fun d => { d with outbox := [] })
  have alive : wasAlive = true := h0.alive
  have opened : r1.state.dev.areaOpen = r.state.dev.areaOpen := rfl
  rw [opened, alive, Bool.and_true]
  split
  · have h2 : r2.Is (({ r.state.dev with outbox := [] } : Device).mirrorsCounted before out) := h1.writeMirrors
    rw [if_pos h2.alive]
    exact h2.carryOutAll
  · exact h1.always (f := fun d => out.foldl Device.leave d)

/-! ## What carrying out changes -/

/-- Carrying out steps the device count, raises causes and releases slots. -/
structure Device.Carried (d e : Device) : Prop where
  parts : e = { d with port := e.port }
  port : { e.port with causes := d.port.causes, deviceCount := d.port.deviceCount, held := d.port.held } = d.port
  causes : d.port.causes ||| e.port.causes = e.port.causes

theorem Device.Carried.refl (d : Device) : d.Carried d := ⟨rfl, rfl, by simp⟩
theorem Device.Carried.trans {c d e : Device} (h : c.Carried d) (k : d.Carried e) : c.Carried e where
  parts := by rw [k.parts, h.parts]
  port := by rw [← h.port, ← k.port]
  causes := by rw [← k.causes, ← BitVec.or_assoc, h.causes]

theorem Device.carried_carriedOut (d : Device) (p : Publication) : d.Carried (d.carriedOut p) := by
  cases p
  case slotReturn | noticeFill =>
    refine ⟨rfl, rfl, ?_⟩
    show d.port.causes ||| (d.port.causes ||| _) = d.port.causes ||| _
    rw [← BitVec.or_assoc, BitVec.or_self]
  all_goals exact .refl d

theorem Device.carried_all (l : List Publication) (d : Device) : d.Carried (l.foldl Device.carriedOut d) := by
  induction l generalizing d with
  | nil => exact .refl d
  | cons p l ih => exact (d.carried_carriedOut p).trans (ih _)

/-- A slot that is not returned is held as it was. -/
theorem Device.held_carriedAll {l : List Publication} {slot : Slot} (h : ∀ ret, .slotReturn ret ∈ l → ret.slot ≠ slot) (d : Device) :
    (l.foldl Device.carriedOut d).port.held[slot] = d.port.held[slot] := by
  induction l generalizing d with
  | nil => rfl
  | cons p l ih =>
    refine (ih (fun ret hret => h ret (List.mem_cons_of_mem _ hret)) _).trans ?_
    cases p
    case slotReturn ret => exact (getElem_set_fin _ _ _ _).trans (if_neg (h ret List.mem_cons_self))
    all_goals rfl

/-- A slot not held is not held after carrying out, and a slot returned is not held any more. -/
theorem Device.free_carriedAll {l : List Publication} {slot : Slot} {d : Device}
    (h : d.port.held[slot] = none ∨ ∃ ret, .slotReturn ret ∈ l ∧ ret.slot = slot) :
    (l.foldl Device.carriedOut d).port.held[slot] = none := by
  induction l generalizing d with
  | nil => exact h.resolve_right fun ⟨_, mem, _⟩ => absurd mem List.not_mem_nil
  | cons p l ih =>
    refine ih ?_
    have still (k : d.port.held[slot] = none) : (d.carriedOut p).port.held[slot] = none := by
      cases p
      case slotReturn ret => exact (getElem_set_fin _ _ _ _).trans ((congrArg (ite _ none) k).trans (ite_self _))
      all_goals exact k
    rcases h with k | ⟨ret, mem, rfl⟩
    · exact .inl (still k)
    · rcases List.mem_cons.1 mem with rfl | mem
      · exact .inl ((getElem_set_fin _ _ _ _).trans (if_pos rfl))
      · exact .inr ⟨ret, mem, rfl⟩

/-- Cause SLOT is set once a slot is returned (R186). -/
theorem Device.slot_carriedAll {l : List Publication} {ret : Return} (h : .slotReturn ret ∈ l) (d : Device) :
    (l.foldl Device.carriedOut d).port.causes.getLsbD 0 = true := by
  induction l generalizing d with
  | nil => cases h
  | cons p l ih =>
    rcases List.mem_cons.1 h with rfl | h
    · rw [List.foldl_cons, ← (Device.carried_all l _).causes, BitVec.getLsbD_or]
      have : (d.carriedOut (.slotReturn ret)).port.causes.getLsbD 0 = true := by
        show BitVec.getLsbD (_ ||| Cause.slot.flag) 0 = true
        rw [BitVec.getLsbD_or]; simp [Cause.flag]
      rw [this, Bool.true_or]
    · exact ih h _

/-- Rewritings alone change nothing when they are carried out: they have been written. -/
theorem Device.carriedAll_rewrites {l : List Publication} (h : ∀ p ∈ l, p.isRewrite = true) (d : Device) :
    l.foldl Device.carriedOut d = d := by
  induction l generalizing d with
  | nil => rfl
  | cons p l ih =>
    have : d.carriedOut p = d := by
      have := h p List.mem_cons_self
      cases p
      case slotReturn | noticeFill | clockCopy | stateCopy => cases this
      all_goals rfl
    rw [List.foldl_cons, this]; exact ih (fun q hq => h q (List.mem_cons_of_mem _ hq)) d

/-- What the update counts' stepping changes: they, and which reply times the mirrors show (R61, R188). -/
structure Device.Counted (d e : Device) : Prop where
  parts : e = { d with port := e.port, ros := e.ros }
  port : { e.port with catCounts := d.port.catCounts, rosCounts := d.port.rosCounts, coordCount := d.port.coordCount } = d.port
  record : ∀ a, { e.record a with replyTime := (d.record a).replyTime } = d.record a

theorem Device.Counted.refl (d : Device) : d.Counted d := ⟨rfl, rfl, fun _ => rfl⟩
theorem Device.Counted.trans {c d e : Device} (h : c.Counted d) (k : d.Counted e) : c.Counted e where
  parts := by rw [k.parts, h.parts]
  port := by rw [← h.port, ← k.port]
  record := fun a => by rw [← h.record a, ← k.record a]
theorem Device.Counted.foldl {α : Type} {f : Device → α → Device} (l : List α) (hf : ∀ d x, Device.Counted d (f d x)) {c d : Device}
    (h : c.Counted d) : c.Counted (l.foldl f d) := by
  induction l generalizing d with
  | nil => exact h
  | cons x l ih => exact ih (h.trans (hf d x))

theorem Device.counted_countCat (d : Device) (i : CatIndex) : d.Counted (d.countCat i) := ⟨rfl, rfl, fun _ => rfl⟩
theorem Device.counted_countCoord (d : Device) : d.Counted d.countCoord := ⟨rfl, rfl, fun _ => rfl⟩

theorem Device.record_countRos (d : Device) (a b : Addr) :
    (d.countRos a).record b = if a = b then { d.record a with replyTime := .shown } else d.record b :=
  Device.record_putRecord _ _ _ _

theorem Device.counted_countRos (d : Device) (a : Addr) : d.Counted (d.countRos a) := by
  refine ⟨rfl, rfl, fun b => ?_⟩
  rw [Device.record_countRos]
  split
  · rename_i k; subst k; rfl
  · rfl

theorem Device.counted_mirrors (d before : Device) (out : List Publication) : d.Counted (d.mirrorsCounted before out) := by
  unfold Device.mirrorsCounted
  extract_lets e1 e2
  have h1 : d.Counted e1 := .foldl _ Device.counted_countCat (.refl d)
  have h2 : d.Counted e2 := .foldl _ Device.counted_countRos h1
  split
  · exact h2.trans e2.counted_countCoord
  · exact h2

/-! ## What publication keeps -/

section
variable {before : Device}

theorem Device.published_open (h : d.areaOpen = true) :
    d.published before = d.outbox.foldl Device.carriedOut (({ d with outbox := [] } : Device).mirrorsCounted before d.outbox) := by
  rw [Device.published, if_pos h]

/-- Publication changes EXP alone, and of ROS which reply times the mirrors show, while the area is accessed. -/
theorem Device.published_parts (h : d.areaOpen = true) :
    d.published before = { d with port := (d.published before).port, ros := (d.published before).ros, outbox := [] } := by
  rw [Device.published_open h]
  generalize he : ({ d with outbox := [] } : Device).mirrorsCounted before d.outbox = e
  have counted : ({ d with outbox := [] } : Device).Counted e := he ▸ Device.counted_mirrors _ _ _
  have carried := Device.carried_all d.outbox e
  rw [carried.parts, counted.parts]

theorem Device.published_record (h : d.areaOpen = true) (a : Addr) :
    { (d.published before).record a with replyTime := (d.record a).replyTime } = d.record a := by
  rw [Device.published_open h]
  generalize he : ({ d with outbox := [] } : Device).mirrorsCounted before d.outbox = e
  have counted : ({ d with outbox := [] } : Device).Counted e := he ▸ Device.counted_mirrors _ _ _
  have : (d.outbox.foldl Device.carriedOut e).record a = e.record a := by
    rw [(Device.carried_all d.outbox e).parts]; rfl
  rw [this]; exact counted.record a

theorem Device.published_port (h : d.areaOpen = true) :
    { (d.published before).port with
      causes := d.port.causes, deviceCount := d.port.deviceCount, held := d.port.held, catCounts := d.port.catCounts,
      rosCounts := d.port.rosCounts, coordCount := d.port.coordCount } = d.port := by
  rw [Device.published_open h]
  generalize he : ({ d with outbox := [] } : Device).mirrorsCounted before d.outbox = e
  have counted : ({ d with outbox := [] } : Device).Counted e := he ▸ Device.counted_mirrors _ _ _
  have port := counted.port
  have carried := (Device.carried_all d.outbox e).port
  rw [← carried] at port
  exact port.symm ▸ rfl

end

/-! ## The octets of the area -/

/-- A run of host RAM that is to stay as it is. -/
def octetView (base first length : Nat) (l : List Octet) : View where
  base := base
  first := first
  length := length
  What := Unit
  what := fun _ => ()
  claim := fun _ m => m = l

theorem octetView_blind (base first length : Nat) (l : List Octet) (f : Device → Device) : (octetView base first length l).Blind f :=
  fun _ => rfl

theorem State.sees_octets {base first length : Nat} {l : List Octet} {s : State} :
    s.sees (octetView base first length l) ↔ s.dev.areaBase = base ∧ s.ram.octets first length = l := .rfl

/-- What is handed over spares a run of octets when it writes elsewhere. -/
def sparesOctets (base first length : Nat) (p : Publication) : Prop :=
  let apart (o n : Nat) : Prop := base + o + n ≤ first ∨ first + length ≤ base + o
  match p with
  | .slotReturn ret => apart (slotOffset ret.slot) 12 ∧ apart 20 4
  | .noticeFill a _ _ => apart (cellOffset a) 64 ∧ apart 20 4
  | .catRewrite _ | .rosterRewrite _ | .coordRewrite | .summaryRewrite => True
  | .clockCopy => apart 25 1 ∧ apart 28 4
  | .stateCopy => apart 24 1

theorem octetView_sparesPub {base first length : Nat} {l : List Octet} {p : Publication} (h : sparesOctets base first length p) :
    (octetView base first length l).sparesPub p := by
  have blind := octetView_blind base first length l
  cases p
  case slotReturn ret => exact ⟨h.1, ⟨h.2, blind _⟩, blind _, blind _⟩
  case noticeFill => exact ⟨h.1, ⟨h.2, blind _⟩, blind _⟩
  all_goals exact h

variable {before : Device} {v : View}

theorem Device.Kept.areaBase_eq {d e : Device} (h : d.Kept e) : e.areaBase = d.areaBase := by
  have port : { e.port with
      causes := d.port.causes, deviceCount := d.port.deviceCount, held := d.port.held, returnsOwed := d.port.returnsOwed,
      catCounts := d.port.catCounts, rosCounts := d.port.rosCounts, coordCount := d.port.coordCount } = d.port := h.port
  rw [Device.areaBase, Device.areaBase, ← port]

/-- Publication spares a view that neither the mirrors' rewriting nor what is handed over touches. -/
theorem Run.Has.publish (h : r.Has (State.sees v)) (outbox : ∀ f, v.Blind f)
    (mirrors : v.SparesMirrors before r.state.dev r.state.dev.outbox) (pubs : ∀ p ∈ r.state.dev.outbox, v.sparesPub p) :
    (r.publish before).Has (State.sees v) := by
  unfold Run.publish
  extract_lets out wasAlive r1 r2
  have h1 : r1.Has (State.sees v) := h.changedAlways (outbox _) fun _ => rfl
  have h2 : r2.Has (State.sees v) := h1.writeMirrors ⟨mirrors.cat, mirrors.ros, mirrors.coord, mirrors.summary⟩
  have left (l : List Publication) (d : Device) : (l.foldl Device.leave d).areaBase = d.areaBase :=
    (Device.kept_leaveAll d l).areaBase_eq
  have lost (l : List Publication) (d : Device) : (d.loseFirst l).areaBase = d.areaBase := (Device.kept_loseFirst d l).areaBase_eq
  refine .ite (fun _ => .ite (fun _ => ?_) fun _ => ?_) fun _ => ?_
  · exact h2.carryOutAll fun p hp r k => k.carryOut (pubs p hp)
  · exact h2.changedAlways (outbox _) fun d => lost out d
  · exact h1.changedAlways (outbox _) fun d => left out d

/-- What has been written stands. -/
theorem Run.write_octets {base o : Nat} {l : List Octet} (h : r.Has (State.sees (areaView base))) (ho : o + l.length ≤ 8192) :
    (r.write o l).Has (State.sees (octetView base (base + o) l.length l)) := fun alive => by
  obtain ⟨begun, -⟩ := Run.access_alive alive
  obtain ⟨dev, octets⟩ := Run.has_written ho alive
  have at_base : (r.write o l).state.dev.areaBase = base := by rw [dev]; exact (h begun).1
  rw [at_base] at octets
  exact State.sees_octets.2 ⟨at_base, octets⟩

theorem octetView_append {base first m n : Nat} {k l : List Octet} {s : State} (h1 : s.sees (octetView base first m k))
    (h2 : s.sees (octetView base (first + m) n l)) : s.sees (octetView base first (m + n) (k ++ l)) :=
  ⟨h1.1, by rw [← State.sees_octets.1 h1 |>.2, ← State.sees_octets.1 h2 |>.2]; exact Ram.octets_add _ _ _ _⟩

/-- The area as a return leaves the octets of its slot (R186). -/
def returnView (base : Nat) (ret : Return) : View := octetView base (base + slotOffset ret.slot) 12 (0 :: returnBody ret)

theorem Run.returnSlot_shows {base : Nat} {ret : Return} (h : r.Has (State.sees (areaView base))) :
    (r.returnSlot ret).Has (State.sees (returnView base ret)) := by
  have high := slotOffset_lt ret.slot
  have low : 0x40 ≤ slotOffset ret.slot := by simp only [slotOffset]; omega
  have body : (r.write (slotOffset ret.slot + 1) (returnBody ret)).Has
      (State.sees (octetView base (base + slotOffset ret.slot + 1) 11 (returnBody ret))) :=
    Run.write_octets h (by rw [returnBody_length]; omega)
  have area : (r.write (slotOffset ret.slot + 1) (returnBody ret)).Has (State.sees (areaView base)) :=
    h.write (mirrorView.area.apart_free (by rw [returnBody_length]; omega))
  have owner : ((r.write (slotOffset ret.slot + 1) (returnBody ret)).write (slotOffset ret.slot) [0]).Has
      (State.sees (octetView base (base + slotOffset ret.slot) 1 [0])) :=
    Run.write_octets area (by simp only [List.length_singleton]; omega)
  have still := body.write (o := slotOffset ret.slot) (l := [0])
    (.inl (by simp only [octetView, List.length_singleton]; omega))
  have whole : ((r.write (slotOffset ret.slot + 1) (returnBody ret)).write (slotOffset ret.slot) [0]).Has
      (State.sees (returnView base ret)) := fun k => octetView_append (owner k) (still k)
  have blind (f) : (returnView base ret).Blind f := octetView_blind _ _ _ _ f
  have counted := (whole.changed (f := Device.stepDeviceCount) (blind _) fun _ => rfl).writeDeviceCount
    (.inl (by simp only [returnView, octetView]; omega))
  exact (counted.changed (f := (·.raise .slot)) (blind _) fun _ => rfl).changedAlways (f := (·.release ret.slot)) (blind _) fun _ => rfl

/-- What is handed over beside the returns of a slot spares the octets of the slot. -/
theorem sparesOctets_slot {base : Nat} {slot : Slot} {p : Publication} (h : ∀ ret, p = .slotReturn ret → ret.slot ≠ slot) :
    sparesOctets base (base + slotOffset slot) 64 p := by
  have high := slotOffset_lt slot
  have low : 0x40 ≤ slotOffset slot := by simp only [slotOffset]; omega
  cases p
  case slotReturn ret =>
    have : ret.slot.val ≠ slot.val := fun k => h ret rfl (Fin.ext k)
    exact ⟨by simp only [slotOffset] at *; omega, by omega⟩
  case noticeFill a kind text =>
    have : 0x1480 ≤ cellOffset a := by simp only [cellOffset]; omega
    exact ⟨by omega, by omega⟩
  case clockCopy => exact ⟨by omega, by omega⟩
  case stateCopy => show _ ∨ _; omega
  all_goals trivial

theorem sparesOctets_sub {base first m n : Nat} {p : Publication} (h : sparesOctets base first n p) (hm : m ≤ n) :
    sparesOctets base first m p := by
  cases p
  case slotReturn | noticeFill | clockCopy => exact ⟨h.1.imp id fun k => by omega, h.2.imp id fun k => by omega⟩
  case stateCopy => exact h.imp id fun k => by omega
  all_goals trivial

/-- The octets of a slot returned, whatever else is carried out, if nothing else is returned for the slot. -/
theorem Run.carryOutAll_returned {base : Nat} {l : List Publication} {ret : Return} (hret : .slotReturn ret ∈ l)
    (same : ∀ x, .slotReturn x ∈ l → x.slot = ret.slot → x = ret) (h : r.Has (State.sees (areaView base))) :
    (r.carryOutAll l).Has (State.sees (returnView base ret)) := by
  have keeps {r : Run} {p : Publication} (hp : ∀ x, p = .slotReturn x → x.slot = ret.slot → x = ret)
      (h : r.Has (State.sees (returnView base ret))) : (r.carryOut p).Has (State.sees (returnView base ret)) := by
    by_cases own : p = .slotReturn ret
    · rw [own]; exact Run.returnSlot_shows (h.imp fun _ k => ⟨k.1, trivial⟩)
    · refine h.carryOut (octetView_sparesPub (sparesOctets_sub (sparesOctets_slot fun x hx k => own ?_) (by omega)))
      rw [hx, hp x hx k]
  induction l generalizing r with
  | nil => cases hret
  | cons p l ih =>
    refine .ite (fun _ => ?_) fun dead k => absurd k dead
    rcases List.mem_cons.1 hret with rfl | hret
    · exact (Run.returnSlot_shows h).carryOutAll fun q hq r k =>
        keeps (fun x hx => same x (hx ▸ List.mem_cons_of_mem _ hq)) k
    · exact ih hret (fun x hx => same x (List.mem_cons_of_mem _ hx)) (mirrorView.area.carryOut h)

/-- A return handed over is written out, while the area is accessed and nothing else is returned for its slot. -/
theorem Run.publish_returned {base : Nat} {ret : Return} (opened : r.state.dev.areaOpen = true)
    (hret : .slotReturn ret ∈ r.state.dev.outbox) (same : ∀ x, .slotReturn x ∈ r.state.dev.outbox → x.slot = ret.slot → x = ret)
    (h : r.Has (State.sees (areaView base))) : (r.publish before).Has (State.sees (returnView base ret)) := by
  intro alive
  have begun := Run.publish_alive alive
  unfold Run.publish at alive ⊢
  extract_lets out wasAlive r1 r2 at alive ⊢
  have emptied : r1.Has (State.sees (areaView base)) := h.changedAlways (mirrorView.area.blind_outbox fun _ => []) fun _ => rfl
  have written : r2.Has (State.sees (areaView base)) := mirrorView.area.writeMirrors emptied
  have open_ : (r1.state.dev.areaOpen && wasAlive) = true := by
    show (r.state.dev.areaOpen && r.alive) = true
    rw [opened, begun]; rfl
  rw [if_pos open_] at alive ⊢
  split at alive
  · rename_i k
    rw [if_pos k]
    exact Run.carryOutAll_returned hret same written alive
  · rename_i k; exact absurd alive k

end Sys2Proof.Machine
end

