-- ==== Sys2Proof/Proofs/Concluding.lean ====
section
/-! What a command over a sound bus leaves: the part, exactly, and the octets of the slots it takes and returns. -/

namespace Sys2Proof.Machine

variable {r : Run} {d before : Device}

/-! ## Exit events (R120) -/

theorem newActWork_of_same {d e : Device} (act : e.act = d.act) (ros : e.ros = d.ros) (fck : e.fck = d.fck) : newActWork d e = false := by
  have owed (a : Addr) : e.actOwed a = d.actOwed a := by
    unfold Device.actOwed Device.standing Device.record Device.armingOpen Device.made
    rw [act, ros]
  have broadcast : e.broadcastOwed = d.broadcastOwed := by simp only [Device.broadcastOwed, Device.clockReached, act, fck]
  simp [newActWork, owed, broadcast]

theorem Device.exitEvent_off (h : d.exitEvent = false) : { d with exitEvent := false } = d := by
  cases d; cases h; rfl

/-- Without an exit event nothing follows. -/
theorem Device.takeExit_none (h : d.exitEvent = false) (k : newActWork before d = false) : d.takeExit before = d := by
  unfold Device.takeExit
  rw [h, k]
  split
  · exact Device.exitEvent_off h
  · rename_i e line
    have : ({ d with lnc.line := .recoverQuiet (e || false) } : Device) = d := by rw [Bool.or_false, ← line]
    exact (congrArg (fun x : Device => { x with exitEvent := false }) this).trans (Device.exitEvent_off h)
  all_goals exact Device.exitEvent_off h

/-- An exit event does nothing but where the line is QUIET, or in a RECOVER entered from it. -/
theorem Device.takeExit_awake (h : d.lnc.line = .idle ∨ d.lnc.line = .cycle ∨ d.lnc.line = .recoverCycle) :
    d.takeExit before = { d with exitEvent := false } := by
  unfold Device.takeExit
  rcases h with h | h | h <;> simp [h]

/-! ## What a command makes of the part -/

/-- The part once what has changed since `before` is settled, over a sound bus. -/
def Device.concluded (d before : Device) : Device := ((d.takeExit before).published before).judgeInterrupt

theorem Run.Is.settle (h : r.Is d) : (r.settle before).Is ((d.takeExit before).published before) := (h.always (f := (·.takeExit before))).publish

theorem Run.Is.finish (h : r.Is d) : r.finish = { r.state with dev := d.judgeInterrupt } := by
  obtain ⟨bus, rfl⟩ := h
  exact Run.finish_alive r (Run.alive_of_sound bus)

theorem State.act_dev (s : State) (f : Device → Device) : (s.act .sound f).dev = (f s.dev).concluded s.dev := by
  have : ({ state := { s with dev := f s.dev }, bus := .sound } : Run).Is (f s.dev) := ⟨rfl, rfl⟩
  rw [State.act, this.settle.finish]; rfl

theorem State.act_pending (s : State) (f : Device → Device) : (s.act .sound f).pending = s.pending := by
  have : ({ state := { s with dev := f s.dev }, bus := .sound } : Run).Is (f s.dev) := ⟨rfl, rfl⟩
  rw [State.act, this.settle.finish]
  exact (Run.written_publish (.refl _) _).pending

/-- What a view sees at the end of the settling it sees at the end of the command. -/
theorem State.sees_finish {v : View} {s : State} (h : r.Is d) (hs : s = r.finish) (hv : v.Blind Device.judgeInterrupt)
    (k : r.Has (State.sees v)) : s.sees v := by
  rw [hs, h.finish]
  obtain ⟨at_base, claim⟩ := k h.alive
  obtain ⟨bus, rfl⟩ := h
  exact ⟨at_base, by rw [hv]; exact claim⟩

/-! ## Takes (R184) -/

/-- The part when a slot's request has been handled. -/
def Device.handled (d : Device) (slot : Slot) (ref : Half) (q : Request) : Device := (d.hold slot { kind := q.kind, ref }).request slot q

variable {s : State} {slot : Slot} {ref : Half} {q : Request}

theorem State.takes.mayTake (h : s.takes slot) : s.dev.mayTake slot = true := by
  rw [Device.mayTake, h.1, h.2]; rfl

theorem State.takes.areaOpen (h : s.takes slot) : s.dev.areaOpen = true := by rw [Device.areaOpen, h.1]; rfl

theorem Run.Is.writeTaken (h : r.Is d) : (r.writeTaken slot).read.Is d := by
  obtain ⟨bus, rfl⟩ := h
  have taken : (r.writeTaken slot).bus = .sound := by rw [Run.writeTaken, Run.access_sound bus]; exact bus
  refine ⟨by rw [Run.read, Run.access_sound taken]; exact taken, ?_⟩
  exact Run.writeTaken_dev (Run.alive_of_sound (by rw [Run.read, Run.access_sound taken]; exact taken))

/-- The run of a take, its request handled: the slot read, the request handled, and what follows settled. -/
def State.takenRun (s : State) (slot : Slot) (ref : Half) (q : Request) : Run :=
  ((({ state := s.withRequest slot ref q, bus := .sound } : Run).writeTaken slot).read).inside fun d => d.handled slot ref q

theorem State.takenRun_is (s : State) : (s.takenRun slot ref q).Is (s.dev.handled slot ref q) := by
  have start : ({ state := s.withRequest slot ref q, bus := .sound } : Run).Is s.dev := ⟨rfl, State.withRequest_dev s _ _ _⟩
  exact (start.writeTaken (slot := slot)).inside (f := fun d => d.handled slot ref q)

theorem State.takeRequest_sound (h : s.takes slot) :
    s.takeRequest .sound slot ref q = ((s.takenRun slot ref q).settle s.dev).finish := by
  have start : ({ state := s.withRequest slot ref q, bus := .sound } : Run).Is s.dev := ⟨rfl, State.withRequest_dev s _ _ _⟩
  have taken := start.writeTaken (slot := slot)
  unfold State.takeRequest Run.take
  rw [if_pos h.mayTake]
  dsimp only
  rw [if_pos taken.alive, State.withRequest_dev]
  rfl

theorem State.takeRequest_dev (h : s.takes slot) : (s.takeRequest .sound slot ref q).dev = (s.dev.handled slot ref q).concluded s.dev := by
  rw [State.takeRequest_sound h, s.takenRun_is.settle.finish]; rfl

theorem State.takeRequest_pending (h : s.takes slot) : (s.takeRequest .sound slot ref q).pending = s.pending := by
  rw [State.takeRequest_sound h, Run.finish_pending]
  have start : ({ state := s.withRequest slot ref q, bus := .sound } : Run).state.pending = s.pending := State.withRequest_pending s _ _ _
  have taken : (s.takenRun slot ref q).state.pending = s.pending := by
    rw [State.takenRun, Run.inside_state ((Run.Is.writeTaken ⟨rfl, State.withRequest_dev s _ _ _⟩).alive)]
    exact ((Run.written_read (Run.written_writeTaken (.refl _) slot)).pending).trans start
  exact ((Run.written_publish (.refl _) _).pending).trans taken

/-! ## The octets of slots -/

/-- The octets of a return, its detail taken to 32 bits (R186, R198). -/
theorem leOctets_mod (n v : Nat) : leOctets n (v % 256 ^ n) = leOctets n v := by
  have := leOctets_leValue (leOctets n v)
  rwa [leOctets_length, leValue_leOctets] at this

/-- A return of a slot with what it was held for. -/
def returnFor (slot : Slot) (status : SlotStatus) (outcome : SlotOutcome) (detail : Nat) (h : HeldSlot) : Return :=
  { slot, status, outcome, detail := BitVec.ofNat 32 detail, kind := h.kind, ref := h.ref }

theorem returnBody_returnFor (slot : Slot) (status : SlotStatus) (outcome : SlotOutcome) (detail : Nat) (h : HeldSlot) :
    0 :: returnBody (returnFor slot status outcome detail h) = returnedOctets status outcome detail h.kind h.ref := by
  have : leOctets 4 (BitVec.ofNat 32 detail).toNat = leOctets 4 detail := by
    rw [BitVec.toNat_ofNat]; exact leOctets_mod 4 detail
  simp only [returnBody, returnFor, returnedOctets, this]; rfl

theorem Device.giveBack_held {h : HeldSlot} {status : SlotStatus} {outcome : SlotOutcome} {n : Nat} (k : d.port.held[slot] = some h) :
    d.giveBack slot status outcome n = d.handOver (.slotReturn (returnFor slot status outcome n h)) := by
  rw [Device.giveBack, k]; rfl

theorem Device.giveBack_free {status : SlotStatus} {outcome : SlotOutcome} {n : Nat} (k : d.port.held[slot] = none) :
    d.giveBack slot status outcome n = d := by
  rw [Device.giveBack, k]

@[simp] theorem Device.held_hold (d : Device) (slot other : Slot) (h : HeldSlot) :
    (d.hold slot h).port.held[other] = if slot = other then some h else d.port.held[other] := getElem_set_fin _ _ _ _

/-- A slot returned at the end of a command: nothing else is returned for it (R186). -/
theorem State.returned_finish {ret : HeldSlot} {status : SlotStatus} {outcome : SlotOutcome} {n : Nat} {t : State} (h : r.Is d)
    (ht : t = (r.settle before).finish) (opened : d.areaOpen = true)
    (hret : .slotReturn (returnFor slot status outcome n ret) ∈ (d.takeExit before).outbox)
    (same : ∀ x, .slotReturn x ∈ (d.takeExit before).outbox → x.slot = slot → x = returnFor slot status outcome n ret) :
    t.returned slot status outcome n ret.kind ret.ref := by
  have taken : (r.always (·.takeExit before)).Is (d.takeExit before) := h.always (f := (·.takeExit before))
  have openedStill : (d.takeExit before).areaOpen = true := by
    rw [Device.areaOpen, (Device.stir_takeExit (.refl _) before).device]; exact opened
  have dev : t.dev = ((d.takeExit before).published before).judgeInterrupt := by rw [ht, h.settle.finish]
  have published := Device.published_open (before := before) openedStill
  have octets : t.sees (returnView (r.always (·.takeExit before)).state.dev.areaBase (returnFor slot status outcome n ret)) :=
    State.sees_finish h.settle ht (octetView_blind _ _ _ _ _)
      (Run.publish_returned (by rw [taken.2]; exact openedStill) (by rw [taken.2]; exact hret) (by rw [taken.2]; exact same)
        fun _ => ⟨rfl, trivial⟩)
  refine ⟨?_, ?_, ?_⟩
  · rw [dev]
    show ((d.takeExit before).published before).port.held[slot] = none
    rw [published]
    exact Device.free_carriedAll (.inr ⟨_, hret, rfl⟩)
  · obtain ⟨at_base, bytes⟩ := State.sees_octets.1 octets
    rw [at_base, ← returnBody_returnFor]; exact bytes
  · rw [dev]
    show ((d.takeExit before).published before).port.causes.getLsbD 0 = true
    rw [published]
    exact Device.slot_carriedAll hret _

/-! ## Octets that a command leaves -/

/-- A run of octets of host RAM that settling what has changed since `before` does not write. -/
structure Device.Spares (before d : Device) (first length : Nat) : Prop where
  cat : ∀ i, catDirty before d d.outbox i = true →
    d.areaBase + catOffset i + 32 ≤ first ∨ first + length ≤ d.areaBase + catOffset i
  ros : ∀ a, rosDirty before d d.outbox a = true →
    d.areaBase + rosOffset a + 128 ≤ first ∨ first + length ≤ d.areaBase + rosOffset a
  coord : mirrorDue d.outbox .coordRewrite (coordBody before.act) (coordBody d.act) = true →
    d.areaBase + coordOffset + 64 ≤ first ∨ first + length ≤ d.areaBase + coordOffset
  summary : mirrorDue d.outbox .summaryRewrite (hotSummary before.htq) (hotSummary d.htq) = true →
    d.areaBase + 32 + 8 ≤ first ∨ first + length ≤ d.areaBase + 32
  pubs : ∀ p ∈ d.outbox, sparesOctets d.areaBase first length p

theorem Device.takeExit_areaBase (d before : Device) : (d.takeExit before).areaBase = d.areaBase := by
  rw [Device.areaBase, Device.areaBase, (Device.stir_takeExit (.refl d) before).xbase]

/-- Octets that settling spares stand at the end of the command. -/
theorem State.octets_finish {first n : Nat} {l : List Octet} {t : State} (h : r.Is d) (ht : t = (r.settle before).finish)
    (spares : Device.Spares before (d.takeExit before) first n) (k : r.state.ram.octets first n = l) : t.ram.octets first n = l := by
  have taken : (r.always (·.takeExit before)).Is (d.takeExit before) := h.always (f := (·.takeExit before))
  have dev := taken.2
  have blind (f) : (octetView (d.takeExit before).areaBase first n l).Blind f := octetView_blind _ _ _ _ f
  have settled : (r.settle before).Has (State.sees (octetView (d.takeExit before).areaBase first n l)) := by
    refine Run.Has.publish (fun _ => ⟨congrArg Device.areaBase dev, k⟩) blind ?_ ?_
    · rw [dev]
      exact { cat := fun i hi => ⟨spares.cat i hi, blind _⟩, ros := fun a ha => ⟨spares.ros a ha, blind _⟩
              coord := fun hc => ⟨spares.coord hc, blind _⟩, summary := spares.summary }
    · rw [dev]
      exact fun p hp => octetView_sparesPub (spares.pubs p hp)
  exact (State.sees_octets.1 (State.sees_finish h.settle ht (blind _) settled)).2

theorem catDirty_eq_false {out : List Publication} {i : CatIndex} (h : d.entry i = before.entry i) (k : .catRewrite i ∉ out) :
    catDirty before d out i = false := by
  simp [catDirty, mirrorDue, h, k]
theorem rosDirty_eq_false {out : List Publication} {a : Addr} (h : d.record a = before.record a) (k : .rosterRewrite a ∉ out) :
    rosDirty before d out a = false := by
  simp [rosDirty, mirrorDue, h, k]

theorem Ram.octets_one (m : Ram) (x : Nat) : m.octets x 1 = [m.octet x] := by simp [Ram.octets]

/-- The TAKEN write of a slot, after which its request is read and handled (R184). -/
theorem State.takenRun_ram :
    (s.takenRun slot ref q).state.ram =
      ((s.withRequest slot ref q).ram.write (s.dev.areaBase + slotOffset slot + 1) [num SlotStatus.taken.code]).write
        (s.dev.areaBase + slotOffset slot + 3) [0] := by
  have start : ({ state := s.withRequest slot ref q, bus := .sound } : Run).Is s.dev := ⟨rfl, State.withRequest_dev s _ _ _⟩
  rw [State.takenRun, Run.inside_state start.writeTaken.alive, Run.read,
    Run.access_sound (by rw [Run.writeTaken, Run.access_sound rfl]), Run.writeTaken, Run.access_sound rfl]
  show Ram.write (Ram.write _ ((s.withRequest slot ref q).dev.areaBase + _ + _) _) ((s.withRequest slot ref q).dev.areaBase + _ + _) _ = _
  rw [State.withRequest_dev]

/-- The octets of a slot but those of the TAKEN write are as software left them when the slot's request has been handled. -/
theorem State.takenRun_octets {first n : Nat} (h : ∀ k, k = 1 ∨ k = 3 →
      s.dev.areaBase + slotOffset slot + k + 1 ≤ first ∨ first + n ≤ s.dev.areaBase + slotOffset slot + k) :
    (s.takenRun slot ref q).state.ram.octets first n = (s.withRequest slot ref q).ram.octets first n := by
  rw [State.takenRun_ram, Ram.octets_write_outside (by simpa using (h 3 (.inr rfl)).symm),
    Ram.octets_write_outside (by simpa using (h 1 (.inl rfl)).symm)]

/-- A take changes host RAM where the TAKEN write and what is settled write alone. -/
theorem State.ramWithin_take {touched : Nat → Bool} (ht : s.takes slot)
    (h1 : touched (slotOffset slot + 1) = true) (h3 : touched (slotOffset slot + 3) = true)
    (h : ∀ x, ¬(s.dev.areaBase ≤ x ∧ touched (x - s.dev.areaBase) = true) →
      Device.Spares s.dev ((s.dev.handled slot ref q).takeExit s.dev) x 1) :
    (s.withRequest slot ref q).ramWithin (s.takeRequest .sound slot ref q) touched := by
  intro x
  rw [State.withRequest_dev, or_iff_not_imp_left]
  intro outside
  have taken : (s.takenRun slot ref q).state.ram.octets x 1 = (s.withRequest slot ref q).ram.octets x 1 := by
    refine State.takenRun_octets fun k hk => ?_
    by_contra inside
    have : x = s.dev.areaBase + (slotOffset slot + k) := by omega
    refine outside ⟨by omega, ?_⟩
    rw [this, Nat.add_sub_cancel_left]
    rcases hk with rfl | rfl
    · exact h1
    · exact h3
  have stands := State.octets_finish s.takenRun_is (State.takeRequest_sound ht) (h x outside) taken
  rw [Ram.octets_one, Ram.octets_one] at stands
  exact List.singleton_inj.1 stands

/-! ## Requests answered at once -/

theorem Device.mirrorsCounted_none {d before : Device} {out : List Publication} (cat : ∀ i, catDirty before d out i = false)
    (ros : ∀ a, rosDirty before d out a = false)
    (coord : mirrorDue out .coordRewrite (coordBody before.act) (coordBody d.act) = false) : d.mirrorsCounted before out = d := by
  have indices : allIndices.filter (catDirty before d out) = [] := List.filter_eq_nil_iff.2 fun i _ => by simp [cat i]
  have addresses : allAddrs.filter (rosDirty before d out) = [] := List.filter_eq_nil_iff.2 fun a _ => by simp [ros a]
  unfold Device.mirrorsCounted
  rw [indices, addresses, if_neg (by simp [coord])]; rfl

/-- Where the mirrors show what they showed before and no rewriting is handed over, publication carries out what is handed over and
nothing else. -/
structure Device.Clean (before d : Device) : Prop where
  cat : d.cat = before.cat
  ros : d.ros = before.ros
  act : d.act = before.act
  htq : d.htq = before.htq
  out : ∀ p ∈ d.outbox, p.isRewrite = false

namespace Device.Clean

variable (h : Device.Clean before d)
include h

theorem catDirty (i : CatIndex) : catDirty before d d.outbox i = false :=
  catDirty_eq_false (by rw [Device.entry, h.cat]; rfl) fun k => absurd (h.out _ k) (by simp [Publication.isRewrite])
theorem rosDirty (a : Addr) : rosDirty before d d.outbox a = false :=
  rosDirty_eq_false (by rw [Device.record, h.ros]; rfl) fun k => absurd (h.out _ k) (by simp [Publication.isRewrite])
theorem coordDue : mirrorDue d.outbox .coordRewrite (coordBody before.act) (coordBody d.act) = false := by
  have : .coordRewrite ∉ d.outbox := fun k => absurd (h.out _ k) (by simp [Publication.isRewrite])
  simp [mirrorDue, h.act, this]
theorem summaryDue : mirrorDue d.outbox .summaryRewrite (hotSummary before.htq) (hotSummary d.htq) = false := by
  have : .summaryRewrite ∉ d.outbox := fun k => absurd (h.out _ k) (by simp [Publication.isRewrite])
  simp [mirrorDue, h.htq, this]

theorem published (opened : d.areaOpen = true) : d.published before = d.outbox.foldl Device.carriedOut { d with outbox := [] } := by
  rw [Device.published_open opened, Device.mirrorsCounted_none (d := { d with outbox := [] }) h.catDirty h.rosDirty h.coordDue]

theorem spares {first n : Nat} (hp : ∀ p ∈ d.outbox, sparesOctets d.areaBase first n p) : Device.Spares before d first n where
  cat := fun i k => absurd ((h.catDirty i).symm.trans k) (by simp)
  ros := fun a k => absurd ((h.rosDirty a).symm.trans k) (by simp)
  coord := fun k => absurd (h.coordDue.symm.trans k) (by simp)
  summary := fun k => absurd (h.summaryDue.symm.trans k) (by simp)
  pubs := hp

end Device.Clean

/-- EXP's own state after one slot has been taken and returned. -/
def Port.answered (p : Port) (slot : Slot) (h : HeldSlot) : Port :=
  { p with held := (p.held.set slot (some h)).set slot none, rotation := slot + 1, deviceCount := p.deviceCount + 1
           causes := p.causes ||| Cause.slot.flag }

/-- What a return alone, handed over by a part that has taken its slot, is published as. -/
theorem Device.concluded_answered {h : HeldSlot} {ret : Return} (opened : d.areaOpen = true) (exitEvent : d.exitEvent = false)
    (outbox : d.outbox = []) (slot_eq : ret.slot = slot) :
    ((d.hold slot h).handOver (.slotReturn ret)).takeExit d = (d.hold slot h).handOver (.slotReturn ret) ∧
      Device.Clean d ((d.hold slot h).handOver (.slotReturn ret)) ∧
      ∃ interrupt, ((d.hold slot h).handOver (.slotReturn ret)).concluded d =
        { d with port := { d.port.answered slot h with interrupt } } := by
  have clean : Device.Clean d ((d.hold slot h).handOver (.slotReturn ret)) := by
    refine ⟨rfl, rfl, rfl, rfl, fun p hp => ?_⟩
    have : p ∈ d.outbox ++ [.slotReturn ret] := hp
    rw [outbox] at this
    rw [List.mem_singleton.1 this]; rfl
  have quiet := Device.takeExit_none (d := (d.hold slot h).handOver (.slotReturn ret)) (before := d) exitEvent
    (newActWork_of_same rfl rfl rfl)
  refine ⟨quiet, clean, ?_⟩
  have out : ((d.hold slot h).handOver (.slotReturn ret)).outbox = [.slotReturn ret] := by
    show d.outbox ++ _ = _; rw [outbox]; rfl
  rw [Device.concluded, quiet, clean.published opened, out]
  have emptied : { (d.hold slot h).handOver (.slotReturn ret) with outbox := [] } = d.hold slot h := by
    show { d.hold slot h with outbox := [] } = _
    rw [← outbox]; rfl
  rw [emptied]
  subst slot_eq
  exact ⟨_, rfl⟩

/-- A request answered at once with a return does nothing else. -/
theorem State.answeredOnly_of {status : SlotStatus} {outcome : SlotOutcome} {n : Nat} (hs : s.safe) (ht : s.takes slot)
    (hq : s.dev.handled slot ref q = (s.dev.hold slot { kind := q.kind, ref }).giveBack slot status outcome n) :
    s.answeredOnly (s.takeRequest .sound slot ref q) slot status outcome n q ref := by
  obtain ⟨-, -, ⟨outbox, exitEvent⟩, -, -, -, -⟩ := hs
  rw [Device.giveBack_held (h := { kind := q.kind, ref }) (by rw [Device.held_hold, if_pos rfl])] at hq
  obtain ⟨quiet, clean, interrupt, concluded⟩ := Device.concluded_answered (slot := slot) (h := { kind := q.kind, ref })
    (ret := returnFor slot status outcome n { kind := q.kind, ref }) ht.areaOpen exitEvent outbox rfl
  have dev := State.takeRequest_dev (ref := ref) (q := q) ht
  rw [hq, concluded] at dev
  rw [← hq] at quiet clean
  have out : (s.dev.handled slot ref q).outbox = [.slotReturn (returnFor slot status outcome n { kind := q.kind, ref })] := by
    rw [hq]; show s.dev.outbox ++ _ = _; rw [outbox]; rfl
  have opened : (s.dev.handled slot ref q).areaOpen = true := by rw [hq]; exact ht.areaOpen
  have area : (s.dev.handled slot ref q).areaBase = s.dev.areaBase := by rw [hq]; rfl
  refine ⟨?_, ⟨State.takeRequest_pending ht, ?_, ?_, ?_, ?_⟩, ?_, ?_, ?_⟩
  · refine State.returned_finish (ret := { kind := q.kind, ref }) s.takenRun_is (State.takeRequest_sound ht) opened ?_ ?_
    · rw [quiet, out]; exact List.mem_singleton.2 rfl
    · rw [quiet, out]
      exact fun x hx _ => Publication.slotReturn.inj (List.mem_singleton.1 hx)
  · rw [dev]; rfl
  · rw [dev]; rfl
  · rw [dev]; rfl
  · rw [dev]; rfl
  · rw [dev]; exact ⟨rfl, rfl, rfl, rfl, rfl, rfl, rfl, rfl, rfl, rfl⟩
  · intro other ho
    rw [dev]
    exact (getElem_set_fin _ _ _ _).trans ((if_neg fun k => ho k.symm).trans
      ((getElem_set_fin _ _ _ _).trans (if_neg fun k => ho k.symm)))
  · refine State.ramWithin_take ht (by simp [returnOctets, inRun]) (by simp [returnOctets, inRun]) fun x hx => ?_
    rw [quiet]
    refine clean.spares fun p hp => ?_
    rw [out] at hp
    rw [area, List.mem_singleton.1 hp]
    simp only [returnOctets, inRun, Bool.or_eq_true, Bool.and_eq_true, decide_eq_true_eq] at hx
    refine ⟨?_, by omega⟩
    show s.dev.areaBase + slotOffset slot + 12 ≤ x ∨ x + 1 ≤ s.dev.areaBase + slotOffset slot
    omega

/-! ## EXP's own state after a command -/

/-- EXP's registers and fields, without the causes, the interrupt, the held slots and the counts, which publication changes. -/
def Port.registers (p : Port) : Port :=
  { p with causes := 0, interrupt := false, deviceCount := 0, held := .replicate 32 none, catCounts := .replicate 48 0
           rosCounts := .replicate 12 0, coordCount := 0 }

theorem Device.portKept_of_registers {d e : Device} {x : Slot} {l : List Return}
    (h : e.port.registers = { d.port.registers with rotation := x, returnsOwed := l }) : d.portKept e := by
  have kept := congrArg (fun p : Port =>
    { p with
      causes := d.port.causes, interrupt := d.port.interrupt, deviceCount := d.port.deviceCount, held := d.port.held
      rotation := d.port.rotation, returnsOwed := d.port.returnsOwed, catCounts := d.port.catCounts
      rosCounts := d.port.rosCounts, coordCount := d.port.coordCount }) h
  exact kept

/-- Concluding a command while the area is accessed steps EXP's counts, raises causes, judges the interrupt and releases slots. -/
theorem Device.concluded_registers (opened : d.areaOpen = true) : (d.concluded before).port.registers = d.port.registers := by
  have stir := Device.stir_takeExit (.refl d) before
  have openedStill : (d.takeExit before).areaOpen = true := by rw [Device.areaOpen, stir.device]; exact opened
  have taken := congrArg Port.registers stir.port
  have published := congrArg Port.registers (Device.published_port (before := before) openedStill)
  exact Eq.trans published taken

theorem Device.areaBase_of_registers {d e : Device} (h : e.port.registers = d.port.registers) : e.areaBase = d.areaBase := by
  have xbase := congrArg Port.xbase h
  exact congrArg (fun x : BitVec 51 => x.toNat * Config.areaSize) xbase

/-- The blocks but ROS are at the end of a command what exit events have made of them. -/
theorem Device.concluded_parts (opened : d.areaOpen = true) :
    d.concluded before =
      { d.takeExit before with port := (d.concluded before).port, ros := (d.concluded before).ros, outbox := [] } := by
  have openedStill : (d.takeExit before).areaOpen = true := by
    rw [Device.areaOpen, (Device.stir_takeExit (.refl d) before).device]; exact opened
  have := Device.published_parts (before := before) openedStill
  unfold Device.concluded
  conv_lhs => rw [this]
  rfl

/-- The records are at the end of a command what exit events have made of them, but for the reply times that the mirrors show. -/
theorem Device.concluded_record (opened : d.areaOpen = true) (a : Addr) :
    { (d.concluded before).record a with replyTime := ((d.takeExit before).record a).replyTime } = (d.takeExit before).record a :=
  Device.published_record (by rw [Device.areaOpen, (Device.stir_takeExit (.refl d) before).device]; exact opened) a

/-- A request leaves EXP's own state to its taking and to publication. -/
theorem Device.handled_port (d : Device) (slot : Slot) (ref : Half) (q : Request) :
    { (d.handled slot ref q).port with causes := d.port.causes } = (d.hold slot { kind := q.kind, ref }).port := by
  obtain ⟨fr, moves, -⟩ := (d.hold slot { kind := q.kind, ref }).moves_requested slot q
  exact moves.framed.port.resolve_left id

theorem Device.handled_registers (d : Device) (slot : Slot) (ref : Half) (q : Request) :
    (d.handled slot ref q).port.registers = { d.port.registers with rotation := slot + 1 } := by
  have registers := congrArg Port.registers (d.handled_port slot ref q)
  exact registers

theorem Device.areaOpen_of_registers {d e : Device} (h : e.port.registers.device = d.port.registers.device) : e.areaOpen = d.areaOpen :=
  congrArg (fun x : DeviceState => x == .running || x == .stopping) h

theorem State.takes.handled_open (ht : s.takes slot) : (s.dev.handled slot ref q).areaOpen = true := by
  have device := congrArg Port.device (s.dev.handled_registers slot ref q)
  exact (Device.areaOpen_of_registers device).trans ht.areaOpen

theorem State.registers_take (ht : s.takes slot) :
    (s.takeRequest .sound slot ref q).dev.port.registers = { s.dev.port.registers with rotation := slot + 1 } := by
  rw [State.takeRequest_dev ht, Device.concluded_registers ht.handled_open, Device.handled_registers]

/-- EXP after a take: the rotation pointer past the slot, the returns owed as before, and the registers and fields that neither
publication nor a take touches (R183). -/
theorem State.port_take (ht : s.takes slot) :
    s.dev.portKept (s.takeRequest .sound slot ref q).dev ∧ (s.takeRequest .sound slot ref q).dev.port.rotation = slot + 1 ∧
      (s.takeRequest .sound slot ref q).dev.port.returnsOwed = s.dev.port.returnsOwed := by
  have registers := State.registers_take (ref := ref) (q := q) ht
  have rotation := congrArg Port.rotation registers
  have owed := congrArg Port.returnsOwed registers
  exact ⟨Device.portKept_of_registers registers, rotation, owed⟩

theorem State.areaBase_take (ht : s.takes slot) : (s.takeRequest .sound slot ref q).dev.areaBase = s.dev.areaBase := by
  have xbase := congrArg Port.xbase (State.registers_take (ref := ref) (q := q) ht)
  exact congrArg (fun x : BitVec 51 => x.toNat * Config.areaSize) xbase

end Sys2Proof.Machine
end

