-- ==== Sys2Proof/Proofs/Post.lean ====
section
/-! POST (R4, R5, R184, R185), and slots that stand taken. -/

namespace Sys2Proof.Machine

variable {s : State} {slot : Slot} {ref : Half} {q : Request} {d before : Device}

/-! ## Slots that stand taken -/

theorem State.withRequest_owner (s : State) (slot : Slot) (ref : Half) (q : Request) :
    (s.withRequest slot ref q).ram.octet (s.dev.areaBase + slotOffset slot) = 1 := by
  unfold State.withRequest
  split
  · rename_i shown
    simp only [State.showsRequest, State.slotReads, ownerIsDevice, Bool.and_eq_true, beq_iff_eq] at shown
    exact shown.1.1.1
  · have fits := Config.area_fits s
    have high := slotOffset_lt slot
    have written := Ram.octets_write_self s.ram (s.slotBase slot) (q.layout ref)
      (by rw [Request.layout_length, State.slotBase]; omega)
    rw [Request.layout_length, show (64 : Nat) = 1 + 63 from rfl, Ram.octets_add, Ram.octets_one] at written
    have first := congrArg List.head? written
    have owner : (q.layout ref).head? = some 1 := rfl
    rw [owner, List.singleton_append, List.head?_cons] at first
    exact Option.some.inj first

/-- The octets of a slot just taken: owned by DEVICE, TAKEN, with outcome code 0 (R184). -/
theorem State.takenRun_slot :
    (s.takenRun slot ref q).state.ram.octet (s.dev.areaBase + slotOffset slot) = 1 ∧
      (s.takenRun slot ref q).state.ram.octet (s.dev.areaBase + slotOffset slot + 1) = 1 ∧
      (s.takenRun slot ref q).state.ram.octet (s.dev.areaBase + slotOffset slot + 3) = 0 := by
  have fits := Config.area_fits s
  have high := slotOffset_lt slot
  have ram := State.takenRun_ram (s := s) (slot := slot) (ref := ref) (q := q)
  have code (m : Ram) (x : Nat) (o : Octet) (hx : x + 1 ≤ Config.hostSpace) : (m.write x [o]).octet x = o := by
    have := Ram.octets_write_self m x [o] hx
    rw [List.length_singleton, Ram.octets_one] at this
    exact List.singleton_inj.1 this
  refine ⟨?_, ?_, ?_⟩
  · rw [ram, Ram.octet_write_outside (.inl (by omega)), Ram.octet_write_outside (.inl (by omega))]
    exact s.withRequest_owner slot ref q
  · rw [ram, Ram.octet_write_outside (.inl (by omega)), code _ _ _ (by omega)]; rfl
  · rw [ram, code _ _ _ (by omega)]

/-- Settling spares the first octets of a slot that is not returned. -/
theorem Device.spares_slot {n : Nat} (hn : n ≤ 64) (kept : ∀ x, .slotReturn x ∈ d.outbox → x.slot ≠ slot) :
    Device.Spares before d (d.areaBase + slotOffset slot) n := by
  have high := slotOffset_lt slot
  refine { cat := fun i _ => .inr ?_, ros := fun a _ => .inr ?_, coord := fun _ => .inr ?_, summary := fun _ => .inl ?_, pubs := ?_ }
  · simp only [catOffset]; omega
  · simp only [rosOffset]; omega
  · simp only [coordOffset]; omega
  · simp only [slotOffset]; omega
  · exact fun p hp => sparesOctets_sub (sparesOctets_slot fun x hx => kept x (hx ▸ hp)) hn

/-- A slot that is not returned is held as it was. -/
theorem Device.held_concluded (opened : d.areaOpen = true) (kept : ∀ x, .slotReturn x ∈ (d.takeExit before).outbox → x.slot ≠ slot) :
    (d.concluded before).port.held[slot] = d.port.held[slot] := by
  have stir := Device.stir_takeExit (.refl d) before
  have openedStill : (d.takeExit before).areaOpen = true := by rw [Device.areaOpen, stir.device]; exact opened
  show ((d.takeExit before).published before).port.held[slot] = _
  rw [Device.published_open openedStill, Device.held_carriedAll kept]
  have counted := (Device.counted_mirrors ({ d.takeExit before with outbox := [] } : Device) before (d.takeExit before).outbox).port
  have held := congrArg Port.held counted
  have taken := congrArg Port.held stir.port
  exact congrArg (fun v : Vector (Option HeldSlot) 32 => v[slot]) (held.trans taken)

theorem Ram.octet_of_octets {m k : Ram} {a n j : Nat} (h : m.octets a n = k.octets a n) (hj : j < n) :
    m.octet (a + j) = k.octet (a + j) := by
  obtain ⟨rest, rfl⟩ := Nat.exists_eq_add_of_le (show j + 1 ≤ n from hj)
  rw [Ram.octets_add, Ram.octets_add, Ram.octets_add, Ram.octets_add, Ram.octets_one, Ram.octets_one] at h
  have first := List.append_inj_left h (by simp)
  exact List.singleton_inj.1 (List.append_inj_right first (by simp))

/-- A slot that is not returned stands taken. -/
theorem State.taken_finish (ht : s.takes slot)
    (kept : ∀ x, .slotReturn x ∈ ((s.dev.handled slot ref q).takeExit s.dev).outbox → x.slot ≠ slot) :
    (s.takeRequest .sound slot ref q).taken slot q.kind ref := by
  have area := State.areaBase_take (ref := ref) (q := q) ht
  have opened := ht.handled_open (ref := ref) (q := q)
  have spared {n : Nat} (hn : n ≤ 64) :
      Device.Spares s.dev ((s.dev.handled slot ref q).takeExit s.dev) (s.dev.areaBase + slotOffset slot) n := by
    have base : ((s.dev.handled slot ref q).takeExit s.dev).areaBase = s.dev.areaBase := by
      rw [Device.takeExit_areaBase]
      have xbase := congrArg Port.xbase (s.dev.handled_registers slot ref q)
      exact congrArg (fun x : BitVec 51 => x.toNat * Config.areaSize) xbase
    rw [← base]; exact Device.spares_slot hn kept
  have stands (k : Nat) (hk : k < 64) : (s.takeRequest .sound slot ref q).ram.octet (s.dev.areaBase + slotOffset slot + k) =
      (s.takenRun slot ref q).state.ram.octet (s.dev.areaBase + slotOffset slot + k) := by
    exact Ram.octet_of_octets (State.octets_finish s.takenRun_is (State.takeRequest_sound ht) (spared (n := 64) (le_refl _)) rfl) hk
  obtain ⟨owner, status, outcome⟩ := State.takenRun_slot (s := s) (slot := slot) (ref := ref) (q := q)
  refine ⟨?_, ?_, ?_, ?_⟩
  · rw [State.takeRequest_dev ht, Device.held_concluded opened kept]
    have held := congrArg Port.held (s.dev.handled_port slot ref q)
    have here : (s.dev.handled slot ref q).port.held[slot] = (s.dev.hold slot { kind := q.kind, ref }).port.held[slot] :=
      congrArg (fun v : Vector (Option HeldSlot) 32 => v[slot]) held
    rw [here, Device.held_hold, if_pos rfl]
  · have first := stands 0 (by omega)
    rw [Nat.add_zero] at first
    rw [area]; exact first.trans owner
  · rw [area]; exact (stands 1 (by omega)).trans status
  · rw [area]; exact (stands 3 (by omega)).trans outcome

/-! ## Fields in range (R4) -/

theorem Stream.ofCode?_eq_some {n : Nat} {s : Stream} : Stream.ofCode? n = some s ↔ s.code.val = n := by
  constructor
  · intro h
    unfold Stream.ofCode? at h
    split at h <;> cases h <;> rfl
  · rintro rfl
    cases s <;> rfl

theorem Stream.ofCode?_eq_none {n : Nat} : Stream.ofCode? n = none ↔ 4 < n := by
  constructor
  · intro h
    by_contra k
    have : n < 5 := by omega
    interval_cases n <;> cases h
  · intro h
    cases k : Stream.ofCode? n with
    | none => rfl
    | some s =>
      have := Stream.ofCode?_eq_some.1 k
      have := s.code.isLt
      omega

/-- The form that a POST's fields give, its base edition in range (R4). -/
theorem postInRange?_eq_some {f : PostFields} {s : Stream} {form : Form} :
    postInRange? f = some (s, form) ↔ f.inRange ∧ s.code.val = f.stream.toNat ∧ form.code = f.form.toNat := by
  have streams : f.stream.toNat ≤ 4 ↔ ∃ s, Stream.ofCode? f.stream.toNat = some s := by
    rw [← Option.ne_none_iff_exists', Ne, Stream.ofCode?_eq_none]; omega
  unfold postInRange? PostFields.inRange
  cases hs : Stream.ofCode? f.stream.toNat with
  | none =>
    have : ¬f.stream.toNat ≤ 4 := by rw [streams, hs]; rintro ⟨s, k⟩; cases k
    simp [this]
  | some s' =>
    have code := Stream.ofCode?_eq_some.1 hs
    have same : s.code.val = f.stream.toNat ↔ s' = s := by
      rw [← Stream.ofCode?_eq_some, hs, Option.some.injEq]
    have small : f.stream.toNat ≤ 4 := streams.2 ⟨s', hs⟩
    rw [same]
    by_cases whole : f.form.toNat = 0
    · by_cases base : f.base.toNat = 0
      · cases form <;> simp [whole, base, small, Form.code]
      · simp [whole, base]
    · by_cases delta : f.form.toNat = 1
      · by_cases base : 1 ≤ f.base.toNat ∧ f.base.toNat < f.edition.toNat
        · cases form <;> simp [delta, base, small, Form.code]
        · simp [delta, base]
      · simp [whole, delta]

theorem postInRange?_codes {f : PostFields} (h : f.inRange) :
    ∃ s form, postInRange? f = some (s, form) ∧ s.code.val = f.stream.toNat ∧ form.code = f.form.toNat := by
  have range := h
  obtain ⟨stream, form, -⟩ := h
  have known : ∃ s, Stream.ofCode? f.stream.toNat = some s := by
    rw [← Option.ne_none_iff_exists', Ne, Stream.ofCode?_eq_none]; omega
  obtain ⟨s, hs⟩ := known
  obtain ⟨x, hx⟩ : ∃ x : Form, x.code = f.form.toNat := by
    rcases form with ⟨whole, -⟩ | ⟨delta, -⟩
    · exact ⟨.whole, whole.symm⟩
    · exact ⟨.delta, delta.symm⟩
  have code := Stream.ofCode?_eq_some.1 hs
  exact ⟨s, x, postInRange?_eq_some.2 ⟨range, code, hx⟩, code, hx⟩

theorem postInRange?_eq_none {f : PostFields} : postInRange? f = none ↔ ¬f.inRange := by
  constructor
  · intro h k
    obtain ⟨s, form, some, -⟩ := postInRange?_codes k
    rw [h] at some; cases some
  · intro h
    cases k : postInRange? f with
    | none => rfl
    | some x => exact absurd (postInRange?_eq_some.1 k).1 h

theorem Form.code_inj {x y : Form} (h : x.code = y.code) : x = y := by
  cases x <;> cases y
  case whole.whole | delta.delta => rfl
  all_goals cases h

/-! ## Identities in use (R1, R5) -/

/-- An entry in use holds the identity of the entry that a POST would bring in. -/
theorem sameIdentity_posted {f : PostFields} {s : Stream} {form : Form} {e : Entry} {g : Nat}
    (hs : s.code.val = f.stream.toNat) (hf : form.code = f.form.toNat) :
    (e.state != .free && sameIdentity e (postedEntry f s form g slot)) = true ↔ e.hasIdentity f := by
  have stream : e.stream = s ↔ e.stream.code.val = f.stream.toNat :=
    ⟨fun k => k ▸ hs, fun k => Stream.code_inj (Fin.ext (k.trans hs.symm))⟩
  have form : e.form = form ↔ e.form.code = f.form.toNat := ⟨fun k => k ▸ hf, fun k => Form.code_inj (k.trans hf.symm)⟩
  simp only [Entry.hasIdentity, sameIdentity, postedEntry, Bool.and_eq_true, bne_iff_ne, beq_iff_eq, stream, form, and_assoc]

/-- The entry that holds a POST's identity is the one CAT finds, identities being apart (R1, R5). -/
theorem Device.duplicateOf_eq_some {f : PostFields} {s : Stream} {form : Form} {i : CatIndex} {g : Nat} {t : State}
    (hs : s.code.val = f.stream.toNat) (hf : form.code = f.form.toNat) (identities : t.identitiesOk) (cat : d.cat = t.dev.cat)
    (h : (t.dev.entry i).hasIdentity f) : d.duplicateOf (postedEntry f s form g slot) = some i := by
  have entry (j) : d.entry j = t.dev.entry j := by simp only [Device.entry, cat]
  have holds {j : CatIndex} := sameIdentity_posted (slot := slot) (e := d.entry j) (g := g) hs hf
  cases k : d.duplicateOf (postedEntry f s form g slot) with
  | none =>
    have := List.find?_eq_none.1 k i (List.mem_finRange i)
    exact absurd (holds.2 (by rw [entry]; exact h)) (by simpa using this)
  | some j =>
    have found := holds.1 (List.find?_some (p := fun i => (d.entry i).state != .free && sameIdentity (d.entry i) _) k)
    rw [entry] at found
    by_contra apart
    have apart : j ≠ i := fun same => apart (by rw [same])
    have same : sameIdentity (t.dev.entry j) (t.dev.entry i) = true := by
      obtain ⟨-, js, jf, jb, je⟩ := found
      obtain ⟨-, is_, if_, ib, ie⟩ := h
      simp only [sameIdentity, Bool.and_eq_true, beq_iff_eq]
      exact ⟨⟨⟨Stream.code_inj (Fin.ext (js.trans is_.symm)), Form.code_inj (jf.trans if_.symm)⟩, jb.trans ib.symm⟩, je.trans ie.symm⟩
    exact absurd (identities j i apart found.1 h.1) (by simp [same])

theorem Device.duplicateOf_eq_none {f : PostFields} {s : Stream} {form : Form} {g : Nat}
    (hs : s.code.val = f.stream.toNat) (hf : form.code = f.form.toNat)
    (h : ∀ i, ¬(d.entry i).hasIdentity f) : d.duplicateOf (postedEntry f s form g slot) = none :=
  List.find?_eq_none.2 fun i _ k => h i ((sameIdentity_posted (slot := slot) hs hf).1 k)

theorem Device.lowestFree_eq_some {i : CatIndex} (free : (d.entry i).state = .free) (lowest : ∀ j < i, (d.entry j).state ≠ .free) :
    d.lowestFree = some i := by
  unfold Device.lowestFree allIndices
  rw [List.find?_eq_some_iff_getElem]
  refine ⟨by simpa using free, i.val, by simp, by simp, fun j hj => ?_⟩
  have := lowest ⟨j, by omega⟩ hj
  simpa using this

theorem Device.lowestFree_eq_none (h : ∀ i, (d.entry i).state ≠ .free) : d.lowestFree = none :=
  List.find?_eq_none.2 fun i _ => by simpa using h i

/-! ## CAT's decision, branch by branch (R4, R5) -/

theorem Device.postRequest_badField {f : PostFields} (h : ¬f.inRange) : d.postRequest slot f = d.refuse slot .badField 0 := by
  rw [Device.postRequest, postInRange?_eq_none.2 h]

theorem Device.postRequest_duplicate {f : PostFields} {i : CatIndex} {t : State} (range : f.inRange) (identities : t.identitiesOk)
    (cat : d.cat = t.dev.cat) (holds : (t.dev.entry i).hasIdentity f) :
    d.postRequest slot f = d.refuse slot .duplicate (i.val + 256 * (t.dev.entry i).generation) := by
  obtain ⟨stream, form, codes, streamCode, formCode⟩ := postInRange?_codes range
  have entry : d.entry i = t.dev.entry i := by simp only [Device.entry, cat]
  rw [Device.postRequest, codes]
  dsimp only
  rw [Device.duplicateOf_eq_some streamCode formCode identities cat holds, ← entry]; rfl

theorem Device.postRequest_full {f : PostFields} (range : f.inRange) (new : ∀ i, ¬(d.entry i).hasIdentity f)
    (full : ∀ i, (d.entry i).state ≠ .free) : d.postRequest slot f = d.refuse slot .catalogueFull 0 := by
  obtain ⟨stream, form, codes, streamCode, formCode⟩ := postInRange?_codes range
  rw [Device.postRequest, codes]
  dsimp only
  rw [Device.duplicateOf_eq_none streamCode formCode new]
  dsimp only
  rw [Device.lowestFree_eq_none full]

theorem Device.postRequest_taken {f : PostFields} {stream : Stream} {form : Form} {i : CatIndex}
    (range : postInRange? f = some (stream, form)) (new : ∀ i, ¬(d.entry i).hasIdentity f)
    (free : (d.entry i).state = .free) (lowest : ∀ j < i, (d.entry j).state ≠ .free) :
    d.postRequest slot f =
      { d.setEntry i (postedEntry f stream form (d.entry i).generation slot) with vfy.queue := d.vfy.queue ++ [i] } := by
  obtain ⟨-, streamCode, formCode⟩ := postInRange?_eq_some.1 range
  rw [Device.postRequest, range]
  dsimp only
  rw [Device.duplicateOf_eq_none streamCode formCode new]
  dsimp only
  rw [Device.lowestFree_eq_some free lowest]; rfl

/-! ## The entry that a POST brings in -/

theorem Device.mirrorsCounted_cat {out : List Publication} (ros : ∀ a, rosDirty before d out a = false)
    (coord : mirrorDue out .coordRewrite (coordBody before.act) (coordBody d.act) = false) :
    ∃ counts, d.mirrorsCounted before out = { d with port.catCounts := counts } := by
  have addresses : allAddrs.filter (rosDirty before d out) = [] := List.filter_eq_nil_iff.2 fun a _ => by simp [ros a]
  have counted : ∀ (l : List CatIndex) (e : Device), ∃ counts, l.foldl Device.countCat e = { e with port.catCounts := counts } := by
    intro l
    induction l with
    | nil => exact fun e => ⟨e.port.catCounts, rfl⟩
    | cons i l ih => exact fun e => ih (e.countCat i)
  unfold Device.mirrorsCounted
  rw [addresses, if_neg (by simp [coord])]
  exact counted _ d

/-- A POST that CAT takes, concluded: the entry stands in VERIFYING at the tail of the verify queue. -/
theorem Device.concluded_posted {i : CatIndex} {x : Entry} {h : HeldSlot} (opened : d.areaOpen = true) (exitEvent : d.exitEvent = false)
    (outbox : d.outbox = []) (free : (d.entry i).state = .free) (verifying : x.state = .verifying) :
    let e : Device := { (d.hold slot h).setEntry i x with vfy.queue := d.vfy.queue ++ [i] }
    e.takeExit d = e ∧ e.outbox = [.catRewrite i] ∧
      ∃ interrupt counts, e.concluded d =
        { d with port := { (d.hold slot h).port with interrupt, catCounts := counts }, cat := e.cat, vfy := e.vfy } := by
  intro e
  have out : e.outbox = [.catRewrite i] := by
    show d.outbox ++ rewriteOf _ _ _ = _
    have differ : ((d.hold slot h).entry i).shown ≠ x.shown := fun k => by
      have := congrArg Entry.state k
      exact absurd (free.symm.trans (this.trans verifying)) (by simp)
    rw [outbox, rewriteOf, if_pos (by simpa using differ)]; rfl
  have quiet : e.takeExit d = e := Device.takeExit_none exitEvent (newActWork_of_same rfl rfl rfl)
  refine ⟨quiet, out, ?_⟩
  have rewrites : ∀ p ∈ [Publication.catRewrite i], p.isRewrite = true := by simp [Publication.isRewrite]
  obtain ⟨counts, counted⟩ := Device.mirrorsCounted_cat (d := { e with outbox := [] }) (before := d) (out := [.catRewrite i])
    (fun a => rosDirty_eq_false rfl (by simp)) (by simp [mirrorDue, e, Device.hold])
  rw [Device.concluded, quiet, Device.published_open (d := e) opened, out, counted, Device.carriedAll_rewrites rewrites]
  refine ⟨({ e with outbox := [], port.catCounts := counts } : Device).judgeInterrupt.port.interrupt, counts, ?_⟩
  show Device.judgeInterrupt { e with outbox := [], port.catCounts := counts } = _
  rw [← outbox]; rfl

theorem Device.handled_post_refused {f : PostFields} {outcome : SlotOutcome} {n : Nat}
    (h : (d.hold slot { kind := 1, ref }).postRequest slot f = (d.hold slot { kind := 1, ref }).refuse slot outcome n) :
    d.handled slot ref (.post f) = (d.hold slot { kind := (Request.post f).kind, ref }).giveBack slot .refused outcome n := h

/-- A POST that CAT takes (R4, R5, R184). -/
theorem State.post_taken {f : PostFields} {i : CatIndex} {stream : Stream} {form : Form} (hs : s.safe) (ht : s.takes slot)
    (range : postInRange? f = some (stream, form)) (new : ∀ j, ¬(s.dev.entry j).hasIdentity f)
    (free : (s.dev.entry i).state = .free) (lowest : ∀ j < i, (s.dev.entry j).state ≠ .free) :
    let t := s.takeRequest .sound slot ref (.post f)
    t.taken slot 1 ref ∧ s.tookSlot t slot 0 ∧ t.dev.entry i = postedEntry f stream form (s.dev.entry i).generation slot ∧
      (∀ j, j ≠ i → t.dev.entry j = s.dev.entry j) ∧ t.dev.vfy = { s.dev.vfy with queue := s.dev.vfy.queue ++ [i] } ∧
      t.dev = { s.dev with port := t.dev.port, cat := t.dev.cat, vfy := t.dev.vfy } ∧
      (∀ other, other ≠ slot → t.dev.port.held[other] = s.dev.port.held[other]) ∧
      (s.withRequest slot ref (.post f)).ramWithin t fun o => inRun (slotOffset slot) 4 o || inRun (catOffset i) 32 o := by
  intro t
  obtain ⟨-, -, ⟨outbox, exitEvent⟩, -, -, -, -⟩ := hs
  let x := postedEntry f stream form (s.dev.entry i).generation slot
  let e : Device := { (s.dev.hold slot { kind := 1, ref }).setEntry i x with vfy.queue := s.dev.vfy.queue ++ [i] }
  have handled : s.dev.handled slot ref (.post f) = e :=
    Device.postRequest_taken (d := s.dev.hold slot { kind := 1, ref }) range new free lowest
  obtain ⟨quiet, out, interrupt, counts, concluded⟩ := Device.concluded_posted (h := { kind := 1, ref }) (slot := slot) (x := x)
    ht.areaOpen exitEvent outbox free rfl
  have dev : t.dev = { s.dev with port := { (s.dev.hold slot { kind := 1, ref }).port with interrupt, catCounts := counts }
                                  cat := e.cat, vfy := e.vfy } := by
    rw [State.takeRequest_dev ht, handled]; exact concluded
  have entry (j) : t.dev.entry j = if i = j then x else s.dev.entry j := by
    rw [dev]; exact getElem_set_fin _ _ _ _
  obtain ⟨kept, rotation, owed⟩ := State.port_take (ref := ref) (q := .post f) ht
  have noReturn : ∀ y, .slotReturn y ∈ ((s.dev.handled slot ref (.post f)).takeExit s.dev).outbox → y.slot ≠ slot := by
    rw [handled]
    intro y hy
    rw [show e.takeExit s.dev = e from quiet, show e.outbox = _ from out] at hy
    simp at hy
  refine ⟨State.taken_finish ht noReturn, ⟨State.takeRequest_pending ht, kept, rotation, ?_, owed⟩, ?_, fun j hj => ?_, ?_, ?_, ?_, ?_⟩
  · rw [dev]; exact (BitVec.add_zero s.dev.port.deviceCount).symm
  · rw [entry, if_pos rfl]
  · rw [entry, if_neg fun k => hj k.symm]
  · rw [dev]; rfl
  · rw [dev]
  · intro other ho
    rw [dev]
    exact (Device.held_hold _ _ _ _).trans (if_neg fun k => ho k.symm)
  · refine State.ramWithin_take ht (by simp [inRun]) (by simp [inRun]) fun y hy => ?_
    rw [handled, show e.takeExit s.dev = e from quiet]
    simp only [inRun, Bool.or_eq_true, Bool.and_eq_true, decide_eq_true_eq] at hy
    have out' : e.outbox = [.catRewrite i] := out
    refine { cat := fun j hj => ?_, ros := fun a ha => ?_, coord := fun hc => ?_, summary := fun hc => ?_, pubs := ?_ }
    · have same : j = i := by
        by_contra k
        have clean : catDirty s.dev e e.outbox j = false :=
          catDirty_eq_false ((getElem_set_fin _ _ _ _).trans (if_neg fun q => k q.symm)) (by rw [out']; simpa using fun q => k q)
        exact absurd (clean.symm.trans hj) (by simp)
      subst same
      have area : e.areaBase = s.dev.areaBase := rfl
      rw [area]; omega
    · exact absurd ((rosDirty_eq_false rfl (by rw [out']; simp)).symm.trans ha) (by simp)
    · rw [out'] at hc
      exact absurd hc (by simp [mirrorDue, e, Device.hold])
    · rw [out'] at hc
      exact absurd hc (by simp [mirrorDue, e, Device.hold])
    · rw [out']
      intro p hp
      rw [List.mem_singleton.1 hp]; trivial

/-- Settles O40, by the branches of CAT's decision: each refusal is a return alone, and a POST taken changes one entry. -/
theorem postDecided : Obligations.PostDecided := by
  intro slot ref f s hs _ ht identities
  have answered {outcome : SlotOutcome} {n : Nat}
      (h : (s.dev.hold slot { kind := 1, ref }).postRequest slot f = (s.dev.hold slot { kind := 1, ref }).refuse slot outcome n) :
      Answers (.post slot ref f) s fun t => s.answeredOnly t slot .refused outcome n (.post f) ref :=
    ⟨_, rfl, State.answeredOnly_of hs ht (Device.handled_post_refused h)⟩
  refine ⟨fun outside => answered (Device.postRequest_badField outside),
    fun range i holds => answered (Device.postRequest_duplicate range identities rfl holds), fun range new =>
    ⟨fun full => answered (Device.postRequest_full range new full), fun i free lowest => ?_⟩⟩
  obtain ⟨stream, form, codes, streamCode, formCode⟩ := postInRange?_codes range
  obtain ⟨taken, took, entry, rest⟩ := State.post_taken (ref := ref) hs ht codes new free lowest
  refine ⟨_, rfl, taken, took, fun s' x hs' hx => ?_, rest⟩
  obtain rfl : s' = stream := Stream.code_inj (Fin.ext (hs'.trans streamCode.symm))
  obtain rfl : x = form := Form.code_inj (hx.trans formCode.symm)
  exact entry

end Sys2Proof.Machine
end

