-- ==== Sys2Proof/Proofs/Tidying.lean ====
section
/-! What replanning and the closing, dropping and marking of transfer records do beside the plans: entries lose records, RETIRING ones
become FREE with their WITHDRAWs returned, records are marked or gone, and stream statuses follow (R15, R16, R68, R128, R141). -/

namespace Sys2Proof.Machine

/-! ## The relation -/

/-- An entry that has lost records but, when it is RETIRING, its last; or that was RETIRING and has become FREE with the last of them
(R15). -/
def Entry.Tidied (x y : Entry) : Prop :=
  (y.inUse ≤ x.inUse ∧ (x.state = .retiring → y.inUse = 0 → x.inUse = 0) ∧ y = { x with inUse := y.inUse }) ∨
    (x.state = .retiring ∧ y = x.freedAs x.fault)

theorem Entry.Tidied.refl (x : Entry) : x.Tidied x := .inl ⟨le_refl _, fun _ => id, rfl⟩

theorem Entry.Tidied.trans {x y z : Entry} (h : x.Tidied y) (k : y.Tidied z) : x.Tidied z := by
  rcases h with ⟨less, last, same⟩ | ⟨retiring, freed⟩
  · rcases k with ⟨less', last', same'⟩ | ⟨retiring', freed'⟩
    · have state : y.state = x.state := by rw [same]
      exact .inl ⟨less'.trans less, fun r n => last r (last' (state.trans r) n), by rw [same', same]⟩
    · rw [same] at retiring' freed'
      exact .inr ⟨retiring', freed'⟩
  · rcases k with ⟨less', -, same'⟩ | ⟨retiring', -⟩
    · refine .inr ⟨retiring, ?_⟩
      rw [freed] at less' same'
      have none : z.inUse = 0 := Nat.le_zero.1 less'
      rw [same', none]; rfl
    · rw [freed] at retiring'; cases retiring'

/-- A FREE entry stays FREE. -/
theorem Entry.Tidied.free {x y : Entry} (h : x.Tidied y) (k : x.state = .free) : y.state = .free := by
  rcases h with ⟨-, -, same⟩ | ⟨retiring, -⟩
  · rw [same]; exact k
  · rw [k] at retiring; cases retiring

/-- An entry not RETIRING keeps all but its in-use count. -/
theorem Entry.Tidied.kept {x y : Entry} (h : x.Tidied y) (k : x.state ≠ .retiring) : y = { x with inUse := y.inUse } :=
  (h.resolve_right fun q => k q.1).2.2

/-- An entry just freed stays so. -/
theorem Entry.Tidied.freedAs {x y : Entry} {fault : FaultCause} (h : (x.freedAs fault).Tidied y) : y = x.freedAs fault := by
  rcases h with ⟨less, -, same⟩ | ⟨retiring, -⟩
  · rw [same, Nat.le_zero.1 less]; rfl
  · cases retiring

/-- The WITHDRAW of a RETIRING entry, with what its slot is held for. -/
def Device.Withdrawal (d : Device) (i : CatIndex) (slot : Slot) (h : HeldSlot) : Prop :=
  (d.entry i).state = .retiring ∧ (d.entry i).pendingSlot = some slot ∧ d.port.held[slot] = some h

/-- A record without its abandon mark. -/
def TransferRecord.unmarked (r : TransferRecord) : TransferRecord := { r with marked := false }

/-- A part with transfer records closed: entries have lost records, and WITHDRAWs have been returned for those freed with their last. -/
structure Device.Closes (d e : Device) : Prop where
  held : e.port.held = d.port.held
  entry : ∀ i, (d.entry i).Tidied (e.entry i)
  out : ∀ p ∈ e.outbox, p ∈ d.outbox ∨ p.isRewrite = true ∨
    ∃ i slot h, d.Withdrawal i slot h ∧ (e.entry i).state = .free ∧ p = .slotReturn (returnFor slot .done .done 0 h)
  grows : d.outbox ⊆ e.outbox
  freed : ∀ i slot h, d.Withdrawal i slot h → (e.entry i).state = .free →
    .slotReturn (returnFor slot .done .done 0 h) ∈ e.outbox

/-- A part with records closed, dropped and marked, and plans and statuses changed. -/
structure Device.Tidied (d e : Device) : Prop extends Device.Closes d e where
  records : ∀ (a : Addr), ∀ r ∈ (e.transfers a).records,
    ∃ q ∈ (d.transfers a).records, q.unmarked = r.unmarked ∧ (q.marked = true → r.marked = true)
  cells : ∀ (a : Addr) s, (e.record a).cell s = { (d.record a).cell s with status := ((e.record a).cell s).status }

namespace Device.Closes

variable {c d e : Device}

theorem refl (d : Device) : d.Closes d where
  held := rfl
  entry := fun _ => .refl _
  out := fun _ h => .inl h
  grows := fun _ h => h
  freed := fun i slot h w k => by rw [w.1] at k; cases k

theorem trans (h : c.Closes d) (k : d.Closes e) : c.Closes e where
  held := k.held.trans h.held
  entry := fun i => (h.entry i).trans (k.entry i)
  out := fun p hp => by
    rcases k.out p hp with hp | hp | ⟨i, slot, x, ⟨retiring, pending, held⟩, free, hp⟩
    · exact (h.out p hp).imp_right (·.imp_right fun ⟨i, slot, x, w, free, same⟩ => ⟨i, slot, x, w, (k.entry i).free free, same⟩)
    · exact .inr (.inl hp)
    · refine .inr (.inr ⟨i, slot, x, ?_, free, hp⟩)
      rcases h.entry i with ⟨-, -, same⟩ | ⟨-, freed⟩
      · rw [same] at retiring pending
        exact ⟨retiring, pending, h.held ▸ held⟩
      · rw [freed] at retiring; cases retiring
  grows := fun p hp => k.grows (h.grows hp)
  freed := fun i slot x w free => by
    rcases h.entry i with ⟨-, -, same⟩ | ⟨-, freed⟩
    · refine k.freed i slot x ⟨?_, ?_, h.held.symm ▸ w.2.2⟩ free
      · rw [same]; exact w.1
      · rw [same]; exact w.2.1
    · exact k.grows (h.freed i slot x w (by rw [freed]; rfl))

theorem foldl {α : Type} {f : Device → α → Device} (l : List α) (hf : ∀ d x, Device.Closes d (f d x)) (h : c.Closes d) :
    c.Closes (l.foldl f d) := by
  induction l generalizing d with
  | nil => exact h
  | cons x l ih => exact ih (h.trans (hf d x))

theorem ite {p : Prop} [Decidable p] {x y : Device} (h : p → c.Closes x) (k : ¬p → c.Closes y) : c.Closes (if p then x else y) := by
  split
  · exact h ‹_›
  · exact k ‹_›

/-- The entries and the held slots as before, what is handed over grown by rewritings. -/
theorem of_same (held : e.port.held = d.port.held) (cat : e.cat = d.cat)
    (out : ∃ l, e.outbox = d.outbox ++ l ∧ ∀ p ∈ l, p.isRewrite = true) : d.Closes e where
  held := held
  entry := fun i => by
    have : e.entry i = d.entry i := by rw [Device.entry, cat]; rfl
    rw [this]; exact .refl _
  out := fun p hp => by
    obtain ⟨l, same, rewrites⟩ := out
    rw [same] at hp
    exact (List.mem_append.1 hp).imp id fun k => .inl (rewrites p k)
  grows := by
    obtain ⟨l, same, -⟩ := out
    rw [same]; exact List.subset_append_left _ _
  freed := fun i slot h w k => by
    have : e.entry i = d.entry i := by rw [Device.entry, cat]; rfl
    rw [this, w.1] at k; cases k

end Device.Closes

namespace Device.Tidied

variable {c d e : Device}

theorem refl (d : Device) : d.Tidied d :=
  { Device.Closes.refl d with records := fun _ r hr => ⟨r, hr, rfl, id⟩, cells := fun _ _ => rfl }

theorem trans (h : c.Tidied d) (k : d.Tidied e) : c.Tidied e :=
  { h.toCloses.trans k.toCloses with
    records := fun a r hr => by
      obtain ⟨q, hq, same, mark⟩ := k.records a r hr
      obtain ⟨p, hp, same', mark'⟩ := h.records a q hq
      exact ⟨p, hp, same'.trans same, mark ∘ mark'⟩
    cells := fun a s => by rw [k.cells a s, h.cells a s] }

theorem foldl {α : Type} {f : Device → α → Device} (l : List α) (hf : ∀ d x, Device.Tidied d (f d x)) (h : c.Tidied d) :
    c.Tidied (l.foldl f d) := by
  induction l generalizing d with
  | nil => exact h
  | cons x l ih => exact ih (h.trans (hf d x))

theorem ite {p : Prop} [Decidable p] {x y : Device} (h : p → c.Tidied x) (k : ¬p → c.Tidied y) : c.Tidied (if p then x else y) := by
  split
  · exact h ‹_›
  · exact k ‹_›

/-- The entries and records as before, what is handed over grown by rewritings. -/
theorem of_same (held : e.port.held = d.port.held) (cat : e.cat = d.cat) (xfr : e.xfr = d.xfr)
    (out : ∃ l, e.outbox = d.outbox ++ l ∧ ∀ p ∈ l, p.isRewrite = true)
    (cells : ∀ (a : Addr) s, (e.record a).cell s = { (d.record a).cell s with status := ((e.record a).cell s).status }) : d.Tidied e :=
  { Device.Closes.of_same held cat out with
    records := fun a r hr => ⟨r, by rw [Device.transfers, xfr] at hr; exact hr, rfl, id⟩
    cells }

end Device.Tidied

variable {d e : Device}

theorem Device.Tidied.rejects (h : d.Tidied e) (a : Addr) (s : Stream) :
    ((e.record a).cell s).rejects = ((d.record a).cell s).rejects := by rw [h.cells a s]
theorem Device.Tidied.hold (h : d.Tidied e) (a : Addr) (s : Stream) : ((e.record a).cell s).hold = ((d.record a).cell s).hold := by
  rw [h.cells a s]

/-! ## The operations -/


/-- A record changed in its statuses, as far as its streams go. -/
theorem Device.tidied_setRecord {a : Addr} {r : ValRecord}
    (h : ∀ s, r.cell s = { (d.record a).cell s with status := (r.cell s).status }) : d.Tidied (d.setRecord a r) := by
  refine .of_same rfl rfl rfl ⟨_, rfl, fun p hp => by rw [(mem_rewriteOf.1 hp).2]; rfl⟩ fun b s => ?_
  rw [Device.record_setRecord]
  split
  · subst b; exact h s
  · rfl

theorem Device.tidied_putRecord {a : Addr} {r : ValRecord}
    (h : ∀ s, r.cell s = { (d.record a).cell s with status := (r.cell s).status }) : d.Tidied (d.putRecord a r) := by
  refine .of_same rfl rfl rfl ⟨[], (List.append_nil _).symm, by simp⟩ fun b s => ?_
  rw [Device.record_putRecord]
  split
  · subst b; exact h s
  · rfl

theorem ValRecord.cell_setStatus (r : ValRecord) (s t : Stream) (st : StreamStatus) :
    (r.setStatus s st).cell t = { r.cell t with status := ((r.setStatus s st).cell t).status } := by
  rw [ValRecord.setStatus, ValRecord.cell_setCell]
  split
  · subst t; rfl
  · rfl

theorem ValRecord.cell_planned (r : ValRecord) (reach : Nat) (l : List StreamStatus) (s : Stream) :
    (r.planned reach l).cell s = { r.cell s with status := ((r.planned reach l).cell s).status } := by
  simp [ValRecord.planned, ValRecord.cell]

theorem Device.tidied_fixStatus (d : Device) (a : Addr) (s : Stream) : d.Tidied (d.fixStatus a s) :=
  Device.tidied_setRecord fun _ => ValRecord.cell_setStatus _ _ _ _

theorem Device.tidied_rosterChanged (d : Device) (a : Addr) (r : ValRecord) : d.Tidied (d.rosterChanged a r) :=
  .of_same rfl rfl rfl ⟨_, rfl, fun p hp => by rw [(mem_rewriteOf.1 hp).2]; rfl⟩ fun _ _ => rfl

theorem Device.tidied_reportExit (d : Device) : d.Tidied d.reportExit :=
  .of_same rfl rfl rfl ⟨[], (List.append_nil _).symm, by simp⟩ fun _ _ => rfl

theorem Device.tidied_raise (d : Device) (x : Cause) : d.Tidied (d.raise x) :=
  .of_same rfl rfl rfl ⟨[], (List.append_nil _).symm, by simp⟩ fun _ _ => rfl

theorem Device.tidied_setPlan (d : Device) (a : Addr) (p : List Job) : d.Tidied (d.setPlan a p) :=
  .of_same rfl rfl rfl ⟨[], (List.append_nil _).symm, by simp⟩ fun _ _ => rfl

theorem Device.tidied_setTransfers {a : Addr} {t : Transfers}
    (h : ∀ r ∈ t.records, ∃ q ∈ (d.transfers a).records, q.unmarked = r.unmarked ∧ (q.marked = true → r.marked = true)) :
    d.Tidied (d.setTransfers a t) where
  held := rfl
  entry := fun _ => .refl _
  out := fun _ h => .inl h
  grows := fun _ h => h
  freed := fun i slot h w k => by
    have : (d.entry i).state = .free := k
    rw [w.1] at this; cases this
  records := fun b r hr => by
    rw [Device.transfers_setTransfers] at hr
    split at hr
    · subst b; exact h r hr
    · exact ⟨r, hr, rfl, id⟩
  cells := fun _ _ => rfl

theorem Device.tidied_remove (d : Device) (a : Addr) (tag : Nat) : d.Tidied (d.setTransfers a ((d.transfers a).remove tag)) :=
  Device.tidied_setTransfers fun r hr => by
    rw [Transfers.records_remove] at hr
    exact ⟨r, (List.mem_filter.1 hr).1, rfl, id⟩

/-- A RETIRING entry made FREE, with what is handed over for its WITHDRAW. -/
theorem Device.Tidied.of_freed {e : Device} {i : CatIndex} {k l : List Publication} (retiring : (d.entry i).state = .retiring)
    (entry : ∀ j, e.entry j = if i = j then (d.entry i).freedAs (d.entry i).fault else d.entry j)
    (held : e.port.held = d.port.held) (xfr : e.xfr = d.xfr) (ros : e.ros = d.ros) (outbox : e.outbox = d.outbox ++ k ++ l)
    (rewrites : ∀ p ∈ k, p.isRewrite = true)
    (out : ∀ p ∈ l, ∃ slot h, d.Withdrawal i slot h ∧ p = .slotReturn (returnFor slot .done .done 0 h))
    (returned : ∀ slot h, d.Withdrawal i slot h → .slotReturn (returnFor slot .done .done 0 h) ∈ l) : d.Tidied e := by
  refine { held := held, entry := fun j => ?_, out := fun p hp => ?_, grows := fun p hp => ?_, freed := fun j slot h w free => ?_
           records := fun a r hr => ⟨r, by rw [Device.transfers, xfr] at hr; exact hr, rfl, id⟩
           cells := fun a s => by rw [Device.record, ros]; rfl }
  · rw [entry]
    split
    · subst j; exact .inr ⟨retiring, rfl⟩
    · exact .refl _
  · rw [outbox] at hp
    rcases List.mem_append.1 hp with hp | hp
    · exact (List.mem_append.1 hp).imp id fun q => .inl (rewrites p q)
    · obtain ⟨slot, h, w, same⟩ := out p hp
      exact .inr (.inr ⟨i, slot, h, w, by rw [entry, if_pos rfl]; rfl, same⟩)
  · rw [outbox]; exact List.mem_append_left _ (List.mem_append_left _ hp)
  · rw [entry] at free
    rw [outbox]
    split at free
    · subst j; exact List.mem_append_right _ (returned slot h w)
    · rw [w.1] at free; cases free

/-- The return of a slot, if one is given and it is held. -/
def Device.returnsOf (d : Device) (slot : Option Slot) (status : SlotStatus) (outcome : SlotOutcome) (n : Nat) : List Publication :=
  (slot.bind fun s => d.port.held[s].map fun h => Publication.slotReturn (returnFor s status outcome n h)).toList

theorem Device.mem_returnsOf {slot : Option Slot} {status : SlotStatus} {outcome : SlotOutcome} {n : Nat} {p : Publication} :
    p ∈ d.returnsOf slot status outcome n ↔
      ∃ s h, slot = some s ∧ d.port.held[s] = some h ∧ p = .slotReturn (returnFor s status outcome n h) := by
  simp only [Device.returnsOf, Option.mem_toList, Option.bind_eq_some_iff, Option.map_eq_some_iff]
  exact ⟨fun ⟨s, hs, h, hh, same⟩ => ⟨s, h, hs, hh, same.symm⟩, fun ⟨s, h, hs, hh, same⟩ => ⟨s, hs, h, hh, same.symm⟩⟩

/-- A slot given back, if one is given. -/
theorem Device.giveBack?_eq (d : Device) (slot : Option Slot) (status : SlotStatus) (outcome : SlotOutcome) (n : Nat) :
    slot.elim d (fun s => d.giveBack s status outcome n) = { d with outbox := d.outbox ++ d.returnsOf slot status outcome n } := by
  have nothing : d = { d with outbox := d.outbox ++ [] } := by rw [List.append_nil]
  cases slot with
  | none => exact nothing
  | some s =>
    show d.giveBack s status outcome n = _
    have waiting (x : Option HeldSlot) (held : d.port.held[s] = x) :
        d.returnsOf (some s) status outcome n = (x.map fun h => Publication.slotReturn (returnFor s status outcome n h)).toList := by
      rw [← held]; rfl
    cases held : d.port.held[s] with
    | none => rw [Device.giveBack_free held, waiting _ held]; exact nothing
    | some h => rw [Device.giveBack_held held, waiting _ held]; rfl

theorem Device.withdrawDone_eq (d : Device) (slot : Option Slot) :
    d.withdrawDone slot = { d with outbox := d.outbox ++ d.returnsOf slot .done .done 0 } := d.giveBack?_eq slot .done .done 0

/-- A record naming an entry closed: the in-use count one less, and a RETIRING entry that no record names any more FREE, its WITHDRAW
returned (R15). -/
theorem Device.tidied_entryClosed (d : Device) (i : CatIndex) : d.Tidied (d.entryClosed i) := by
  let less : Entry := { d.entry i with inUse := (d.entry i).inUse - 1 }
  have here : (d.setEntry i less).entry i = less := Device.entry_setEntry_self _ _ _
  have entry (j) : (d.setEntry i less).entry j = if i = j then less else d.entry j := Device.entry_setEntry _ _ _ _
  have rewrites (x y : Entry) : ∀ p ∈ rewriteOf x y (.catRewrite i), p.isRewrite = true := fun p hp => by
    rw [(mem_rewriteOf.1 hp).2]; rfl
  unfold Device.entryClosed
  by_cases last : less.state = .retiring ∧ less.inUse = 0
  · have retiring : (d.entry i).state = .retiring := last.1
    have freed : d.Tidied (((d.setEntry i less).freeEntry i less.fault).withdrawDone less.pendingSlot) := by
      rw [Device.withdrawDone_eq]
      refine .of_freed (k := rewriteOf (d.entry i).shown less.shown (.catRewrite i) ++ rewriteOf ((d.setEntry i less).entry i).shown
        (Entry.blank (stepGeneration ((d.setEntry i less).entry i).generation) less.fault).shown (.catRewrite i))
        (l := d.returnsOf (d.entry i).pendingSlot .done .done 0) retiring (fun j => ?_) rfl rfl rfl (congrArg (· ++ _) (List.append_assoc _ _ _))
        (fun p hp => (List.mem_append.1 hp).elim (rewrites _ _ p) (rewrites _ _ p)) (fun p hp => ?_) fun slot h w => ?_
      · show ((d.setEntry i less).freeEntry i less.fault).entry j = _
        rw [Device.freeEntry, Device.entry_setEntry, here, entry]
        split
        · rfl
        · rfl
      · obtain ⟨s, h, pending, held, same⟩ := Device.mem_returnsOf.1 hp
        exact ⟨s, h, ⟨retiring, pending, held⟩, same⟩
      · exact Device.mem_returnsOf.2 ⟨slot, h, w.2.1, w.2.2, rfl⟩
    rw [Device.freeIfRetired_pos (by rw [here]; exact last), here]
    exact .ite (fun _ => freed.trans (Device.tidied_raise _ _)) fun _ => freed
  · rw [Device.freeIfRetired_neg (by rw [here]; exact last)]
    refine { held := rfl, entry := fun j => ?_, out := fun p hp => (List.mem_append.1 hp).imp id fun q => .inl (rewrites _ _ p q)
             grows := List.subset_append_left _ _, freed := fun j slot h w free => ?_, records := fun _ r hr => ⟨r, hr, rfl, id⟩
             cells := fun _ _ => rfl }
    · rw [entry]
      split
      · subst j
        exact .inl ⟨Nat.sub_le _ _, fun retiring none => absurd ⟨retiring, none⟩ last, rfl⟩
      · exact .refl _
    · rw [entry] at free
      split at free
      · subst j
        have : (d.entry i).state = .free := free
        rw [w.1] at this; cases this
      · rw [w.1] at free; cases free

theorem Device.tidied_closeRecord (d : Device) (a : Addr) (r : TransferRecord) : d.Tidied (d.closeRecord a r) :=
  (d.tidied_remove a r.tag).trans ((Device.tidied_entryClosed _ r.index).trans (Device.tidied_fixStatus _ a r.stream))

theorem Device.tidied_dropRecords (d : Device) (a : Addr) (pick) : d.Tidied (d.dropRecords a pick) :=
  .foldl _ (fun d r => d.tidied_closeRecord a r) (.refl d)

theorem Device.tidied_dropAll (d : Device) (a : Addr) (x : Bool) : d.Tidied (d.dropAll a x) :=
  (d.tidied_dropRecords a _).trans (Device.tidied_setTransfers fun _ hr => absurd hr (by simp [Transfers.records]))

theorem Device.tidied_dropMarkedIfAway (d : Device) (a : Addr) : d.Tidied (d.dropMarkedIfAway a) :=
  .ite (fun _ => .refl d) fun _ => d.tidied_dropRecords a _

theorem Device.tidied_markRecords (d : Device) (a : Addr) (pick) : d.Tidied (d.markRecords a pick) := by
  unfold Device.markRecords
  extract_lets t d1 d2
  have h1 : d.Tidied d1 := Device.tidied_setTransfers fun r hr => by
    rw [Transfers.records_change] at hr
    obtain ⟨q, hq, rfl⟩ := List.mem_map.1 hr
    refine ⟨q, hq, ?_, fun m => ?_⟩
    · split <;> rfl
    · split
      · rfl
      · exact m
  have h2 : d.Tidied d2 := .foldl _ (fun d r => d.tidied_fixStatus a r.stream) h1
  exact h2.trans (d2.tidied_dropMarkedIfAway a)

theorem Device.tidied_markEntry (d : Device) (i : CatIndex) : d.Tidied (d.markEntry i) :=
  .foldl _ (fun d a => d.tidied_markRecords a _) (.refl d)

theorem Device.tidied_takePlan (d : Device) (a : Addr) : d.Tidied (d.takePlan a) := by
  unfold Device.takePlan
  exact .foldl _ (fun d r => Device.tidied_putRecord fun _ => ValRecord.cell_setStatus _ _ _ _) (d.tidied_markRecords a _)

theorem Device.tidied_emptyPlan (d : Device) (a : Addr) : d.Tidied (d.emptyPlan a) :=
  (d.tidied_setPlan a []).trans (Device.tidied_setRecord fun _ => ValRecord.cell_planned _ _ _ _)

theorem Device.tidied_replan (d : Device) (a : Addr) : d.Tidied (d.replan a) := by
  by_cases k : (d.record a).presence = .present ∨ (d.record a).presence = .silent
  · have replanned : d.Tidied (d.replanned a) :=
      (d.tidied_setPlan a _).trans ((Device.tidied_putRecord fun _ => ValRecord.cell_planned _ _ _ _).trans
        ((Device.tidied_takePlan _ a).trans (Device.tidied_rosterChanged _ a _)))
    rw [Device.replan_pos k]
    exact .ite (fun _ => replanned.trans (Device.tidied_reportExit _)) fun _ => replanned
  · rw [Device.replan_neg k]; exact (d.tidied_emptyPlan a).trans (Device.tidied_takePlan _ a)

theorem Device.tidied_replanAll (d : Device) : d.Tidied d.replanAll := .foldl _ (fun d a => d.tidied_replan a) (.refl d)

theorem Device.tidied_dropEverything (d : Device) : d.Tidied d.dropEverything :=
  .foldl _ (fun d a => d.tidied_dropAll a _) (.refl d)

theorem Device.tidied_emptyPlans (d : Device) : d.Tidied d.emptyPlans := .foldl _ (fun d a => d.tidied_setPlan a []) (.refl d)

/-! ## Markings, and drops of validators that are away -/

/-- Beside the plans and statuses, records are marked, and those of validators that are not PRESENT dropped: what replanning and
reporting an entry for abandonment do (R16, R68, R141). -/
structure Device.Marks (d e : Device) : Prop extends Device.Tidied d e where
  presence : ∀ a : Addr, (e.record a).presence = (d.record a).presence
  stays : ∀ a : Addr, (d.record a).presence = .present →
    (e.transfers a).records.map TransferRecord.unmarked = (d.transfers a).records.map TransferRecord.unmarked
  abandonAll : ∀ a, (e.transfers a).abandonAll = (d.transfers a).abandonAll
  whole : ∀ i, (∀ a : Addr, ∀ r ∈ (d.transfers a).records, r.index = i → (d.record a).presence = .present) → e.entry i = d.entry i

theorem TransferRecord.index_of_unmarked {q r : TransferRecord} (h : q.unmarked = r.unmarked) : q.index = r.index := by
  have := congrArg TransferRecord.index h
  exact this

namespace Device.Marks

variable {c d e : Device}

theorem refl (d : Device) : d.Marks d :=
  { Device.Tidied.refl d with presence := fun _ => rfl, stays := fun _ _ => rfl, abandonAll := fun _ => rfl, whole := fun _ _ => rfl }

theorem trans (h : c.Marks d) (k : d.Marks e) : c.Marks e :=
  { h.toTidied.trans k.toTidied with
    presence := fun a => (k.presence a).trans (h.presence a)
    stays := fun a p => (k.stays a ((h.presence a).trans p)).trans (h.stays a p)
    abandonAll := fun a => (k.abandonAll a).trans (h.abandonAll a)
    whole := fun i p => by
      refine (k.whole i fun a r hr hi => ?_).trans (h.whole i p)
      obtain ⟨q, hq, same, -⟩ := h.records a r hr
      rw [h.presence]
      exact p a q hq ((TransferRecord.index_of_unmarked same).trans hi) }

theorem foldl {α : Type} {f : Device → α → Device} (l : List α) (hf : ∀ d x, Device.Marks d (f d x)) (h : c.Marks d) :
    c.Marks (l.foldl f d) := by
  induction l generalizing d with
  | nil => exact h
  | cons x l ih => exact ih (h.trans (hf d x))

theorem ite {p : Prop} [Decidable p] {x y : Device} (h : p → c.Marks x) (k : ¬p → c.Marks y) : c.Marks (if p then x else y) := by
  split
  · exact h ‹_›
  · exact k ‹_›

/-- A change that leaves the catalogue, the transfer records and presences alone. -/
theorem of_tidied (h : d.Tidied e) (cat : e.cat = d.cat) (xfr : e.xfr = d.xfr) (presence : ∀ a : Addr, (e.record a).presence = (d.record a).presence) :
    d.Marks e :=
  { h with
    presence, stays := fun a _ => by rw [Device.transfers, xfr]; rfl, abandonAll := fun a => by rw [Device.transfers, xfr]; rfl
    whole := fun i _ => by rw [Device.entry, cat]; rfl }

end Device.Marks

theorem Device.marks_setRecord {a : Addr} {r : ValRecord} (h : ∀ s, r.cell s = { (d.record a).cell s with status := (r.cell s).status })
    (hp : r.presence = (d.record a).presence) : d.Marks (d.setRecord a r) :=
  .of_tidied (Device.tidied_setRecord h) rfl rfl fun b => by
    rw [Device.record_setRecord]
    split
    · subst b; exact hp
    · rfl

theorem Device.marks_putRecord {a : Addr} {r : ValRecord} (h : ∀ s, r.cell s = { (d.record a).cell s with status := (r.cell s).status })
    (hp : r.presence = (d.record a).presence) : d.Marks (d.putRecord a r) :=
  .of_tidied (Device.tidied_putRecord h) rfl rfl fun b => by
    rw [Device.record_putRecord]
    split
    · subst b; exact hp
    · rfl

theorem Device.marks_fixStatus (d : Device) (a : Addr) (s : Stream) : d.Marks (d.fixStatus a s) :=
  Device.marks_setRecord (fun _ => ValRecord.cell_setStatus _ _ _ _) rfl
theorem Device.marks_rosterChanged (d : Device) (a : Addr) (r : ValRecord) : d.Marks (d.rosterChanged a r) :=
  .of_tidied (d.tidied_rosterChanged a r) rfl rfl fun _ => rfl
theorem Device.marks_reportExit (d : Device) : d.Marks d.reportExit := .of_tidied d.tidied_reportExit rfl rfl fun _ => rfl
theorem Device.marks_setPlan (d : Device) (a : Addr) (p : List Job) : d.Marks (d.setPlan a p) :=
  .of_tidied (d.tidied_setPlan a p) rfl rfl fun _ => rfl

/-- LNC's state, the verify queue or the coordinator replaced. -/
theorem Device.marks_lnc (d : Device) (l : LineController) : d.Marks { d with lnc := l } :=
  .of_tidied (.of_same rfl rfl rfl ⟨[], (List.append_nil _).symm, by simp⟩ fun _ _ => rfl) rfl rfl fun _ => rfl

theorem Device.entry_freeIfRetired (d : Device) {i j : CatIndex} (h : i ≠ j) : (d.freeIfRetired i).entry j = d.entry j := by
  by_cases k : (d.entry i).state = .retiring ∧ (d.entry i).inUse = 0
  · have freed : (d.freeEntry i (d.entry i).fault).entry j = d.entry j := (Device.entry_setEntry _ _ _ _).trans (if_neg h)
    rw [Device.freeIfRetired_pos k, Device.withdrawDone_eq]
    split
    · exact freed
    · exact freed
  · rw [Device.freeIfRetired_neg k]

/-- The closing of a record touches the entry it names alone. -/
theorem Device.entry_closeRecord (d : Device) (a : Addr) {r : TransferRecord} {j : CatIndex} (h : r.index ≠ j) :
    (d.closeRecord a r).entry j = d.entry j := by
  show ((d.setTransfers a ((d.transfers a).remove r.tag)).entryClosed r.index).entry j = d.entry j
  rw [Device.entryClosed, Device.entry_freeIfRetired _ h]
  exact (Device.entry_setEntry _ _ _ _).trans (if_neg h)

theorem Device.presence_of_tidying {d e : Device} (h : Moves Scope.narrow d true e) (a : Addr) :
    (e.record a).presence = (d.record a).presence := (ValRecord.of_learned ((h.recordStep a).learned.resolve_left id)).1

/-- The dropping of a validator's records leaves those of the others. -/
theorem Device.transfers_dropRecords (d : Device) {a b : Addr} (pick) (hb : a ≠ b) : (d.dropRecords a pick).transfers b = d.transfers b := by
  have all (l : List TransferRecord) (e : Device) : (l.foldl (fun d r => d.closeRecord a r) e).transfers b = e.transfers b := by
    induction l generalizing e with
    | nil => rfl
    | cons r l ih => exact (ih _).trans ((Device.transfers_closeRecord _ _ _ _).trans (if_neg hb))
  exact all _ d

/-- The records of a validator that is away dropped. -/
theorem Device.marks_dropRecords {a : Addr} (away : (d.record a).presence ≠ .present) (pick) : d.Marks (d.dropRecords a pick) := by
  have flag (b : Addr) : ((d.dropRecords a pick).transfers b).abandonAll = (d.transfers b).abandonAll := by
    have all (l : List TransferRecord) (e : Device) :
        ((l.foldl (fun d r => d.closeRecord a r) e).transfers b).abandonAll = (e.transfers b).abandonAll := by
      induction l generalizing e with
      | nil => rfl
      | cons r l ih =>
        refine (ih _).trans ?_
        rw [Device.transfers_closeRecord]
        split
        · rename_i same; rw [same]; rfl
        · rfl
    exact all _ d
  have entry (i : CatIndex) (h : ∀ r ∈ (d.transfers a).records, r.index ≠ i) : (d.dropRecords a pick).entry i = d.entry i := by
    have all (l : List TransferRecord) (e : Device) (hl : ∀ r ∈ l, r.index ≠ i) :
        (l.foldl (fun d r => d.closeRecord a r) e).entry i = e.entry i := by
      induction l generalizing e with
      | nil => rfl
      | cons r l ih =>
        exact (ih _ fun q hq => hl q (List.mem_cons_of_mem _ hq)).trans (Device.entry_closeRecord e a (hl r List.mem_cons_self))
    exact all _ d fun r hr => h r (List.mem_filter.1 (List.mem_reverse.1 hr)).1
  exact { d.tidied_dropRecords a pick with
          presence := Device.presence_of_tidying (Device.moves_dropRecords .start)
          stays := fun b hb => by rw [d.transfers_dropRecords pick (show a ≠ b from fun same => away (same ▸ hb))]
          abandonAll := flag
          whole := fun i h => entry i fun r hr same => away (h a r hr same) }

theorem Device.marks_dropMarkedIfAway (d : Device) (a : Addr) : d.Marks (d.dropMarkedIfAway a) :=
  .ite (fun _ => .refl d) fun away => Device.marks_dropRecords away _

/-- Records marked in their place. -/
theorem Device.marks_change (d : Device) (a : Addr) (pick) :
    d.Marks (d.setTransfers a ((d.transfers a).change pick fun r => { r with marked := true })) := by
  have records : ((d.transfers a).change pick fun r => { r with marked := true }).records =
      (d.transfers a).records.map fun r => if pick r then { r with marked := true } else r := Transfers.records_change _ _ _
  have tidied : d.Tidied (d.setTransfers a ((d.transfers a).change pick fun r => { r with marked := true })) :=
    Device.tidied_setTransfers fun r hr => by
      rw [records] at hr
      obtain ⟨q, hq, rfl⟩ := List.mem_map.1 hr
      refine ⟨q, hq, ?_, fun m => ?_⟩
      · split <;> rfl
      · split
        · rfl
        · exact m
  refine { tidied with presence := fun _ => rfl, stays := fun b _ => ?_, abandonAll := fun b => ?_, whole := fun _ _ => rfl }
  · rw [Device.transfers_setTransfers]
    split
    · subst b
      rw [records, List.map_map]
      refine List.map_congr_left fun r _ => ?_
      show TransferRecord.unmarked (if pick r then { r with marked := true } else r) = _
      split <;> rfl
    · rfl
  · rw [Device.transfers_setTransfers]
    split
    · subst b; rfl
    · rfl

theorem Device.marks_markRecords (d : Device) (a : Addr) (pick) : d.Marks (d.markRecords a pick) := by
  unfold Device.markRecords
  extract_lets t d1 d2
  have h1 : d.Marks d1 := d.marks_change a pick
  have h2 : d.Marks d2 := .foldl _ (fun d r => d.marks_fixStatus a r.stream) h1
  exact h2.trans (d2.marks_dropMarkedIfAway a)

theorem Device.marks_markEntry (d : Device) (i : CatIndex) : d.Marks (d.markEntry i) :=
  .foldl _ (fun d a => d.marks_markRecords a _) (.refl d)

theorem Device.marks_takePlan (d : Device) (a : Addr) : d.Marks (d.takePlan a) := by
  unfold Device.takePlan
  exact .foldl _ (fun d r => Device.marks_putRecord (fun _ => ValRecord.cell_setStatus _ _ _ _) rfl) (d.marks_markRecords a _)

theorem Device.marks_emptyPlan (d : Device) (a : Addr) : d.Marks (d.emptyPlan a) :=
  (d.marks_setPlan a []).trans (Device.marks_setRecord (fun _ => ValRecord.cell_planned _ _ _ _) rfl)

theorem Device.marks_replan (d : Device) (a : Addr) : d.Marks (d.replan a) := by
  by_cases k : (d.record a).presence = .present ∨ (d.record a).presence = .silent
  · have replanned : d.Marks (d.replanned a) :=
      (d.marks_setPlan a _).trans ((Device.marks_putRecord (fun _ => ValRecord.cell_planned _ _ _ _) rfl).trans
        ((Device.marks_takePlan _ a).trans (Device.marks_rosterChanged _ a _)))
    rw [Device.replan_pos k]
    exact .ite (fun _ => replanned.trans (Device.marks_reportExit _)) fun _ => replanned
  · rw [Device.replan_neg k]; exact (d.marks_emptyPlan a).trans (Device.marks_takePlan _ a)

theorem Device.marks_replanAll (d : Device) : d.Marks d.replanAll := .foldl _ (fun d a => d.marks_replan a) (.refl d)

theorem Device.marks_cycleOver (d : Device) : d.Marks d.cycleOver :=
  .of_tidied (.of_same rfl rfl rfl ⟨[], (List.append_nil _).symm, by simp⟩ fun a s => by rw [Device.cycleOver_record]; rfl) rfl rfl
    fun a => by rw [Device.cycleOver_record]; rfl

/-- A cycle's beginning where no record is SILENT. -/
theorem Device.marks_cycleStart {fresh : Bool} (h : ∀ a : Addr, (d.record a).presence ≠ .silent) : d.Marks (d.cycleStart fresh) := by
  unfold Device.cycleStart
  extract_lets old new src d1 d2 d3 d4
  have h1 : d.Marks d1 := d.marks_lnc _
  have h2 : d.Marks d2 := .ite (fun _ => h1.trans d1.marks_replanAll) fun _ => h1
  have h3 : d3 = d2 := List.foldl_fixed' (fun a => Device.judgeSilence_eq (by rw [h2.presence]; exact h a)) _
  have h4 : d.Marks d4 := by
    unfold d4
    rw [h3]; exact h2.trans d2.marks_cycleOver
  exact h4.trans (d4.marks_lnc _)

/-- An exit event where no record is SILENT in QUIET (R119, R120). -/
theorem Device.marks_takeExit (h : d.lnc.line = .quiet → ∀ a : Addr, (d.record a).presence ≠ .silent) (before : Device) :
    d.Marks (d.takeExit before) := by
  unfold Device.takeExit
  extract_lets taken src d1
  have h1 : d.Marks d1 := by
    unfold d1
    split
    · rename_i quiet
      exact .ite (fun _ => Device.marks_cycleStart (h quiet)) fun _ => .refl d
    · exact d.marks_lnc _
    all_goals exact .refl d
  exact h1.trans (.of_tidied (.of_same rfl rfl rfl ⟨[], (List.append_nil _).symm, by simp⟩ fun _ _ => rfl) rfl rfl fun _ => rfl)

end Sys2Proof.Machine
end

