-- ==== Sys2Proof/Proofs/Settling.lean ====
section
/-! What a taken request leaves of the blocks it does not concern, and which slots its exit event returns. -/

namespace Sys2Proof.Machine

variable {s : State} {slot : Slot} {ref : Half} {q : Request} {c d e before : Device} {b : Bool}

/-! ## Exit events between commands (R120) -/

/-- The line may change, beside what replanning touches. -/
def Scope.line : Scope := { Scope.narrow with lnc := True }

/-- The verify queue and some entries may change, beside what replanning touches. -/
def Scope.catalogue (entry : CatIndex → Prop) : Scope := { Scope.narrow with entry, vfy := True }

/-- A part whose records are not SILENT while its line is QUIET: its exit event begins a cycle in which nothing is silenced. -/
def Device.calm (d : Device) : Prop := d.lnc.line = .quiet → ∀ a : Addr, (d.record a).presence ≠ .silent

theorem State.safe.outbox (hs : s.safe) : s.dev.outbox = [] := by
  obtain ⟨-, -, ⟨outbox, -⟩, -⟩ := hs
  exact outbox

theorem State.safe.exitEvent (hs : s.safe) : s.dev.exitEvent = false := by
  obtain ⟨-, -, ⟨-, exitEvent⟩, -⟩ := hs
  exact exitEvent

/-- A command that keeps the line and the presences leaves a calm part. -/
theorem State.safe.calm (hs : s.safe) (lnc : d.lnc = s.dev.lnc) (presence : ∀ a : Addr, (d.record a).presence = (s.dev.record a).presence) :
    d.calm := by
  obtain ⟨-, -, -, -, -, quiet, -⟩ := hs
  intro line a
  rw [lnc] at line
  rw [presence]
  rcases quiet with k | k | k | ⟨-, awake⟩
  · rw [line] at k; cases k
  · rw [line] at k; cases k
  · rw [line] at k; cases k
  · exact awake a

theorem Device.moves_calmExit (h : d.calm) : Moves .line d b (d.takeExit before) := Device.moves_takeExit trivial (.inr h) .start

theorem Moves.presence_line (h : Moves .line d b e) (a : Addr) : (e.record a).presence = (d.record a).presence :=
  (ValRecord.of_learned ((h.recordStep a).learned.resolve_left id)).1
theorem Moves.presence_catalogue {E : CatIndex → Prop} (h : Moves (.catalogue E) d b e) (a : Addr) :
    (e.record a).presence = (d.record a).presence :=
  (ValRecord.of_learned ((h.recordStep a).learned.resolve_left id)).1

/-! ## The part that a command leaves -/

/-- Publication changes what EXP's writing changes (R186 to R188). -/
theorem Device.kept_published (d before : Device) : d.Kept (d.published before) := by
  have start : ({ state := { dev := d, ram := [], pending := [] }, bus := .sound } : Run).Is d := ⟨rfl, rfl⟩
  have dev := (start.publish (before := before)).2
  have written := Run.written_publish (.refl { state := { dev := d, ram := [], pending := [] }, bus := .sound }) before
  have port := written.port
  have blocks := written.blocks
  have records := written.records
  rw [dev] at port blocks records
  exact { pending := rfl, wf := id, outside := fun _ _ => rfl, sound := id, failed := id, port, blocks, records }

/-- EXP's writing changes EXP and ROS alone. -/
theorem Device.Kept.others (h : d.Kept e) :
    e.cat = d.cat ∧ e.vfy = d.vfy ∧ e.tgt = d.tgt ∧ e.pln = d.pln ∧ e.xfr = d.xfr ∧ e.htq = d.htq ∧ e.act = d.act ∧
      e.lnc = d.lnc ∧ e.fck = d.fck := by
  have blocks : { e with port := d.port, ros := d.ros, outbox := d.outbox } = d := h.blocks
  rw [← blocks]
  exact ⟨rfl, rfl, rfl, rfl, rfl, rfl, rfl, rfl, rfl⟩

/-- The part a command leaves, block by block, is what exit events have made of it. -/
theorem Device.concluded_blocks (d before : Device) :
    (d.concluded before).cat = (d.takeExit before).cat ∧ (d.concluded before).vfy = (d.takeExit before).vfy ∧
      (d.concluded before).tgt = (d.takeExit before).tgt ∧ (d.concluded before).pln = (d.takeExit before).pln ∧
      (d.concluded before).xfr = (d.takeExit before).xfr ∧ (d.concluded before).htq = (d.takeExit before).htq ∧
      (d.concluded before).act = (d.takeExit before).act ∧ (d.concluded before).lnc = (d.takeExit before).lnc ∧
      (d.concluded before).fck = (d.takeExit before).fck := (Device.kept_published (d.takeExit before) before).others

/-- EXP's registers and fields, but for the returns owed, are after a command what they were at its end (R187). -/
theorem Device.concluded_fields (d before : Device) :
    ∃ owed, (d.concluded before).port.registers = { d.port.registers with returnsOwed := owed } := by
  have published := congrArg (fun p : Port => { p.registers with returnsOwed := ((d.takeExit before).published before).port.returnsOwed })
    (Device.kept_published (d.takeExit before) before).port
  have taken := congrArg (fun p : Port => { p.registers with returnsOwed := ((d.takeExit before).published before).port.returnsOwed })
    (Device.stir_takeExit (.refl d) before).port
  exact ⟨_, Eq.trans published taken⟩

/-- No notice is handed over. -/
def Device.fillsNone (d : Device) : Prop := ∀ a k text, .noticeFill a k text ∉ d.outbox

theorem Device.Closes.fillsNone (h : d.Closes e) (k : d.fillsNone) : e.fillsNone := by
  intro a kind text hp
  rcases h.out _ hp with old | rewrite | ⟨_, _, _, -, -, ret⟩
  · exact k a kind text old
  · cases rewrite
  · cases ret

theorem Device.ros_leaveAll {l : List Publication} (h : ∀ a k text, Publication.noticeFill a k text ∉ l) (e : Device) :
    (l.foldl Device.leave e).ros = e.ros := by
  induction l generalizing e with
  | nil => rfl
  | cons p l ih =>
    have first : (e.leave p).ros = e.ros := by
      cases p
      case noticeFill a k text => exact absurd List.mem_cons_self (h a k text)
      all_goals rfl
    exact (ih (fun a k text mem => h a k text (List.mem_cons_of_mem _ mem)) _).trans first

/-- The records are at the end of a command what exit events have made of them, but for the reply times that the mirrors show, where
no notice is handed over or the area is accessed. -/
theorem Device.record_concluded (h : d.areaOpen = true ∨ (d.takeExit before).fillsNone) (a : Addr) :
    { (d.concluded before).record a with replyTime := ((d.takeExit before).record a).replyTime } = (d.takeExit before).record a := by
  by_cases opened : d.areaOpen = true
  · exact Device.concluded_record opened a
  · have closedStill : (d.takeExit before).areaOpen ≠ true := by
      rw [Device.areaOpen, (Device.stir_takeExit (.refl d) before).device]; exact opened
    have ros : (d.concluded before).ros = (d.takeExit before).ros := by
      show ((d.takeExit before).published before).ros = _
      rw [Device.published, if_neg closedStill]
      exact Device.ros_leaveAll (h.resolve_left opened) _
    rw [Device.record, ros]; rfl

theorem Device.learned_concluded (h : d.areaOpen = true ∨ (d.takeExit before).fillsNone) (a : Addr) :
    ((d.concluded before).record a).learned = ((d.takeExit before).record a).learned := by
  have same := congrArg ValRecord.learned (Device.record_concluded h a)
  exact same

theorem Device.cell_concluded (h : d.areaOpen = true ∨ (d.takeExit before).fillsNone) (a : Addr) (st : Stream) :
    ((d.concluded before).record a).cell st = ((d.takeExit before).record a).cell st := by
  have same := congrArg (ValRecord.cell · st) (Device.record_concluded h a)
  exact same

/-- A part that awaits no cycle keeps its line at an exit event. -/
theorem Device.lnc_takeExit_awake (h : d.lnc.line = .idle ∨ d.lnc.line = .cycle ∨ d.lnc.line = .recoverCycle) :
    (d.takeExit before).lnc = d.lnc := by rw [Device.takeExit_awake h]

/-- What an operation of CAT's, concluded, leaves of the other blocks. -/
theorem Device.concluded_moves {E : CatIndex → Prop} {except : Option CatIndex} (hE : ∀ i, E i → except = some i)
    (calm : d.calm) (h : d.areaOpen = true ∨ (d.takeExit before).fillsNone) (moves : Moves (.catalogue E) c b d) :
    c.entriesKept (d.concluded before) except ∧ c.learnedKept (d.concluded before) none ∧ c.portKept (d.concluded before) ∧
      (d.concluded before).tgt = c.tgt ∧ (d.concluded before).htq = c.htq ∧ (d.concluded before).act = c.act ∧
      (d.concluded before).fck = c.fck ∧ (d.concluded before).vfy = d.vfy ∧
      (c.lnc.line = .idle ∨ c.lnc.line = .cycle ∨ c.lnc.line = .recoverCycle → (d.concluded before).lnc = c.lnc) := by
  obtain ⟨cat, vfy, tgt, -, -, htq, act, lnc, fck⟩ := d.concluded_blocks before
  have frame := moves.framed
  have line : d.lnc = c.lnc := (frame.lnc.resolve_left id).resolve_left id
  have exit : Moves .line d false (d.takeExit before) := Device.moves_calmExit calm
  have exitFrame := exit.framed
  have entry (j : CatIndex) : (d.concluded before).entry j = (d.takeExit before).entry j := by rw [Device.entry, cat]; rfl
  refine ⟨fun j hj retiring => ?_, fun a _ => ?_, ?_, ?_, ?_, ?_, ?_, ?_, fun awake => ?_⟩
  · have first := moves.entriesKept hE j hj retiring
    have second := exit.entriesKept (except := none) (fun _ k => k.elim) j (by simp) (by rw [first.2]; exact retiring)
    rw [entry]
    exact ⟨second.1.trans first.1, second.2.trans first.2⟩
  · have first := moves.learnedKept (except := none) (fun _ k => k.elim) a (by simp)
    have second := exit.learnedKept (except := none) (fun _ k => k.elim) a (by simp)
    rw [Device.learned_concluded h]
    exact second.trans first
  · obtain ⟨owed, fields⟩ := d.concluded_fields before
    have port := congrArg Port.registers (frame.port.resolve_left id)
    have port : d.port.registers = c.port.registers := port
    rw [port] at fields
    exact Device.portKept_of_registers (x := c.port.rotation) fields
  · rw [tgt]; exact (exitFrame.tgt.resolve_left id).trans (frame.tgt.resolve_left id)
  · rw [htq]; exact (exitFrame.htq.resolve_left id).trans (frame.htq.resolve_left id)
  · rw [act]; exact (exitFrame.act.resolve_left id).trans (frame.act.resolve_left id)
  · rw [fck]; exact (exitFrame.fck.resolve_left id).trans (frame.fck.resolve_left id)
  · rw [vfy]; exact exitFrame.vfy.resolve_left id
  · rw [lnc, Device.lnc_takeExit_awake (by rw [line]; exact awake), line]

/-- What a request of CAT's leaves of the other blocks. -/
theorem State.catalogue_take {E : CatIndex → Prop} {except : Option CatIndex} (hs : s.safe) (ht : s.takes slot)
    (hE : ∀ i, E i → except = some i)
    (moves : Moves (.catalogue E) (s.dev.hold slot { kind := q.kind, ref }) b (s.dev.handled slot ref q)) :
    let t := s.takeRequest .sound slot ref q
    s.dev.entriesKept t.dev except ∧ s.dev.learnedKept t.dev none ∧ s.dev.portKept t.dev ∧ t.dev.tgt = s.dev.tgt ∧
      t.dev.htq = s.dev.htq ∧ t.dev.act = s.dev.act ∧ t.dev.fck = s.dev.fck ∧ t.dev.vfy = (s.dev.handled slot ref q).vfy ∧
      (s.awake → t.dev.lnc = s.dev.lnc) := by
  intro t
  have line : (s.dev.handled slot ref q).lnc = s.dev.lnc := (moves.framed.lnc.resolve_left id).resolve_left id
  obtain ⟨entries, learned, -, rest⟩ := Device.concluded_moves (before := s.dev) hE (hs.calm line fun a => moves.presence_catalogue a)
    (.inl ht.handled_open) moves
  rw [← State.takeRequest_dev ht] at entries learned rest
  exact ⟨entries, learned, (State.port_take ht).1, rest⟩

/-! ## Which slots are returned by the closing of records -/

/-- A slot is returned in no other way than one. -/
def Device.returnsAs (d : Device) (slot : Slot) (ret : Return) : Prop := ∀ x, .slotReturn x ∈ d.outbox → x.slot = slot → x = ret

/-- A slot is not returned. -/
def Device.keepsSlot (d : Device) (slot : Slot) : Prop := ∀ x, .slotReturn x ∈ d.outbox → x.slot ≠ slot

theorem Publication.not_slotReturn_of_rewrite {x : Return} (h : Publication.isRewrite (.slotReturn x) = true) : False := by cases h

theorem Device.returnsAs_of_rewrites {ret : Return} (h : ∀ p ∈ d.outbox, p.isRewrite = true) : d.returnsAs slot ret :=
  fun _ hx => (Publication.not_slotReturn_of_rewrite (h _ hx)).elim
theorem Device.keepsSlot_of_rewrites (h : ∀ p ∈ d.outbox, p.isRewrite = true) : d.keepsSlot slot :=
  fun _ hx => (Publication.not_slotReturn_of_rewrite (h _ hx)).elim

/-- A WITHDRAW returned by the closing of records is returned DONE. -/
theorem Device.Closes.returnsAs {k : HeldSlot} (h : d.Closes e) (held : d.port.held[slot] = some k)
    (before : d.returnsAs slot (returnFor slot .done .done 0 k)) : e.returnsAs slot (returnFor slot .done .done 0 k) := by
  intro x hx same
  rcases h.out _ hx with old | rewrite | ⟨i, other, k', ⟨-, -, held'⟩, -, ret⟩
  · exact before x old same
  · cases rewrite
  · cases ret
    have same : other = slot := same
    subst same
    rw [Option.some.inj (held'.symm.trans held)]

/-- A WITHDRAW that waits after records have been closed waited before. -/
theorem Device.Closes.withdrawal {k : HeldSlot} {i : CatIndex} (h : d.Closes e) (w : e.Withdrawal i slot k) : d.Withdrawal i slot k := by
  obtain ⟨retiring, pending, held⟩ := w
  rcases h.entry i with ⟨-, -, same⟩ | ⟨-, freed⟩
  · rw [same] at retiring pending
    exact ⟨retiring, pending, h.held ▸ held⟩
  · rw [freed] at retiring; cases retiring

/-- A slot that no entry freed waits to answer is not returned by the closing of records. -/
theorem Device.Closes.returnOld {x : Return} (h : d.Closes e) (waits : ∀ i k, d.Withdrawal i x.slot k → (e.entry i).state ≠ .free)
    (hx : .slotReturn x ∈ e.outbox) : .slotReturn x ∈ d.outbox := by
  rcases h.out _ hx with old | rewrite | ⟨i, other, k', w, free, ret⟩
  · exact old
  · cases rewrite
  · cases ret
    exact absurd free (waits i k' w)

theorem Device.Closes.keepsSlot (h : d.Closes e) (before : d.keepsSlot slot)
    (waits : ∀ i k, d.Withdrawal i slot k → (e.entry i).state ≠ .free) : e.keepsSlot slot := by
  intro x hx same
  subst same
  exact before x (h.returnOld waits hx) rfl

/-! ## Rejects taken back (R57) -/

/-- Rejects taken back change ROS alone, and hand over rewritings. -/
theorem Device.reverifiedAll_false_eq (d : Device) (set : AddrSet) (st : Stream) :
    ∃ ros l, (∀ p ∈ l, Publication.isRewrite p = true) ∧
      d.reverifiedAll set st false = { d with ros, outbox := d.outbox ++ l } := by
  have all : ∀ (l : List Addr) (d : Device), ∃ ros k, (∀ p ∈ k, Publication.isRewrite p = true) ∧
      l.foldl (fun d a => if set.has a then d.reverified a st false else d) d = { d with ros, outbox := d.outbox ++ k } := by
    intro l
    induction l with
    | nil => exact fun d => ⟨d.ros, [], by simp, by rw [List.append_nil]; rfl⟩
    | cons a l ih =>
      intro d
      rw [List.foldl_cons]
      split
      · obtain ⟨ros, k, rewrites, same⟩ := ih (d.reverified a st false)
        rw [same]
        refine ⟨ros, _ ++ k, fun p hp => ?_, congrArg (fun o => ({ d with ros, outbox := o } : Device)) (List.append_assoc _ _ _)⟩
        exact (List.mem_append.1 hp).elim (fun q => by rw [(mem_rewriteOf.1 q).2]; rfl) (rewrites p)
      · exact ih d
  exact all allAddrs d

end Sys2Proof.Machine
end

