-- ==== Sys2Proof/Proofs/Withdraw.lean ====
section
/-! WITHDRAW (R2, R11, R13 to R16). -/

namespace Sys2Proof.Machine

variable {s : State} {slot : Slot} {ref : Half} {q : Request} {c d e before : Device} {b : Bool} {i : CatIndex}
  {index generation : Octet} {h : HeldSlot}

/-! ## CAT's decision, branch by branch (R2) -/

theorem Device.checkHandle_badField (h : 48 ≤ index.toNat ∨ generation = 0) : d.checkHandle index generation = .error .badField := by
  refine dif_neg fun k => ?_
  rcases h with h | h
  · omega
  · exact k.2 (by rw [h]; rfl)

/-- A handle with an index in range. -/
theorem Device.checkHandle_index (hi : index.toNat = i.val) (hg : generation ≠ 0) :
    d.checkHandle index generation =
      if (d.entry i).state = .free ∨ (d.entry i).generation ≠ generation.toNat then .error .staleHandle else .ok i := by
  have nonzero : generation.toNat ≠ 0 := fun k => hg (BitVec.eq_of_toNat_eq k)
  have small : index.toNat < 48 := by rw [hi]; exact i.isLt
  have same : (⟨index.toNat, small⟩ : CatIndex) = i := Fin.ext hi
  rw [Device.checkHandle, dif_pos ⟨small, nonzero⟩, same]

theorem Device.withdrawRequest_error {outcome : SlotOutcome} (h : d.checkHandle index generation = .error outcome) :
    d.withdrawRequest slot index generation = d.refuse slot outcome 0 := by
  rw [Device.withdrawRequest, h]

section
variable (hi : index.toNat = i.val) (hg : generation ≠ 0) (same : (d.entry i).generation = generation.toNat)
include hi hg same

theorem Device.checkHandle_named (free : (d.entry i).state ≠ .free) : d.checkHandle index generation = .ok i := by
  rw [Device.checkHandle_index hi hg, if_neg (by simp [free, same])]

theorem Device.withdrawRequest_retiring (state : (d.entry i).state = .retiring) :
    d.withdrawRequest slot index generation = d.refuse slot .retiring 0 := by
  rw [Device.withdrawRequest, Device.checkHandle_named hi hg same (by simp [state])]
  dsimp only
  rw [state]

theorem Device.withdrawRequest_verifying (state : (d.entry i).state = .verifying) :
    d.withdrawRequest slot index generation = d.withdrawVerifying slot i := by
  rw [Device.withdrawRequest, Device.checkHandle_named hi hg same (by simp [state])]
  dsimp only
  rw [state]

theorem Device.withdrawRequest_ready (state : (d.entry i).state = .ready) :
    d.withdrawRequest slot index generation = d.withdrawReady slot i := by
  rw [Device.withdrawRequest, Device.checkHandle_named hi hg same (by simp [state])]
  dsimp only
  rw [state]

theorem Device.withdrawRequest_reverifying (state : (d.entry i).state = .reverifying) :
    d.withdrawRequest slot index generation = d.withdrawReverifying slot i := by
  rw [Device.withdrawRequest, Device.checkHandle_named hi hg same (by simp [state])]
  dsimp only
  rw [state]

end

/-! ## WITHDRAW of an entry in VERIFYING (R11) -/

/-- A part that has changed no record and no coordinator, and hands over no rewriting of one, is concluded in EXP alone. -/
theorem Device.concluded_catalogue (opened : d.areaOpen = true) (quiet : d.takeExit before = d) (ros : d.ros = before.ros)
    (act : d.act = before.act) (out : ∀ p ∈ d.outbox, p.isRewrite = true → ∃ j, p = .catRewrite j) :
    d.concluded before = { d with port := (d.concluded before).port, outbox := [] } := by
  have noRoster (a : Addr) : .rosterRewrite a ∉ d.outbox := fun k => by obtain ⟨j, same⟩ := out _ k rfl; cases same
  have noCoord : .coordRewrite ∉ d.outbox := fun k => by obtain ⟨j, same⟩ := out _ k rfl; cases same
  obtain ⟨counts, counted⟩ := Device.mirrorsCounted_cat (d := { d with outbox := [] }) (before := before) (out := d.outbox)
    (fun a => rosDirty_eq_false (by simp only [Device.record, ros]) (noRoster a)) (by simp [mirrorDue, act, noCoord])
  have parts := (Device.carried_all d.outbox { d with outbox := [], port.catCounts := counts }).parts
  unfold Device.concluded
  rw [quiet, Device.published_open opened, counted]
  generalize hx : d.outbox.foldl Device.carriedOut { d with outbox := [], port.catCounts := counts } = x at parts
  rw [parts]
  rfl

/-- The entry is FREE, and its POST and the WITHDRAW are returned. -/
theorem Device.withdrawVerifying_eq (d : Device) (slot : Slot) (i : CatIndex) (held : d.port.held[slot] = some h) :
    d.withdrawVerifying slot i =
      { (d.unqueue i).freeEntry i .withdrawn with
        outbox := ((d.unqueue i).freeEntry i .withdrawn).outbox ++ d.returnsOf (d.entry i).pendingSlot .refused .withdrawn 0 ++
          [.slotReturn (returnFor slot .done .done 0 h)] } := by
  have post := Device.giveBack?_eq ((d.unqueue i).freeEntry i .withdrawn) (d.entry i).pendingSlot .refused .withdrawn 0
  have same : d.withdrawVerifying slot i =
      ((d.entry i).pendingSlot.elim ((d.unqueue i).freeEntry i .withdrawn)
        fun p => ((d.unqueue i).freeEntry i .withdrawn).giveBack p .refused .withdrawn 0).giveBack slot .done .done 0 := by
    unfold Device.withdrawVerifying
    cases (d.entry i).pendingSlot <;> rfl
  rw [same, post]
  exact Device.giveBack_held (h := h) held

/-- The part once WITHDRAW has freed an entry in VERIFYING (R11). -/
theorem State.withdraw_verifying (hs : s.safe) (slots : s.slotsOk) (ht : s.takes slot)
    (handled : s.dev.handled slot ref q = (s.dev.hold slot { kind := q.kind, ref }).withdrawVerifying slot i) :
    let t := s.takeRequest .sound slot ref q
    t.returned slot .done .done 0 q.kind ref ∧
      (∀ post h, (s.dev.entry i).pendingSlot = some post → s.dev.port.held[post] = some h →
        t.returned post .refused .withdrawn 0 h.kind h.ref) ∧
      t.dev.entry i = (s.dev.entry i).freedAs .withdrawn ∧ (∀ j, j ≠ i → t.dev.entry j = s.dev.entry j) ∧
      t.dev.vfy.queue = s.dev.vfy.queue.filter (· ≠ i) ∧
      t.dev.vfy.inFlight = (s.dev.vfy.inFlight && s.dev.vfy.queue.head? != some i) ∧
      s.dev.portKept t.dev ∧ t.dev = { s.dev with port := t.dev.port, cat := t.dev.cat, vfy := t.dev.vfy } := by
  intro t
  have outbox := hs.outbox
  have exitEvent := hs.exitEvent
  let own : HeldSlot := { kind := q.kind, ref }
  let freed : Device := ((s.dev.hold slot own).unqueue i).freeEntry i .withdrawn
  let posts := (s.dev.hold slot own).returnsOf (s.dev.entry i).pendingSlot .refused .withdrawn 0
  have held : (s.dev.hold slot own).port.held[slot] = some own := by rw [Device.held_hold, if_pos rfl]
  have heldElse {post : Slot} (k : post ≠ slot) : (s.dev.hold slot own).port.held[post] = s.dev.port.held[post] := by
    rw [Device.held_hold, if_neg fun same => k same.symm]
  have entry (j) : freed.entry j = if i = j then (s.dev.entry i).freedAs .withdrawn else s.dev.entry j :=
    Device.entry_setEntry _ _ _ _
  have apart {post : Slot} (pending : (s.dev.entry i).pendingSlot = some post) : post ≠ slot := fun same =>
    (slots.1 i post pending).1 (same ▸ ht.2)
  have dev := Device.withdrawVerifying_eq (s.dev.hold slot own) slot i held
  rw [← handled] at dev
  have quiet : (s.dev.handled slot ref q).takeExit s.dev = s.dev.handled slot ref q :=
    Device.takeExit_none (by rw [dev]; exact exitEvent) (newActWork_of_same (by rw [dev]; rfl) (by rw [dev]; rfl) (by rw [dev]; rfl))
  have out : ∃ k, (∀ p ∈ k, p = .catRewrite i) ∧
      (s.dev.handled slot ref q).outbox = k ++ posts ++ [.slotReturn (returnFor slot .done .done 0 own)] := by
    rw [dev]
    refine ⟨rewriteOf (s.dev.entry i).shown ((s.dev.entry i).freedAs .withdrawn).shown (.catRewrite i), fun p hp => (mem_rewriteOf.1 hp).2, ?_⟩
    show s.dev.outbox ++ _ ++ _ ++ _ = _
    rw [outbox]; rfl
  obtain ⟨k, rewrites, out⟩ := out
  have postOut {x : Return} (hx : .slotReturn x ∈ (s.dev.handled slot ref q).outbox) :
      .slotReturn x ∈ posts ∨ x = returnFor slot .done .done 0 own := by
    rw [out] at hx
    rcases List.mem_append.1 hx with hx | hx
    · exact .inl ((List.mem_append.1 hx).resolve_left fun hx => absurd (rewrites _ hx) (by simp))
    · exact .inr (Publication.slotReturn.inj (List.mem_singleton.1 hx))
  have concluded := Device.concluded_catalogue (before := s.dev) ht.handled_open quiet (by rw [dev]; rfl) (by rw [dev]; rfl)
    fun p hp rewrite => by
      rw [out] at hp
      rcases List.mem_append.1 hp with hp | hp
      · rcases List.mem_append.1 hp with hp | hp
        · exact ⟨i, rewrites p hp⟩
        · obtain ⟨_, _, -, -, rfl⟩ := Device.mem_returnsOf.1 hp
          cases rewrite
      · rw [List.mem_singleton.1 hp] at rewrite; cases rewrite
  have left : t.dev = { freed with port := t.dev.port, outbox := [] } := by
    rw [← State.takeRequest_dev ht, dev] at concluded
    exact concluded
  have returned {x : Slot} {status : SlotStatus} {outcome : SlotOutcome} {h : HeldSlot}
      (mem : .slotReturn (returnFor x status outcome 0 h) ∈ (s.dev.handled slot ref q).outbox)
      (same : (s.dev.handled slot ref q).returnsAs x (returnFor x status outcome 0 h)) : t.returned x status outcome 0 h.kind h.ref :=
    State.returned_finish s.takenRun_is (State.takeRequest_sound ht) ht.handled_open (by rw [quiet]; exact mem) (by rw [quiet]; exact same)
  refine ⟨?_, fun post h pending postHeld => ?_, ?_, fun j hj => ?_, ?_, ?_, (State.port_take ht).1, ?_⟩
  · refine returned (h := own) (by rw [out]; simp) fun x hx same => (postOut hx).resolve_left fun k => ?_
    obtain ⟨post, h, pending, -, ret⟩ := Device.mem_returnsOf.1 k
    cases ret
    exact apart pending same
  · have mine : .slotReturn (returnFor post .refused .withdrawn 0 h) ∈ posts :=
      Device.mem_returnsOf.2 ⟨post, h, pending, (heldElse (apart pending)).trans postHeld, rfl⟩
    refine returned (by rw [out]; simp [mine]) fun x hx same => ?_
    rcases postOut hx with k | rfl
    · obtain ⟨other, h', -, held', ret⟩ := Device.mem_returnsOf.1 k
      cases ret
      have : other = post := same
      subst this
      rw [heldElse (apart pending), postHeld] at held'
      rw [Option.some.inj held']
    · exact absurd same (Ne.symm (apart pending))
  · rw [left]; exact (entry i).trans (if_pos rfl)
  · rw [left]; exact (entry j).trans (if_neg fun k => hj k.symm)
  · rw [left]; rfl
  · rw [left]; rfl
  · generalize t.dev = x at left
    rw [left]
    show ({ freed with port := x.port, outbox := [] } : Device) = { s.dev with port := x.port, cat := freed.cat, vfy := freed.vfy }
    rw [← outbox]; rfl


/-! ## WITHDRAW of an entry in READY or REVERIFYING (R13, R14) -/

/-- A part about to free or to retire an entry of `c`: the slot of the WITHDRAW held, the entries, the transfer records and the presences
as in `c`, and rewritings alone handed over. -/
structure Device.Poised (c d : Device) (slot : Slot) (h : HeldSlot) : Prop where
  cat : d.cat = c.cat
  xfr : d.xfr = c.xfr
  presence : ∀ a : Addr, (d.record a).presence = (c.record a).presence
  held : d.port.held[slot] = some h
  out : ∀ p ∈ d.outbox, p.isRewrite = true

theorem Device.poised_hold (outbox : c.outbox = []) : c.Poised (c.hold slot h) slot h where
  cat := rfl
  xfr := rfl
  presence := fun _ => rfl
  held := by rw [Device.held_hold, if_pos rfl]
  out := fun p hp => by
    have : p ∈ c.outbox := hp
    rw [outbox] at this; cases this

theorem Device.Poised.unqueue (p : c.Poised d slot h) (i : CatIndex) : c.Poised (d.unqueue i) slot h := { p with }

theorem Device.Poised.reverified (p : c.Poised d slot h) (set : AddrSet) (st : Stream) : c.Poised (d.reverifiedAll set st false) slot h := by
  have moves : Moves .narrow d false (d.reverifiedAll set st false) := Device.moves_reverifiedAll .start
  have presence (a : Addr) := (ValRecord.of_learned ((moves.recordStep a).learned.resolve_left id)).1
  obtain ⟨ros, l, rewrites, same⟩ := d.reverifiedAll_false_eq set st
  rw [same] at presence ⊢
  exact { cat := p.cat, xfr := p.xfr, presence := fun a => (presence a).trans (p.presence a), held := p.held
          out := fun x hx => (List.mem_append.1 hx).elim (p.out x) (rewrites x) }

theorem Device.Poised.entry (p : c.Poised d slot h) (j : CatIndex) : d.entry j = c.entry j := by
  rw [Device.entry, p.cat]; rfl

theorem Device.setEntry_rewrites {x : Entry} (h : ∀ p ∈ d.outbox, p.isRewrite = true) : ∀ p ∈ (d.setEntry i x).outbox, p.isRewrite = true :=
  fun p hp => (List.mem_append.1 hp).elim (h p) fun k => by rw [(mem_rewriteOf.1 k).2]; rfl

/-- An entry freed and the WITHDRAW returned at once (R13, R14). -/
theorem State.withdraw_freed {d g : Device} (ht : s.takes slot) (poised : s.dev.Poised d slot { kind := q.kind, ref })
    (tidied : (d.freeEntry i .withdrawn).Tidied g) (handled : s.dev.handled slot ref q = g.done slot 0)
    (calm : (s.dev.handled slot ref q).calm) :
    let t := s.takeRequest .sound slot ref q
    t.returned slot .done .done 0 q.kind ref ∧ t.dev.entry i = (s.dev.entry i).freedAs .withdrawn := by
  intro t
  let own : HeldSlot := { kind := q.kind, ref }
  have held : g.port.held[slot] = some own := by rw [tidied.held]; exact poised.held
  have done : s.dev.handled slot ref q = g.handOver (.slotReturn (returnFor slot .done .done 0 own)) :=
    handled.trans (Device.giveBack_held held)
  have exit : (s.dev.handled slot ref q).Marks ((s.dev.handled slot ref q).takeExit s.dev) := Device.marks_takeExit calm _
  have opened := ht.handled_open (ref := ref) (q := q)
  constructor
  · refine State.returned_finish (ret := own) s.takenRun_is (State.takeRequest_sound ht) opened (exit.grows ?_) ?_
    · rw [done]; exact List.mem_append_right _ (List.mem_singleton.2 rfl)
    · refine exit.returnsAs (k := own) (by rw [done]; exact held) fun x hx same => ?_
      rw [done] at hx
      rcases List.mem_append.1 hx with hx | hx
      · exact tidied.returnsAs poised.held (Device.returnsAs_of_rewrites (Device.setEntry_rewrites poised.out)) x hx same
      · exact Publication.slotReturn.inj (List.mem_singleton.1 hx)
  · have freed : (d.freeEntry i .withdrawn).entry i = (s.dev.entry i).freedAs .withdrawn := by
      rw [← poised.entry i]; exact Device.entry_setEntry_self _ _ _
    have first : (s.dev.handled slot ref q).entry i = (s.dev.entry i).freedAs .withdrawn := by
      rw [done]; exact (freed ▸ tidied.entry i).freedAs
    rw [State.takeRequest_dev ht, Device.entry, (Device.concluded_blocks _ _).1]
    exact (first ▸ exit.entry i).freedAs

/-- The records of a validator that name an entry are marked for abandonment. -/
def Device.marked (d : Device) (i : CatIndex) (a : Addr) : Prop := ∀ r ∈ (d.transfers a).records, r.index = i → r.marked = true

theorem Device.Tidied.marked {a : Addr} (h : d.Tidied e) (k : d.marked i a) : e.marked i a := by
  intro r hr index
  obtain ⟨q, hq, same, mark⟩ := h.records a r hr
  exact mark (k q hq ((TransferRecord.index_of_unmarked same).trans index))

theorem Device.marked_markRecords (d : Device) (i : CatIndex) (a : Addr) : (d.markRecords a (·.index == i)).marked i a := by
  unfold Device.markRecords
  extract_lets t d1 d2
  have changed : d1.marked i a := by
    intro r hr index
    rw [Device.transfers_setTransfers_self, Transfers.records_change] at hr
    obtain ⟨q, -, rfl⟩ := List.mem_map.1 hr
    by_cases k : q.index = i
    · simp [k]
    · simp [k] at index
  have fixed : d1.Tidied d2 := .foldl _ (fun d r => d.tidied_fixStatus a r.stream) (.refl d1)
  exact (fixed.trans (d2.tidied_dropMarkedIfAway a)).marked changed

/-- Every record that names an entry reported for abandonment is marked (R16). -/
theorem Device.marked_markEntry (d : Device) (i : CatIndex) (a : Addr) : (d.markEntry i).marked i a := by
  have all : ∀ (l : List Addr) (d : Device), a ∈ l ∨ d.marked i a → (l.foldl (fun d a => d.markRecords a (·.index == i)) d).marked i a := by
    intro l
    induction l with
    | nil => exact fun d h => h.resolve_left List.not_mem_nil
    | cons b l ih =>
      intro d h
      refine ih _ ?_
      by_cases here : a = b
      · subst here; exact .inr (d.marked_markRecords i a)
      · exact h.imp (fun m => (List.mem_cons.1 m).resolve_left here) (d.tidied_markRecords b _).marked
  exact all allAddrs d (.inl (List.mem_finRange a))

/-- An entry that waits, RETIRING, to become FREE with its last record (R13, R14). -/
def Entry.retired (x : Entry) (slot : Slot) : Entry :=
  { x with state := .retiring, fault := .withdrawn, pendingSlot := some slot, rejecters := AddrSet.empty }

/-- An entry made RETIRING, its records marked, the WITHDRAW waiting (R13, R14, R16). -/
theorem State.withdraw_retired {d : Device} (slots : s.slotsOk) (ht : s.takes slot) (poised : s.dev.Poised d slot { kind := q.kind, ref })
    (marks : (d.retire i .withdrawn (some slot)).Marks (s.dev.handled slot ref q)) (calm : (s.dev.handled slot ref q).calm)
    (present : ∀ a, (s.dev.transfers a).records.any (·.index == i) = true → (s.dev.record a).presence = .present) :
    let t := s.takeRequest .sound slot ref q
    t.taken slot q.kind ref ∧ t.dev.entry i = (s.dev.entry i).retired slot ∧
      (∀ a, ∀ r ∈ (t.dev.transfers a).records, r.index = i → r.marked = true) ∧
      ∀ a, (s.dev.record a).presence = .present →
        (t.dev.transfers a).records.map (fun r => { r with marked := false }) =
          (s.dev.transfers a).records.map fun r => { r with marked := false } := by
  intro t
  let retired : Device := d.setEntry i ((d.entry i).retired slot)
  have exit : (s.dev.handled slot ref q).Marks ((s.dev.handled slot ref q).takeExit s.dev) := Device.marks_takeExit calm _
  have all : retired.Marks ((s.dev.handled slot ref q).takeExit s.dev) := ((Device.marks_markEntry retired i).trans marks).trans exit
  have entry (j) : retired.entry j = if i = j then (s.dev.entry i).retired slot else s.dev.entry j := by
    rw [← poised.entry i, ← poised.entry j]; exact Device.entry_setEntry _ _ _ _
  have transfers (a : Addr) : retired.transfers a = s.dev.transfers a := by
    show d.transfers a = _
    rw [Device.transfers, poised.xfr]; rfl
  have whole : ((s.dev.handled slot ref q).takeExit s.dev).entry i = (s.dev.entry i).retired slot := by
    rw [all.whole i fun a r hr index => ?_, entry, if_pos rfl]
    rw [transfers] at hr
    exact (poised.presence a).trans (present a (List.any_eq_true.2 ⟨r, hr, by simp [index]⟩))
  have opened := ht.handled_open (ref := ref) (q := q)
  obtain ⟨cat, -, -, -, xfr, -⟩ := (s.dev.handled slot ref q).concluded_blocks s.dev
  have dev : t.dev = (s.dev.handled slot ref q).concluded s.dev := State.takeRequest_dev ht
  have transfersLeft (a : Addr) : t.dev.transfers a = ((s.dev.handled slot ref q).takeExit s.dev).transfers a := by
    rw [dev, Device.transfers, xfr]; rfl
  refine ⟨State.taken_finish ht (all.keepsSlot (Device.keepsSlot_of_rewrites (Device.setEntry_rewrites poised.out)) ?_), ?_, fun a => ?_,
    fun a away => ?_⟩
  · rintro j k ⟨-, pending, -⟩
    rw [entry] at pending
    split at pending
    · rename_i same
      rw [← same, whole]; simp [Entry.retired]
    · exact absurd ht.2 (slots.1 j slot pending).1
  · rw [dev, Device.entry, cat]; exact whole
  · rw [transfersLeft]
    exact (marks.trans exit).marked (retired.marked_markEntry i a)
  · rw [transfersLeft, ← transfers]
    exact all.stays a ((poised.presence a).trans away)

/-- An entry withdrawn from REVERIFYING is out of the verify queue, its rejects taken back (R14, R57). -/
def Device.unverified (d : Device) (i : CatIndex) : Device :=
  (d.unqueue i).reverifiedAll (d.entry i).rejecters (d.entry i).stream false

theorem Device.Poised.unverified (p : c.Poised d slot h) (i : CatIndex) : c.Poised (d.unverified i) slot h := (p.unqueue i).reverified _ _

theorem Device.vfy_unverified (d : Device) (i : CatIndex) : (d.unverified i).vfy = (d.unqueue i).vfy := by
  obtain ⟨ros, l, -, same⟩ := (d.unqueue i).reverifiedAll_false_eq (d.entry i).rejecters (d.entry i).stream
  rw [Device.unverified, same]

theorem Device.vfy_replanAll (d : Device) : d.replanAll.vfy = d.vfy :=
  (Device.moves_replanAll (S := .narrow) (b := false) .start).framed.vfy.resolve_left id

theorem Device.vfy_done (d : Device) (slot : Slot) (n : Nat) : (d.done slot n).vfy = d.vfy := by
  have moves : Moves .narrow d false (d.done slot n) := Device.moves_done .start
  exact moves.framed.vfy.resolve_left id

theorem Device.vfy_retire (d : Device) (i : CatIndex) (x : FaultCause) (slot : Option Slot) : (d.retire i x slot).vfy = d.vfy := by
  have moves : Moves .narrow (d.setEntry i _) false (d.retire i x slot) := Device.moves_markEntry .start
  exact moves.framed.vfy.resolve_left id

/-- The verify queue once WITHDRAW has dealt with an entry in READY or REVERIFYING (R14). -/
def Device.queueWithout (d : Device) (i : CatIndex) : List CatIndex :=
  if (d.entry i).state = .ready then d.vfy.queue else d.vfy.queue.filter (· ≠ i)

/-- WITHDRAW of an entry in READY or REVERIFYING that no record names (R13, R14). -/
theorem Device.withdraw_unused (poised : c.Poised d slot h) (vfy : d.vfy = c.vfy) (hi : index.toNat = i.val) (hg : generation ≠ 0)
    (same : (d.entry i).generation = generation.toNat) (state : (d.entry i).state = .ready ∨ (d.entry i).state = .reverifying)
    (unused : (d.entry i).inUse = 0) :
    ∃ e g, c.Poised e slot h ∧ (e.freeEntry i .withdrawn).Tidied g ∧ d.withdrawRequest slot index generation = g.done slot 0 ∧
      (d.withdrawRequest slot index generation).vfy.queue = c.queueWithout i := by
  have entry := poised.entry i
  rcases state with ready | reverifying
  · have request : d.withdrawRequest slot index generation = ((d.freeEntry i .withdrawn).replanAll).done slot 0 := by
      rw [Device.withdrawRequest_ready hi hg same ready]; exact if_pos unused
    refine ⟨d, _, poised, Device.tidied_replanAll _, request, ?_⟩
    rw [request, Device.vfy_done, Device.vfy_replanAll, Device.queueWithout, ← entry, if_pos ready, ← vfy]; rfl
  · have request : d.withdrawRequest slot index generation = ((d.unverified i).freeEntry i .withdrawn).done slot 0 := by
      rw [Device.withdrawRequest_reverifying hi hg same reverifying]; exact if_pos unused
    refine ⟨d.unverified i, _, poised.unverified i, .refl _, request, ?_⟩
    rw [request, Device.vfy_done, Device.queueWithout, ← entry, if_neg (by simp [reverifying]), ← vfy]
    show (d.unverified i).vfy.queue = _
    rw [Device.vfy_unverified]; rfl

/-- WITHDRAW of an entry in READY or REVERIFYING that records name (R13, R14). -/
theorem Device.withdraw_used (poised : c.Poised d slot h) (hi : index.toNat = i.val) (hg : generation ≠ 0)
    (same : (d.entry i).generation = generation.toNat) (state : (d.entry i).state = .ready ∨ (d.entry i).state = .reverifying)
    (used : (d.entry i).inUse ≠ 0) :
    ∃ e, c.Poised e slot h ∧ (e.retire i .withdrawn (some slot)).Marks (d.withdrawRequest slot index generation) := by
  rcases state with ready | reverifying
  · have request : d.withdrawRequest slot index generation = (d.retire i .withdrawn (some slot)).replanAll := by
      rw [Device.withdrawRequest_ready hi hg same ready]; exact if_neg used
    exact ⟨d, poised, request ▸ Device.marks_replanAll _⟩
  · have request : d.withdrawRequest slot index generation = (d.unverified i).retire i .withdrawn (some slot) := by
      rw [Device.withdrawRequest_reverifying hi hg same reverifying]; exact if_neg used
    exact ⟨d.unverified i, poised.unverified i, request ▸ .refl _⟩

/-! ## The obligation -/

/-- What a WITHDRAW of CAT's leaves of the other blocks. -/
theorem State.withdraw_take (hs : s.safe) (ht : s.takes slot) (hi : index.toNat = i.val) :
    let t := s.takeRequest .sound slot ref (.withdraw index generation)
    s.dev.entriesKept t.dev (some i) ∧ s.dev.learnedKept t.dev none ∧ s.dev.portKept t.dev ∧ t.dev.tgt = s.dev.tgt ∧
      t.dev.htq = s.dev.htq ∧ t.dev.act = s.dev.act ∧ t.dev.fck = s.dev.fck ∧
      t.dev.vfy = (s.dev.handled slot ref (.withdraw index generation)).vfy ∧ (s.awake → t.dev.lnc = s.dev.lnc) ∧
      (s.dev.handled slot ref (.withdraw index generation)).calm := by
  intro t
  have moves : Moves (.catalogue (· = i)) (s.dev.hold slot { kind := (Request.withdraw index generation).kind, ref }) false
      (s.dev.handled slot ref (.withdraw index generation)) :=
    Device.moves_withdrawRequest (fun j hj => Fin.ext (hj.trans hi)) trivial .start
  obtain ⟨entries, learned, port, tgt, htq, act, fck, vfy, lnc⟩ := State.catalogue_take hs ht (fun j k => by rw [k]) moves
  exact ⟨entries, learned, port, tgt, htq, act, fck, vfy, lnc,
    hs.calm ((moves.framed.lnc.resolve_left id).resolve_left id) fun a => moves.presence_catalogue a⟩

/-- Settles O41, by the entry's state: refusals are returns alone; an entry freed keeps what freeing made of it through replanning, and
one made RETIRING keeps its records, their validators being PRESENT. -/
theorem withdrawDecided : Obligations.WithdrawDecided := by
  intro slot ref index generation s hs slots ht request
  have answered {outcome : SlotOutcome} (h : (s.dev.hold slot { kind := 2, ref }).withdrawRequest slot index generation =
      (s.dev.hold slot { kind := 2, ref }).refuse slot outcome 0) :
      Answers (.withdraw slot ref index generation) s fun t => s.answeredOnly t slot .refused outcome 0 request ref :=
    ⟨_, rfl, State.answeredOnly_of hs ht h⟩
  refine ⟨fun h => answered (Device.withdrawRequest_error (Device.checkHandle_badField h)), fun i hi hg =>
    ⟨fun stale => answered (Device.withdrawRequest_error ?_), fun same => ?_⟩⟩
  · rw [Device.checkHandle_index hi hg]; exact if_pos stale
  · have poised := Device.poised_hold (c := s.dev) (h := { kind := 2, ref }) (slot := slot) hs.outbox
    obtain ⟨entries, learned, port, tgt, htq, act, fck, vfy, lnc, calm⟩ :=
      State.withdraw_take (ref := ref) (generation := generation) hs ht hi
    refine ⟨fun state => answered (Device.withdrawRequest_retiring hi hg same state),
      fun state => ⟨_, rfl, State.withdraw_verifying hs slots ht (Device.withdrawRequest_verifying hi hg same state)⟩,
      fun state => ⟨fun unused => ?_, fun used present => ?_⟩⟩
    · obtain ⟨d, g, free, tidied, handled, queue⟩ := Device.withdraw_unused poised rfl hi hg same state unused
      obtain ⟨returned, entry⟩ := State.withdraw_freed (q := request) ht free tidied handled calm
      exact ⟨_, rfl, returned, entry, entries, learned, port, tgt, htq, act, fck, (congrArg Verifier.queue vfy).trans queue, lnc⟩
    · obtain ⟨d, retired, marks⟩ := Device.withdraw_used poised hi hg same state used
      obtain ⟨taken, entry, marked, kept⟩ := State.withdraw_retired (q := request) slots ht retired marks calm present
      exact ⟨_, rfl, taken, entry, marked, kept, entries, learned, port, tgt, htq, act, fck, lnc⟩

end Sys2Proof.Machine
end

