-- ==== Sys2Proof/Proofs/Verification.lean ====
section
/-! The Verifier's commands (R8, R10, R15, R18, R57). -/

namespace Sys2Proof.Machine

variable {s : State} {slot : Slot} {c d e before : Device} {b : Bool} {i : CatIndex} {f : Device → Device}

/-! ## Commands that do one thing inside the part -/

/-- The run of a command that is one change inside the part. -/
def State.actRun (s : State) (f : Device → Device) : Run := { state := { s with dev := f s.dev }, bus := .sound }

theorem State.actRun_is (s : State) (f : Device → Device) : (s.actRun f).Is (f s.dev) := ⟨rfl, rfl⟩

theorem State.returned_act {status : SlotStatus} {outcome : SlotOutcome} {n : Nat} {h : HeldSlot} (opened : (f s.dev).areaOpen = true)
    (ret : .slotReturn (returnFor slot status outcome n h) ∈ ((f s.dev).takeExit s.dev).outbox)
    (same : ((f s.dev).takeExit s.dev).returnsAs slot (returnFor slot status outcome n h)) :
    (s.act .sound f).returned slot status outcome n h.kind h.ref :=
  State.returned_finish (s.actRun_is f) rfl opened ret same

/-- A part between commands is settled as it stands. -/
theorem State.safe.quiet (hs : s.safe) : s.dev.takeExit s.dev = s.dev := Device.takeExit_none hs.exitEvent (newActWork_of_same rfl rfl rfl)

theorem Run.always_same {r : Run} {g : Device → Device} (h : g r.state.dev = r.state.dev) : r.always g = r := by
  rw [Run.always, h]

/-- No mirror is written where the mirrors show what they showed before. -/
theorem Run.writeMirrors_clean {r : Run} (clean : Device.Clean before d) (same : r.state.dev = { d with outbox := [] }) :
    r.writeMirrors before d.outbox = r := by
  have indices : allIndices.filter (catDirty before { d with outbox := [] } d.outbox) = [] :=
    List.filter_eq_nil_iff.2 fun i _ => Bool.eq_false_iff.1 (clean.catDirty i)
  have addresses : allAddrs.filter (rosDirty before { d with outbox := [] } d.outbox) = [] :=
    List.filter_eq_nil_iff.2 fun a _ => Bool.eq_false_iff.1 (clean.rosDirty a)
  unfold Run.writeMirrors
  rw [same]
  dsimp only
  rw [indices, addresses, List.foldl_nil, List.foldl_nil, if_neg (Bool.eq_false_iff.1 clean.summaryDue),
    if_neg (Bool.eq_false_iff.1 clean.coordDue)]

/-- Nothing is published where nothing has changed. -/
theorem Run.publish_same {r : Run} (outbox : r.state.dev.outbox = []) : r.publish r.state.dev = r := by
  have clean : Device.Clean r.state.dev r.state.dev := ⟨rfl, rfl, rfl, rfl, fun p hp => by rw [outbox] at hp; cases hp⟩
  have emptied : r.always (fun d => { d with outbox := [] }) = r := Run.always_same (by rw [← outbox])
  have mirrors : r.writeMirrors r.state.dev r.state.dev.outbox = r := Run.writeMirrors_clean clean (by rw [← outbox])
  unfold Run.publish
  dsimp only
  rw [emptied, mirrors, outbox]
  show (if _ then if _ then r else r.always id else r.always id) = r
  have still : r.always id = r := Run.always_same rfl
  rw [still, ite_self, ite_self]

/-- A command that changes nothing inside the part does nothing. -/
theorem State.act_same (hs : s.safe) (h : f s.dev = s.dev) : s.act .sound f = s := by
  have quiet : ({ state := s, bus := .sound } : Run).always (·.takeExit s.dev) = { state := s, bus := .sound } :=
    Run.always_same hs.quiet
  have settled : ({ state := s, bus := .sound } : Run).settle s.dev = { state := s, bus := .sound } := by
    rw [Run.settle, quiet]; exact Run.publish_same hs.outbox
  have judged : s.dev.judgeInterrupt = s.dev := by
    obtain ⟨-, interrupt, -⟩ := hs
    rw [Device.judgeInterrupt, ← interrupt]
  rw [State.act, h]
  show (({ state := s, bus := .sound } : Run).settle s.dev).finish = s
  rw [settled, Run.finish_alive _ rfl]
  show ({ s with dev := s.dev.judgeInterrupt } : State) = s
  rw [judged]

/-! ## The end of a first verification (R10) -/

/-- The fault cause of a verification that does not match (R10, R18). -/
def Verification.fault (v : Verification) : FaultCause := if v = .busError then .fetchFault else .checkMismatch

/-- The outcome that a verification returns a POST with (R10). -/
def Verification.outcome : Verification → SlotOutcome
  | .matched => .posted
  | .mismatch => .checkMismatch
  | .busError => .fetchFault
  | .gatherBreak => .badGather

/-- A POST's slot returned, if the entry waits to answer it. -/
def Device.postReturned (d : Device) (slot : Option Slot) (status : SlotStatus) (outcome : SlotOutcome) (n : Nat) : Device :=
  { d with outbox := d.outbox ++ d.returnsOf slot status outcome n }

theorem Device.firstVerified_matched {x : Entry} (h : d.entry i = x) :
    d.firstVerified i .matched =
      (d.setEntry i { x with state := .ready, pendingSlot := none }).replanAll.postReturned x.pendingSlot .posted .posted
        (handle i x.generation) := by
  show d.postVerified i = _
  unfold Device.postVerified
  rw [h]
  dsimp only
  generalize (d.setEntry i _).replanAll = g
  rw [Device.postReturned, ← Device.giveBack?_eq]
  cases x.pendingSlot <;> rfl

theorem Device.postFailed_eq (d : Device) (i : CatIndex) (fault : FaultCause) (outcome : SlotOutcome) :
    d.postFailed i fault outcome = (d.freeEntry i fault).postReturned (d.entry i).pendingSlot .refused outcome 0 := by
  unfold Device.postFailed
  dsimp only
  rw [Device.postReturned, ← Device.giveBack?_eq]
  cases (d.entry i).pendingSlot <;> rfl

theorem Device.firstVerified_failed {v : Verification} {x : Entry} (h : v ≠ .matched) (hx : d.entry i = x) :
    d.firstVerified i v = (d.freeEntry i v.fault).postReturned x.pendingSlot .refused v.outcome 0 := by
  subst hx
  cases v with
  | matched => exact absurd rfl h
  | mismatch => exact d.postFailed_eq i _ _
  | busError => exact d.postFailed_eq i _ _
  | gatherBreak => exact d.postFailed_eq i _ _

theorem Device.entry_postReturned (d : Device) (post : Option Slot) (status : SlotStatus) (outcome : SlotOutcome) (n : Nat) (j : CatIndex) :
    (d.postReturned post status outcome n).entry j = d.entry j := rfl

/-- An entry `i` that has just left VERIFYING: no slot waits for it any more, the other entries and the held slots are as between
commands, and rewritings alone are handed over. -/
structure State.LeavesVerifying (s : State) (i : CatIndex) (d : Device) : Prop where
  entry : (d.entry i).pendingSlot = none
  others : ∀ j, i ≠ j → d.entry j = s.dev.entry j
  held : d.port.held = s.dev.port.held
  out : ∀ p ∈ d.outbox, p.isRewrite = true

/-- The POST of an entry that leaves VERIFYING is returned, and in one way. -/
theorem State.post_returned {g : Device} {status : SlotStatus} {outcome : SlotOutcome} {n : Nat} (slots : s.slotsOk)
    (leaves : s.LeavesVerifying i d) (tidied : d.Tidied g) (done : f s.dev = g.postReturned (s.dev.entry i).pendingSlot status outcome n)
    (calm : (f s.dev).calm) (opened : (f s.dev).areaOpen = true) (post : Slot) (h : HeldSlot)
    (pending : (s.dev.entry i).pendingSlot = some post) (held : s.dev.port.held[post] = some h) :
    (s.act .sound f).returned post status outcome n h.kind h.ref := by
  have exit : (f s.dev).Marks ((f s.dev).takeExit s.dev) := Device.marks_takeExit calm _
  have noWithdrawal (j : CatIndex) (k : HeldSlot) : ¬d.Withdrawal j post k := by
    rintro ⟨-, waiting, -⟩
    by_cases same : i = j
    · rw [← same, leaves.entry] at waiting; cases waiting
    · rw [leaves.others j same] at waiting
      exact same ((slots.1 i post pending).2 j waiting).symm
  have heldStill : g.port.held[post] = some h := by rw [tidied.held, leaves.held]; exact held
  have mine : .slotReturn (returnFor post status outcome n h) ∈ g.returnsOf (s.dev.entry i).pendingSlot status outcome n :=
    Device.mem_returnsOf.2 ⟨post, h, pending, heldStill, rfl⟩
  refine State.returned_act opened (exit.grows (by rw [done]; exact List.mem_append_right _ mine)) fun x hx same => ?_
  subst same
  have old : .slotReturn x ∈ (f s.dev).outbox :=
    exit.toTidied.returnOld (fun j k w => absurd (tidied.withdrawal (by rw [done] at w; exact w)) (noWithdrawal j k)) hx
  rw [done] at old
  rcases List.mem_append.1 old with old | old
  · exact (Publication.not_slotReturn_of_rewrite
      (leaves.out _ (tidied.returnOld (fun j k w => absurd w (noWithdrawal j k)) old))).elim
  · obtain ⟨other, h', pending', held', ret⟩ := Device.mem_returnsOf.1 old
    cases ret
    rw [Option.some.inj (held'.symm.trans heldStill)]; rfl

/-! ## What the Verifier's results leave of the other blocks -/

theorem Device.fillsNone_of_rewrites (h : ∀ p ∈ d.outbox, p.isRewrite = true) : d.fillsNone :=
  fun _ _ _ hp => by cases h _ hp

theorem Device.fillsNone_postReturned {status : SlotStatus} {outcome : SlotOutcome} {n : Nat} {post : Option Slot} (h : d.fillsNone) :
    (d.postReturned post status outcome n).fillsNone := fun a k text hp => by
  rcases List.mem_append.1 hp with hp | hp
  · exact h a k text hp
  · obtain ⟨_, _, -, -, ret⟩ := Device.mem_returnsOf.1 hp
    cases ret

/-- A command of CAT's between commands: the line and the presences are kept, so that its exit event silences no one. -/
theorem State.calm_catalogue {E : CatIndex → Prop} (hs : s.safe) (moves : Moves (.catalogue E) s.dev b d) : d.calm :=
  hs.calm ((moves.framed.lnc.resolve_left id).resolve_left id) fun a => moves.presence_catalogue a

theorem Device.areaOpen_catalogue {E : CatIndex → Prop} (moves : Moves (.catalogue E) c b d) : d.areaOpen = c.areaOpen := by
  have device := congrArg Port.device (moves.framed.port.resolve_left id)
  exact Device.areaOpen_of_registers device

theorem State.entry_act (s : State) (f : Device → Device) (j : CatIndex) :
    (s.act .sound f).dev.entry j = ((f s.dev).takeExit s.dev).entry j := by
  rw [State.act_dev, Device.entry, (Device.concluded_blocks _ _).1]; rfl

/-- The end of a first verification (R10). -/
theorem State.first_verified {E : CatIndex → Prop} {v : Verification} {vfy : Verifier} (hs : s.safe)
    (moves : Moves (.catalogue E) s.dev b (f s.dev)) (done : f s.dev = ({ s.dev with vfy } : Device).firstVerified i v) :
    let t := s.act .sound f
    (f s.dev).fillsNone ∧
    (v = .matched →
      t.dev.entry i = { s.dev.entry i with state := .ready, pendingSlot := none, inUse := (t.dev.entry i).inUse }) ∧
    (v ≠ .matched → t.dev.entry i = (s.dev.entry i).freedAs v.fault) ∧
    (s.slotsOk → s.dev.areaOpen = true →
      ∀ post h, (s.dev.entry i).pendingSlot = some post → s.dev.port.held[post] = some h →
        t.returned post (if v = .matched then .posted else .refused) v.outcome
          (if v = .matched then handle i (s.dev.entry i).generation else 0) h.kind h.ref) := by
  intro t
  have calm := State.calm_catalogue hs moves
  have opened := Device.areaOpen_catalogue moves
  have exit : (f s.dev).Marks ((f s.dev).takeExit s.dev) := Device.marks_takeExit calm _
  have outbox : ∀ p ∈ ({ s.dev with vfy } : Device).outbox, p.isRewrite = true := fun p hp => by
    have : p ∈ s.dev.outbox := hp
    rw [hs.outbox] at this; cases this
  have leaves {x : Entry} (pending : x.pendingSlot = none) : s.LeavesVerifying i (({ s.dev with vfy } : Device).setEntry i x) :=
    { entry := by rw [Device.entry_setEntry_self]; exact pending
      others := fun j hj => (Device.entry_setEntry _ _ _ _).trans (if_neg hj)
      held := rfl, out := Device.setEntry_rewrites outbox }
  by_cases matched : v = .matched
  · subst matched
    rw [Device.firstVerified_matched (d := { s.dev with vfy }) (x := s.dev.entry i) rfl] at done
    generalize hd : (({ s.dev with vfy } : Device).setEntry i _) = d1 at done
    have left : s.LeavesVerifying i d1 := hd ▸ leaves rfl
    have tidied : d1.Tidied d1.replanAll := d1.tidied_replanAll
    refine ⟨?_, fun _ => ?_, fun k => absurd rfl k, fun slots area post h pending held => ?_⟩
    · rw [done]; exact Device.fillsNone_postReturned (tidied.fillsNone (Device.fillsNone_of_rewrites left.out))
    · have entry : d1.entry i = { s.dev.entry i with state := .ready, pendingSlot := none } := by
        rw [← hd]; exact Device.entry_setEntry_self _ _ _
      have first : (f s.dev).entry i = d1.replanAll.entry i := by rw [done, Device.entry_postReturned]
      have whole : (d1.entry i).Tidied (t.dev.entry i) := by
        rw [State.entry_act]
        have second := exit.entry i
        rw [first] at second
        exact (tidied.entry i).trans second
      have kept := whole.kept (by rw [entry]; simp)
      rw [entry] at kept
      exact kept
    · rw [if_pos rfl, if_pos rfl]
      exact State.post_returned slots left tidied done calm (opened.trans area) post h pending held
  · rw [Device.firstVerified_failed (d := { s.dev with vfy }) (x := s.dev.entry i) matched rfl] at done
    have left : s.LeavesVerifying i (({ s.dev with vfy } : Device).freeEntry i v.fault) := leaves rfl
    refine ⟨?_, fun k => absurd k matched, fun _ => ?_, fun slots area post h pending held => ?_⟩
    · rw [done]; exact Device.fillsNone_postReturned (Device.fillsNone_of_rewrites left.out)
    · have freed : (f s.dev).entry i = (s.dev.entry i).freedAs v.fault := by rw [done]; exact Device.entry_setEntry_self _ _ _
      rw [State.entry_act]
      exact (freed ▸ exit.entry i).freedAs
    · rw [if_neg matched, if_neg matched]
      exact State.post_returned slots left (.refl _) done calm (opened.trans area) post h pending held

/-! ## The end of a reverification (R18, R57) -/

variable {st : Stream}

/-- A reject taken back, or confirmed, at one address, as it shows in the cells. -/
theorem Device.cell_reverified_false (d : Device) (a x : Addr) (st : Stream) :
    (((d.reverified a st false).record x).cell st).rejects =
      if a = x then ((d.record x).cell st).rejects - 1 else ((d.record x).cell st).rejects := by
  show (((d.setRecord a _).record x).cell st).rejects = _
  rw [Device.record_setRecord]
  split
  · rename_i same
    subst same
    rw [ValRecord.cell_setCell, if_pos rfl]
  · rfl

theorem Device.rejects_reverifiedAll (d : Device) (set : AddrSet) (x : Addr) :
    (((d.reverifiedAll set st false).record x).cell st).rejects =
      if set.has x then ((d.record x).cell st).rejects - 1 else ((d.record x).cell st).rejects := by
  have all : ∀ (l : List Addr) (d : Device), l.Nodup →
      (((l.foldl (fun d a => if set.has a then d.reverified a st false else d) d).record x).cell st).rejects =
        if x ∈ l ∧ set.has x then ((d.record x).cell st).rejects - 1 else ((d.record x).cell st).rejects := by
    intro l
    induction l with
    | nil => intro d _; simp
    | cons a l ih =>
      intro d nodup
      obtain ⟨new, nodup⟩ := List.nodup_cons.1 nodup
      rw [List.foldl_cons, ih _ nodup]
      by_cases here : a = x
      · subst here
        by_cases k : set.has a = true <;> simp [new, k, Device.cell_reverified_false]
      · have one : ((((if set.has a then d.reverified a st false else d) : Device).record x).cell st).rejects =
            ((d.record x).cell st).rejects := by
          split
          · rw [Device.cell_reverified_false, if_neg here]
          · rfl
        rw [one]
        simp [Ne.symm here]
  refine (all allAddrs d (List.nodup_finRange 12)).trans ?_
  simp only [show x ∈ allAddrs from List.mem_finRange x, true_and]

theorem Device.record_raised (d : Device) (x : Cause) (a : Addr) : (d.raise x).record a = d.record a := rfl

/-- A reject confirmed at one address: a third one sets the hold. -/
theorem Device.cell_reverified_true (d : Device) (a x : Addr) (st : Stream) :
    (((d.reverified a st true).record x).cell st).rejects = ((d.record x).cell st).rejects ∧
      (((d.reverified a st true).record x).cell st).hold =
        (((d.record x).cell st).hold || (decide (a = x) && ((d.record x).cell st).rejects == 3)) := by
  unfold Device.reverified
  dsimp only
  rw [if_pos rfl]
  split
  · rename_i third
    obtain ⟨third, unheld⟩ := third
    have planned := Device.tidied_replan ((d.setRecord a ((d.record a).setCell st { (d.record a).cell st with hold := true })).raise .roster) a
    rw [planned.rejects, planned.hold, Device.record_raised]
    rw [Device.record_setRecord]
    split
    · rename_i same
      subst same
      rw [ValRecord.cell_setCell, if_pos rfl]
      exact ⟨rfl, by simp [third]⟩
    · rename_i other
      exact ⟨rfl, by simp [other]⟩
  · rename_i other
    refine ⟨rfl, ?_⟩
    by_cases same : a = x
    · subst same
      by_cases third : ((d.record a).cell st).rejects = 3
      · have held : ((d.record a).cell st).hold = true := by simpa [third] using other
        rw [held, Bool.true_or]
      · simp [third]
    · simp [same]

theorem Device.holds_reverifiedAll (d : Device) (set : AddrSet) (x : Addr) (hx : set.has x = true) :
    (((d.reverifiedAll set st true).record x).cell st).rejects = ((d.record x).cell st).rejects ∧
      (((d.reverifiedAll set st true).record x).cell st).hold =
        (((d.record x).cell st).hold || ((d.record x).cell st).rejects == 3) := by
  have one (d : Device) (a : Addr) :
      ((((if set.has a then d.reverified a st true else d) : Device).record x).cell st).rejects = ((d.record x).cell st).rejects ∧
        ((((if set.has a then d.reverified a st true else d) : Device).record x).cell st).hold =
          (((d.record x).cell st).hold || (decide (a = x) && ((d.record x).cell st).rejects == 3)) := by
    split
    · exact d.cell_reverified_true a x st
    · rename_i out
      have : a ≠ x := fun same => out (same ▸ hx)
      exact ⟨rfl, by simp [this]⟩
  have all : ∀ (l : List Addr) (d : Device),
      (((l.foldl (fun d a => if set.has a then d.reverified a st true else d) d).record x).cell st).rejects = ((d.record x).cell st).rejects ∧
        (((l.foldl (fun d a => if set.has a then d.reverified a st true else d) d).record x).cell st).hold =
          (((d.record x).cell st).hold || (decide (x ∈ l) && ((d.record x).cell st).rejects == 3)) := by
    intro l
    induction l with
    | nil => exact fun d => ⟨rfl, by simp⟩
    | cons a l ih =>
      intro d
      obtain ⟨rejects, hold⟩ := ih (if set.has a then d.reverified a st true else d)
      obtain ⟨rejects', hold'⟩ := one d a
      refine ⟨rejects.trans rejects', hold.trans ?_⟩
      rw [hold', rejects', Bool.or_assoc, ← Bool.and_or_distrib_right]
      simp only [List.mem_cons, Bool.decide_or, eq_comm]
  obtain ⟨rejects, hold⟩ := all allAddrs d
  refine ⟨rejects, hold.trans ?_⟩
  simp only [show x ∈ allAddrs from List.mem_finRange x, decide_true, Bool.true_and]

theorem Device.fillsNone_reverified (h : d.fillsNone) (a : Addr) : (d.reverified a st true).fillsNone := by
  unfold Device.reverified
  dsimp only
  rw [if_pos rfl]
  split
  · refine (Device.tidied_replan _ a).fillsNone fun b k text hp => ?_
    rcases List.mem_append.1 hp with hp | hp
    · exact h b k text hp
    · cases (mem_rewriteOf.1 hp).2
  · exact h

theorem Device.fillsNone_reverifiedAll (h : d.fillsNone) (set : AddrSet) : (d.reverifiedAll set st true).fillsNone := by
  have all : ∀ (l : List Addr) (d : Device), d.fillsNone →
      (l.foldl (fun d a => if set.has a then d.reverified a st true else d) d).fillsNone := by
    intro l
    induction l with
    | nil => exact fun _ h => h
    | cons a l ih =>
      intro d h
      rw [List.foldl_cons]
      split
      · exact ih _ (Device.fillsNone_reverified h a)
      · exact ih _ h
  exact all allAddrs d h

/-! ## Causes that a command leaves -/

/-- A cause set when a command's changes are done is set after it. -/
theorem Device.causes_concluded {n : Nat} (h : d.port.causes.getLsbD n = true) (before : Device) :
    (d.concluded before).port.causes.getLsbD n = true := by
  have grown {x y : Device} (k : x.port.causes ||| y.port.causes = y.port.causes) (hx : x.port.causes.getLsbD n = true) :
      y.port.causes.getLsbD n = true := by
    rw [← k, BitVec.getLsbD_or, hx, Bool.true_or]
  have exit : (d.takeExit before).port.causes.getLsbD n = true := grown (Device.stir_takeExit (.refl d) before).causes h
  show ((d.takeExit before).published before).port.causes.getLsbD n = true
  unfold Device.published
  split
  · have counted := congrArg Port.causes (Device.counted_mirrors ({ d.takeExit before with outbox := [] } : Device) before
      (d.takeExit before).outbox).port
    refine grown (Device.carried_all _ _).causes ?_
    have counted : (({ d.takeExit before with outbox := [] } : Device).mirrorsCounted before (d.takeExit before).outbox).port.causes =
      (d.takeExit before).port.causes := counted
    rw [counted]; exact exit
  · have left : ∀ (l : List Publication) (e : Device), (l.foldl Device.leave e).port.causes = e.port.causes := by
      intro l
      induction l with
      | nil => exact fun _ => rfl
      | cons p l ih =>
        refine fun e => (ih _).trans ?_
        cases p <;> rfl
    rw [left]; exact exit

/-! ## A reverification that matches -/

/-- The entry as the replanning of a reverification that matches begins: READY, its rejecters' third rejects held (R18, R57). -/
def Device.confirmed (d : Device) (i : CatIndex) : Device :=
  (d.reverifiedAll (d.entry i).rejecters (d.entry i).stream true).setEntry i
    { (d.reverifiedAll (d.entry i).rejecters (d.entry i).stream true).entry i with state := .ready, rejecters := AddrSet.empty }

theorem Device.reverifyPassed_eq (d : Device) (i : CatIndex) : d.reverifyPassed i = (d.confirmed i).replanAll.raise .catalogue := rfl

theorem Device.entry_confirmed (state : (d.entry i).state = .reverifying) :
    ((d.confirmed i).entry i).state = .ready ∧ ((d.confirmed i).entry i).posted = (d.entry i).posted := by
  have moves : Moves .narrow d false (d.reverifiedAll (d.entry i).rejecters (d.entry i).stream true) := Device.moves_reverifiedAll .start
  obtain ⟨posted, -⟩ := moves.kept_of_narrow (i := i) (by simp [state])
  unfold Device.confirmed
  rw [Device.entry_setEntry_self]
  exact ⟨rfl, posted⟩

theorem Device.fillsNone_setEntry {x : Entry} (h : d.fillsNone) : (d.setEntry i x).fillsNone := fun a k text hp => by
  rcases List.mem_append.1 hp with hp | hp
  · exact h a k text hp
  · cases (mem_rewriteOf.1 hp).2

theorem Device.fillsNone_confirmed (h : d.fillsNone) : (d.confirmed i).fillsNone :=
  Device.fillsNone_setEntry (Device.fillsNone_reverifiedAll h _)

theorem Cause.getLsbD_catalogue (x : BitVec 7) : (x ||| Cause.catalogue.flag).getLsbD 3 = true := by
  rw [BitVec.getLsbD_or]; simp [Cause.flag]

/-- The end of a reverification that matches (R18, R57). -/
theorem State.reverify_passed {E : CatIndex → Prop} {vfy : Verifier} (hs : s.safe) (moves : Moves (.catalogue E) s.dev b (f s.dev))
    (done : f s.dev = ({ s.dev with vfy } : Device).reverifyPassed i) (state : (s.dev.entry i).state = .reverifying) :
    let t := s.act .sound f
    ((f s.dev).takeExit s.dev).fillsNone ∧ t.dev.port.causes.getLsbD 3 = true ∧ (t.dev.entry i).state = .ready ∧
      (t.dev.entry i).posted = (s.dev.entry i).posted ∧
      ∀ a, (s.dev.entry i).rejecters.has a = true →
        ((t.dev.record a).cell (s.dev.entry i).stream).rejects = ((s.dev.record a).cell (s.dev.entry i).stream).rejects ∧
          ((t.dev.record a).cell (s.dev.entry i).stream).hold =
            (((s.dev.record a).cell (s.dev.entry i).stream).hold || ((s.dev.record a).cell (s.dev.entry i).stream).rejects == 3) := by
  intro t
  let d : Device := { s.dev with vfy }
  have exit : (f s.dev).Marks ((f s.dev).takeExit s.dev) := Device.marks_takeExit (State.calm_catalogue hs moves) _
  rw [Device.reverifyPassed_eq] at done
  have raised : (d.confirmed i).replanAll.Tidied (f s.dev) := done ▸ Device.tidied_raise _ _
  have tidied : (d.confirmed i).Tidied ((f s.dev).takeExit s.dev) := ((Device.tidied_replanAll _).trans raised).trans exit.toTidied
  have fills : d.fillsNone := fun a k text hp => by
    have : .noticeFill a k text ∈ s.dev.outbox := hp
    rw [hs.outbox] at this; cases this
  obtain ⟨ready, posted⟩ := Device.entry_confirmed (d := d) state
  have kept := (tidied.entry i).kept (by rw [ready]; simp)
  have none := tidied.fillsNone (Device.fillsNone_confirmed fills)
  refine ⟨none, ?_, ?_, ?_, fun a ha => ?_⟩
  · show (s.act .sound f).dev.port.causes.getLsbD 3 = true
    rw [State.act_dev]
    refine Device.causes_concluded ?_ _
    rw [done]; exact Cause.getLsbD_catalogue _
  · rw [State.entry_act, kept]; exact ready
  · rw [State.entry_act, kept]; exact posted
  · obtain ⟨rejects, hold⟩ := d.holds_reverifiedAll (st := (s.dev.entry i).stream) (s.dev.entry i).rejecters a ha
    show (((s.act .sound f).dev.record a).cell _).rejects = _ ∧ (((s.act .sound f).dev.record a).cell _).hold = _
    rw [State.act_dev, Device.cell_concluded (.inr none), tidied.rejects, tidied.hold]
    exact ⟨rejects, hold⟩

/-! ## A reverification that fails -/

/-- A RETIRING entry freed changes CAT, and hands over no notice. -/
theorem Device.freeIfRetired_eq (d : Device) (i : CatIndex) :
    ∃ cat l causes, d.freeIfRetired i = { d with cat, outbox := d.outbox ++ l, port.causes := causes } ∧
      (∀ a k text, .noticeFill a k text ∉ l) ∧ d.port.causes ||| causes = causes := by
  by_cases k : (d.entry i).state = .retiring ∧ (d.entry i).inUse = 0
  · have none : ∀ a kind text, Publication.noticeFill a kind text ∉
        rewriteOf (d.entry i).shown (Entry.blank (stepGeneration (d.entry i).generation) (d.entry i).fault).shown (.catRewrite i) ++
          d.returnsOf (d.entry i).pendingSlot .done .done 0 := by
      intro a kind text hp
      rcases List.mem_append.1 hp with hp | hp
      · cases (mem_rewriteOf.1 hp).2
      · obtain ⟨_, _, -, -, ret⟩ := Device.mem_returnsOf.1 hp
        cases ret
    rw [Device.freeIfRetired_pos k, Device.withdrawDone_eq]
    split
    · refine ⟨(d.freeEntry i (d.entry i).fault).cat, _, d.port.causes ||| Cause.catalogue.flag, ?_, none, by rw [← BitVec.or_assoc, BitVec.or_self]⟩
      rw [← List.append_assoc]; rfl
    · refine ⟨(d.freeEntry i (d.entry i).fault).cat, _, d.port.causes, ?_, none, BitVec.or_self⟩
      rw [← List.append_assoc]; rfl
  · rw [Device.freeIfRetired_neg k]
    exact ⟨d.cat, [], d.port.causes, by rw [List.append_nil], by simp, BitVec.or_self⟩

/-- Work for ACT comes with what ACT, the clock and the records' learned part make of it (R165). -/
theorem newActWork_of_learned (act : e.act = d.act) (fck : e.fck = d.fck) (learned : ∀ a : Addr, (e.record a).learned = (d.record a).learned) :
    newActWork d e = false := by
  have owed (a : Addr) : e.actOwed a = d.actOwed a := by
    have presence := congrArg ValRecord.presence (learned a)
    have pending := congrArg ValRecord.pendingFare (learned a)
    have presence : (e.record a).presence = (d.record a).presence := presence
    have pending : (e.record a).pendingFare = (d.record a).pendingFare := pending
    unfold Device.actOwed Device.standing Device.armingOpen Device.made
    dsimp only
    rw [act, presence, pending]
  have broadcast : e.broadcastOwed = d.broadcastOwed := by simp only [Device.broadcastOwed, Device.clockReached, act, fck]
  simp [newActWork, owed, broadcast]

/-- A command of CAT's that raises no exit event has none to answer. -/
theorem State.takeExit_catalogue {E : CatIndex → Prop} (moves : Moves (.catalogue E) s.dev b d) (exitEvent : d.exitEvent = false) :
    d.takeExit s.dev = d :=
  Device.takeExit_none exitEvent (newActWork_of_learned (moves.framed.act.resolve_left id) (moves.framed.fck.resolve_left id)
    fun a => (moves.recordStep a).learned.resolve_left id)

/-- The entry as a reverification that fails leaves it, before it is freed (R18). -/
def Device.unconfirmed (d : Device) (i : CatIndex) (fault : FaultCause) : Device :=
  (d.reverifiedAll (d.entry i).rejecters (d.entry i).stream false).setEntry i
    { d.entry i with state := .retiring, fault, rejecters := AddrSet.empty }

theorem Device.reverifyFailed_eq (d : Device) (i : CatIndex) (fault : FaultCause) :
    d.reverifyFailed i fault = ((d.unconfirmed i fault).raise .catalogue).freeIfRetired i := rfl

/-- The entry of a failed reverification is RETIRING, or FREE at once when no record names it (R15, R18). -/
theorem Device.entry_reverifyFailed (d : Device) (i : CatIndex) (fault : FaultCause) :
    (d.reverifyFailed i fault).entry i =
      if (d.entry i).inUse = 0 then (d.entry i).freedAs fault
      else { d.entry i with state := .retiring, fault, rejecters := AddrSet.empty } := by
  have entry : ((d.unconfirmed i fault).raise .catalogue).entry i =
      { d.entry i with state := .retiring, fault, rejecters := AddrSet.empty } := Device.entry_setEntry_self _ _ _
  rw [Device.reverifyFailed_eq]
  generalize (d.unconfirmed i fault).raise .catalogue = e at entry
  have freed : (e.freeEntry i fault).entry i = (d.entry i).freedAs fault := by
    rw [Device.freeEntry, entry, Device.entry_setEntry_self]; rfl
  by_cases unused : (d.entry i).inUse = 0
  · rw [Device.freeIfRetired_pos (by rw [entry]; exact ⟨rfl, unused⟩), if_pos unused, Device.withdrawDone_eq, entry]
    split
    · exact freed
    · exact freed
  · rw [Device.freeIfRetired_neg (by rw [entry]; exact fun k => unused k.2), if_neg unused]; exact entry

/-- What a failed reverification leaves beside the entry: the rejects taken back, cause CATALOGUE raised, no notice and no exit event. -/
theorem Device.reverifyFailed_rest (d : Device) (i : CatIndex) (fault : FaultCause) :
    ((d.reverifyFailed i fault).port.causes.getLsbD 3 = true) ∧ (d.reverifyFailed i fault).exitEvent = d.exitEvent ∧
      (d.fillsNone → (d.reverifyFailed i fault).fillsNone) ∧
      ∀ a : Addr, (((d.reverifyFailed i fault).record a).cell (d.entry i).stream).rejects =
        if (d.entry i).rejecters.has a then ((d.record a).cell (d.entry i).stream).rejects - 1
        else ((d.record a).cell (d.entry i).stream).rejects := by
  have rejects := d.rejects_reverifiedAll (st := (d.entry i).stream) (d.entry i).rejecters
  obtain ⟨ros, k, rewrites, same⟩ := d.reverifiedAll_false_eq (d.entry i).rejecters (d.entry i).stream
  obtain ⟨cat, l, causes, freed, none, grown⟩ := ((d.unconfirmed i fault).raise .catalogue).freeIfRetired_eq i
  have raised : causes.getLsbD 3 = true := by
    rw [← grown]
    show ((_ ||| Cause.catalogue.flag) ||| causes).getLsbD 3 = true
    rw [BitVec.getLsbD_or, Cause.getLsbD_catalogue, Bool.true_or]
  rw [Device.reverifyFailed_eq, freed]
  unfold Device.unconfirmed
  rw [same] at rejects ⊢
  refine ⟨raised, rfl, fun fills a kind text hp => ?_, rejects⟩
  rcases List.mem_append.1 hp with hp | hp
  · refine Device.fillsNone_setEntry (fun a k text hp => ?_) a kind text hp
    rcases List.mem_append.1 hp with hp | hp
    · exact fills a k text hp
    · cases rewrites _ hp
  · exact none a kind text hp

/-- The end of a reverification that fails (R18, R57). -/
theorem State.reverify_failed {E : CatIndex → Prop} {vfy : Verifier} {fault : FaultCause} (hs : s.safe)
    (moves : Moves (.catalogue E) s.dev b (f s.dev)) (done : f s.dev = ({ s.dev with vfy } : Device).reverifyFailed i fault) :
    let t := s.act .sound f
    let e := s.dev.entry i
    ((f s.dev).takeExit s.dev).fillsNone ∧ t.dev.port.causes.getLsbD 3 = true ∧
      (∀ a, ((t.dev.record a).cell e.stream).rejects =
        if e.rejecters.has a then ((s.dev.record a).cell e.stream).rejects - 1 else ((s.dev.record a).cell e.stream).rejects) ∧
      t.dev.entry i = if e.inUse = 0 then e.freedAs fault else { e with state := .retiring, fault, rejecters := AddrSet.empty } := by
  intro t e
  obtain ⟨causes, exitEvent, fills, rejects⟩ := ({ s.dev with vfy } : Device).reverifyFailed_rest i fault
  have entry := ({ s.dev with vfy } : Device).entry_reverifyFailed i fault
  rw [← done] at causes exitEvent fills rejects entry
  have quiet : (f s.dev).takeExit s.dev = f s.dev := State.takeExit_catalogue moves (exitEvent.trans hs.exitEvent)
  have none : ((f s.dev).takeExit s.dev).fillsNone := by
    rw [quiet]
    refine fills fun a k text hp => ?_
    have : .noticeFill a k text ∈ s.dev.outbox := hp
    rw [hs.outbox] at this; cases this
  refine ⟨none, ?_, fun a => ?_, ?_⟩
  · show (s.act .sound f).dev.port.causes.getLsbD 3 = true
    rw [State.act_dev]; exact Device.causes_concluded causes _
  · show (((s.act .sound f).dev.record a).cell _).rejects = _
    rw [State.act_dev, Device.cell_concluded (.inr none), quiet]; exact rejects a
  · show (s.act .sound f).dev.entry i = _
    rw [State.entry_act, quiet]; exact entry

/-! ## The obligation -/

theorem Device.verificationEnded_idle {m : Ram} {ranges : List HostRange} (h : d.vfy.inFlight = false ∨ d.vfy.queue = []) :
    d.verificationEnded m ranges = d := by
  unfold Device.verificationEnded
  split
  · rename_i flight queue
    rcases h with h | h
    · rw [flight] at h; cases h
    · rw [queue] at h; cases h
  · rfl

theorem Device.verificationEnded_eq {m : Ram} {ranges : List HostRange} {rest : List CatIndex} (flight : d.vfy.inFlight = true)
    (queue : d.vfy.queue = i :: rest) :
    d.verificationEnded m ranges = d.endVerification i (verify m ranges d.areaBase (d.entry i)) := by
  unfold Device.verificationEnded
  rw [flight, queue]

/-- The verify queue without its head, and nothing in flight (R8). -/
def Verifier.ended (v : Verifier) : Verifier := { queue := v.queue.drop 1, inFlight := false }

theorem Device.endVerification_verifying {v : Verification} (h : (d.entry i).state = .verifying) :
    d.endVerification i v = ({ d with vfy := d.vfy.ended } : Device).firstVerified i v := by
  unfold Device.endVerification
  dsimp only
  split
  · rfl
  all_goals rename_i state; exact absurd (h.symm.trans state) (by simp)

theorem Device.reverifyEnded_eq (d : Device) (i : CatIndex) (v : Verification) :
    d.reverifyEnded i v = if v = .matched then d.reverifyPassed i else d.reverifyFailed i v.fault := by
  cases v with
  | matched => exact (if_pos rfl).symm
  | mismatch => exact (if_neg (by simp)).symm
  | busError => exact (if_neg (by simp)).symm
  | gatherBreak => exact (if_neg (by simp)).symm

theorem Device.endVerification_reverifying {v : Verification} (h : (d.entry i).state = .reverifying) :
    d.endVerification i v =
      if v = .matched then ({ d with vfy := d.vfy.ended } : Device).reverifyPassed i
      else ({ d with vfy := d.vfy.ended } : Device).reverifyFailed i v.fault := by
  unfold Device.endVerification
  dsimp only
  split
  · rename_i state; exact absurd (h.symm.trans state) (by simp)
  · exact Device.reverifyEnded_eq _ i v
  all_goals rename_i state; exact absurd (h.symm.trans state) (by simp)

theorem Device.endVerification_other {v : Verification} (h : (d.entry i).state ≠ .verifying) (k : (d.entry i).state ≠ .reverifying) :
    d.endVerification i v = { d with vfy := d.vfy.ended } := by
  unfold Device.endVerification
  dsimp only
  split
  · rename_i state; exact absurd state h
  · rename_i state; exact absurd state k
  all_goals rfl

theorem Device.vfy_endVerification (d : Device) (i : CatIndex) (v : Verification) : (d.endVerification i v).vfy = d.vfy.ended := by
  have kept {e : Device} (h : Moves { Scope.narrow with entry := (· = i) } { d with vfy := d.vfy.ended } false e) : e.vfy = d.vfy.ended :=
    h.framed.vfy.resolve_left id
  unfold Device.endVerification
  dsimp only
  split
  · rename_i state; exact kept (Device.moves_firstVerified rfl state .start)
  · rename_i state; exact kept (Device.moves_reverifyEnded rfl state .start)
  all_goals rfl

/-- What a verification's end leaves of the blocks it does not concern. -/
theorem State.verification_others {v : Verification} (hs : s.safe) (done : f s.dev = s.dev.endVerification i v)
    (fills : ((f s.dev).takeExit s.dev).fillsNone) :
    let t := s.act .sound f
    t.dev.vfy = s.dev.vfy.ended ∧ s.dev.entriesKept t.dev (some i) ∧ s.dev.learnedKept t.dev none ∧ s.dev.portKept t.dev ∧
      t.dev.tgt = s.dev.tgt ∧ t.dev.htq = s.dev.htq ∧ t.dev.act = s.dev.act ∧ t.dev.fck = s.dev.fck ∧
      (s.awake → t.dev.lnc = s.dev.lnc) := by
  intro t
  have moves : Moves (.catalogue (· = i)) s.dev false (f s.dev) := done ▸ Device.moves_endVerification rfl trivial .start
  obtain ⟨entries, learned, port, tgt, htq, act, fck, vfy, lnc⟩ := Device.concluded_moves (before := s.dev) (except := some i)
    (fun j (k : j = i) => by rw [k]) (State.calm_catalogue hs moves) (.inr fills) moves
  have dev : t.dev = (f s.dev).concluded s.dev := s.act_dev f
  rw [← dev] at entries learned port tgt htq act fck vfy lnc
  refine ⟨vfy.trans ?_, entries, learned, port, tgt, htq, act, fck, lnc⟩
  rw [done]; exact s.dev.vfy_endVerification i v

/-- A verification's end hands over no notice. -/
theorem State.fillsNone_verification {v : Verification} (hs : s.safe) (done : f s.dev = s.dev.endVerification i v) :
    ((f s.dev).takeExit s.dev).fillsNone := by
  have moves : Moves (.catalogue (· = i)) s.dev false (f s.dev) := done ▸ Device.moves_endVerification rfl trivial .start
  have exit : (f s.dev).Marks ((f s.dev).takeExit s.dev) := Device.marks_takeExit (State.calm_catalogue hs moves) _
  by_cases verifying : (s.dev.entry i).state = .verifying
  · rw [Device.endVerification_verifying verifying] at done
    exact exit.toTidied.fillsNone (State.first_verified hs moves done).1
  · by_cases reverifying : (s.dev.entry i).state = .reverifying
    · rw [Device.endVerification_reverifying reverifying] at done
      split at done
      · exact (State.reverify_passed hs moves done reverifying).1
      · exact (State.reverify_failed hs moves done).1
    · rw [Device.endVerification_other verifying reverifying] at done
      refine exit.toTidied.fillsNone fun a k text hp => ?_
      rw [done] at hp
      have : .noticeFill a k text ∈ s.dev.outbox := hp
      rw [hs.outbox] at this; cases this

/-- Settles O49, by the state of the entry verified and the result. -/
theorem verificationSettled : Obligations.VerificationSettled := by
  intro s
  refine ⟨?_, fun ranges hs => ⟨fun idle => ?_, fun i rest flight queue => ?_⟩⟩
  · show Host.Outcome.next ({ s with dev := s.dev.startVerification } : State) = _
    congr 1
    unfold Device.startVerification
    split
    · rfl
    · rfl
  · have same : s.act .sound (·.verificationEnded s.ram ranges) = s := State.act_same hs (Device.verificationEnded_idle idle)
    exact congrArg Host.Outcome.next same
  · intro e result fault outcome
    have done := Device.verificationEnded_eq (d := s.dev) (m := s.ram) (ranges := ranges) flight queue
    have outcomes : outcome = Verification.outcome result := by
      show (match verify s.ram ranges s.dev.areaBase (s.dev.entry i) with
        | .matched => _ | .mismatch => _ | .busError => _ | .gatherBreak => _) = Verification.outcome (verify s.ram ranges s.dev.areaBase (s.dev.entry i))
      cases verify s.ram ranges s.dev.areaBase (s.dev.entry i) <;> rfl
    rw [outcomes]
    have fills := State.fillsNone_verification (f := (·.verificationEnded s.ram ranges)) hs done
    have moves : Moves (.catalogue (· = i)) s.dev false (s.dev.verificationEnded s.ram ranges) :=
      done ▸ Device.moves_endVerification rfl trivial .start
    obtain ⟨vfy, others⟩ := State.verification_others (f := (·.verificationEnded s.ram ranges)) hs done fills
    obtain ⟨entries, learned, port, tgt, htq, act, fck, lnc⟩ := others
    refine ⟨_, rfl, ?_, entries, learned, port, tgt, htq, act, fck, lnc, fun verifying => ?_, fun reverifying => ?_⟩
    · refine vfy.trans ?_
      rw [Verifier.ended, queue]; rfl
    · rw [Device.endVerification_verifying verifying] at done
      obtain ⟨-, ready, freed, returned⟩ := State.first_verified (f := (·.verificationEnded s.ram ranges)) hs moves done
      exact ⟨ready, freed, fun slots opened => returned slots (by rcases opened with k | k <;> simp [Device.areaOpen, k])⟩
    · rw [Device.endVerification_reverifying reverifying] at done
      split at done
      · rename_i matched
        obtain ⟨-, causes, ready, posted, cells⟩ := State.reverify_passed (f := (·.verificationEnded s.ram ranges)) hs moves done reverifying
        exact ⟨causes, fun _ => ⟨ready, posted, cells⟩, fun k => absurd matched k⟩
      · rename_i failed
        obtain ⟨-, causes, rejects, entry⟩ := State.reverify_failed (f := (·.verificationEnded s.ram ranges)) hs moves done
        exact ⟨causes, fun k => absurd k failed, fun _ =>
          ⟨rejects, fun unused => entry.trans (if_pos unused), fun used => entry.trans (if_neg used)⟩⟩

end Sys2Proof.Machine
end

