-- ==== Sys2Proof/Proofs/Cancel.lean ====
section
/-! CANCEL (R15, R83, R103, R145, R187, R196). -/

namespace Sys2Proof.Machine

variable {s : State} {slot : Slot} {c d e before : Device} {b : Bool} {i : CatIndex}

/-! ## Records closed by targets, judgements and cut exchanges -/

namespace Device

theorem closes_same {e : Device} (port : e.port = d.port) (cat : e.cat = d.cat) (outbox : e.outbox = d.outbox) : d.Closes e :=
  .of_same (congrArg Port.held port) cat ⟨[], by rw [List.append_nil]; exact outbox, by simp⟩

theorem closes_raise (d : Device) (x : Cause) : d.Closes (d.raise x) := (d.tidied_raise x).toCloses

theorem closes_setAct (d : Device) (x : Coordinator) : d.Closes (d.setAct x) :=
  .of_same rfl rfl ⟨rewriteOf (coordBody d.act) (coordBody x) .coordRewrite, rfl, fun p hp => by
    unfold rewriteOf at hp
    split at hp
    · rw [List.mem_singleton.1 hp]; rfl
    · cases hp⟩

theorem closes_coordRewrite (d : Device) : d.Closes (d.handOver .coordRewrite) :=
  .of_same rfl rfl ⟨[.coordRewrite], rfl, by simp [Publication.isRewrite]⟩

theorem closes_mapRecords (d : Device) (f) : d.Closes (d.mapRecords f) :=
  .of_same rfl rfl ⟨_, rfl, fun p hp => by
    obtain ⟨a, -, mem⟩ := List.mem_flatMap.1 hp
    rw [(mem_rewriteOf.1 mem).2]; rfl⟩

theorem closes_replan (d : Device) (a : Addr) : d.Closes (d.replan a) := (d.tidied_replan a).toCloses

theorem closes_replanLifted (d : Device) (a : Addr) (r : ValRecord) (l : List Stream) : d.Closes (d.replanLifted a r l) := by
  have lifted (p : Bool) (d : Device) : d.Closes (if p then d.replan a else d) := .ite (fun _ => d.closes_replan a) fun _ => .refl d
  exact (lifted _ d).trans (lifted _ _)

theorem closes_targetChanged (d : Device) (l : List Stream) : d.Closes (d.targetChanged l) :=
  .foldl _ (fun e a => e.closes_replanLifted a (d.record a) l) (d.closes_mapRecords _)

theorem closes_decideCommit (d : Device) (x : CommitCause) : d.Closes (d.decideCommit x) := (d.closes_setAct _).trans (closes_raise _ _)

theorem closes_judgeCommit (d : Device) : d.Closes d.judgeCommit := by
  unfold Device.judgeCommit
  exact .ite (fun _ => .ite (fun _ => d.closes_decideCommit _) fun _ => .ite (fun _ => d.closes_decideCommit _) fun _ => .refl d)
    fun _ => .refl d

theorem closes_judgeTime (d : Device) : d.Closes d.judgeTime := by
  unfold Device.judgeTime
  split
  · exact .ite (fun _ => ((d.closes_setAct _).trans (closes_raise _ _)).trans (closes_judgeCommit _)) fun _ => .refl d
  · exact .ite (fun _ => d.closes_judgeCommit) fun _ => (d.closes_setAct _).trans (closes_raise _ _)
  · exact .refl d

theorem closes_actWorkReported (d x : Device) : d.Closes (d.actWorkReported x) :=
  .ite (fun _ => d.tidied_reportExit.toCloses) fun _ => .refl d

theorem closes_startOver (d : Device) : d.Closes d.startOver := by
  unfold Device.startOver
  extract_lets standings src src2 d1
  have h1 : d.Closes d1 := closes_same rfl rfl rfl
  exact (((h1.trans d1.closes_coordRewrite).trans (closes_raise _ _)).trans (closes_judgeTime _)).trans (closes_actWorkReported _ _)

theorem closes_setFareTarget (d : Device) (t : FareTarget) : d.Closes (d.setFareTarget t) := by
  have h1 : d.Closes { d with tgt.fare := t } := closes_same rfl rfl rfl
  exact ((h1.trans (closes_targetChanged _ _)).trans (tidied_replanAll _).toCloses).trans (closes_startOver _)

theorem closes_applyHeldTarget (d : Device) : d.Closes d.applyHeldTarget := by
  unfold Device.applyHeldTarget
  split
  · exact .refl d
  · rename_i t held
    have h1 : d.Closes { d with tgt.heldFare := none } := closes_same rfl rfl rfl
    exact .ite (fun _ => h1) fun _ => h1.trans (closes_setFareTarget _ t)

theorem closes_judgeSettled (d : Device) : d.Closes d.judgeSettled :=
  .ite (fun _ => ((d.closes_setAct _).trans (closes_raise _ _)).trans (closes_applyHeldTarget _)) fun _ => .refl d

theorem closes_broadcastMade (d : Device) : d.Closes d.broadcastMade := by
  have made (x : Coordinator) : d.Closes ((({ d with act := x } : Device).handOver .coordRewrite).judgeSettled) :=
    ((closes_same (d := d) (e := { d with act := x }) rfl rfl rfl).trans (closes_coordRewrite _)).trans (closes_judgeSettled _)
  exact made _

theorem closes_burstBack (d : Device) (e : Exchange) : d.Closes (d.burstBack e) := by
  unfold Device.burstBack
  split
  · exact .ite (fun _ => closes_same rfl rfl rfl) fun _ => .refl d
  · exact .refl d

theorem closes_cutExchange (d : Device) : d.Closes d.cutExchange := by
  unfold Device.cutExchange
  split
  · exact .refl d
  · rename_i x hx
    have h1 : d.Closes d.clearExchange := closes_same rfl rfl rfl
    have h2 : d.Closes (d.clearExchange.burstBack x) := h1.trans (closes_burstBack _ x)
    exact .ite (fun _ => h2.trans (closes_broadcastMade _)) fun _ => h2

theorem closes_lineToIdle (d : Device) : d.Closes d.lineToIdle := d.closes_cutExchange.trans (closes_same rfl rfl rfl)

theorem closes_idleIfStopping (d : Device) : d.Closes d.idleIfStopping := .ite (fun _ => d.closes_lineToIdle) fun _ => .refl d

theorem closes_recover (d : Device) : d.Closes d.recover := by
  unfold Device.recover
  split
  · exact closes_same rfl rfl rfl
  · exact closes_same rfl rfl rfl
  all_goals exact .refl d

end Device

/-! ## What a plan is made from (R64 to R79) -/

/-- Two parts from which one plan of a validator is made: the same catalogue, targets and line configuration, the same transfer records
of the validator, and validator records that differ in statuses, reach and reply time. -/
structure Device.Outlook (a : Addr) (d e : Device) : Prop where
  entry : ∀ i, e.entry i = d.entry i
  tgt : e.tgt = d.tgt
  config : e.lnc.config = d.lnc.config
  transfers : e.transfers a = d.transfers a
  learned : (e.record a).learned = (d.record a).learned
  cells : ∀ st, (e.record a).cell st = { (d.record a).cell st with status := ((e.record a).cell st).status }

namespace Device.Outlook

variable {a : Addr}

theorem refl (a : Addr) (d : Device) : d.Outlook a d := ⟨fun _ => rfl, rfl, rfl, rfl, rfl, fun _ => rfl⟩

theorem trans (h : c.Outlook a d) (k : d.Outlook a e) : c.Outlook a e where
  entry := fun i => (k.entry i).trans (h.entry i)
  tgt := k.tgt.trans h.tgt
  config := k.config.trans h.config
  transfers := k.transfers.trans h.transfers
  learned := k.learned.trans h.learned
  cells := fun st => by rw [k.cells, h.cells]

variable (h : d.Outlook a e)
include h

theorem presence : (e.record a).presence = (d.record a).presence := (ValRecord.of_learned h.learned).1
theorem maxPayload : (e.record a).maxPayload = (d.record a).maxPayload := by
  have same := congrArg ValRecord.maxPayload h.learned
  exact same
theorem fareCapacity : (e.record a).fareCapacity = (d.record a).fareCapacity := by
  have same := congrArg ValRecord.fareCapacity h.learned
  exact same
theorem blockCapacity : (e.record a).blockCapacity = (d.record a).blockCapacity := by
  have same := congrArg ValRecord.blockCapacity h.learned
  exact same
theorem held (st : Stream) : ((e.record a).cell st).held = ((d.record a).cell st).held := by rw [h.cells]
theorem hold (st : Stream) : ((e.record a).cell st).hold = ((d.record a).cell st).hold := by rw [h.cells]
theorem room (st : Stream) : ((e.record a).cell st).room = ((d.record a).cell st).room := by rw [h.cells]

theorem targetOf (st : Stream) : e.targetOf st = d.targetOf st := by simp only [Device.targetOf, h.tgt]

theorem computeReach : e.computeReach a = d.computeReach a := by
  have footprints : e.targetFootprint = d.targetFootprint := funext fun k => by simp only [Device.targetFootprint, h.tgt, h.entry]
  simp only [Device.computeReach, h.tgt, footprints, h.blockCapacity]

theorem pathCost (path : List CatIndex) : e.pathCost a path = d.pathCost a path := by
  have resume (i) : e.resumeOffset a i = d.resumeOffset a i := by simp only [Device.resumeOffset, h.transfers, h.entry]
  simp only [Device.pathCost, Device.payload, resume, h.entry, h.config, h.maxPayload]

theorem chains (st : Stream) (target links base : Nat) : e.chains st target links base = d.chains st target links base := by
  induction links generalizing base with
  | zero => rfl
  | succ links ih => simp only [Device.chains, Device.deltasFrom, h.entry, ih]

theorem choosePath (st : Stream) (held target : Nat) : e.choosePath a st held target = d.choosePath a st held target := by
  have before : e.chainBefore a = d.chainBefore a := funext fun p => funext fun q => by simp only [Device.chainBefore, h.pathCost]
  simp only [Device.choosePath, Device.bestChain, Device.chainCandidates, h.chains, before, Device.wholeCandidate, h.entry, h.pathCost]

theorem sendJobs (st : Stream) (path : List CatIndex) (link : Nat) : e.sendJobs st path link = d.sendJobs st path link := by
  induction path generalizing link with
  | nil => rfl
  | cons i path ih => simp only [Device.sendJobs, h.entry, ih]

theorem streamPlan (reach : Nat × ReachStop) (st : Stream) : e.streamPlan a reach st = d.streamPlan a reach st := by
  have path : e.pathStatus a st = d.pathStatus a st := by
    have held : (e.record a).heldOf st = (d.record a).heldOf st := h.held st
    have fits (p : List CatIndex) : e.pathFits a st p = d.pathFits a st p := by simp only [Device.pathFits, h.entry, h.fareCapacity]
    simp only [Device.pathStatus, h.choosePath, h.sendJobs, h.targetOf, held, fits]
  simp only [Device.streamPlan, h.targetOf, h.held, h.hold, h.room, path]

/-- The plan is the same. -/
theorem computePlan : e.computePlan a = d.computePlan a := by
  have streams : e.streamPlan a (d.computeReach a) = d.streamPlan a (d.computeReach a) := funext fun st => h.streamPlan _ st
  simp only [Device.computePlan, h.computeReach, streams]

theorem planFor : e.planFor a = d.planFor a := by simp only [Device.planFor, h.presence, h.computePlan]

end Device.Outlook

/-! ## Parts without transfer records -/

/-- No transfer record is open. -/
def Device.bare (d : Device) : Prop := ∀ a : Addr, (d.transfers a).records = []

theorem Device.Tidied.bare (h : d.Tidied e) (k : d.bare) : e.bare := fun a => by
  refine List.eq_nil_iff_forall_not_mem.2 fun r hr => ?_
  obtain ⟨q, hq, -⟩ := h.records a r hr
  rw [k] at hq; cases hq

theorem Transfers.eq_of_records {t : Transfers} (h : t.records = []) : t = { active := none, stack := [], abandonAll := t.abandonAll } := by
  obtain ⟨active, stack, flag⟩ := t
  cases active with
  | none =>
    have : stack = [] := h
    rw [this]
  | some r => cases h

/-- Without transfer records, replanning and a calm exit event leave what plans are made from. -/
theorem Device.Marks.outlook (h : d.Marks e) (bare : d.bare) (moves : Moves .line d b e) (config : e.lnc.config = d.lnc.config) (a : Addr) :
    d.Outlook a e where
  entry := fun i => h.whole i fun a r hr => by rw [bare] at hr; cases hr
  tgt := moves.framed.tgt.resolve_left id
  config := config
  transfers := by
    rw [Transfers.eq_of_records (h.bare bare a), Transfers.eq_of_records (bare a), h.abandonAll]
  learned := (moves.recordStep a).learned.resolve_left id
  cells := h.cells a

theorem Device.lnc_of_narrow (h : Moves .narrow d b e) : e.lnc = d.lnc := (h.framed.lnc.resolve_left id).resolve_left id

theorem Device.device_of_narrow (h : Moves .narrow d b e) : e.port.device = d.port.device := by
  have device := congrArg Port.device (h.framed.port.resolve_left id)
  exact device

/-- Without transfer records every validator's plan is made from the part as it stands once all are replanned. -/
theorem Device.plan_replanAll (bare : d.bare) (a : Addr) : d.replanAll.plan a = d.replanAll.planFor a := by
  have all : ∀ (l : List Addr) (d : Device), d.bare → a ∈ l ∨ d.plan a = d.planFor a →
      (l.foldl (fun d a => d.replan a) d).plan a = (l.foldl (fun d a => d.replan a) d).planFor a := by
    intro l
    induction l with
    | nil => exact fun d _ h => h.resolve_left List.not_mem_nil
    | cons b l ih =>
      intro d bare h
      have marks : d.Marks (d.replan b) := d.marks_replan b
      have narrow : Moves .narrow d false (d.replan b) := Device.moves_replan .start
      have outlook : d.Outlook a (d.replan b) :=
        marks.outlook bare (b := false) (Device.moves_replan .start) (by rw [Device.lnc_of_narrow narrow]) a
      refine ih _ (marks.bare bare) ?_
      rw [List.mem_cons] at h
      by_cases here : b = a
      · subst here
        right
        rw [outlook.planFor, Device.plan_replan, if_pos rfl]
      · refine (h.imp_left fun k => k.resolve_left (Ne.symm here)).imp_right fun k => ?_
        rw [outlook.planFor, Device.plan_replan, if_neg here, k]
  exact all allAddrs d bare (.inl (List.mem_finRange a))

theorem Device.transfers_dropAll (d : Device) (a b : Addr) (x : Bool) :
    (d.dropAll a x).transfers b = if a = b then { active := none, stack := [], abandonAll := x } else d.transfers b := by
  unfold Device.dropAll
  rw [Device.transfers_setTransfers]
  split
  · rfl
  · rename_i other; exact d.transfers_dropRecords _ other

/-- CANCEL's drops leave no record and no ABANDON-all owed (R145, R196). -/
theorem Device.transfers_dropEverything (d : Device) (a : Addr) :
    d.dropEverything.transfers a = { active := none, stack := [], abandonAll := false } := by
  have all : ∀ (l : List Addr) (d : Device), a ∈ l ∨ d.transfers a = { active := none, stack := [], abandonAll := false } →
      (l.foldl (fun d a => d.dropAll a false) d).transfers a = { active := none, stack := [], abandonAll := false } := by
    intro l
    induction l with
    | nil => exact fun d h => h.resolve_left List.not_mem_nil
    | cons b l ih =>
      intro d h
      refine ih _ ?_
      rw [Device.transfers_dropAll, List.mem_cons] at *
      by_cases here : b = a
      · rw [if_pos here]; exact .inr rfl
      · rw [if_neg here]; exact h.imp_left fun k => k.resolve_left (Ne.symm here)
  exact all allAddrs d (.inl (List.mem_finRange a))

/-! ## The line after CANCEL (R103, R196) -/

/-- An exchange cut is no more, and of the line its timers, its turn and the addresses held over alone change with it. -/
theorem Device.lnc_cutExchange (d : Device) :
    d.cutExchange.lnc.exchange = none ∧
      { d.cutExchange.lnc with
        exchange := d.lnc.exchange, replyTimer := d.lnc.replyTimer, deferral := d.lnc.deferral, heldOver := d.lnc.heldOver
        turn := d.lnc.turn } = d.lnc := by
  unfold Device.cutExchange
  split
  · rename_i none; exact ⟨none, rfl⟩
  · rename_i x some
    have back : Calm d.clearExchange (d.clearExchange.burstBack x) := by
      unfold Device.burstBack
      split
      · exact .ite (Device.calm_changeRecord (.refl _) _ _ _) (.refl _)
      · exact .refl _
    have calm : Calm d.clearExchange
        (if x.kind = .commitAll then (d.clearExchange.burstBack x).broadcastMade else d.clearExchange.burstBack x) :=
      .ite (Device.calm_broadcastMade back) back
    dsimp only
    generalize (if x.kind = .commitAll then (d.clearExchange.burstBack x).broadcastMade else d.clearExchange.burstBack x) = e at calm
    have gone : e.lnc.exchange.map Exchange.bare = none := calm.exchange
    have lnc := congrArg (fun l : LineController => { l with
      exchange := d.lnc.exchange, replyTimer := d.lnc.replyTimer, deferral := d.lnc.deferral, heldOver := d.lnc.heldOver
      turn := d.lnc.turn }) calm.lnc
    exact ⟨Option.map_eq_none_iff.1 gone, lnc⟩

/-- The line of CANCEL in RECOVER: from CYCLE and QUIET the guard time begins (R103, R196). -/
def LineState.recovered : LineState → LineState
  | .cycle => .recoverCycle
  | .quiet => .recoverQuiet false
  | .idle => .idle
  | .recoverCycle => .recoverCycle
  | .recoverQuiet e => .recoverQuiet e

theorem Device.lnc_recover (d : Device) :
    d.recover.lnc = { d.lnc with
      line := d.lnc.line.recovered
      guardTimer := if d.lnc.line = .cycle ∨ d.lnc.line = .quiet then some d.lnc.config.guardTime else d.lnc.guardTimer } := by
  unfold Device.recover
  split
  · rename_i line; simp [line, LineState.recovered]
  · rename_i line; simp [line, LineState.recovered]
  all_goals
    rename_i line
    rw [if_neg (by simp [line]), line, LineState.recovered, ← line]

/-- CANCEL's part once the exchange in flight is cut and the line is in RECOVER. -/
def Device.cancelStart (d : Device) : Device := { d.cutExchange.recover with lnc.turn := none }

theorem Device.cancel_eq (d : Device) : d.cancel = d.cancelStart.dropEverything.emptyPlans.replanAll.idleIfStopping := rfl

/-- The line as CANCEL leaves it before STOPPING is looked at (R196). -/
structure LineController.Cancelled (l m : LineController) : Prop where
  exchange : m.exchange = none
  turn : m.turn = none
  config : m.config = l.config
  pendingConfig : m.pendingConfig = l.pendingConfig
  pointer : m.pointer = l.pointer
  line : m.line = l.line.recovered
  guard : l.line = .cycle ∨ l.line = .quiet → m.guardTimer = some l.config.guardTime

theorem Device.cancelled_cancelStart (d : Device) : d.lnc.Cancelled d.cancelStart.lnc := by
  obtain ⟨exchange, kept⟩ := d.lnc_cutExchange
  have same : d.cancelStart.lnc = { d.cutExchange.recover.lnc with turn := none } := rfl
  rw [same, Device.lnc_recover]
  have config := congrArg LineController.config kept
  have pending := congrArg LineController.pendingConfig kept
  have pointer := congrArg LineController.pointer kept
  have line := congrArg LineController.line kept
  refine { exchange, turn := rfl, config := config, pendingConfig := pending, pointer := pointer, line := congrArg LineState.recovered line
           guard := fun h => ?_ }
  have config : d.cutExchange.lnc.config = d.lnc.config := config
  have line : d.cutExchange.lnc.line = d.lnc.line := line
  show (if d.cutExchange.lnc.line = .cycle ∨ d.cutExchange.lnc.line = .quiet then some d.cutExchange.lnc.config.guardTime else _) = _
  rw [line, if_pos h, config]

theorem LineState.recovered_ne (l : LineState) : l.recovered ≠ .cycle ∧ l.recovered ≠ .quiet := by
  cases l <;> exact ⟨by simp [LineState.recovered], by simp [LineState.recovered]⟩

/-- The line of CANCEL with STOPPING looked at. -/
theorem Device.lnc_cancel (d : Device) :
    d.cancel.lnc = if d.port.device = .stopping then
        { d.cancelStart.lnc with line := .idle, idleCount := 0, keepaliveTimer := none, guardTimer := none }
      else d.cancelStart.lnc := by
  have narrow : Moves .narrow d.cancelStart false d.cancelStart.dropEverything.emptyPlans.replanAll :=
    Device.moves_replanAll (Device.moves_emptyPlans (Device.moves_dropEverything .start))
  have lnc := Device.lnc_of_narrow narrow
  have stir : Stir d d.cancelStart := 
    Device.stir_lnc (Device.stir_recover (Device.stir_cutExchange (.refl d))) { d.cutExchange.recover.lnc with turn := none } fun k => k
  have device : d.cancelStart.dropEverything.emptyPlans.replanAll.port.device = d.port.device := by
    rw [Device.device_of_narrow narrow, stir.device]
  have none : d.cancelStart.lnc.exchange = none := d.cancelled_cancelStart.exchange
  rw [Device.cancel_eq]
  generalize d.cancelStart.dropEverything.emptyPlans.replanAll = e at lnc device
  have still : e.cutExchange = e := by
    unfold Device.cutExchange
    rw [lnc, none]
  unfold Device.idleIfStopping
  rw [device, lnc, none]
  split
  · rename_i stopping
    rw [if_pos stopping.1, Device.lineToIdle, still, ← lnc]
  · rename_i running
    rw [if_neg fun k => running ⟨k, rfl⟩, lnc]

/-- Without QUIET an exit event notes itself in a RECOVER entered from QUIET, and does nothing else (R120). -/
theorem Device.takeExit_unquiet (h : d.lnc.line ≠ .quiet) (before : Device) :
    d.takeExit before =
      { d with
        lnc.line := match d.lnc.line with
          | .recoverQuiet e => .recoverQuiet (e || (d.exitEvent || newActWork before d))
          | l => l
        exitEvent := false } := by
  have still {l : LineState} (line : d.lnc.line = l) :
      ({ d with exitEvent := false } : Device) = { d with lnc.line := l, exitEvent := false } := by subst line; rfl
  cases line : d.lnc.line with
  | quiet => exact absurd line h
  | recoverQuiet e =>
    unfold Device.takeExit
    rw [line]
  | idle => exact (Device.takeExit_awake (.inl line)).trans (still line)
  | cycle => exact (Device.takeExit_awake (.inr (.inl line))).trans (still line)
  | recoverCycle => exact (Device.takeExit_awake (.inr (.inr line))).trans (still line)

/-! ## The part after CANCEL -/

/-- What CANCEL may touch beside what replanning touches: the line, and ACT where a broadcast is cut. -/
def Scope.cancel (act : Prop) : Scope := { Scope.narrow with lnc := True, act }

theorem Device.lnc_cancel_line (d : Device) : d.cancel.lnc.line ≠ .quiet := by
  rw [Device.lnc_cancel]
  split
  · simp
  · rw [d.cancelled_cancelStart.line]; exact (LineState.recovered_ne _).2

/-- CANCEL and its exit event. -/
theorem Device.moves_cancelled {act : Prop} (h : act ∨ ∀ e, d.lnc.exchange = some e → e.kind ≠ .commitAll) :
    Moves (.cancel act) d false (d.cancel.takeExit before) :=
  Device.moves_takeExit trivial (.inr fun k => absurd k d.lnc_cancel_line) (Device.moves_cancel trivial h .start)

theorem Device.closes_cancelled (d before : Device) : d.Closes (d.cancel.takeExit before) := by
  have start : d.Closes d.cancelStart := (d.closes_cutExchange.trans (Device.closes_recover _)).trans (Device.closes_same rfl rfl rfl)
  have tidied : d.cancelStart.Tidied d.cancelStart.dropEverything.emptyPlans.replanAll :=
    ((Device.tidied_dropEverything _).trans (Device.tidied_emptyPlans _)).trans (Device.tidied_replanAll _)
  have cancel : d.Closes d.cancel := (start.trans tidied.toCloses).trans (Device.closes_idleIfStopping _)
  exact cancel.trans (Device.marks_takeExit (fun k => absurd k d.lnc_cancel_line) before).toCloses

/-- CANCEL leaves no record, no ABANDON-all owed, and every plan as it is made from the part that CANCEL leaves. -/
theorem Device.transfers_cancelled (d before : Device) (a : Addr) :
    (d.cancel.takeExit before).transfers a = { active := none, stack := [], abandonAll := false } ∧
      (d.cancel.takeExit before).plan a = (d.cancel.takeExit before).planFor a := by
  have emptied (a : Addr) : d.cancelStart.dropEverything.emptyPlans.transfers a = { active := none, stack := [], abandonAll := false } := by
    have all : ∀ (l : List Addr) (d : Device), (l.foldl (fun d a => d.setPlan a []) d).transfers a = d.transfers a := by
      intro l
      induction l with
      | nil => exact fun _ => rfl
      | cons b l ih => exact fun d => ih _
    exact (all allAddrs _).trans (d.cancelStart.transfers_dropEverything a)
  have bare : d.cancelStart.dropEverything.emptyPlans.bare := fun a => by rw [emptied]; rfl
  have marks := d.cancelStart.dropEverything.emptyPlans.marks_replanAll
  have planned := Device.plan_replanAll bare a
  have replanned := marks.bare bare
  have kept : d.cancelStart.dropEverything.emptyPlans.replanAll.transfers a = { active := none, stack := [], abandonAll := false } := by
    rw [Transfers.eq_of_records (replanned a), marks.abandonAll, emptied]
  have quiet : d.cancel.lnc.line ≠ .quiet := d.lnc_cancel_line
  have none : d.cancelStart.dropEverything.emptyPlans.replanAll.lnc.exchange = none := by
    have narrow : Moves .narrow d.cancelStart false d.cancelStart.dropEverything.emptyPlans.replanAll :=
      Device.moves_replanAll (Device.moves_emptyPlans (Device.moves_dropEverything .start))
    rw [Device.lnc_of_narrow narrow]; exact d.cancelled_cancelStart.exchange
  rw [Device.cancel_eq] at quiet ⊢
  generalize d.cancelStart.dropEverything.emptyPlans.replanAll = e at planned replanned kept quiet none
  have still : e.cutExchange = e := by
    unfold Device.cutExchange
    rw [none]
  have lnc : ∃ l, e.idleIfStopping = { e with lnc := l } ∧ l.config = e.lnc.config := by
    unfold Device.idleIfStopping
    split
    · rw [Device.lineToIdle, still]; exact ⟨_, rfl, rfl⟩
    · exact ⟨e.lnc, rfl, rfl⟩
  obtain ⟨l, idle, config⟩ := lnc
  rw [Device.takeExit_unquiet quiet, idle]
  refine ⟨kept, ?_⟩
  have outlook (l' : LineController) (hl : l'.config = e.lnc.config) : e.Outlook a { e with lnc := l', exitEvent := false } :=
    ⟨fun _ => rfl, rfl, hl, rfl, rfl, fun _ => rfl⟩
  refine planned.trans (outlook _ ?_).planFor.symm
  exact config

/-- A return that cannot be written joins the returns owed (R187). -/
theorem Device.owed_concluded {ret : Return} (closed : d.areaOpen = false) (h : .slotReturn ret ∈ (d.takeExit before).outbox) :
    ret ∈ (d.concluded before).port.returnsOwed := by
  have closedStill : (d.takeExit before).areaOpen ≠ true := by
    rw [Device.areaOpen, (Device.stir_takeExit (.refl d) before).device]
    exact fun k => by rw [Device.areaOpen] at closed; rw [closed] at k; cases k
  have left : ∀ (l : List Publication) (e : Device), .slotReturn ret ∈ l ∨ ret ∈ e.port.returnsOwed →
      ret ∈ (l.foldl Device.leave e).port.returnsOwed := by
    intro l
    induction l with
    | nil => exact fun e h => h.resolve_left List.not_mem_nil
    | cons p l ih =>
      refine fun e h => ih _ ?_
      rcases h with h | h
      · rcases List.mem_cons.1 h with rfl | h
        · exact .inr (List.mem_append_right _ (List.mem_singleton.2 rfl))
        · exact .inl h
      · right
        cases p
        case slotReturn => exact List.mem_append_left _ h
        all_goals exact h
  show ret ∈ ((d.takeExit before).published before).port.returnsOwed
  rw [Device.published, if_neg closedStill]
  exact left _ _ (.inl h)

/-! ## The obligation -/

/-- CANCEL hands over no notice. -/
theorem State.safe.fillsNone_cancelled (hs : s.safe) : (s.dev.cancel.takeExit s.dev).fillsNone :=
  (s.dev.closes_cancelled s.dev).fillsNone fun a k text hp => by rw [hs.outbox] at hp; cases hp

/-- A line that CANCEL leaves: the exchange and the turn gone, RECOVER entered, or IDLE in STOPPING (R103, R121, R196). -/
theorem Device.line_cancelled (d before : Device) :
    let m := (d.cancel.takeExit before).lnc
    (m.exchange = none ∧ m.turn = none ∧ m.config = d.lnc.config ∧ m.pendingConfig = d.lnc.pendingConfig ∧
      m.pointer = d.lnc.pointer) ∧
    (d.port.device ≠ .stopping ∨ d.lnc.line = .idle →
      (d.lnc.line = .idle → m.line = .idle) ∧
      (d.lnc.line = .cycle → m.line = .recoverCycle ∧ m.guardTimer = some d.lnc.config.guardTime) ∧
      (d.lnc.line = .quiet → (∃ e, m.line = .recoverQuiet e) ∧ m.guardTimer = some d.lnc.config.guardTime) ∧
      (d.lnc.line = .recoverCycle → m.line = .recoverCycle) ∧
      (∀ e, d.lnc.line = .recoverQuiet e → ∃ x, m.line = .recoverQuiet x ∧ (e = true → x = true))) ∧
    (d.port.device = .stopping → m.line = .idle) := by
  intro m
  have start := d.cancelled_cancelStart
  have lnc := d.lnc_cancel
  have exit := congrArg Device.lnc (Device.takeExit_unquiet d.lnc_cancel_line before)
  have exit : m = { d.cancel.lnc with
    line := match d.cancel.lnc.line with
      | .recoverQuiet e => .recoverQuiet (e || (d.cancel.exitEvent || newActWork before d.cancel))
      | l => l } := exit
  generalize (d.cancel.exitEvent || newActWork before d.cancel) = x at exit
  generalize d.cancel.lnc = l at exit lnc
  clear_value m
  subst exit
  by_cases stopping : d.port.device = .stopping
  · rw [if_pos stopping] at lnc
    subst lnc
    exact ⟨⟨start.exchange, start.turn, start.config, start.pendingConfig, start.pointer⟩,
      fun h => by
        have idle := h.resolve_left fun k => k stopping
        simp [idle], fun _ => rfl⟩
  · rw [if_neg stopping] at lnc
    subst lnc
    have line := start.line
    refine ⟨⟨start.exchange, start.turn, start.config, start.pendingConfig, start.pointer⟩, fun _ => ⟨fun k => ?_, fun k => ?_, fun k => ?_,
      fun k => ?_, fun e k => ?_⟩, fun k => absurd k stopping⟩
    · simp [line, k, LineState.recovered]
    · exact ⟨by simp [line, k, LineState.recovered], start.guard (.inl k)⟩
    · exact ⟨⟨x, by simp [line, k, LineState.recovered]⟩, start.guard (.inr k)⟩
    · simp [line, k, LineState.recovered]
    · exact ⟨e || x, by simp [line, k, LineState.recovered], fun he => by simp [he]⟩

theorem Stir.registers (h : Stir d e) : e.port.registers = d.port.registers := by
  have port := congrArg Port.registers h.port
  exact port

theorem Port.rotation_of_registers {p q : Port} {owed : List Return} (h : p.registers = { q.registers with returnsOwed := owed }) :
    p.rotation = q.rotation := by
  have rotation := congrArg Port.rotation h
  exact rotation

/-- Publication leaves what plans are made from. -/
theorem Device.outlook_concluded (h : d.areaOpen = true ∨ (d.takeExit before).fillsNone) (a : Addr) :
    (d.takeExit before).Outlook a (d.concluded before) := by
  obtain ⟨cat, -, tgt, -, xfr, -, -, lnc, -⟩ := d.concluded_blocks before
  exact { entry := fun i => by rw [Device.entry, cat]; rfl, tgt, config := congrArg LineController.config lnc
          transfers := by rw [Device.transfers, xfr]; rfl, learned := Device.learned_concluded h a
          cells := fun st => by rw [Device.cell_concluded h] }

/-- The records and plans after CANCEL. -/
theorem State.plans_cancelled (hs : s.safe) (learned : s.dev.learnedKept (s.act .sound Device.cancel).dev none) (a : Addr) :
    let t := s.act .sound Device.cancel
    t.dev.transfers a = { active := none, stack := [], abandonAll := false } ∧
      t.dev.plan a =
        (if (s.dev.record a).presence = .present ∨ (s.dev.record a).presence = .silent then (t.dev.computePlan a).2.2 else []) := by
  intro t
  obtain ⟨transfers, plan⟩ := s.dev.transfers_cancelled s.dev a
  obtain ⟨-, -, -, pln, -⟩ := s.dev.cancel.concluded_blocks s.dev
  have outlook := Device.outlook_concluded (before := s.dev) (.inr hs.fillsNone_cancelled) a
  have presence := (ValRecord.of_learned (learned a (by simp))).1
  rw [State.act_dev] at presence
  show (s.act .sound Device.cancel).dev.transfers a = _ ∧ (s.act .sound Device.cancel).dev.plan a =
    (if _ then ((s.act .sound Device.cancel).dev.computePlan a).2.2 else [])
  rw [State.act_dev]
  refine ⟨outlook.transfers.trans transfers, ?_⟩
  have kept : (s.dev.cancel.concluded s.dev).plan a = (s.dev.cancel.takeExit s.dev).plan a := by rw [Device.plan, pln]; rfl
  rw [kept, plan, ← outlook.planFor, Device.planFor, presence]

/-- What CANCEL leaves of the blocks it does not concern. -/
theorem State.kept_cancelled (hs : s.safe) :
    let t := s.act .sound Device.cancel
    s.dev.learnedKept t.dev none ∧ s.dev.entriesKept t.dev none ∧ s.dev.portKept t.dev ∧
      t.dev.port.rotation = s.dev.port.rotation ∧ t.dev.vfy = s.dev.vfy ∧ t.dev.fck = s.dev.fck ∧
      t.dev.htq = s.dev.htq ∧ t.dev.tgt.block = s.dev.tgt.block ∧
      ((∀ e, s.dev.lnc.exchange = some e → e.kind ≠ .commitAll) → t.dev.act = s.dev.act ∧ t.dev.tgt = s.dev.tgt) := by
  intro t
  have dev : t.dev = s.dev.cancel.concluded s.dev := s.act_dev Device.cancel
  obtain ⟨cat, vfy, tgt, -, -, htq, act, -, fck⟩ := s.dev.cancel.concluded_blocks s.dev
  have moves : Moves (.cancel True) s.dev false (s.dev.cancel.takeExit s.dev) := Device.moves_cancelled (.inl trivial)
  have frame := moves.framed
  have stir : Stir s.dev (s.dev.cancel.takeExit s.dev) := Device.stir_takeExit (Device.stir_cancel (.refl _)) s.dev
  obtain ⟨owed, fields⟩ := s.dev.cancel.concluded_fields s.dev
  rw [Stir.registers (Device.stir_cancel (.refl s.dev))] at fields
  have rotation := Port.rotation_of_registers fields
  rw [dev]
  refine ⟨fun a _ => ?_, fun j hj retiring => ?_, Device.portKept_of_registers (x := s.dev.port.rotation) fields, rotation, ?_, ?_, ?_, ?_,
    fun calm => ?_⟩
  · rw [Device.learned_concluded (.inr hs.fillsNone_cancelled)]
    exact (moves.recordStep a).learned.resolve_left id
  · rw [Device.entry, cat]
    exact moves.entriesKept (except := none) (fun _ k => k.elim) j hj retiring
  · rw [vfy]; exact frame.vfy.resolve_left id
  · rw [fck]; exact frame.fck.resolve_left id
  · rw [htq]; exact frame.htq.resolve_left id
  · rw [tgt]; exact stir.block
  · have still := (Device.moves_cancelled (act := False) (before := s.dev) (.inr calm)).framed
    rw [act, tgt]
    exact ⟨still.act.resolve_left id, still.tgt.resolve_left id⟩

/-- The WITHDRAW of an entry freed by a command over records that it closes: returned, or owed while the area is not accessed
(R15, R187). -/
theorem State.withdrawal_returned {f : Device → Device} {h : HeldSlot} (hs : s.safe) (closes : s.dev.Closes ((f s.dev).takeExit s.dev))
    (device : (f s.dev).port.device = s.dev.port.device) (w : s.dev.Withdrawal i slot h)
    (free : (((f s.dev).takeExit s.dev).entry i).state = .free) :
    let t := s.act .sound f
    (s.dev.port.device = .running ∨ s.dev.port.device = .stopping → t.returned slot .done .done 0 h.kind h.ref) ∧
      (s.dev.port.device ≠ .running → s.dev.port.device ≠ .stopping →
        { slot, status := .done, outcome := .done, detail := 0, kind := h.kind, ref := h.ref } ∈ t.dev.port.returnsOwed) := by
  intro t
  have mine := closes.freed i slot h w free
  refine ⟨fun opened => ?_, fun running stopping => ?_⟩
  · have opened : (f s.dev).areaOpen = true := by
      rw [Device.areaOpen, device]
      rcases opened with k | k <;> simp [k]
    refine State.returned_act opened mine (closes.returnsAs w.2.2 fun x hx => ?_)
    rw [hs.outbox] at hx; cases hx
  · have closed : (f s.dev).areaOpen = false := by simp [Device.areaOpen, device, running, stopping]
    show _ ∈ (s.act .sound f).dev.port.returnsOwed
    rw [State.act_dev]; exact Device.owed_concluded closed mine

/-- The entries after CANCEL: no record names one, and those RETIRING with a record are FREE (R15). -/
theorem State.entries_cancelled (transfers : s.dev.transfersOk) (usage : s.dev.usageOk) :
    (∀ i, ((s.dev.cancel.takeExit s.dev).entry i).inUse = 0) ∧
      ∀ i, (s.dev.entry i).state = .retiring → (s.dev.entry i).inUse ≠ 0 →
        (s.dev.cancel.takeExit s.dev).entry i = (s.dev.entry i).freedAs (s.dev.entry i).fault := by
  have moves : Moves (.cancel True) s.dev false (s.dev.cancel.takeExit s.dev) := Device.moves_cancelled (.inl trivial)
  have good : s.dev.Good (.cancel True) :=
    { tags := fun a => by obtain ⟨-, -, -, tags, -⟩ := transfers a; exact tags
      slots := fun a => by obtain ⟨-, slots, -⟩ := transfers a; exact slots
      plans := fun k => k.elim, usage }
  obtain ⟨⟨counts, -⟩, -⟩ := moves.usageOk_tagsOk good
  have unused (i : CatIndex) : ((s.dev.cancel.takeExit s.dev).entry i).inUse = 0 := by
    rw [counts]
    have none (a : Addr) : (((s.dev.cancel.takeExit s.dev).transfers a).records.filter (·.index == i)).length = 0 := by
      rw [(s.dev.transfers_cancelled s.dev a).1]; rfl
    simp [Device.openRecords, none]
  refine ⟨unused, fun i retiring used => ?_⟩
  rcases (s.dev.closes_cancelled s.dev).entry i with ⟨-, last, -⟩ | ⟨-, freed⟩
  · exact absurd (last retiring (unused i)) used
  · exact freed

/-- Settles O48: what CANCEL drops, keeps and replans, its last records' WITHDRAWs returned or owed. -/
theorem cancelCarriedOut : Obligations.CancelCarriedOut := by
  intro s hs
  have dev : (s.act .sound Device.cancel).dev = s.dev.cancel.concluded s.dev := s.act_dev Device.cancel
  obtain ⟨cat, -, -, -, -, -, -, lnc, -⟩ := s.dev.cancel.concluded_blocks s.dev
  have entry (i) : (s.act .sound Device.cancel).dev.entry i = (s.dev.cancel.takeExit s.dev).entry i := s.entry_act _ i
  have line : (s.act .sound Device.cancel).dev.lnc = (s.dev.cancel.takeExit s.dev).lnc := by rw [dev, lnc]
  obtain ⟨learned, entries, port, rotation, vfy, fck, htq, block, act⟩ := State.kept_cancelled hs
  obtain ⟨fields, running, stopping⟩ := s.dev.line_cancelled s.dev
  have device : s.dev.cancel.port.device = s.dev.port.device := (Device.stir_cancel (.refl s.dev)).device
  rw [← line] at fields running stopping
  refine ⟨s.act .sound Device.cancel, rfl, State.plans_cancelled hs learned, fields, running, stopping, learned, entries, port, rotation, vfy,
    fck, htq, block, act, fun transfers usage => ?_⟩
  obtain ⟨unused, freed⟩ := State.entries_cancelled transfers usage
  refine ⟨fun i => by rw [entry]; exact unused i, fun i retiring used => ?_⟩
  have now := freed i retiring used
  refine ⟨by rw [entry, now]; rfl, by rw [entry, now]; rfl, fun slot h pending held => ?_⟩
  exact State.withdrawal_returned hs (s.dev.closes_cancelled s.dev) device ⟨retiring, pending, held⟩ (by rw [now]; rfl)

end Sys2Proof.Machine
end

