-- ==== Sys2Proof/Proofs/Faults.lean ====
section
/-! An access to the area that faults (R195): as long as none has faulted, a command under way is where it would be with a sound bus;
so a command whose bus may fail leaves either what it leaves with a sound bus, or the device HALTED. -/

namespace Sys2Proof.Machine

variable {s : State} {F G : Run → Run} {f : Device → Device}

/-! ## Steps that a fault alone turns aside -/

/-- A step of a command that heeds faults: after a fault it does not revive the bus, with a sound bus it keeps it sound, and while no
access has faulted it does what it does with a sound bus. -/
structure Heeds (F : Run → Run) : Prop where
  dead : ∀ r : Run, r.alive = false → (F r).alive = false
  sound : ∀ s, (F { state := s, bus := .sound }).bus = .sound
  same : ∀ s bus, (F { state := s, bus }).alive = true → (F { state := s, bus }).state = (F { state := s, bus := .sound }).state

namespace Heeds

theorem id : Heeds fun r => r := ⟨fun _ h => h, fun _ => rfl, fun _ _ _ => rfl⟩

theorem comp (hF : Heeds F) (hG : Heeds G) : Heeds fun r => F (G r) where
  dead r h := hF.dead _ (hG.dead r h)
  sound s := by
    have bus := hG.sound s
    generalize G { state := s, bus := .sound } = w at bus
    obtain ⟨t, _⟩ := w
    subst bus
    exact hF.sound t
  same s bus h := by
    have alive : (G { state := s, bus }).alive = true := by
      by_contra k
      have := hF.dead _ (Bool.eq_false_iff.2 k)
      rw [this] at h; cases h
    have state := hG.same s bus alive
    have sound := hG.sound s
    generalize G { state := s, bus } = r at h state
    generalize G { state := s, bus := .sound } = w at sound state
    obtain ⟨t, x⟩ := r
    obtain ⟨u, y⟩ := w
    cases sound
    cases state
    exact hF.same t x h

/-- What a step does may depend on the state in which it begins. -/
theorem reading {F : State → Run → Run} (h : ∀ s, Heeds (F s)) : Heeds fun r => F r.state r where
  dead r k := (h _).dead r k
  sound s := (h s).sound s
  same s bus k := (h s).same s bus k

/-- What a step does may depend on whether an access has faulted, as long as nothing revives the bus. -/
theorem ifAlive (hF : Heeds F) (hG : ∀ r : Run, r.alive = false → (G r).alive = false) :
    Heeds fun r => if r.alive then F r else G r where
  dead r k := by simp only [k]; exact hG r k
  sound s := hF.sound s
  same s bus k := by
    cases alive : (Run.mk s bus).alive with
    | false => simp only [alive] at k; rw [if_neg (by simp), hG _ alive] at k; cases k
    | true =>
      simp only [alive] at k ⊢
      exact hF.same s bus k

theorem ite {p : Prop} [Decidable p] (hF : Heeds F) (hG : Heeds G) : Heeds fun r => if p then F r else G r := by
  by_cases h : p
  · simpa only [if_pos h] using hF
  · simpa only [if_neg h] using hG

theorem foldl {α : Type} {F : Run → α → Run} (h : ∀ x, Heeds (F · x)) (l : List α) : Heeds fun r => l.foldl F r := by
  induction l with
  | nil => exact id
  | cons x l ih => exact ih.comp (h x)

/-! ### The primitive steps -/

theorem access (f : State → State) : Heeds (·.access f) where
  dead r h := by
    have bus : r.bus = .failed := by simpa [Run.alive] using h
    simp [Run.access, bus, Run.alive]
  sound s := rfl
  same s bus h := (Run.access_alive h).2

theorem inside (f : Device → Device) : Heeds (·.inside f) where
  dead r h := by rw [Run.inside_alive]; exact h
  sound s := rfl
  same s bus h := by
    rw [Run.inside_alive] at h
    rw [Run.inside_state h]; rfl

theorem always (f : Device → Device) : Heeds (·.always f) where
  dead _ h := h
  sound _ := rfl
  same _ _ _ := rfl

theorem read : Heeds Run.read := access _
theorem write (o : Nat) (l : List Octet) : Heeds (·.write o l) := access _

/-- A write whose octets are taken from the state. -/
theorem writeOf (o : Nat) (l : State → List Octet) : Heeds fun r => r.write o (l r.state) :=
  reading (F := fun s r => r.write o (l s)) fun s => write o (l s)

/-! ### EXP's writing -/

theorem writeState : Heeds Run.writeState := writeOf 24 fun s => [num s.dev.port.device.code]
theorem writeSeen : Heeds Run.writeSeen := writeOf 16 fun s => leOctets 4 s.dev.port.seenCount.toNat
theorem writeDeviceCount : Heeds Run.writeDeviceCount := writeOf 20 fun s => leOctets 4 s.dev.port.deviceCount.toNat
theorem writeSummary : Heeds Run.writeSummary := writeOf 32 fun s => hotSummary s.dev.htq
theorem writeClock : Heeds Run.writeClock :=
  reading (F := fun s r => (r.write 25 [flagOctet s.dev.fck.valid]).write 28 (leOctets 4 s.dev.fck.seconds.toNat)) fun s =>
    (write 28 (leOctets 4 s.dev.fck.seconds.toNat)).comp (write 25 [flagOctet s.dev.fck.valid])

theorem writeCat (i : CatIndex) : Heeds (·.writeCat i) :=
  (writeOf (catOffset i) fun s => leOctets 4 (s.dev.port.catCounts[i]).toNat).comp
    ((inside (·.countCat i)).comp (writeOf (catOffset i + 4) fun s => catBody (s.dev.entry i)))

theorem writeRos (a : Addr) : Heeds (·.writeRos a) :=
  (writeOf (rosOffset a) fun s => leOctets 4 (s.dev.port.rosCounts[a]).toNat).comp
    ((inside (·.countRos a)).comp (writeOf (rosOffset a + 4) fun s => rosBody (s.dev.record a)))

theorem writeCoord : Heeds Run.writeCoord :=
  (writeOf coordOffset fun s => leOctets 4 s.dev.port.coordCount.toNat).comp
    ((inside Device.countCoord).comp (writeOf (coordOffset + 4) fun s => coordBody s.dev.act))

theorem writeMirrors (before : Device) (out : List Publication) : Heeds (·.writeMirrors before out) :=
  reading (F := fun s r =>
    let r := (allIndices.filter (catDirty before s.dev out)).foldl Run.writeCat r
    let r := (allAddrs.filter (rosDirty before s.dev out)).foldl Run.writeRos r
    let r := if mirrorDue out .coordRewrite (coordBody before.act) (coordBody s.dev.act) then r.writeCoord else r
    if mirrorDue out .summaryRewrite (hotSummary before.htq) (hotSummary s.dev.htq) then r.writeSummary else r) fun _ =>
      (writeSummary.ite id).comp ((writeCoord.ite id).comp ((foldl writeRos _).comp (foldl writeCat _)))

theorem returnSlot (ret : Return) : Heeds (·.returnSlot ret) :=
  (always (·.release ret.slot)).comp ((inside (·.raise .slot)).comp (writeDeviceCount.comp ((inside Device.stepDeviceCount).comp
    ((write (slotOffset ret.slot) [0]).comp (write (slotOffset ret.slot + 1) (returnBody ret))))))

theorem fillNotice (a : Addr) (kind : Octet) (text : List Octet) : Heeds (·.fillNotice a kind text) :=
  (((inside (·.raise .notice)).comp (writeDeviceCount.comp (inside Device.stepDeviceCount))).ifAlive
    (G := fun r => r.always (·.noticeKept a)) fun _ h => h).comp ((write (cellOffset a) [0]).comp (write (cellOffset a + 1) (cellBody kind text)))

theorem carryOut (p : Publication) : Heeds (·.carryOut p) := by
  cases p with
  | slotReturn ret => exact returnSlot ret
  | noticeFill a kind text => exact fillNotice a kind text
  | catRewrite | rosterRewrite | coordRewrite | summaryRewrite => exact id
  | clockCopy => exact writeClock
  | stateCopy => exact writeState

theorem carryOutAll : ∀ out : List Publication, Heeds (·.carryOutAll out)
  | [] => id
  | p :: rest => ((carryOutAll rest).comp (carryOut p)).ifAlive (G := fun r => r.always fun d => rest.foldl Device.leave (d.leave p)) fun _ h => h

end Heeds

/-- What is handed over written out: the mirrors, then the rest; what a fault leaves is lost or left (R186 to R188). -/
def Run.writeOut (r : Run) (before : Device) (out : List Publication) : Run :=
  if (r.writeMirrors before out).alive then (r.writeMirrors before out).carryOutAll out
  else (r.writeMirrors before out).always (·.loseFirst out)

/-- What is handed over published into an area that is open or not. -/
def Run.publishInto (r : Run) (opened : Bool) (before : Device) (out : List Publication) : Run :=
  if opened then (if r.alive then r.writeOut before out else r.always fun d => out.foldl Device.leave d)
  else r.always fun d => out.foldl Device.leave d

theorem Run.publish_eq (r : Run) (before : Device) :
    r.publish before =
      (r.always fun d => { d with outbox := [] }).publishInto r.state.dev.areaOpen before r.state.dev.outbox := by
  show (if r.state.dev.areaOpen && r.alive then _ else _) = if r.state.dev.areaOpen then (if r.alive then _ else _) else _
  cases r.state.dev.areaOpen <;> cases r.alive <;> rfl

namespace Heeds

theorem writeOut (before : Device) (out : List Publication) : Heeds (·.writeOut before out) :=
  ((carryOutAll out).ifAlive (G := (·.always (·.loseFirst out))) fun _ h => h).comp (writeMirrors before out)

theorem publishInto (opened : Bool) (before : Device) (out : List Publication) : Heeds (·.publishInto opened before out) :=
  ((writeOut before out).ifAlive (G := (·.always fun d => out.foldl Device.leave d)) fun _ h => h).ite (always _)

theorem publish (before : Device) : Heeds (·.publish before) := by
  have whole : Heeds fun r =>
      (r.always fun d => { d with outbox := [] }).publishInto r.state.dev.areaOpen before r.state.dev.outbox :=
    reading (F := fun s r => (r.always _).publishInto s.dev.areaOpen before s.dev.outbox) fun s =>
      (publishInto s.dev.areaOpen before s.dev.outbox).comp (always _)
  simpa only [← Run.publish_eq] using whole

theorem settle (before : Device) : Heeds (·.settle before) := (publish before).comp (always (·.takeExit before))

/-! ### Takes, sweeps and STARTING -/

theorem take (slot : Slot) (ref : Half) (q : Request) : Heeds (·.take slot ref q) :=
  reading (F := fun s r =>
      if (r.writeTaken slot).read.alive then
        ((r.writeTaken slot).read.inside fun d => (d.hold slot { kind := q.kind, ref }).request slot q).settle s.dev
      else (r.writeTaken slot).read) fun s =>
    (((settle s.dev).comp (inside fun d => (d.hold slot { kind := q.kind, ref }).request slot q)).ifAlive fun _ h => h).comp
      (read.comp (access _))

theorem sweepSlot (slot : Slot) : Heeds (·.sweepSlot slot) :=
  reading (F := fun s r => if r.alive then r.take slot (s.slotRef slot) (readRequest s.ram (s.slotBase slot)) else r) fun s =>
    (take slot (s.slotRef slot) (readRequest s.ram (s.slotBase slot))).ifAlive fun _ h => h

end Heeds

/-- The slots of a sweep taken, the area having been read in a state (R183). -/
def Run.sweepTakes (r : Run) (s : State) : Run :=
  s.pendingSlots.foldl Run.sweepSlot
    ((r.inside fun d => ({ d with port.promptOwed := false }).cellsFreed s.cellFree).settle s.dev)

/-- The seen count taken, and written when it has changed (R183). -/
def Run.countSeen (r : Run) (count : Word32) : Run :=
  if r.state.dev.port.seenCount != count then (r.inside fun d => { d with port.seenCount := count }).writeSeen
  else r.inside fun d => { d with port.seenCount := count }

theorem Run.sweepActs_eq (r : Run) (count : Word32) :
    r.sweepActs count = (r.read.sweepTakes r.read.state).countSeen count := rfl

/-- A sweep once the header has been read (R183). -/
def Run.sweepFrom (r : Run) (count : Word32) (interval : Nat) : Run :=
  let r := r.inside fun d => { d with port.sweepInterval := sweepIntervalOf interval }
  let r := if r.alive && (count != r.state.dev.port.seenCount || r.state.dev.port.promptOwed) then r.sweepActs count else r
  r.inside Device.endSweep

theorem Run.sweep_eq (r : Run) :
    r.sweep = r.read.sweepFrom (BitVec.ofNat 32 (r.read.state.header 12 4)) (r.read.state.header 8 2) := rfl

/-- The steps of STARTING up to the returns, with what the area shows as STARTING begins (R193). -/
def Run.startingReturns (r : Run) (s : State) : Run :=
  let r := ((r.always (·.headerTaken (s.header 6 1) (s.header 8 2))).read.inside (·.cellsTaken s.cellFree)).republish
  (r.writeOwed r.state.dev.port.returnsOwed).returnAborted s.abortedReturns

/-- The last step of STARTING (R193). -/
def Run.startingOver (r : Run) : Run :=
  if r.alive then (r.always Device.afterRunning).settle r.state.dev else r

namespace Heeds

theorem sweepTakes (s : State) : Heeds (·.sweepTakes s) :=
  (foldl sweepSlot s.pendingSlots).comp ((settle s.dev).comp (inside _))

theorem countSeen (count : Word32) : Heeds (·.countSeen count) :=
  reading (F := fun s r =>
      if s.dev.port.seenCount != count then (r.inside fun d => { d with port.seenCount := count }).writeSeen
      else r.inside fun d => { d with port.seenCount := count }) fun _ =>
    (writeSeen.comp (inside _)).ite (inside _)

theorem sweepActs (count : Word32) : Heeds (·.sweepActs count) := by
  have whole : Heeds fun r => (r.read.sweepTakes r.read.state).countSeen count :=
    (countSeen count).comp ((reading (F := fun s r => r.sweepTakes s) sweepTakes).comp read)
  simpa only [← Run.sweepActs_eq] using whole

theorem sweepFrom (count : Word32) (interval : Nat) : Heeds (·.sweepFrom count interval) := by
  have acts : Heeds fun r : Run =>
      if r.alive && (count != r.state.dev.port.seenCount || r.state.dev.port.promptOwed) then r.sweepActs count else r := by
    have due (s : State) : Heeds fun r : Run =>
        if r.alive then (if count != s.dev.port.seenCount || s.dev.port.promptOwed then r.sweepActs count else r) else r :=
      ((sweepActs count).ite id).ifAlive fun _ h => h
    have whole := reading due
    have same (r : Run) : (if r.alive && (count != r.state.dev.port.seenCount || r.state.dev.port.promptOwed) then r.sweepActs count else r) =
        if r.alive then (if count != r.state.dev.port.seenCount || r.state.dev.port.promptOwed then r.sweepActs count else r) else r := by
      cases r.alive <;> simp
    simpa only [same] using whole
  exact (inside Device.endSweep).comp (acts.comp (inside _))

theorem sweep : Heeds Run.sweep := by
  have whole : Heeds fun r => r.read.sweepFrom (BitVec.ofNat 32 (r.read.state.header 12 4)) (r.read.state.header 8 2) :=
    (reading fun s => sweepFrom (BitVec.ofNat 32 (s.header 12 4)) (s.header 8 2)).comp read
  simpa only [← Run.sweep_eq] using whole

theorem republish : Heeds Run.republish :=
  writeClock.comp (writeDeviceCount.comp (writeSeen.comp (writeSummary.comp (writeCoord.comp
    ((foldl writeRos allAddrs).comp ((foldl writeCat allIndices).comp ((always _).comp writeState)))))))

theorem writeOwed : ∀ owed : List Return, Heeds (·.writeOwed owed)
  | [] => id
  | ret :: rest => ((writeOwed rest).comp ((returnSlot ret).comp (always fun d => { d with port.returnsOwed := rest }))).ifAlive fun _ h => h

theorem returnAborted : ∀ aborted : List Return, Heeds (·.returnAborted aborted)
  | [] => id
  | ret :: rest => ((returnAborted rest).comp (returnSlot ret)).ifAlive fun _ h => h

theorem startingReturns (s : State) : Heeds (·.startingReturns s) :=
  (returnAborted s.abortedReturns).comp ((reading fun t => writeOwed t.dev.port.returnsOwed).comp (republish.comp ((inside _).comp (read.comp (always _)))))

theorem startingOver : Heeds Run.startingOver :=
  reading (F := fun s r => if r.alive then (r.always Device.afterRunning).settle s.dev else r) fun s =>
    ((settle s.dev).comp (always Device.afterRunning)).ifAlive fun _ h => h

end Heeds

theorem Run.startingSteps_eq (r : Run) :
    r.startingSteps = ((((r.startingReturns r.state)).inside Device.nowRunning).writeState).startingOver := rfl

namespace Heeds

theorem startingSteps : Heeds Run.startingSteps := by
  have whole : Heeds fun r => ((((r.startingReturns r.state)).inside Device.nowRunning).writeState).startingOver :=
    startingOver.comp (writeState.comp ((inside _).comp (reading (F := fun s r => r.startingReturns s) startingReturns)))
  simpa only [← Run.startingSteps_eq] using whole

theorem starting : Heeds Run.starting := by
  have header : Heeds fun r => if r.state.headerGood then r.startingSteps else r.always Device.badHeader :=
    reading (F := fun s r => if s.headerGood then r.startingSteps else r.always Device.badHeader) fun _ =>
      startingSteps.ite (always _)
  exact (header.ifAlive fun _ h => h).comp read

end Heeds

/-! ## The device HALTED (R195) -/

/-- What cannot be written any more changes, of EXP's registers and fields, the returns owed alone (R187). -/
theorem Device.port_leaveAll (l : List Publication) (d : Device) :
    { (l.foldl Device.leave d).port with returnsOwed := d.port.returnsOwed } = d.port := by
  induction l generalizing d with
  | nil => rfl
  | cons p l ih =>
    have first : { (d.leave p).port with returnsOwed := d.port.returnsOwed } = d.port := by cases p <;> rfl
    have rest := congrArg (fun q : Port => { q with returnsOwed := d.port.returnsOwed }) (ih (d.leave p))
    exact Eq.trans rest first

/-- The Verifier at HALTED changes entries, held slots and itself alone (R12). -/
theorem Device.haltVerifier_eq (d : Device) :
    d.haltVerifier =
      { d with
        cat := d.haltVerifier.cat
        port.held := d.haltVerifier.port.held
        outbox := d.haltVerifier.outbox
        vfy := { queue := d.vfy.queue.filter fun i => (d.entry i).state != .verifying, inFlight := false } } := by
  have one (d : Device) (i : CatIndex) :
      d.abandonFirst i = { d with cat := (d.abandonFirst i).cat, port.held := (d.abandonFirst i).port.held, outbox := (d.abandonFirst i).outbox } := by
    unfold Device.abandonFirst
    dsimp only
    split
    · split <;> rfl
    · rfl
  have all : ∀ (l : List CatIndex) (d : Device), l.foldl Device.abandonFirst d =
      { d with
        cat := (l.foldl Device.abandonFirst d).cat, port.held := (l.foldl Device.abandonFirst d).port.held
        outbox := (l.foldl Device.abandonFirst d).outbox } := by
    intro l
    induction l with
    | nil => exact fun _ => rfl
    | cons i l ih =>
      intro d
      have rest := ih (d.abandonFirst i)
      rw [List.foldl_cons]
      generalize l.foldl Device.abandonFirst (d.abandonFirst i) = e at rest
      rw [rest, one d i]
  have whole := congrArg (fun e : Device => { e with
    vfy := { queue := d.vfy.queue.filter fun i => (d.entry i).state != EntryState.verifying, inFlight := false } }) (all d.vfy.queue d)
  exact whole

/-- The part as it enters HALTED, with what it can no longer write still handed over. -/
def Device.haltedParts (d : Device) : Device := d.haltedLine.haltVerifier.raise .area

theorem Device.enterHalted_eq (d : Device) :
    d.enterHalted = { d.haltedParts.outbox.foldl Device.leave d.haltedParts with outbox := [], exitEvent := false } := rfl

theorem Device.port_haltedParts (d : Device) :
    { d.haltedParts.port with held := d.haltedLine.port.held } =
      { d.haltedLine.port with causes := d.haltedLine.port.causes ||| Cause.area.flag } := by
  have verifier := d.haltedLine.haltVerifier_eq
  unfold Device.haltedParts
  rw [verifier]; rfl

/-- EXP's registers and fields at HALTED: cause AREA is set, and but for what the line's end has changed they are as before. -/
theorem Device.port_enterHalted (d : Device) :
    { d.enterHalted.port with held := d.haltedLine.port.held, returnsOwed := d.haltedLine.port.returnsOwed } =
      { d.haltedLine.port with causes := d.haltedLine.port.causes ||| Cause.area.flag } := by
  have parts := d.port_haltedParts
  have left := Device.port_leaveAll d.haltedParts.outbox d.haltedParts
  rw [Device.enterHalted_eq]
  generalize d.haltedParts = h at parts left
  have left := congrArg (fun q : Port => { q with held := d.haltedLine.port.held, returnsOwed := d.haltedLine.port.returnsOwed }) left
  have parts := congrArg (fun q : Port => { q with returnsOwed := d.haltedLine.port.returnsOwed }) parts
  exact Eq.trans left parts

/-- The blocks at HALTED are what the line's end has made of them, but for entries, records and the Verifier. -/
theorem Device.blocks_enterHalted (d : Device) :
    d.enterHalted.vfy = { queue := d.haltedLine.vfy.queue.filter fun i => (d.haltedLine.entry i).state != .verifying, inFlight := false } ∧
      d.enterHalted.tgt = d.haltedLine.tgt ∧ d.enterHalted.htq = d.haltedLine.htq ∧ d.enterHalted.act = d.haltedLine.act ∧
      d.enterHalted.lnc = d.haltedLine.lnc ∧ d.enterHalted.fck = d.haltedLine.fck := by
  have verifier := d.haltedLine.haltVerifier_eq
  obtain ⟨-, vfy, tgt, -, -, htq, act, lnc, fck⟩ := (Device.kept_leaveAll d.haltedParts d.haltedParts.outbox).others
  have parts : d.haltedParts = d.haltedLine.haltVerifier.raise .area := rfl
  rw [verifier] at parts
  refine ⟨vfy.trans ?_, tgt.trans ?_, htq.trans ?_, act.trans ?_, lnc.trans ?_, fck.trans ?_⟩
  all_goals rw [parts]; rfl

theorem Device.entry_enterHalted (d : Device) (i : CatIndex) : d.enterHalted.entry i = d.haltedLine.haltVerifier.entry i :=
  Written.entry (Device.kept_leaveAll (d.haltedLine.haltVerifier.raise .area) _) i

theorem Device.lnc_haltedLine (d : Device) : d.haltedLine.lnc.line = .idle ∧ d.haltedLine.lnc.exchange = none :=
  ⟨rfl, (Device.lnc_cutExchange _).1⟩

theorem Cause.getLsbD_area (x : BitVec 7) : (x ||| Cause.area.flag).getLsbD 6 = true := by
  rw [BitVec.getLsbD_or]; simp [Cause.flag]

theorem Stir.sweeps {d e : Device} (h : Stir d e) :
    e.port.sweepTimer = d.port.sweepTimer ∧ e.port.sweepInProgress = d.port.sweepInProgress ∧
      e.port.promptOwed = d.port.promptOwed ∧ e.port.sweepOwed = d.port.sweepOwed := by
  rw [← h.port]; exact ⟨rfl, rfl, rfl, rfl⟩

theorem Port.sweeps_of {p q : Port} {held : Vector (Option HeldSlot) 32} {owed : List Return} {causes : BitVec 7}
    (h : { p with held, returnsOwed := owed } = { q with causes }) :
    p.sweepTimer = q.sweepTimer ∧ p.sweepInProgress = q.sweepInProgress ∧ p.promptOwed = q.promptOwed ∧
      p.sweepOwed = q.sweepOwed ∧ p.causes = causes := by
  have timer := congrArg Port.sweepTimer h
  have progress := congrArg Port.sweepInProgress h
  have prompt := congrArg Port.promptOwed h
  have owed := congrArg Port.sweepOwed h
  have causes := congrArg Port.causes h
  exact ⟨timer, progress, prompt, owed, causes⟩

/-- The device enters HALTED as an area fault has it. -/
theorem Device.haltedByFault_enterHalted (d : Device) : d.enterHalted.haltedByFault := by
  obtain ⟨vfy, -, -, -, lnc, -⟩ := d.blocks_enterHalted
  obtain ⟨line, exchange⟩ := d.lnc_haltedLine
  have stir : Stir ({ d with port.device := .halted } : Device).stopSweeps d.haltedLine := Device.stir_lineToIdle (.refl _)
  have port := d.port_enterHalted
  have stopped := stir.sweeps
  obtain ⟨timer, progress, prompt, owed⟩ : d.haltedLine.port.sweepTimer = none ∧ d.haltedLine.port.sweepInProgress = false ∧
    d.haltedLine.port.promptOwed = false ∧ d.haltedLine.port.sweepOwed = false := stopped
  obtain ⟨sameTimer, sameProgress, samePrompt, sameOwed, cause⟩ := Port.sweeps_of port
  refine ⟨d.halted_enterHalted, sameTimer.trans timer, sameProgress.trans progress, samePrompt.trans prompt, sameOwed.trans owed, by rw [lnc]; exact line, by rw [lnc]; exact exchange, by rw [vfy], ?_, ?_⟩
  · intro i hi
    rw [vfy] at hi
    obtain ⟨queued, calm⟩ := List.mem_filter.1 hi
    rw [Device.entry_enterHalted, Device.entry_haltVerifier, if_neg fun k => by simp [k.2] at calm]
    simpa using calm
  · rw [cause]; exact Cause.getLsbD_area _

/-! ## Operations with a bus that may fail -/

/-- What a command leaves with a bus that may fail: what it leaves with a sound one, or the device HALTED. -/
def State.HaltsOr (t u : State) : Prop := u = t ∨ u.dev.haltedByFault

theorem Heeds.haltsOr (h : Heeds F) (s : State) (bus : AreaBus) :
    (F { state := s, bus := .sound }).finish.HaltsOr (F { state := s, bus }).finish := by
  cases alive : (F { state := s, bus }).alive with
  | true =>
    have sound : (F { state := s, bus := .sound }).alive = true := by rw [Run.alive, h.sound]; rfl
    left
    rw [Run.finish_alive _ alive, Run.finish_alive _ sound, h.same s bus alive]
  | false =>
    right
    rw [Run.finish, if_neg (by simp [alive])]
    exact Device.haltedByFault_enterHalted _

theorem State.act_haltsOr (s : State) (bus : AreaBus) (f : Device → Device) : (s.act .sound f).HaltsOr (s.act bus f) :=
  (Heeds.settle s.dev).haltsOr { s with dev := f s.dev } bus

theorem State.takeRequest_haltsOr (s : State) (bus : AreaBus) (slot : Slot) (ref : Half) (q : Request) :
    (s.takeRequest .sound slot ref q).HaltsOr (s.takeRequest bus slot ref q) := by
  unfold State.takeRequest
  split
  · exact (Heeds.take slot ref q).haltsOr _ bus
  · exact .inl rfl

/-- Every operation leaves what it leaves with a sound bus, or the device HALTED. -/
theorem runOperation_haltsOr (op : Instr) (bus : AreaBus) (s : State) :
    (runOperation op .sound s).HaltsOr (runOperation op bus s) := by
  cases op
  all_goals
    dsimp only [runOperation, doRun, doLineEnable, doCancel, doXclockWrite, doPost, doWithdraw, doTarget, doHotAdd, doEnrol,
      doExclude, doReadmit, doLineSet, doBadKind, doVerificationEnd, doClockStep, doSilenceExpiry, doCycleEnd, doKeepaliveExpiry,
      doAttentionEvent, doRollCallPoll, doTransferGrant, doFrameSent, doReplyTimeout, doFrameIncomplete, doMalformedReply,
      doContention, doGuardTimeExpiry, doReplyCheckFailed, doStatus, doNotice, doAck, doNak, doVerdict]
  case deviceReset | softReset | prompt | xbaseWrite | causeClear | xmaskWrite | registerWriteOther | areaFault
    | sweepTimerExpiry | verificationStart | lineFree | deferralExpiry | syncOctetReceived => exact .inl rfl
  case post | withdraw | target | hotAdd | enrol | exclude | readmit | lineSet | badKind => exact State.takeRequest_haltsOr ..
  case starting host =>
    simp only [doStarting]
    split
    · exact Heeds.starting.haltsOr _ bus
    · exact .inl rfl
  case sweep host =>
    simp only [doSweep]
    split
    · exact Heeds.sweep.haltsOr _ bus
    · exact .inl rfl
  case stoppingEnd =>
    simp only [doStoppingEnd]
    split
    · exact ((Heeds.inside Device.stopped).comp (Heeds.write 24 [num DeviceState.off.code])).haltsOr _ bus
    · exact .inl rfl
  case run | lineEnable | cancel | xclockWrite | verificationEnd | clockStep | silenceExpiry | cycleEnd | keepaliveExpiry
    | attentionEvent | rollCallPoll | transferGrant | frameSent | replyTimeout | frameIncomplete | malformedReply | contention
    | guardTimeExpiry | replyCheckFailed | status | notice | ack | nak | verdict => exact State.act_haltsOr ..

end Sys2Proof.Machine
end

