-- ==== Sys2Proof/Proofs/Halting.lean ====
section
/-! A fault of a command's first access: nothing is written, and what the part leaves is HALTED (R12, R192, R195). -/

namespace Sys2Proof.Machine

variable {s : State} {c d e : Device} {slot : Slot} {ref : Half} {q : Request} {i : CatIndex}

/-! ## What HALTED leaves of the blocks -/

/-- A command that has changed EXP and the line alone, the exchange in flight kept. -/
structure Device.OnTheVerge (c d : Device) : Prop where
  blocks : ∃ p l, d = { c with port := p, lnc := l }
  exchange : d.lnc.exchange = c.lnc.exchange

/-- What HALTED leaves of a part: the VERIFYING entries of the verify queue FREE, and presences, the BLOCK target and the other
entries as before, and so the FARE targets and the coordinator when no COMMIT to ALL is cut (R12, R192, R195). -/
def Device.HaltsTo (d e : Device) : Prop :=
  (∀ i, i ∈ d.vfy.queue → (d.entry i).state = .verifying → e.entry i = (d.entry i).freedAs .none) ∧
    (∀ i, i ∉ d.vfy.queue ∨ (d.entry i).state ≠ .verifying → (d.entry i).state ≠ .retiring →
      (e.entry i).posted = (d.entry i).posted ∧ (e.entry i).state = (d.entry i).state) ∧
    e.vfy.queue = d.vfy.queue.filter (fun i => (d.entry i).state != .verifying) ∧
    d.learnedKept e none ∧ e.tgt.block = d.tgt.block ∧ e.htq = d.htq ∧ e.fck = d.fck ∧
    ((∀ x, d.lnc.exchange = some x → x.kind ≠ .commitAll) → e.tgt = d.tgt ∧ e.act = d.act)

/-- The part as HALTED finds it: the device HALTED and its sweeps stopped. -/
def Device.haltedStart (d : Device) : Device := ({ d with port.device := .halted } : Device).stopSweeps

theorem Device.moves_halted {act : Prop} (h : act ∨ ∀ x, d.lnc.exchange = some x → x.kind ≠ .commitAll) :
    Moves (.cancel act) d.haltedStart false d.haltedLine :=
  Device.moves_lineToIdle trivial h .start

theorem Device.closes_halted (d : Device) : d.haltedStart.Closes d.haltedLine := Device.closes_lineToIdle _
theorem Device.stir_halted (d : Device) : Stir d.haltedStart d.haltedLine := Device.stir_lineToIdle (.refl _)

theorem Device.out_haltVerifier {p : Publication} (h : p ∈ d.haltVerifier.outbox) : p ∈ d.outbox ∨ p.isRewrite = true := by
  have one (d : Device) (i : CatIndex) (h : p ∈ (d.abandonFirst i).outbox) : p ∈ d.outbox ∨ p.isRewrite = true := by
    unfold Device.abandonFirst at h
    dsimp only at h
    have freed (k : p ∈ (d.freeEntry i .none).outbox) : p ∈ d.outbox ∨ p.isRewrite = true :=
      (List.mem_append.1 k).imp_right fun k => by rw [(mem_rewriteOf.1 k).2]; rfl
    split at h
    · split at h
      · exact freed h
      · exact freed h
    · exact .inl h
  have all : ∀ (l : List CatIndex) (d : Device), p ∈ (l.foldl Device.abandonFirst d).outbox → p ∈ d.outbox ∨ p.isRewrite = true := by
    intro l
    induction l with
    | nil => exact fun _ h => .inl h
    | cons i l ih => exact fun d h => (ih _ h).elim (one d i) .inr
  exact all _ _ h

theorem Device.ros_enterHalted (h : d.fillsNone) : d.enterHalted.ros = d.haltedLine.ros := by
  have line : d.haltedLine.fillsNone := d.closes_halted.fillsNone h
  have none : ∀ a k text, Publication.noticeFill a k text ∉ d.haltedParts.outbox := fun a k text hp =>
    (Device.out_haltVerifier hp).elim (line a k text) fun k => by cases k
  have left := Device.ros_leaveAll none d.haltedParts
  have verifier := congrArg Device.ros d.haltedLine.haltVerifier_eq
  exact left.trans verifier

/-- Only an entry that was VERIFYING is so at the end of the line's work. -/
theorem Entry.Tidied.verifying {x y : Entry} (h : x.Tidied y) : y.state = .verifying ↔ x.state = .verifying := by
  rcases h with ⟨-, -, same⟩ | ⟨retiring, freed⟩
  · rw [same]
  · rw [freed, retiring]; simp [Entry.freedAs, Entry.blank]

theorem Device.haltsTo_enterHalted (h : d.fillsNone) : d.HaltsTo d.enterHalted := by
  have entry (i : CatIndex) : (d.entry i).Tidied (d.haltedLine.entry i) := d.closes_halted.entry i
  obtain ⟨vfy, tgt, htq, act, -, fck⟩ := d.blocks_enterHalted
  have moves : Moves (.cancel True) d.haltedStart false d.haltedLine := Device.moves_halted (.inl trivial)
  have frame := moves.framed
  have queue : d.haltedLine.vfy = d.vfy := frame.vfy.resolve_left id
  refine ⟨fun i hi hv => ?_, fun i hi hr => ?_, ?_, fun a _ => ?_, ?_, ?_, ?_, fun calm => ?_⟩
  · rw [Device.entry_enterHalted, Device.entry_haltVerifier, if_pos ⟨by rw [queue]; exact hi, (entry i).verifying.2 hv⟩,
      (entry i).kept (by simp [hv])]
    rfl
  · rw [Device.entry_enterHalted, Device.entry_haltVerifier, if_neg, (entry i).kept hr]
    · exact ⟨rfl, rfl⟩
    · rintro ⟨queued, state⟩
      rw [queue] at queued
      exact hi.elim (fun k => k queued) fun k => k ((entry i).verifying.1 state)
  · rw [vfy, queue]
    refine List.filter_congr fun i _ => ?_
    rw [Bool.eq_iff_iff]
    simp only [bne_iff_ne, ne_eq, (entry i).verifying]
  · rw [Device.record, Device.ros_enterHalted h]
    exact (moves.recordStep a).learned.resolve_left id
  · rw [tgt]; exact d.stir_halted.block
  · rw [htq]; exact frame.htq.resolve_left id
  · rw [fck]; exact frame.fck.resolve_left id
  · have narrow : Moves (.cancel False) d.haltedStart false d.haltedLine := Device.moves_halted (.inr calm)
    have frame := narrow.framed
    rw [tgt, act]
    exact ⟨frame.tgt.resolve_left id, frame.act.resolve_left id⟩

theorem Device.OnTheVerge.haltsTo (h : c.OnTheVerge d) (outbox : c.outbox = []) : c.HaltsTo d.enterHalted := by
  obtain ⟨⟨p, l, same⟩, exchange⟩ := h
  have exchange : d.lnc.exchange = c.lnc.exchange := exchange
  have out : d.outbox = [] := by rw [same]; exact outbox
  have halts := Device.haltsTo_enterHalted (d := d) fun a k text hp => by rw [out] at hp; cases hp
  generalize d.enterHalted = e at halts
  subst same
  unfold Device.HaltsTo at halts ⊢
  rw [exchange] at halts
  exact halts

/-! ## First accesses -/

/-- A command whose first access faults, the part being then as `d`. -/
def State.Halts (s : State) (op : Instr) (d : Device) : Prop :=
  s.dev.OnTheVerge d ∧
    runOperation op (.failsAfter 0) s = { s with ram := s.softwareRam op, dev := d.enterHalted.judgeInterrupt }

theorem Device.onTheVerge_refl (d : Device) : d.OnTheVerge d := ⟨⟨_, _, rfl⟩, rfl⟩

theorem State.halts_starting {host : List Host.Cell} (h : s.dev.port.device = .starting) : s.Halts (.starting host) s.dev := by
  refine ⟨s.dev.onTheVerge_refl, ?_⟩
  show (if s.dev.port.device = .starting then _ else _) = _
  rw [if_pos h]; rfl

theorem State.halts_sweep {host : List Host.Cell} (h : s.dev.port.device = .running) (progress : s.dev.port.sweepInProgress = true) :
    s.Halts (.sweep host) s.dev := by
  refine ⟨s.dev.onTheVerge_refl, ?_⟩
  show (if s.dev.port.device = .running ∧ s.dev.port.sweepInProgress = true then _ else _) = _
  rw [if_pos ⟨h, progress⟩]; rfl

theorem State.halts_stoppingEnd (h : s.dev.stoppingOver = true) : s.Halts .stoppingEnd s.dev := by
  refine ⟨s.dev.onTheVerge_refl, ?_⟩
  show (if s.dev.stoppingOver = true then _ else _) = _
  rw [if_pos h]; rfl

theorem State.halts_take (ht : s.takes slot) : s.Halts (Request.command slot ref q) s.dev := by
  refine ⟨s.dev.onTheVerge_refl, ?_⟩
  have may := ht.mayTake
  have op : runOperation (Request.command slot ref q) (.failsAfter 0) s = s.takeRequest (.failsAfter 0) slot ref q := by
    cases q <;> rfl
  have ram : s.softwareRam (Request.command slot ref q) = (s.withRequest slot ref q).ram := by
    cases q <;> exact if_pos may
  rw [op, ram, State.takeRequest, if_pos may]
  unfold State.withRequest
  split <;> rfl

/-- The part as a write of RUN 0 finds RUNNING enters STOPPING: its line in IDLE where no exchange is in flight (R109, R194). -/
theorem Device.setRun_false (h : d.port.device = .running) :
    ∃ p l, d.setRun false = { d with port := p, lnc := l, outbox := d.outbox ++ [.stateCopy] } ∧ p.device = .stopping ∧
      l.exchange = d.lnc.exchange := by
  have entered : d.setRun false = ({ d with port.run := false } : Device).enterStopping := by
    unfold Device.setRun
    dsimp only
    rw [h]
  rw [entered]
  unfold Device.enterStopping Device.idleIfStopping
  by_cases none : d.lnc.exchange = none
  · rw [if_pos ⟨rfl, none⟩]
    rw [Device.lineToIdle, Device.cutExchange]
    split
    · exact ⟨_, _, rfl, rfl, rfl⟩
    · rename_i x some
      exact absurd (none.symm.trans some) (by simp)
  · rw [if_neg fun k => none k.2]
    exact ⟨_, _, rfl, rfl, rfl⟩

theorem Run.publish_stateCopy {r : Run} (clean : Device.Clean c r.state.dev) (out : r.state.dev.outbox = [.stateCopy])
    (bus : r.bus = .failsAfter 0) (opened : r.state.dev.areaOpen = true) :
    r.publish c = { r with state.dev.outbox := [], bus := .failed } := by
  have mirrors := Run.writeMirrors_clean (r := r.always fun d => { d with outbox := [] }) clean rfl
  obtain ⟨⟨d, m, w⟩, b⟩ := r
  cases bus
  have out : d.outbox = [.stateCopy] := out
  unfold Run.publish
  dsimp only
  rw [mirrors, if_pos (by rw [Bool.and_eq_true]; exact ⟨opened, rfl⟩)]
  refine (if_pos rfl).trans ?_
  rw [out]; rfl

theorem State.halts_run (hs : s.safe) (h : s.dev.port.device = .running) : ∃ d, s.Halts (.run false) d := by
  obtain ⟨p, l, run, device, exchange⟩ := Device.setRun_false h
  refine ⟨{ s.dev with port := p, lnc := l }, ⟨⟨p, l, rfl⟩, exchange⟩, ?_⟩
  have outbox := hs.outbox
  have exit := hs.exitEvent
  have changed : s.dev.setRun false = { s.dev with port := p, lnc := l, outbox := [.stateCopy] } := by rw [run, outbox]; rfl
  have opened : (s.dev.setRun false).areaOpen = true := by rw [changed, Device.areaOpen]; simp [device]
  have clean : Device.Clean s.dev (s.dev.setRun false) := by
    rw [changed]
    exact ⟨rfl, rfl, rfl, rfl, fun x hx => by rw [List.mem_singleton.1 hx]; rfl⟩
  have quiet : (s.dev.setRun false).takeExit s.dev = s.dev.setRun false := by
    rw [changed]
    exact Device.takeExit_none exit (newActWork_of_same rfl rfl rfl)
  have settled : ({ state := { s with dev := s.dev.setRun false }, bus := .failsAfter 0 } : Run).settle s.dev =
      { state := { s with dev := { s.dev with port := p, lnc := l } }, bus := .failed } := by
    rw [Run.settle, Run.always_same quiet, Run.publish_stateCopy clean (by rw [changed]) rfl opened, changed, ← outbox]
  show (({ state := { s with dev := s.dev.setRun false }, bus := .failsAfter 0 } : Run).settle s.dev).finish = _
  rw [settled]; rfl

/-! ## O39 -/

theorem State.Halts.answers {op : Instr} (hs : s.safe) (h : s.Halts op d) :
    Answers (.areaFault op 0) s fun t => t.dev.haltedByFault ∧ t.ram = s.softwareRam op ∧ s.dev.HaltsTo t.dev := by
  obtain ⟨verge, done⟩ := h
  refine ⟨runOperation op (.failsAfter 0) s, rfl, ?_⟩
  rw [done]
  exact ⟨d.haltedByFault_enterHalted, rfl, verge.haltsTo hs.outbox⟩

/-- Settles O39: a command whose bus may fail heeds faults step by step, so that it ends where a sound bus takes it, or HALTED; and a
fault of the first access finds the blocks as they were. -/
theorem areaFaultHalts : Obligations.AreaFaultHalts := by
  unfold Obligations.AreaFaultHalts
  refine ⟨fun op n s _ isOperation => ⟨_, rfl, ?_⟩, fun op s hs first => ?_⟩
  · have sound : exec op s = .next (runOperation op .sound s) := by
      obtain ⟨bus, same, still⟩ := exec_eq_runOperation op s
      rw [same, ← isOperation, still]
      rintro cut m rfl
      have size := congrArg sizeOf isOperation
      simp only [Instr.operation, Instr.areaFault.sizeOf_spec] at size
      omega
    rcases runOperation_haltsOr op (.failsAfter n) s with same | halted
    · left
      rw [sound]
      show _ = Host.Outcome.next (runOperation op (.failsAfter n) s)
      rw [same]
    · exact .inr halted
  · rcases first with ⟨⟨host, rfl⟩, device⟩ | ⟨⟨host, rfl⟩, device, progress⟩ | ⟨rfl, device, line, queue⟩ | ⟨rfl, device⟩ |
      ⟨slot, ref, q, rfl, takes⟩
    · exact (State.halts_starting device).answers hs
    · exact (State.halts_sweep device progress).answers hs
    · exact (State.halts_stoppingEnd (by simp [Device.stoppingOver, device, line, queue])).answers hs
    · obtain ⟨d, halts⟩ := State.halts_run hs device
      exact halts.answers hs
    · exact (State.halts_take takes).answers hs

end Sys2Proof.Machine
end

