-- ==== Sys2Proof/Proofs/Hearing.lean ====
section
/-! A reply from a PRESENT validator, from its arrival to what the command leaves: the owner of the exchange, ROS and the arbiter in
turn (R98, R99, R101, R114). -/

namespace Sys2Proof.Machine

variable {s : State} {a : Addr} {e : Exchange} {reply : Reply} {c d g before : Device} {S : Scope} {b : Bool}

/-! ## A reply in the line of its exchange -/

theorem State.awaits.exchange (h : s.awaits a e) : s.dev.lnc.exchange = some e := h.1
theorem State.awaits.line (h : s.awaits a e) : s.dev.lnc.line = .cycle := by
  obtain ⟨-, -, -, -, -, line⟩ := h
  exact line

theorem State.awaits.replyDue (h : s.awaits a e) : e.replyDue = true := by
  obtain ⟨-, -, phase, -⟩ := h
  rcases phase with phase | phase <;> simp [Exchange.replyDue, phase]

/-- The outcome counts: nothing has happened to the exchange, and the record is PRESENT (R48, R50). -/
theorem State.awaits.outcome (h : s.awaits a e) (present : (s.dev.record a).presence = .present) :
    s.dev.clearExchange.outcomeVoid e a = false := by
  obtain ⟨-, -, -, voided, -⟩ := h
  have kept : (s.dev.clearExchange.record a).presence = .present := present
  simp [Device.outcomeVoid, voided, kept]

/-- The area is accessed while a line runs (R109). -/
theorem State.awaits.areaOpen (h : s.awaits a e) (hs : s.safe) : s.dev.areaOpen = true := by
  obtain ⟨-, -, -, lineOk, -⟩ := hs
  rcases lineOk with idle | running | stopping
  · rw [h.line] at idle; cases idle
  · simp [Device.areaOpen, running]
  · simp [Device.areaOpen, stopping]

/-- What the owner of an exchange makes of its reply. -/
def Device.verdictOf (d : Device) (e : Exchange) (a : Addr) (reply : Reply) : Judged := d.clearExchange.judged e a reply

/-- A valid reply is handed to the owner, whose outcome goes to ROS and the arbiter (R101). -/
theorem State.awaits.reply_eq (h : s.awaits a e) (present : (s.dev.record a).presence = .present)
    (valid : replyValid e.kind reply = true) :
    s.dev.reply reply =
      ((s.dev.verdictOf e a reply).device.reportEnding a (s.dev.verdictOf e a reply).busy
        (s.dev.verdictOf e a reply).ending).idleIfStopping := by
  have due := h.replyDue
  have void := h.outcome present
  obtain ⟨exchange, dest, -, voided, -⟩ := h
  unfold Device.reply
  rw [exchange]
  dsimp only
  rw [dest]
  dsimp only
  rw [if_pos due, if_pos valid]
  unfold Device.replyEnds
  have lasting : (e.voided == .bySilence) = false := by rw [voided]; rfl
  dsimp only
  rw [void, lasting, Bool.false_and, Bool.or_false, if_neg Bool.false_ne_true]; rfl

/-- A reply refused is a miss (R101). -/
theorem State.awaits.missed_eq (h : s.awaits a e) (present : (s.dev.record a).presence = .present) :
    s.dev.missed (·.replyDue) = ((s.dev.clearExchange.ownerMissed e a).reportEnding a false .miss).idleIfStopping := by
  have due := h.replyDue
  have void := h.outcome present
  obtain ⟨exchange, dest, -⟩ := h
  unfold Device.missed
  rw [exchange]
  dsimp only
  rw [dest]
  dsimp only
  rw [if_pos due, Device.missEnds]
  show (if s.dev.clearExchange.outcomeVoid e a then _ else _) = _
  rw [void]; rfl

theorem State.awaits.refused (h : s.awaits a e) (present : (s.dev.record a).presence = .present)
    (valid : replyValid e.kind reply = true)
    (refused : s.dev.verdictOf e a reply = refusedReply (s.dev.clearExchange.ownerMissed e a)) :
    s.act .sound (·.reply reply) = s.act .sound (·.missed (·.replyDue)) := by
  have same : s.dev.reply reply = s.dev.missed (·.replyDue) := by
    rw [h.reply_eq present valid, h.missed_eq present, refused]; rfl
  rw [State.act, State.act, same]

/-! ## A clean reply at ROS (R47) -/

/-- A part in which a record has been counted as answered: it alone has changed. -/
structure Device.Answered (d : Device) (a : Addr) (e : Device) : Prop where
  parts : e = { d with ros := e.ros, outbox := e.outbox }
  record : { e.record a with replyTime := .shown } = (d.record a).answeredAt d.fck.seconds
  others : ∀ b, b ≠ a → e.record b = d.record b
  out : ∀ p ∈ e.outbox, p ∈ d.outbox ∨ p.isRewrite = true
  grows : d.outbox ⊆ e.outbox

theorem Device.out_setRecord {r : ValRecord} {p : Publication} (h : p ∈ (d.setRecord a r).outbox) : p ∈ d.outbox ∨ p.isRewrite = true :=
  (List.mem_append.1 h).imp_right fun k => by rw [(mem_rewriteOf.1 k).2]; rfl

theorem Device.validReply_answered (present : (d.record a).presence = .present) : d.Answered a (d.validReply a true) := by
  have timed : (d.replyTimed a).record a =
      { d.record a with
        lastReply := d.fck.seconds.toNat
        replyTime := if (d.record a).lastReply = d.fck.seconds.toNat then (d.record a).replyTime else .changedInCycle
        silenceTimer := some 0 } := Device.record_setRecord_self _ _ _
  have counted : ((d.replyTimed a).counted0 a).record a = { (d.replyTimed a).record a with misses := 0, contentions := 0 } :=
    Device.record_setRecord_self _ _ _
  have still : (((d.replyTimed a).counted0 a).record a).presence ≠ .silent := by
    rw [counted, timed]
    show (d.record a).presence ≠ _
    rw [present]; simp
  have valid : d.validReply a true = (d.replyTimed a).counted0 a := by
    unfold Device.validReply
    dsimp only
    rw [if_pos rfl, if_pos rfl, if_neg still]
  rw [valid]
  refine ⟨rfl, ?_, fun b hb => ?_, fun p hp => ?_, fun p hp => ?_⟩
  · rw [counted, timed]; rfl
  · exact (Device.record_setRecord _ _ _ _).trans ((if_neg (Ne.symm hb)).trans
      ((Device.record_setRecord _ _ _ _).trans (if_neg (Ne.symm hb))))
  · exact (Device.out_setRecord hp).elim Device.out_setRecord .inr
  · exact List.mem_append_left _ (List.mem_append_left _ hp)

/-! ## The line goes IDLE in STOPPING (R109, R121) -/

theorem Device.idleIfStopping_eq (gone : d.lnc.exchange = none) :
    d.idleIfStopping = { d with lnc :=
      if d.port.device = .stopping then { d.lnc with line := .idle, idleCount := 0, keepaliveTimer := none, guardTimer := none }
      else d.lnc } := by
  have still : d.cutExchange = d := by
    unfold Device.cutExchange
    rw [gone]
  unfold Device.idleIfStopping
  by_cases stopping : d.port.device = .stopping
  · rw [if_pos ⟨stopping, gone⟩, Device.lineToIdle, still, if_pos stopping]
  · rw [if_neg fun k => stopping k.1, if_neg stopping]

/-! ## The part after a clean reply -/

/-- What a clean reply leaves, the owner of its exchange having made `g` of it. -/
structure State.Heard (s t : State) (a : Addr) (g : Device) : Prop where
  blocks : t.dev = { g with port := t.dev.port, ros := t.dev.ros, lnc := t.dev.lnc, outbox := [], exitEvent := false }
  record : t.dev.record a = { (g.record a).answeredAt s.dev.fck.seconds with replyTime := (t.dev.record a).replyTime }
  others : ∀ b, b ≠ a → { t.dev.record b with replyTime := (g.record b).replyTime } = g.record b
  line : s.dev.lnc.ended t.dev.lnc (s.dev.port.device == .stopping) s.dev.lnc.heldOver s.dev.lnc.turn
  port : s.dev.portKept t.dev
  pending : t.pending = s.pending

/-- The part as a reply leaves it that its owner takes in the transfer records, HTQ or ACT alone. -/
theorem Device.eq_of_blocks {t : Device} {p : Port} {r : Roster} {x : TransferEngine} {y : HotQueue} {z : Coordinator} {l : LineController}
    {o : List Publication} {v : Bool} (outbox : d.outbox = []) (exit : d.exitEvent = false)
    (parts : g = { d with port := p, ros := r, xfr := x, htq := y, act := z, lnc := l, outbox := o, exitEvent := v })
    (blocks : t = { g with port := t.port, ros := t.ros, lnc := t.lnc, outbox := [], exitEvent := false }) :
    t = { d with port := t.port, ros := t.ros, xfr := x, htq := y, act := z, lnc := t.lnc } := by
  subst parts
  rw [← outbox, ← exit] at blocks
  exact blocks

/-- Two records that differ in the reply time shown alone, one of them known but for it. -/
theorem ValRecord.of_shown {x y z : ValRecord} (h : { x with replyTime := y.replyTime } = y) (k : { y with replyTime := .shown } = z) :
    x = { z with replyTime := x.replyTime } := by
  rw [← k, ← h]

/-- EXP's slots, its returns owed and the device count are as before where rewritings alone are carried out. -/
theorem Device.Counted.slots (h : c.Counted d) :
    d.port.held = c.port.held ∧ d.port.rotation = c.port.rotation ∧ d.port.returnsOwed = c.port.returnsOwed ∧
      d.port.deviceCount = c.port.deviceCount := by
  rw [← h.port]; exact ⟨rfl, rfl, rfl, rfl⟩

/-- Where rewritings alone are handed over, a command returns no slot. -/
theorem Device.slots_concluded (opened : d.areaOpen = true)
    (awake : d.lnc.line = .idle ∨ d.lnc.line = .cycle ∨ d.lnc.line = .recoverCycle) (rewrites : ∀ p ∈ d.outbox, p.isRewrite = true) :
    (d.concluded before).port.held = d.port.held ∧ (d.concluded before).port.rotation = d.port.rotation ∧
      (d.concluded before).port.returnsOwed = d.port.returnsOwed ∧ (d.concluded before).port.deviceCount = d.port.deviceCount := by
  have published := Device.published_open (d := { d with exitEvent := false }) (before := before) opened
  have out : ∀ p ∈ ({ d with exitEvent := false } : Device).outbox, p.isRewrite = true := rewrites
  rw [Device.concluded, Device.takeExit_awake awake, published, Device.carriedAll_rewrites out]
  exact (Device.counted_mirrors ({ d with exitEvent := false, outbox := [] } : Device) before d.outbox).slots

theorem Stir.slots (h : Stir c d) :
    d.port.held = c.port.held ∧ d.port.rotation = c.port.rotation ∧ d.port.returnsOwed = c.port.returnsOwed ∧
      d.port.deviceCount = c.port.deviceCount := by
  rw [← h.port]; exact ⟨rfl, rfl, rfl, rfl⟩

/-- A reply whose owner accepts it and makes `g` of the part, the line kept and the record PRESENT still. -/
structure State.Accepts (s : State) (a : Addr) (e : Exchange) (reply : Reply) (g : Device) : Prop where
  safe : s.safe
  awaits : s.awaits a e
  present : (s.dev.record a).presence = .present
  valid : replyValid e.kind reply = true
  judged : s.dev.verdictOf e a reply = accepted g
  line : g.lnc = s.dev.clearExchange.lnc
  still : (g.record a).presence = .present

/-- The part as a clean reply leaves it before it is published. -/
def Device.heard (g : Device) (a : Addr) : Device := (g.validReply a true).idleIfStopping

namespace State.Accepts

variable (h : s.Accepts a e reply g)
include h

theorem reply_eq : s.dev.reply reply = g.heard a := by
  rw [h.awaits.reply_eq h.present h.valid, h.judged]; rfl

theorem calm : Calm s.dev.clearExchange g := by
  have calm : Calm s.dev.clearExchange (s.dev.verdictOf e a reply).device := Device.calm_judged (.refl _) e a reply
  rw [h.judged] at calm
  exact calm

theorem answered : g.Answered a (g.validReply a true) := Device.validReply_answered h.still

theorem heard_eq :
    g.heard a =
      { g.validReply a true with lnc :=
        if s.dev.port.device = .stopping then
          { s.dev.clearExchange.lnc with line := .idle, idleCount := 0, keepaliveTimer := none, guardTimer := none }
        else s.dev.clearExchange.lnc } := by
  have parts := h.answered.parts
  have lnc : (g.validReply a true).lnc = s.dev.clearExchange.lnc := by rw [parts]; exact h.line
  have device : (g.validReply a true).port.device = s.dev.port.device := by rw [parts]; exact h.calm.stir.device
  rw [Device.heard, Device.idleIfStopping_eq (by rw [lnc]; rfl), lnc, device]

theorem awake : (g.heard a).lnc.line = .idle ∨ (g.heard a).lnc.line = .cycle ∨ (g.heard a).lnc.line = .recoverCycle := by
  rw [h.heard_eq]
  by_cases stopping : s.dev.port.device = .stopping
  · rw [if_pos stopping]; exact .inl rfl
  · rw [if_neg stopping]; exact .inr (.inl h.awaits.line)

theorem port_heard : (g.heard a).port = g.port := by
  rw [h.heard_eq, h.answered.parts]

theorem registers_heard : (g.heard a).port.registers = s.dev.port.registers := by
  rw [h.port_heard]
  exact h.calm.stir.registers

theorem opened : (g.heard a).areaOpen = true := by
  have device := congrArg Port.device h.registers_heard
  exact (Device.areaOpen_of_registers device).trans (h.awaits.areaOpen h.safe)

theorem dev : (s.act .sound (·.reply reply)).dev = (g.heard a).concluded s.dev := by
  rw [State.act_dev, h.reply_eq]

theorem taken : (g.heard a).takeExit s.dev = { g.heard a with exitEvent := false } := Device.takeExit_awake h.awake

/-- What the command leaves of the part, from what the owner made of it. -/
theorem heard : s.Heard (s.act .sound (·.reply reply)) a g := by
  have parts := Device.concluded_parts (before := s.dev) h.opened
  have answered := h.answered
  have record (b : Addr) := Device.concluded_record (before := s.dev) h.opened b
  have fck : g.fck = s.dev.fck := h.calm.fck
  have records (b : Addr) : ((g.heard a).takeExit s.dev).record b = (g.validReply a true).record b := by
    rw [h.taken, h.heard_eq]; rfl
  refine { blocks := ?_, record := ?_, others := fun b hb => ?_, line := ?_, port := ?_, pending := State.act_pending _ _ }
  · rw [h.dev, parts, h.taken, h.heard_eq, answered.parts]
  · rw [h.dev]
    have mine := record a
    rw [records] at mine
    rw [← fck]
    exact ValRecord.of_shown mine answered.record
  · rw [h.dev]
    have mine := record b
    rw [records, answered.others b hb] at mine
    exact mine
  · obtain ⟨-, -, -, -, -, -, -, lnc, -⟩ := (Device.concluded_blocks (g.heard a) s.dev)
    rw [h.dev, lnc, h.taken, h.heard_eq]
    show LineController.ended _ (if _ then _ else _) _ _ _
    unfold LineController.ended
    by_cases stopping : s.dev.port.device = .stopping
    · simp only [stopping]; rfl
    · have other : (s.dev.port.device == .stopping) = false := by simpa using stopping
      rw [if_neg stopping, other]; rfl
  · rw [h.dev]
    exact Device.portKept_of_registers (x := s.dev.port.rotation) (l := s.dev.port.returnsOwed)
      ((Device.concluded_registers h.opened).trans h.registers_heard)

/-- The command hears the validator out: nothing is learned of the others. -/
theorem heardFrom (moves : Moves S s.dev.clearExchange b g) (alone : ∀ x, S.learned x → x = a) :
    s.heardFrom (s.act .sound (·.reply reply)) a false := by
  have heard := h.heard
  have blocks := heard.blocks
  have calm := h.calm
  refine ⟨heard.line, fun x hx => ?_, heard.port, ?_, ?_, heard.pending⟩
  · have other : x ≠ a := fun k => hx (congrArg some k.symm)
    have same := congrArg ValRecord.learned (heard.others x other)
    exact Eq.trans same ((moves.recordStep x).learned.resolve_left fun k => other (alone x k))
  · rw [blocks]; exact calm.fck
  · rw [blocks]; exact calm.block

theorem entriesKept {except : Option CatIndex} (moves : Moves S s.dev.clearExchange b g) (alone : ∀ i, S.entry i → except = some i) :
    s.dev.entriesKept (s.act .sound (·.reply reply)).dev except := by
  rw [h.heard.blocks]
  exact moves.entriesKept alone

theorem queue : (s.act .sound (·.reply reply)).dev.htq.queue <:+ s.dev.htq.queue := by
  rw [h.heard.blocks]; exact h.calm.queue

theorem out_heard {p : Publication} (hp : p ∈ (g.heard a).outbox) : p ∈ g.outbox ∨ p.isRewrite = true := by
  rw [h.heard_eq] at hp
  exact h.answered.out p hp

theorem grows_heard : g.outbox ⊆ (g.heard a).outbox := by
  rw [h.heard_eq]; exact h.answered.grows

/-- Where rewritings alone are handed over, no slot is returned. -/
theorem slotsKept (rewrites : ∀ p ∈ g.outbox, p.isRewrite = true) : s.dev.slotsKept (s.act .sound (·.reply reply)).dev := by
  obtain ⟨held, rotation, owed, count⟩ :=
    Device.slots_concluded (before := s.dev) h.opened h.awake fun p hp => (h.out_heard hp).elim (rewrites p) id
  obtain ⟨held', rotation', owed', count'⟩ := h.calm.stir.slots
  refine ⟨h.heard.port, ?_⟩
  rw [h.dev, held, rotation, owed, count, h.port_heard]
  exact ⟨held', rotation', owed', count'⟩

end State.Accepts

end Sys2Proof.Machine
end

