-- ==== Sys2Proof/Proofs/Easing.lean ====
section
/-! What reports to the coordinator leave of transfer records, of the stream cells and of the line: records may close, rejects, holds
and shortfalls may be taken off, and the line stays where no exchange is in flight (R26, R30, R166, R171, R173). -/

namespace Sys2Proof.Machine

variable {s : State} {a : Addr} {c d e : Device} {b : Bool}

/-- A cell whose rejects, hold and shortfall have not been set. -/
def StreamCell.Eased (x y : StreamCell) : Prop :=
  (x.rejects = 0 → y.rejects = 0) ∧ (x.hold = false → y.hold = false) ∧ (x.room = false → y.room = false)

/-- A part in which records may have closed, and rejects, holds and shortfalls may have been taken off. -/
structure Device.Eases (d e : Device) : Prop where
  records : ∀ (a : Addr), ∀ r ∈ (e.transfers a).records, ∃ q ∈ (d.transfers a).records, q.unmarked = r.unmarked
  cells : ∀ (a : Addr) s, ((d.record a).cell s).Eased ((e.record a).cell s)
  line : d.lnc.exchange = none → e.lnc = d.lnc

namespace Device.Eases

theorem refl (d : Device) : d.Eases d := ⟨fun _ r hr => ⟨r, hr, rfl⟩, fun _ _ => ⟨id, id, id⟩, fun _ => rfl⟩

theorem trans (h : c.Eases d) (k : d.Eases e) : c.Eases e where
  records := fun a r hr => by
    obtain ⟨q, hq, same⟩ := k.records a r hr
    obtain ⟨p, hp, same'⟩ := h.records a q hq
    exact ⟨p, hp, same'.trans same⟩
  cells := fun a s => by
    obtain ⟨rejects, hold, room⟩ := h.cells a s
    obtain ⟨rejects', hold', room'⟩ := k.cells a s
    exact ⟨rejects' ∘ rejects, hold' ∘ hold, room' ∘ room⟩
  line := fun none => (k.line (by rw [h.line none]; exact none)).trans (h.line none)

theorem ite {p : Prop} [Decidable p] {x y : Device} (h : p → c.Eases x) (k : ¬p → c.Eases y) : c.Eases (if p then x else y) := by
  split
  · exact h ‹_›
  · exact k ‹_›

theorem foldl {α : Type} {f : Device → α → Device} (l : List α) (hf : ∀ d x, Device.Eases d (f d x)) (h : c.Eases d) :
    c.Eases (l.foldl f d) := by
  induction l generalizing d with
  | nil => exact h
  | cons x l ih => exact ih (h.trans (hf d x))

/-- Transfer records, validator records and line as before. -/
theorem of_same (xfr : e.xfr = d.xfr) (ros : e.ros = d.ros) (lnc : d.lnc.exchange = none → e.lnc = d.lnc) : d.Eases e where
  records := fun a r hr => ⟨r, by rw [Device.transfers, xfr] at hr; exact hr, rfl⟩
  cells := fun a s => by
    have same : e.record a = d.record a := by simp only [Device.record, ros]
    rw [same]; exact ⟨id, id, id⟩
  line := lnc

/-- Replanning and closing. -/
theorem of_tidied (h : d.Tidied e) (moves : Moves .narrow d b e) : d.Eases e where
  records := fun a r hr => by
    obtain ⟨q, hq, same, -⟩ := h.records a r hr
    exact ⟨q, hq, same⟩
  cells := fun a s => by rw [h.cells a s]; exact ⟨id, id, id⟩
  line := fun _ => Device.lnc_of_narrow moves

/-- A tag that no record bears is borne by none later. -/
theorem byTag {tag : Nat} (h : d.Eases e) (k : (d.transfers a).byTag tag = none) : (e.transfers a).byTag tag = none := by
  unfold Transfers.byTag at k ⊢
  rw [List.find?_eq_none] at k ⊢
  intro r hr
  obtain ⟨q, hq, same⟩ := h.records a r hr
  have tags := congrArg TransferRecord.tag same
  have tags : q.tag = r.tag := tags
  rw [← tags]; exact k q hq

end Device.Eases

/-- A target change takes rejects, holds and shortfalls off its streams (R30). -/
theorem StreamCell.eased_retargeted (r : ValRecord) (l : List Stream) (s : Stream) : (r.cell s).Eased ((r.retargeted l).cell s) := by
  rw [ValRecord.cell_retargeted]
  split
  · exact ⟨fun _ => rfl, fun _ => rfl, fun _ => rfl⟩
  · exact ⟨id, id, id⟩

namespace Device

theorem eases_replan (d : Device) (a : Addr) : d.Eases (d.replan a) :=
  .of_tidied (b := false) (d.tidied_replan a) (moves_replan .start)
theorem eases_replanAll (d : Device) : d.Eases d.replanAll := .foldl _ (fun d a => d.eases_replan a) (.refl d)
theorem eases_closeRecord {r : TransferRecord} (d : Device) (hr : r ∈ (d.transfers a).records) : d.Eases (d.closeRecord a r) :=
  .of_tidied (b := false) (d.tidied_closeRecord a r) (moves_closeRecord .start fun _ => hr)

theorem eases_raise (d : Device) (x : Cause) : d.Eases (d.raise x) := .of_same rfl rfl fun _ => rfl
theorem eases_setAct (d : Device) (x : Coordinator) : d.Eases (d.setAct x) := .of_same rfl rfl fun _ => rfl
theorem eases_handOver (d : Device) (p : Publication) : d.Eases (d.handOver p) := .of_same rfl rfl fun _ => rfl
theorem eases_setPlan (d : Device) (a : Addr) (p : List Job) : d.Eases (d.setPlan a p) := .of_same rfl rfl fun _ => rfl

theorem eases_replanLifted (d : Device) (a : Addr) (r : ValRecord) (l : List Stream) : d.Eases (d.replanLifted a r l) := by
  have lifted (p : Bool) (d : Device) : d.Eases (if p then d.replan a else d) := .ite (fun _ => d.eases_replan a) fun _ => .refl d
  exact (lifted _ d).trans (lifted _ _)

theorem eases_targetChanged (d : Device) (l : List Stream) : d.Eases (d.targetChanged l) := by
  have mapped : d.Eases (d.mapRecords fun _ r => r.retargeted l) :=
    ⟨fun _ r hr => ⟨r, hr, rfl⟩, fun a s => by rw [record_mapRecords]; exact StreamCell.eased_retargeted _ l s, fun _ => rfl⟩
  exact .foldl _ (fun e a => e.eases_replanLifted a (d.record a) l) mapped

theorem eases_decideCommit (d : Device) (x : CommitCause) : d.Eases (d.decideCommit x) := (d.eases_setAct _).trans (eases_raise _ _)

theorem eases_judgeCommit (d : Device) : d.Eases d.judgeCommit := by
  unfold Device.judgeCommit
  exact .ite (fun _ => .ite (fun _ => d.eases_decideCommit _) fun _ => .ite (fun _ => d.eases_decideCommit _) fun _ => .refl d)
    fun _ => .refl d

theorem eases_judgeTime (d : Device) : d.Eases d.judgeTime := by
  unfold Device.judgeTime
  split
  · exact .ite (fun _ => ((d.eases_setAct _).trans (eases_raise _ _)).trans (eases_judgeCommit _)) fun _ => .refl d
  · exact .ite (fun _ => d.eases_judgeCommit) fun _ => (d.eases_setAct _).trans (eases_raise _ _)
  · exact .refl d

theorem eases_actWorkReported (d x : Device) : d.Eases (d.actWorkReported x) :=
  .ite (fun _ => .of_same rfl rfl fun _ => rfl) fun _ => .refl d

/-- The coordinator's starting over marks the exchange in flight stale, if there is one (R166). -/
theorem eases_startOver (d : Device) : d.Eases d.startOver := by
  unfold Device.startOver
  extract_lets standings src src2 d1
  have h1 : d.Eases d1 := by
    refine .of_same rfl rfl fun none => ?_
    have gone : d1.lnc.exchange = d.lnc.exchange := by
      show d.lnc.exchange.map _ = _
      rw [none]; rfl
    show { d.lnc with exchange := d1.lnc.exchange } = d.lnc
    rw [gone]
  exact (((h1.trans (d1.eases_handOver _)).trans (eases_raise _ _)).trans (eases_judgeTime _)).trans (eases_actWorkReported _ _)

theorem eases_setFareTarget (d : Device) (t : FareTarget) : d.Eases (d.setFareTarget t) := by
  have h1 : d.Eases { d with tgt.fare := t } := .of_same rfl rfl fun _ => rfl
  exact ((h1.trans (eases_targetChanged _ _)).trans (eases_replanAll _)).trans (eases_startOver _)

theorem eases_applyHeldTarget (d : Device) : d.Eases d.applyHeldTarget := by
  unfold Device.applyHeldTarget
  split
  · exact .refl d
  · rename_i t held
    have h1 : d.Eases { d with tgt.heldFare := none } := .of_same rfl rfl fun _ => rfl
    exact .ite (fun _ => h1) fun _ => h1.trans (eases_setFareTarget _ t)

theorem eases_judgeSettled (d : Device) : d.Eases d.judgeSettled :=
  .ite (fun _ => ((d.eases_setAct _).trans (eases_raise _ _)).trans (eases_applyHeldTarget _)) fun _ => .refl d

theorem eases_judgeActivation (d : Device) : d.Eases d.judgeActivation := d.eases_judgeCommit.trans (eases_judgeSettled _)

theorem eases_setStanding (d : Device) (a : Addr) (x : StandingRecord) : d.Eases (d.setStanding a x) := .of_same rfl rfl fun _ => rfl

theorem eases_fareReport (d : Device) (a : Addr) : d.Eases (d.fareReport a) := (d.eases_setStanding a _).trans (eases_judgeActivation _)

end Device

end Sys2Proof.Machine
end

