-- ==== Sys2Proof/Proofs/Counting.lean ====
section
/-! The update counts of the mirrors over a command: each steps by one where its record is rewritten, and stays where it is not
(R188). -/

namespace Sys2Proof.Machine

variable {a : Addr} {i : CatIndex} {d before : Device}

/-- One where a record is rewritten, and zero where it is not. -/
def once (due : Bool) : Word32 := if due then 1 else 0

theorem Device.catCounts_foldl (l : List CatIndex) (d : Device) (distinct : l.Nodup) :
    (l.foldl Device.countCat d).port.catCounts[i] = d.port.catCounts[i] + once (decide (i ∈ l)) := by
  induction l generalizing d with
  | nil => simp [once]
  | cons j l ih =>
    obtain ⟨fresh, rest⟩ := List.nodup_cons.1 distinct
    rw [List.foldl_cons, ih _ rest]
    have counted : (d.countCat j).port.catCounts[i] = if j = i then d.port.catCounts[j] + 1 else d.port.catCounts[i] :=
      getElem_set_fin _ _ _ _
    rw [counted]
    by_cases same : j = i
    · subst same; simp [once, fresh]
    · simp [once, same, Ne.symm same]

theorem Device.rosCounts_foldl (l : List Addr) (d : Device) (distinct : l.Nodup) :
    (l.foldl Device.countRos d).port.rosCounts[a] = d.port.rosCounts[a] + once (decide (a ∈ l)) := by
  induction l generalizing d with
  | nil => simp [once]
  | cons j l ih =>
    obtain ⟨fresh, rest⟩ := List.nodup_cons.1 distinct
    rw [List.foldl_cons, ih _ rest]
    have counted : (d.countRos j).port.rosCounts[a] = if j = a then d.port.rosCounts[j] + 1 else d.port.rosCounts[a] :=
      getElem_set_fin _ _ _ _
    rw [counted]
    by_cases same : j = a
    · subst same; simp [once, fresh]
    · simp [once, same, Ne.symm same]

/-- Counting one kind of mirror leaves the counts of the others. -/
theorem Device.counts_countCat (l : List CatIndex) (d : Device) :
    (l.foldl Device.countCat d).port.rosCounts = d.port.rosCounts ∧ (l.foldl Device.countCat d).port.coordCount = d.port.coordCount := by
  induction l generalizing d with
  | nil => exact ⟨rfl, rfl⟩
  | cons j l ih => exact ih (d.countCat j)

theorem Device.counts_countRos (l : List Addr) (d : Device) :
    (l.foldl Device.countRos d).port.catCounts = d.port.catCounts ∧ (l.foldl Device.countRos d).port.coordCount = d.port.coordCount := by
  induction l generalizing d with
  | nil => exact ⟨rfl, rfl⟩
  | cons j l ih => exact ih (d.countRos j)

/-- The update counts after the mirrors of a command are written. -/
theorem Device.counts_mirrors (d before : Device) (out : List Publication) :
    (∀ i, (d.mirrorsCounted before out).port.catCounts[i] = d.port.catCounts[i] + once (catDirty before d out i)) ∧
      (∀ a, (d.mirrorsCounted before out).port.rosCounts[a] = d.port.rosCounts[a] + once (rosDirty before d out a)) ∧
      (d.mirrorsCounted before out).port.coordCount =
        d.port.coordCount + once (mirrorDue out .coordRewrite (coordBody before.act) (coordBody d.act)) := by
  obtain ⟨catRos, catCoord⟩ := d.counts_countCat (allIndices.filter (catDirty before d out))
  obtain ⟨rosCat, rosCoord⟩ := Device.counts_countRos (allAddrs.filter (rosDirty before d out))
    ((allIndices.filter (catDirty before d out)).foldl Device.countCat d)
  have cat (i : CatIndex) : i ∈ allIndices.filter (catDirty before d out) ↔ catDirty before d out i = true := by
    rw [List.mem_filter]; exact and_iff_right (List.mem_finRange i)
  have ros (a : Addr) : a ∈ allAddrs.filter (rosDirty before d out) ↔ rosDirty before d out a = true := by
    rw [List.mem_filter]; exact and_iff_right (List.mem_finRange a)
  have whole : ∃ e : Device, e.port.catCounts = ((allIndices.filter (catDirty before d out)).foldl Device.countCat d).port.catCounts ∧
      e.port.rosCounts = ((allAddrs.filter (rosDirty before d out)).foldl Device.countRos
        ((allIndices.filter (catDirty before d out)).foldl Device.countCat d)).port.rosCounts ∧
      e.port.coordCount = d.port.coordCount + once (mirrorDue out .coordRewrite (coordBody before.act) (coordBody d.act)) ∧
      d.mirrorsCounted before out = e := by
    refine ⟨_, ?_, ?_, ?_, rfl⟩
    all_goals
      unfold Device.mirrorsCounted
      dsimp only
      cases mirrorDue out .coordRewrite (coordBody before.act) (coordBody d.act)
    · exact rosCat
    · exact rosCat
    · rfl
    · rfl
    · exact (rosCoord.trans catCoord).trans (by simp [once])
    · exact congrArg (· + 1) (rosCoord.trans catCoord)
  obtain ⟨e, catCounts, rosCounts, coordCount, same⟩ := whole
  rw [same]
  refine ⟨fun i => ?_, fun a => ?_, coordCount⟩
  · have distinct : (allIndices.filter (catDirty before d out)).Nodup := (List.nodup_finRange 48).filter _
    rw [catCounts, Device.catCounts_foldl _ _ distinct]
    simp only [cat, Bool.decide_eq_true]
  · have distinct : (allAddrs.filter (rosDirty before d out)).Nodup := (List.nodup_finRange 12).filter _
    rw [rosCounts, Device.rosCounts_foldl _ _ distinct, catRos]
    simp only [ros, Bool.decide_eq_true]

theorem Stir.counts {e : Device} (h : Stir d e) :
    e.port.catCounts = d.port.catCounts ∧ e.port.rosCounts = d.port.rosCounts ∧ e.port.coordCount = d.port.coordCount := by
  rw [← h.port]; exact ⟨rfl, rfl, rfl⟩

theorem Device.Carried.counts {e : Device} (h : d.Carried e) :
    e.port.catCounts = d.port.catCounts ∧ e.port.rosCounts = d.port.rosCounts ∧ e.port.coordCount = d.port.coordCount := by
  rw [← h.port]; exact ⟨rfl, rfl, rfl⟩

/-- The update counts that a command leaves, the area being accessed. -/
theorem Device.counts_concluded (opened : d.areaOpen = true) (before : Device) :
    (∀ i, (d.concluded before).port.catCounts[i] =
        d.port.catCounts[i] + once (catDirty before (d.takeExit before) (d.takeExit before).outbox i)) ∧
      (∀ a, (d.concluded before).port.rosCounts[a] =
        d.port.rosCounts[a] + once (rosDirty before (d.takeExit before) (d.takeExit before).outbox a)) ∧
      (d.concluded before).port.coordCount =
        d.port.coordCount + once (mirrorDue (d.takeExit before).outbox .coordRewrite (coordBody before.act)
          (coordBody (d.takeExit before).act)) := by
  have stir := Device.stir_takeExit (.refl d) before
  have openedStill : (d.takeExit before).areaOpen = true := by rw [Device.areaOpen, stir.device]; exact opened
  obtain ⟨exitCat, exitRos, exitCoord⟩ := stir.counts
  unfold Device.concluded
  generalize d.takeExit before = e at openedStill exitCat exitRos exitCoord
  obtain ⟨cat, ros, coord⟩ := Device.counts_mirrors ({ e with outbox := [] } : Device) before e.outbox
  obtain ⟨carriedCat, carriedRos, carriedCoord⟩ :=
    (Device.carried_all e.outbox (({ e with outbox := [] } : Device).mirrorsCounted before e.outbox)).counts
  rw [Device.published_open openedStill, ← exitCat, ← exitRos, ← exitCoord]
  refine ⟨fun i => ?_, fun a => ?_, ?_⟩
  · exact (congrArg (·[i]) carriedCat).trans (cat i)
  · exact (congrArg (·[a]) carriedRos).trans (ros a)
  · exact carriedCoord.trans coord

end Sys2Proof.Machine
end

