-- ==== Sys2Proof/Proofs/Verdict.lean ====
section
/-! A VERDICT to a SEAL (R17, R55 to R58, R61, R105, R136 to R138). -/

namespace Sys2Proof.Machine

variable {s : State} {a : Addr} {e : Exchange} {c d g : Device} {b : Bool} {st : Stream} {r r' : ValRecord} {q : TransferRecord}

/-! ## What is learned of a record that changes -/

theorem ValRecord.heldOf_learned (r : ValRecord) (st : Stream) : r.learned.heldOf st = r.heldOf st := by
  simp [ValRecord.heldOf, ValRecord.cell, ValRecord.learned, ValRecord.mapCells]

/-- Records of which the same has been learned hold the same, and differ in their streams, reach and reply time alone. -/
theorem ValRecord.parts_of_learned (h : r'.learned = r.learned) :
    (∀ st, r'.heldOf st = r.heldOf st) ∧ { r' with streams := r.streams, reach := r.reach, replyTime := r.replyTime } = r := by
  refine ⟨fun st => by rw [← ValRecord.heldOf_learned, h, ValRecord.heldOf_learned], ?_⟩
  have rest := congrArg (fun x : ValRecord => { x with streams := r.streams, reach := r.reach, replyTime := r.replyTime }) h
  exact rest

theorem ValRecord.learned_setCell_congr {x y : StreamCell} (h : r'.learned = r.learned) (held : x.held = y.held) :
    (r'.setCell st x).learned = (r.setCell st y).learned := by
  obtain ⟨same, rest⟩ := ValRecord.parts_of_learned h
  refine ValRecord.learned_eq (fun t => ?_) ?_
  · rw [ValRecord.heldOf, ValRecord.heldOf, ValRecord.cell_setCell, ValRecord.cell_setCell]
    split
    · exact held
    · exact same t
  · have rest := congrArg (fun x : ValRecord => { x with streams := (r.setCell st y).streams }) rest
    exact rest

theorem ValRecord.learned_answeredAt_congr (h : r'.learned = r.learned) (now : Word32) :
    (r'.answeredAt now).learned = (r.answeredAt now).learned := by
  have same := congrArg (fun x : ValRecord =>
    { x with misses := 0, contentions := 0, lastReply := now.toNat, silenceTimer := some 0 }) h
  exact same

theorem ValRecord.cell_answeredAt (r : ValRecord) (now : Word32) (st : Stream) : (r.answeredAt now).cell st = r.cell st := rfl

/-! ## Stored editions at ROS (R55, R57) -/

/-- Reports to the coordinator may change it and the targets. -/
def Scope.acting : Scope := { Scope.narrow with act := True }

theorem Device.learned_fareReport (d : Device) (x y : Addr) : ((d.fareReport x).record y).learned = (d.record y).learned :=
  ((Device.moves_fareReport (S := .acting) (b := false) trivial .start).recordStep y).learned.resolve_left id

/-- A held BLOCK edition that has changed makes a SHORT hot status OK (R55, R153). -/
def ValRecord.heldMoved (r : ValRecord) (st : Stream) (old : Nat) : ValRecord :=
  { r with hotStatus := if st ≠ .fare ∧ r.heldOf st ≠ old ∧ r.hotStatus = .short then .ok else r.hotStatus }

theorem ValRecord.heldMoved_fare (r : ValRecord) (old : Nat) : r.heldMoved .fare old = r := by simp [ValRecord.heldMoved]

theorem ValRecord.learned_heldMoved (h : r'.learned = r.learned) (old : Nat) :
    (r'.heldMoved st old).learned = (r.heldMoved st old).learned := by
  obtain ⟨held, -⟩ := ValRecord.parts_of_learned h
  have hot := congrArg ValRecord.hotStatus h
  have hot : r'.hotStatus = r.hotStatus := hot
  have moved := congrArg (fun x : ValRecord =>
    { x with hotStatus :=
        if st ≠ Stream.fare ∧ r.heldOf st ≠ old ∧ r.hotStatus = HotStatus.short then HotStatus.ok else r.hotStatus }) h
  rw [ValRecord.heldMoved, held, hot]
  exact moved

theorem Device.record_heldChanged (d : Device) (a : Addr) (st : Stream) (old : Nat) :
    (d.heldChanged a st old).record a = (d.record a).heldMoved st old := by
  unfold Device.heldChanged
  split
  · rename_i changed
    have retired : ∀ x : Device, x.judgeRetirement.record a = x.record a := fun _ => rfl
    rw [retired, Device.heldBlockChanged]
    split
    · rename_i short
      rw [ValRecord.heldMoved, if_pos ⟨changed.1, changed.2, short⟩]
      have set : (d.setHotStatus a .ok).record a = { d.record a with hotStatus := .ok } := by
        unfold Device.setHotStatus
        dsimp only
        split
        · exact Device.record_setRecord_self _ _ _
        · exact Device.record_setRecord_self _ _ _
      exact set
    · rename_i short
      rw [ValRecord.heldMoved, if_neg fun k => short k.2.2]
  · rename_i still
    rw [ValRecord.heldMoved, if_neg fun k => still ⟨k.1, k.2.1⟩]

theorem Device.eases_heldChanged (d : Device) (a : Addr) (st : Stream) (old : Nat) : d.Eases (d.heldChanged a st old) := by
  have set (x : HotStatus) : d.Eases (d.setHotStatus a x) := by
    have changed : d.Eases (d.setRecord a { d.record a with hotStatus := x }) := by
      refine ⟨fun _ r hr => ⟨r, hr, rfl⟩, fun b s => ?_, fun _ => rfl⟩
      rw [Device.record_setRecord]
      split
      · rename_i same; subst same; exact ⟨id, id, id⟩
      · exact ⟨id, id, id⟩
    unfold Device.setHotStatus
    exact .ite (fun _ => changed.trans (Device.eases_raise _ _)) fun _ => changed
  have retired (x : Device) : x.Eases x.judgeRetirement := .of_same rfl rfl fun _ => rfl
  unfold Device.heldChanged
  refine .ite (fun _ => Device.Eases.trans ?_ (retired _)) fun _ => .refl d
  unfold Device.heldBlockChanged
  exact .ite (fun _ => set .ok) fun _ => .refl d

/-- A record with an edition stored (R55, R57). -/
def ValRecord.storing (r : ValRecord) (st : Stream) (edition : Nat) : ValRecord :=
  let r := r.setCell st { r.cell st with held := edition, rejects := 0 }
  if st = .fare then { r with activeFare := edition, pendingFare := 0 } else r

theorem Device.stored_eq (d : Device) (a : Addr) (st : Stream) (edition : Nat) :
    d.stored a st edition =
      if st = .fare then
        (((d.setRecord a ((d.record a).storing st edition)).replan a).heldChanged a st ((d.record a).heldOf st)).fareReport a
      else ((d.setRecord a ((d.record a).storing st edition)).replan a).heldChanged a st ((d.record a).heldOf st) := rfl

theorem Device.eases_stored (d : Device) (a : Addr) (st : Stream) (edition : Nat) :
    (d.setRecord a ((d.record a).storing st edition)).Eases (d.stored a st edition) := by
  have held := (Device.eases_replan (d.setRecord a ((d.record a).storing st edition)) a).trans
    (Device.eases_heldChanged _ a st ((d.record a).heldOf st))
  rw [Device.stored_eq]
  exact .ite (fun _ => held.trans (Device.eases_fareReport _ a)) fun _ => held

/-- What ROS has learned with an edition stored (R55, R153). -/
theorem Device.learned_stored (h : (d.record a).learned = r.learned) (edition : Nat) :
    ((d.stored a st edition).record a).learned =
      { r.setHeld st edition with
        activeFare := if st = Stream.fare then edition else r.activeFare
        pendingFare := if st = Stream.fare then 0 else r.pendingFare
        hotStatus :=
          if st ≠ Stream.fare ∧ r.heldOf st ≠ edition ∧ r.hotStatus = HotStatus.short then HotStatus.ok
          else r.hotStatus }.learned := by
  obtain ⟨held, -⟩ := ValRecord.parts_of_learned h
  have replanned (x : Device) : ((x.replan a).record a).learned = (x.record a).learned :=
    ((Device.moves_replan (S := .narrow) (b := false) .start).recordStep a).learned.resolve_left id
  have base : ((d.record a).setCell st { (d.record a).cell st with held := edition, rejects := 0 }).learned =
      (r.setHeld st edition).learned := ValRecord.learned_setCell_congr h rfl
  have set : (((d.setRecord a ((d.record a).storing st edition)).replan a).record a).learned = ((d.record a).storing st edition).learned := by
    rw [replanned, Device.record_setRecord_self]
  by_cases fare : st = .fare
  · subst fare
    have target := congrArg (fun x : ValRecord => { x with activeFare := edition, pendingFare := 0 }) base
    rw [Device.stored_eq, if_pos rfl, Device.learned_fareReport, Device.record_heldChanged, ValRecord.heldMoved_fare, set]
    exact target
  · have storing : (d.record a).storing st edition =
        (d.record a).setCell st { (d.record a).cell st with held := edition, rejects := 0 } := if_neg fare
    rw [Device.stored_eq, if_neg fare, Device.record_heldChanged, ValRecord.learned_heldMoved (set.trans (storing ▸ base)),
      held st, if_neg fare, if_neg fare]
    have now : (r.setHeld st edition).heldOf st = edition := by
      rw [ValRecord.heldOf, ValRecord.setHeld, ValRecord.cell_setCell_self]
    have moved := if_congr (x := HotStatus.ok) (y := r.hotStatus)
      (show st ≠ .fare ∧ edition ≠ r.heldOf st ∧ r.hotStatus = .short ↔ st ≠ .fare ∧ r.heldOf st ≠ edition ∧ r.hotStatus = .short by
        rw [ne_comm (a := edition)]) rfl rfl
    rw [ValRecord.heldMoved, now]
    exact congrArg (fun x : HotStatus => { r.setHeld st edition with hotStatus := x }.learned) moved

/-- A record with a pending FARE edition stored (R55; assumption log 44). -/
def ValRecord.storingPending (r : ValRecord) (edition : Nat) : ValRecord :=
  { r.setCell .fare { r.cell .fare with held := edition, rejects := 0 } with pendingFare := edition }

theorem Device.storedPending_eq (d : Device) (a : Addr) (edition : Nat) :
    d.storedPending a edition = ((d.setRecord a ((d.record a).storingPending edition)).replan a).fareReport a := rfl

theorem Device.eases_storedPending (d : Device) (a : Addr) (edition : Nat) :
    (d.setRecord a ((d.record a).storingPending edition)).Eases (d.storedPending a edition) :=
  (Device.eases_replan _ a).trans (Device.eases_fareReport _ a)

theorem Device.learned_storedPending (h : (d.record a).learned = r.learned) (edition : Nat) :
    ((d.storedPending a edition).record a).learned = { r.setHeld .fare edition with pendingFare := edition }.learned := by
  have replanned (x : Device) : ((x.replan a).record a).learned = (x.record a).learned :=
    ((Device.moves_replan (S := .narrow) (b := false) .start).recordStep a).learned.resolve_left id
  have base : ((d.record a).setCell .fare { (d.record a).cell .fare with held := edition, rejects := 0 }).learned =
      (r.setHeld .fare edition).learned := ValRecord.learned_setCell_congr h rfl
  have target := congrArg (fun x : ValRecord => { x with pendingFare := edition }) base
  rw [Device.storedPending_eq, Device.learned_fareReport, replanned, Device.record_setRecord_self]
  exact target

theorem Device.eases_setRecord {d : Device} {a : Addr} {x : ValRecord} (h : ∀ st, ((d.record a).cell st).Eased (x.cell st)) :
    d.Eases (d.setRecord a x) := by
  refine ⟨fun _ r hr => ⟨r, hr, rfl⟩, fun b st => ?_, fun _ => rfl⟩
  rw [Device.record_setRecord]
  split
  · rename_i same; subst same; exact h st
  · exact ⟨id, id, id⟩

theorem StreamCell.eased_setCell (r : ValRecord) (st : Stream) (edition : Nat) (t : Stream) :
    (r.cell t).Eased ((r.setCell st { r.cell st with held := edition, rejects := 0 }).cell t) := by
  rw [ValRecord.cell_setCell]
  split
  · rename_i same; subst same; exact ⟨fun _ => rfl, id, id⟩
  · exact ⟨id, id, id⟩

theorem ValRecord.cell_storing (r : ValRecord) (st : Stream) (edition : Nat) (t : Stream) :
    (r.storing st edition).cell t = (r.setCell st { r.cell st with held := edition, rejects := 0 }).cell t := by
  unfold ValRecord.storing
  split <;> rfl

theorem Device.eases_removeSend (d : Device) (a : Addr) (q : TransferRecord) : d.Eases (d.removeSend a q) := d.eases_setPlan a _

theorem Device.eases_storedFrom (d : Device) (a : Addr) (q : TransferRecord) (edition : Nat) :
    d.Eases ((d.removeSend a q).stored a q.stream edition) := by
  have set : (d.removeSend a q).Eases ((d.removeSend a q).setRecord a (((d.removeSend a q).record a).storing q.stream edition)) :=
    Device.eases_setRecord fun st => by rw [ValRecord.cell_storing]; exact StreamCell.eased_setCell _ _ _ _
  exact ((d.eases_removeSend a q).trans set).trans (Device.eases_stored _ a q.stream edition)

/-- The reject count of a stream stored becomes 0, and stays so (R57). -/
theorem Device.rejects_stored (d : Device) (a : Addr) (st : Stream) (edition : Nat) :
    (((d.stored a st edition).record a).cell st).rejects = 0 := by
  obtain ⟨rejects, -⟩ := (d.eases_stored a st edition).cells a st
  refine rejects ?_
  rw [Device.record_setRecord_self, ValRecord.cell_storing, ValRecord.cell_setCell_self]

theorem Device.eases_pendingFrom (d : Device) (a : Addr) (q : TransferRecord) (edition : Nat) :
    d.Eases ((d.removeSend a q).storedPending a edition) := by
  have set : (d.removeSend a q).Eases ((d.removeSend a q).setRecord a (((d.removeSend a q).record a).storingPending edition)) :=
    Device.eases_setRecord fun st => StreamCell.eased_setCell _ _ _ _
  exact ((d.eases_removeSend a q).trans set).trans (Device.eases_storedPending _ a edition)

theorem Device.rejects_storedPending (d : Device) (a : Addr) (edition : Nat) :
    (((d.storedPending a edition).record a).cell .fare).rejects = 0 := by
  obtain ⟨rejects, -⟩ := (d.eases_storedPending a edition).cells a .fare
  refine rejects ?_
  rw [Device.record_setRecord_self]
  show ((ValRecord.setCell _ Stream.fare _).cell Stream.fare).rejects = 0
  rw [ValRecord.cell_setCell_self]

theorem Device.record_oweStatus (d : Device) (a : Addr) : (d.oweStatus a).record a = { d.record a with statusOwed := true } :=
  Device.record_setRecord_self _ _ _

theorem Device.learned_oweStatus (h : (d.record a).learned = r.learned) :
    ((d.oweStatus a).record a).learned = { r with statusOwed := true }.learned := by
  have owed := congrArg (fun x : ValRecord => { x with statusOwed := true }) h
  rw [Device.record_oweStatus]
  exact owed

theorem Device.eases_oweStatus (d : Device) (a : Addr) : d.Eases (d.oweStatus a) := Device.eases_setRecord fun _ => ⟨id, id, id⟩

theorem Device.byTag_roomShort {tag : Nat} (h : (d.transfers a).byTag tag = none) (st : Stream) :
    ((d.roomShort a st).transfers a).byTag tag = none := by
  unfold Device.roomShort
  exact (Device.eases_replan _ a).byTag h

/-- A room shortfall set stays through the replan (R58). -/
theorem Device.room_roomShort (d : Device) (a : Addr) (st : Stream) : (((d.roomShort a st).record a).cell st).room = true := by
  have replanned (x : Device) : (((x.replan a).record a).cell st).room = ((x.record a).cell st).room := by
    rw [(x.tidied_replan a).cells a st]
  unfold Device.roomShort
  dsimp only
  rw [replanned, Device.record_setRecord_self, ValRecord.cell_setCell_self]

/-! ## What a clean reply leaves of its record -/

theorem State.Heard.learned {t : State} (h : s.Heard t a g) (k : (g.record a).learned = r.learned) :
    (t.dev.record a).learned = (r.answeredAt s.dev.fck.seconds).learned := by
  have record := congrArg ValRecord.learned h.record
  exact Eq.trans record (ValRecord.learned_answeredAt_congr k _)

theorem State.Heard.cell {t : State} (h : s.Heard t a g) (st : Stream) : (t.dev.record a).cell st = (g.record a).cell st := by
  have record := congrArg (ValRecord.cell · st) h.record
  exact record

theorem State.Heard.transfers {t : State} (h : s.Heard t a g) (b : Addr) : t.dev.transfers b = g.transfers b := by
  rw [h.blocks]; rfl

/-! ## The record that a VERDICT answers for -/

theorem Device.byTag_closeRecord (d : Device) (a : Addr) (q : TransferRecord) : ((d.closeRecord a q).transfers a).byTag q.tag = none := by
  rw [Device.transfers_closeRecord, if_pos rfl, Transfers.byTag, Transfers.records_remove, List.find?_eq_none]
  intro r hr
  simpa using (List.mem_filter.1 hr).2

/-- A record closed with its plan's SEND job leaves what is learned and the cells' counts. -/
theorem Device.learned_closed (hq : q ∈ (d.transfers a).records) (b : Addr) :
    ((d.closeRecord a q).record b).learned = (d.record b).learned :=
  ((Device.moves_closeRecord (S := .narrow) (b := false) .start fun _ => hq).recordStep b).learned.resolve_left id

theorem Device.record_removeSend (d : Device) (a b : Addr) (q : TransferRecord) : (d.removeSend a q).record b = d.record b := rfl
theorem Device.record_clearExchange (d : Device) (b : Addr) : d.clearExchange.record b = d.record b := rfl

/-- What is learned of the validator whose record is closed, with its SEND job gone from the plan. -/
theorem Device.learned_answeredFor (hq : q ∈ (d.clearExchange.transfers a).records) :
    (((d.clearExchange.closeRecord a q).removeSend a q).record a).learned = (d.record a).learned := by
  rw [Device.record_removeSend, Device.learned_closed hq, Device.record_clearExchange]

/-! ### The codes (R105, R137, R138) -/

theorem Device.verdictOn_stored (d : Device) (a : Addr) (q : TransferRecord) (x : Nat) :
    d.verdictOn a q 1 q.stream.code.val x = accepted (((d.closeRecord a q).removeSend a q).stored a q.stream x) :=
  if_neg fun k => k rfl
theorem Device.verdictOn_pending (d : Device) (a : Addr) (x : Nat) (fare : q.stream = .fare) :
    d.verdictOn a q 2 q.stream.code.val x = accepted (((d.closeRecord a q).removeSend a q).storedPending a x) :=
  (if_neg fun k => k rfl).trans (if_pos fare)
theorem Device.verdictOn_rejected (d : Device) (a : Addr) (q : TransferRecord) (x : Nat) :
    d.verdictOn a q 3 q.stream.code.val x = accepted (d.rejectedCheck a q) := if_neg fun k => k rfl
theorem Device.verdictOn_base (d : Device) (a : Addr) (q : TransferRecord) (x : Nat) :
    d.verdictOn a q 4 q.stream.code.val x = accepted ((d.closeRecord a q).oweStatus a) := if_neg fun k => k rfl
theorem Device.verdictOn_room (d : Device) (a : Addr) (q : TransferRecord) (x : Nat) :
    d.verdictOn a q 5 q.stream.code.val x = accepted (d.noRoom a q) := if_neg fun k => k rfl

/-! ### REJECT_CHECK (R17, R57, R138) -/

/-- A reject counted (R57). -/
def StreamCell.rejected (x : StreamCell) : StreamCell := { x with rejects := min 3 (x.rejects + 1) }

theorem Device.cell_rejectCounted (d : Device) (a : Addr) (st : Stream) :
    ((d.rejectCounted a st).record a).cell st = ((d.record a).cell st).rejected := by
  unfold Device.rejectCounted
  dsimp only
  rw [Device.record_setRecord_self, ValRecord.cell_setCell_self]; rfl

/-- The part with the record closed and the reject counted. -/
def Device.rejectClosed (d : Device) (a : Addr) (q : TransferRecord) : Device := (d.closeRecord a q).rejectCounted a q.stream

theorem Device.rejectedCheck_eq (d : Device) (a : Addr) (q : TransferRecord) :
    d.rejectedCheck a q = (d.rejectClosed a q).rejectReported q.index a q.stream (d.entry q.index).state := rfl

theorem Device.moves_rejectClosed (hq : q ∈ (d.transfers a).records) : Moves .narrow d false (d.rejectClosed a q) :=
  Device.moves_rejectCounted (Device.moves_closeRecord .start fun _ => hq)

theorem Device.rejects_rejectClosed (d : Device) (a : Addr) (q : TransferRecord) :
    (((d.rejectClosed a q).record a).cell q.stream).rejects = min 3 (((d.record a).cell q.stream).rejects + 1) := by
  have closed := (d.tidied_closeRecord a q).rejects a q.stream
  rw [Device.rejectClosed, Device.cell_rejectCounted, ← closed]; rfl

/-- The entry that the record named has lost it, and is otherwise as it was while it is not RETIRING. -/
theorem Device.entry_rejectClosed (d : Device) (a : Addr) (q : TransferRecord) (j : CatIndex) (h : (d.entry j).state ≠ .retiring) :
    ∃ n, (d.rejectClosed a q).entry j = { d.entry j with inUse := n } := by
  have closed := ((d.tidied_closeRecord a q).entry j).kept h
  have same : (d.rejectClosed a q).entry j = (d.closeRecord a q).entry j := rfl
  exact ⟨_, same.trans closed⟩

/-- The record shows another cell, so that its mirror is rewritten. -/
theorem Device.rewrites_setRecord {x : ValRecord} {st : Stream} (h : x.cell st ≠ (d.record a).cell st) :
    .rosterRewrite a ∈ (d.setRecord a x).outbox := by
  refine List.mem_append_right _ (mem_rewriteOf.2 ⟨fun same => h ?_, rfl⟩)
  have cells := congrArg (ValRecord.cell · st) same
  exact cells.symm

/-- A reject counted and taken back: the mirror is rewritten whatever the count was (assumption log 35). -/
theorem Device.rewrites_takenBack (d : Device) (a : Addr) (st : Stream) :
    .rosterRewrite a ∈ ((d.rejectCounted a st).reverified a st false).outbox := by
  by_cases full : ((d.record a).cell st).rejects = 3
  · refine Device.rewrites_setRecord (st := st) fun same => ?_
    have rejects := congrArg StreamCell.rejects same
    rw [ValRecord.cell_setCell_self, Device.cell_rejectCounted] at rejects
    simp only [StreamCell.rejected, full] at rejects
    omega
  · refine List.mem_append_left _ (Device.rewrites_setRecord (st := st) fun same => ?_)
    have rejects := congrArg StreamCell.rejects same
    rw [ValRecord.cell_setCell_self] at rejects
    simp only at rejects
    omega

theorem Device.Tidied.byTag {tag : Nat} (h : d.Tidied g) (k : (d.transfers a).byTag tag = none) : (g.transfers a).byTag tag = none := by
  unfold Transfers.byTag at k ⊢
  rw [List.find?_eq_none] at k ⊢
  intro r hr
  obtain ⟨p, hp, same, -⟩ := h.records a r hr
  have tags := congrArg TransferRecord.tag same
  have tags : p.tag = r.tag := tags
  rw [← tags]; exact k p hp

theorem AddrSet.has_inserted (x : AddrSet) (a b : Addr) : (x.insert a).has b = (x.has b || decide (b = a)) := by
  rw [AddrSet.has_insert, Bool.or_comm]
  by_cases same : b = a
  · subst same; simp
  · simp [same, Ne.symm same]

/-- A READY entry verified again for one rejecter: REVERIFYING at the tail of the verify queue (R17). -/
def Device.reverifying (d : Device) (i : CatIndex) (a : Addr) : Device :=
  { d.setEntry i { d.entry i with state := .reverifying, rejecters := AddrSet.empty.insert a } with
    vfy.queue := d.vfy.queue ++ [i] }

/-- The part after REJECT_CHECK for a READY entry. -/
theorem Device.rejectReported_ready (d : Device) (i : CatIndex) (a : Addr) (st : Stream) :
    d.rejectReported i a st .ready = ((d.reverifying i a).markEntry i).replanAll.raise .catalogue := rfl

theorem Device.tidied_reverifying (d : Device) (i j : CatIndex) (a : Addr) :
    (d.reverifying i a).Tidied (((d.reverifying i a).markEntry j).replanAll.raise .catalogue) :=
  ((Device.tidied_markEntry _ j).trans (Device.tidied_replanAll _)).trans (Device.tidied_raise _ _)

/-- REJECT_CHECK for a READY entry, at CAT, the Verifier and ROS (R17, R57). -/
theorem Device.rejectedCheck_ready (hq : q ∈ (d.transfers a).records) (h : (d.entry q.index).state = .ready) :
    let g := d.rejectedCheck a q
    ((g.entry q.index).state = .reverifying ∧ (∀ b, (g.entry q.index).rejecters.has b = decide (b = a)) ∧
      g.vfy = { d.vfy with queue := d.vfy.queue ++ [q.index] } ∧
      ((g.record a).cell q.stream).rejects = min 3 (((d.record a).cell q.stream).rejects + 1) ∧
      g.port.causes.getLsbD 3 = true) ∧ (g.transfers a).byTag q.tag = none := by
  intro g
  have done : g = (((d.rejectClosed a q).reverifying q.index a).markEntry q.index).replanAll.raise .catalogue := by
    show d.rejectedCheck a q = _
    rw [Device.rejectedCheck_eq, h]; rfl
  have tidied := (d.rejectClosed a q).tidied_reverifying q.index q.index a
  have narrow : Moves .narrow ((d.rejectClosed a q).reverifying q.index a) true
      ((((d.rejectClosed a q).reverifying q.index a).markEntry q.index).replanAll.raise .catalogue) :=
    Device.moves_raise (Device.moves_replanAll (Device.moves_markEntry .start))
  have closed := (Device.moves_rejectClosed hq).framed.vfy.resolve_left id
  have rejects := d.rejects_rejectClosed a q
  have gone : ((d.rejectClosed a q).transfers a).byTag q.tag = none := d.byTag_closeRecord a q
  have vfy : ((d.rejectClosed a q).reverifying q.index a).vfy =
      { d.vfy with queue := d.vfy.queue ++ [q.index] } := by
    show ({ (d.rejectClosed a q).vfy with queue := (d.rejectClosed a q).vfy.queue ++ [q.index] } : Verifier) = _
    rw [closed]
  have entry : ((d.rejectClosed a q).reverifying q.index a).entry q.index =
      { (d.rejectClosed a q).entry q.index with state := .reverifying, rejecters := AddrSet.empty.insert a } :=
    Device.entry_setEntry_self _ _ _
  have kept := (tidied.entry q.index).kept (by rw [entry]; simp)
  have framed := narrow.framed.vfy.resolve_left id
  rw [done]
  refine ⟨⟨?_, fun b => ?_, ?_, ?_, ?_⟩, tidied.byTag gone⟩
  · rw [kept, entry]
  · rw [kept, entry]
    exact (AddrSet.has_inserted _ a b).trans (by rw [AddrSet.has_empty, Bool.false_or])
  · rw [framed, vfy]
  · rw [tidied.rejects]; exact rejects
  · exact Cause.getLsbD_catalogue _

/-- REJECT_CHECK for a REVERIFYING entry (R17). -/
theorem Device.rejectedCheck_reverifying (hq : q ∈ (d.transfers a).records) (h : (d.entry q.index).state = .reverifying) :
    let g := d.rejectedCheck a q
    ((g.entry q.index).state = .reverifying ∧
      (∀ b, (g.entry q.index).rejecters.has b = ((d.entry q.index).rejecters.has b || decide (b = a))) ∧ g.vfy = d.vfy ∧
      ((g.record a).cell q.stream).rejects = min 3 (((d.record a).cell q.stream).rejects + 1)) ∧
      (g.transfers a).byTag q.tag = none := by
  intro g
  have done : g = (d.rejectClosed a q).setEntry q.index
      { (d.rejectClosed a q).entry q.index with rejecters := ((d.rejectClosed a q).entry q.index).rejecters.insert a } := by
    show d.rejectedCheck a q = _
    rw [Device.rejectedCheck_eq, h]; rfl
  obtain ⟨n, entry⟩ := d.entry_rejectClosed a q q.index (by simp [h])
  have gone : ((d.rejectClosed a q).transfers a).byTag q.tag = none := d.byTag_closeRecord a q
  have closed : (d.rejectClosed a q).vfy = d.vfy := (Device.moves_rejectClosed hq).framed.vfy.resolve_left id
  rw [done]
  refine ⟨⟨?_, fun b => ?_, closed, d.rejects_rejectClosed a q⟩, gone⟩
  · rw [Device.entry_setEntry_self, entry]; exact h
  · rw [Device.entry_setEntry_self, entry]
    exact AddrSet.has_inserted _ a b

/-- REJECT_CHECK for a RETIRING entry: the reject is taken back (R57). -/
theorem Device.rejectedCheck_retiring (hq : q ∈ (d.transfers a).records) (h : (d.entry q.index).state = .retiring) :
    let g := d.rejectedCheck a q
    (g.vfy = d.vfy ∧ ((g.record a).cell q.stream).rejects = min 3 (((d.record a).cell q.stream).rejects + 1) - 1 ∧
      .rosterRewrite a ∈ g.outbox) ∧ (g.transfers a).byTag q.tag = none := by
  intro g
  have done : g = (d.rejectClosed a q).reverified a q.stream false := by
    show d.rejectedCheck a q = _
    rw [Device.rejectedCheck_eq, h]; rfl
  have gone : ((d.rejectClosed a q).transfers a).byTag q.tag = none := d.byTag_closeRecord a q
  have closed : (d.rejectClosed a q).vfy = d.vfy := (Device.moves_rejectClosed hq).framed.vfy.resolve_left id
  have rejects := d.rejects_rejectClosed a q
  rw [done]
  refine ⟨⟨closed, ?_, (d.closeRecord a q).rewrites_takenBack a q.stream⟩, gone⟩
  rw [← rejects]
  show (((Device.setRecord _ a _).record a).cell q.stream).rejects = _
  rw [Device.record_setRecord_self, ValRecord.cell_setCell_self]

/-- The record named is gone whatever the state of its entry. -/
theorem Device.byTag_rejectedCheck (hq : q ∈ (d.transfers a).records) : ((d.rejectedCheck a q).transfers a).byTag q.tag = none := by
  have gone : ((d.rejectClosed a q).transfers a).byTag q.tag = none := d.byTag_closeRecord a q
  cases state : (d.entry q.index).state with
  | ready => exact (Device.rejectedCheck_ready hq state).2
  | reverifying => exact (Device.rejectedCheck_reverifying hq state).2
  | retiring => exact (Device.rejectedCheck_retiring hq state).2
  | free => rw [Device.rejectedCheck_eq, state]; exact gone
  | verifying => rw [Device.rejectedCheck_eq, state]; exact gone

/-- A SEAL whose VERDICT has come, of a code in range. -/
structure State.Sealed (s : State) (a : Addr) (e : Exchange) (code : Octet) : Prop where
  safe : s.safe
  awaits : s.awaits a e
  kind : e.kind = .seal
  present : (s.dev.record a).presence = .present
  low : 1 ≤ code.toNat
  high : code.toNat ≤ 5

/-- A VERDICT to a record that has been dropped acts at ROS alone (R146). -/
theorem State.verdictOf_none {code stream : Octet} {held : Half} (none : (s.dev.transfers a).byTag e.tag = none) :
    s.dev.verdictOf e a (.verdict code stream held) = accepted s.dev.clearExchange := by
  show s.dev.clearExchange.verdictJudged e a _ _ _ = _
  unfold Device.verdictJudged
  rw [show (s.dev.clearExchange.transfers a).byTag e.tag = Option.none from none]

theorem State.verdictOf_some {code stream : Octet} {held : Half} (some : (s.dev.transfers a).byTag e.tag = some q) :
    s.dev.verdictOf e a (.verdict code stream held) =
      s.dev.clearExchange.verdictOn a q code.toNat stream.toNat held.toNat := by
  show s.dev.clearExchange.verdictJudged e a _ _ _ = _
  unfold Device.verdictJudged
  rw [show (s.dev.clearExchange.transfers a).byTag e.tag = Option.some q from some]

/-- A roster mirror handed over is rewritten once (R61, R188). -/
theorem State.Accepts.counted {reply : Reply} (h : s.Accepts a e reply g) {b : Addr} (out : .rosterRewrite b ∈ (g.heard a).outbox) :
    ((g.heard a).concluded s.dev).port.rosCounts[b] = s.dev.port.rosCounts[b] + 1 := by
  obtain ⟨-, counts, -⟩ := Device.counts_concluded h.opened s.dev
  obtain ⟨-, kept, -⟩ := h.calm.stir.counts
  have due : rosDirty s.dev ((g.heard a).takeExit s.dev) ((g.heard a).takeExit s.dev).outbox b = true := by
    rw [h.taken]
    unfold rosDirty mirrorDue
    rw [Bool.or_eq_true]
    exact .inl (List.contains_iff_mem.2 out)
  rw [counts, due, h.port_heard]
  exact congrArg (fun v : Vector Word32 12 => v[b] + 1) kept

namespace State.Sealed

variable {code stream : Octet} {held : Half} (h : s.Sealed a e code)
include h

theorem valid : replyValid e.kind (.verdict code stream held) = true := by
  have low := h.low
  have high := h.high
  simp [replyValid, replyKindValid, replyLengthValid, replyCodeValid, h.kind, low, high]

theorem accepts (judged : s.dev.verdictOf e a (.verdict code stream held) = accepted g) (line : g.lnc = s.dev.clearExchange.lnc)
    (presence : (g.record a).presence = (s.dev.record a).presence) : s.Accepts a e (.verdict code stream held) g :=
  { safe := h.safe, awaits := h.awaits, present := h.present, valid := h.valid, judged, line, still := presence.trans h.present }

/-- A VERDICT refused is a miss. -/
theorem refused (some : (s.dev.transfers a).byTag e.tag = some q) (wrong : stream.toNat ≠ q.stream.code.val ∨ code = 2 ∧ q.stream ≠ .fare) :
    exec (.verdict code stream held) s = exec .frameIncomplete s := by
  have kept : s.dev.clearExchange.ownerMissed e a = s.dev.clearExchange := by
    have back : s.dev.clearExchange.burstBack e = s.dev.clearExchange := by
      unfold Device.burstBack
      split
      · rw [if_neg (by rw [h.kind]; simp)]
      · rfl
    unfold Device.ownerMissed
    rw [back, if_neg (by rw [h.kind]; simp)]
  have judged : s.dev.verdictOf e a (.verdict code stream held) = refusedReply (s.dev.clearExchange.ownerMissed e a) := by
    rw [State.verdictOf_some some, kept]
    unfold Device.verdictOn
    by_cases other : stream.toNat = q.stream.code.val
    · obtain ⟨two, tier⟩ := wrong.resolve_left fun k => k other
      rw [if_neg fun k => k other, two]
      exact if_neg tier
    · rw [if_pos other]
  exact congrArg Host.Outcome.next (h.awaits.refused h.present h.valid judged)

/-- A VERDICT for a record that has been dropped (R146). -/
theorem dropped (none : (s.dev.transfers a).byTag e.tag = none) :
    Answers (.verdict code stream held) s fun t =>
      s.heardFrom t a false ∧
        t.dev.record a = { (s.dev.record a).answeredAt s.dev.fck.seconds with replyTime := (t.dev.record a).replyTime } ∧
        s.dev.slotsKept t.dev ∧ t.dev = { s.dev with port := t.dev.port, ros := t.dev.ros, lnc := t.dev.lnc } := by
  have accepts := h.accepts (stream := stream) (held := held) (State.verdictOf_none none) rfl rfl
  have heard := accepts.heard
  have outbox := h.safe.outbox
  have exit := h.safe.exitEvent
  refine ⟨_, rfl, ?_⟩
  show s.heardFrom (s.act .sound (·.reply (.verdict code stream held))) a false ∧ _
  refine ⟨accepts.heardFrom (S := .narrow) (b := false) .start fun x hx => hx.elim, heard.record, accepts.slotsKept ?_, ?_⟩
  · intro p hp
    have hp : p ∈ s.dev.outbox := hp
    rw [outbox] at hp; cases hp
  · exact Device.eq_of_blocks h.safe.outbox h.safe.exitEvent (d := s.dev) rfl heard.blocks

end State.Sealed

/-- A reply may change what is learned of its validator, the coordinator with the targets, and HTQ. -/
def Scope.replied (a : Addr) : Scope := { Scope.narrow with learned := (· = a), act := True, hot := True }

/-- What the closing of the record leaves: the validator heard out, the entries but one and the hot queue kept, the record gone. -/
theorem State.Accepts.closed {S : Scope} {reply : Reply} {except : Option CatIndex} (h : s.Accepts a e reply g)
    (moves : Moves S s.dev.clearExchange b g) (alone : ∀ x, S.learned x → x = a) (only : ∀ i, S.entry i → except = some i)
    (gone : (g.transfers a).byTag q.tag = none) :
    let t := s.act .sound (·.reply reply)
    s.heardFrom t a false ∧ s.dev.entriesKept t.dev except ∧ t.dev.htq.queue <:+ s.dev.htq.queue ∧
      (t.dev.transfers a).byTag q.tag = none := by
  refine ⟨h.heardFrom moves alone, h.entriesKept moves only, h.queue, ?_⟩
  rw [h.heard.transfers]
  exact gone

theorem State.Accepts.vfy {S : Scope} {reply : Reply} (h : s.Accepts a e reply g) (moves : Moves S s.dev.clearExchange b g)
    (still : ¬S.vfy) : (s.act .sound (·.reply reply)).dev.vfy = s.dev.vfy := by
  rw [h.heard.blocks]
  exact moves.framed.vfy.resolve_left still

namespace State.Sealed

variable {code stream : Octet} {held : Half} (h : s.Sealed a e code)
include h

/-- STORED (R55, R57, R137). -/
theorem stored (some : (s.dev.transfers a).byTag e.tag = some q) (same : stream.toNat = q.stream.code.val) (one : code = 1) :
    let t := s.act .sound (·.reply (.verdict code stream held))
    (s.heardFrom t a false ∧ s.dev.entriesKept t.dev none ∧ t.dev.htq.queue <:+ s.dev.htq.queue ∧
      (t.dev.transfers a).byTag q.tag = none) ∧ t.dev.vfy = s.dev.vfy ∧
      (t.dev.record a).learned =
        { ((s.dev.record a).answeredAt s.dev.fck.seconds).setHeld q.stream held.toNat with
          activeFare := if q.stream = Stream.fare then held.toNat else (s.dev.record a).activeFare
          pendingFare := if q.stream = Stream.fare then 0 else (s.dev.record a).pendingFare
          hotStatus :=
            if q.stream ≠ Stream.fare ∧ (s.dev.record a).heldOf q.stream ≠ held.toNat ∧ (s.dev.record a).hotStatus = HotStatus.short
              then HotStatus.ok else (s.dev.record a).hotStatus }.learned ∧
      ((t.dev.record a).cell q.stream).rejects = 0 := by
  intro t
  obtain ⟨mem, -⟩ := Transfers.byTag_mem some
  have mem : q ∈ (s.dev.clearExchange.transfers a).records := mem
  have judged : s.dev.verdictOf e a (.verdict code stream held) =
      accepted (((s.dev.clearExchange.closeRecord a q).removeSend a q).stored a q.stream held.toNat) := by
    rw [State.verdictOf_some some, same, one]
    exact Device.verdictOn_stored _ a q _
  have closed := Device.learned_answeredFor mem
  have moves : Moves (.replied a) s.dev.clearExchange false
      (((s.dev.clearExchange.closeRecord a q).removeSend a q).stored a q.stream held.toNat) :=
    Device.moves_stored trivial trivial rfl (Device.moves_removeSend (Device.moves_closeRecord .start fun _ => mem))
  have learned := Device.learned_stored (st := q.stream) closed held.toNat
  have closing := Device.eases_closeRecord s.dev.clearExchange mem
  have eases := Device.eases_storedFrom (s.dev.clearExchange.closeRecord a q) a q held.toNat
  obtain ⟨presence, -⟩ := ValRecord.of_learned learned
  have rejects := Device.rejects_stored ((s.dev.clearExchange.closeRecord a q).removeSend a q) a q.stream held.toNat
  have accepts := h.accepts judged ((closing.trans eases).line rfl) presence
  refine ⟨accepts.closed moves (fun _ => id) (fun _ k => k.elim) (eases.byTag (Device.byTag_closeRecord _ _ _)), accepts.vfy moves id, accepts.heard.learned learned, ?_⟩
  rw [accepts.heard.cell]; exact rejects

/-- STORED_PENDING for FARE (R55, R137). -/
theorem storedPending (some : (s.dev.transfers a).byTag e.tag = some q) (same : stream.toNat = q.stream.code.val) (two : code = 2)
    (fare : q.stream = .fare) :
    let t := s.act .sound (·.reply (.verdict code stream held))
    (s.heardFrom t a false ∧ s.dev.entriesKept t.dev none ∧ t.dev.htq.queue <:+ s.dev.htq.queue ∧
      (t.dev.transfers a).byTag q.tag = none) ∧ t.dev.vfy = s.dev.vfy ∧
      (t.dev.record a).learned =
        { ((s.dev.record a).answeredAt s.dev.fck.seconds).setHeld .fare held.toNat with pendingFare := held.toNat }.learned ∧
      ((t.dev.record a).cell .fare).rejects = 0 := by
  intro t
  obtain ⟨mem, -⟩ := Transfers.byTag_mem some
  have mem : q ∈ (s.dev.clearExchange.transfers a).records := mem
  have judged : s.dev.verdictOf e a (.verdict code stream held) =
      accepted (((s.dev.clearExchange.closeRecord a q).removeSend a q).storedPending a held.toNat) := by
    rw [State.verdictOf_some some, same, two]
    exact Device.verdictOn_pending _ a _ fare
  have moves : Moves (.replied a) s.dev.clearExchange false
      (((s.dev.clearExchange.closeRecord a q).removeSend a q).storedPending a held.toNat) :=
    Device.moves_storedPending trivial rfl (Device.moves_removeSend (Device.moves_closeRecord .start fun _ => mem))
  have learned := Device.learned_storedPending (Device.learned_answeredFor mem) held.toNat
  have closing := Device.eases_closeRecord s.dev.clearExchange mem
  have eases := Device.eases_pendingFrom (s.dev.clearExchange.closeRecord a q) a q held.toNat
  have rejects := Device.rejects_storedPending ((s.dev.clearExchange.closeRecord a q).removeSend a q) a held.toNat
  obtain ⟨presence, -⟩ := ValRecord.of_learned learned
  have accepts := h.accepts judged ((closing.trans eases).line rfl) presence
  refine ⟨accepts.closed moves (fun _ => id) (fun _ k => k.elim) (eases.byTag (Device.byTag_closeRecord _ _ _)), accepts.vfy moves id, accepts.heard.learned learned, ?_⟩
  rw [accepts.heard.cell]; exact rejects

/-- REJECT_BASE: a STATUS is owed (R56, R138). -/
theorem baseRejected (some : (s.dev.transfers a).byTag e.tag = some q) (same : stream.toNat = q.stream.code.val) (four : code = 4) :
    let t := s.act .sound (·.reply (.verdict code stream held))
    (s.heardFrom t a false ∧ s.dev.entriesKept t.dev none ∧ t.dev.htq.queue <:+ s.dev.htq.queue ∧
      (t.dev.transfers a).byTag q.tag = none) ∧ t.dev.vfy = s.dev.vfy ∧
      (t.dev.record a).learned = { (s.dev.record a).answeredAt s.dev.fck.seconds with statusOwed := true }.learned := by
  intro t
  obtain ⟨mem, -⟩ := Transfers.byTag_mem some
  have mem : q ∈ (s.dev.clearExchange.transfers a).records := mem
  have judged : s.dev.verdictOf e a (.verdict code stream held) = accepted ((s.dev.clearExchange.closeRecord a q).oweStatus a) := by
    rw [State.verdictOf_some some, same, four]
    exact Device.verdictOn_base _ a q _
  have moves : Moves (.replied a) s.dev.clearExchange false ((s.dev.clearExchange.closeRecord a q).oweStatus a) :=
    Device.moves_oweStatus rfl (Device.moves_closeRecord .start fun _ => mem)
  have closed := Device.learned_closed mem a
  rw [Device.record_clearExchange] at closed
  have learned := Device.learned_oweStatus closed
  have closing := Device.eases_closeRecord s.dev.clearExchange mem
  have eases := Device.eases_oweStatus (s.dev.clearExchange.closeRecord a q) a
  obtain ⟨presence, -⟩ := ValRecord.of_learned learned
  have accepts := h.accepts judged ((closing.trans eases).line rfl) presence
  exact ⟨accepts.closed moves (fun _ => id) (fun _ k => k.elim) (eases.byTag (Device.byTag_closeRecord _ _ _)), accepts.vfy moves id,
    accepts.heard.learned learned⟩

/-- REJECT_ROOM: a room shortfall (R58, R138). -/
theorem roomRejected (some : (s.dev.transfers a).byTag e.tag = some q) (same : stream.toNat = q.stream.code.val) (five : code = 5) :
    let t := s.act .sound (·.reply (.verdict code stream held))
    (s.heardFrom t a false ∧ s.dev.entriesKept t.dev none ∧ t.dev.htq.queue <:+ s.dev.htq.queue ∧
      (t.dev.transfers a).byTag q.tag = none) ∧ t.dev.vfy = s.dev.vfy ∧
      (t.dev.record a).learned = ((s.dev.record a).answeredAt s.dev.fck.seconds).learned ∧
      ((t.dev.record a).cell q.stream).room = true := by
  intro t
  obtain ⟨mem, -⟩ := Transfers.byTag_mem some
  have mem : q ∈ (s.dev.clearExchange.transfers a).records := mem
  have judged : s.dev.verdictOf e a (.verdict code stream held) = accepted (s.dev.clearExchange.noRoom a q) := by
    rw [State.verdictOf_some some, same, five]
    exact Device.verdictOn_room _ a q _
  have moves : Moves .narrow s.dev.clearExchange false (s.dev.clearExchange.noRoom a q) := Device.moves_noRoom (fun _ => mem) .start
  have learned : ((s.dev.clearExchange.noRoom a q).record a).learned = (s.dev.clearExchange.record a).learned :=
    (moves.recordStep a).learned.resolve_left id
  rw [Device.record_clearExchange] at learned
  obtain ⟨presence, -⟩ := ValRecord.of_learned learned
  have accepts := h.accepts judged (Device.lnc_of_narrow moves) presence
  refine ⟨accepts.closed moves (fun _ k => k.elim) (fun _ k => k.elim) ?_, accepts.vfy moves id, accepts.heard.learned learned, ?_⟩
  · exact Device.byTag_roomShort (Device.byTag_closeRecord s.dev.clearExchange a q) _
  · rw [accepts.heard.cell]
    exact Device.room_roomShort _ a q.stream

/-- What REJECT_CHECK brings, whatever the state of the entry (R57, R138). -/
theorem checkAccepted (some : (s.dev.transfers a).byTag e.tag = some q) (same : stream.toNat = q.stream.code.val) (three : code = 3) :
    s.Accepts a e (.verdict code stream held) (s.dev.clearExchange.rejectedCheck a q) := by
  obtain ⟨mem, -⟩ := Transfers.byTag_mem some
  have mem : q ∈ (s.dev.clearExchange.transfers a).records := mem
  have judged : s.dev.verdictOf e a (.verdict code stream held) = accepted (s.dev.clearExchange.rejectedCheck a q) := by
    rw [State.verdictOf_some some, same, three]
    exact Device.verdictOn_rejected _ a q _
  have moves : Moves (.catalogue (· = q.index)) s.dev.clearExchange false (s.dev.clearExchange.rejectedCheck a q) :=
    Device.moves_rejectedCheck rfl trivial mem .start
  exact h.accepts judged ((moves.framed.lnc.resolve_left id).resolve_left id) (moves.presence_catalogue a)

/-- REJECT_CHECK (R17, R57, R138). -/
theorem checkRejected (some : (s.dev.transfers a).byTag e.tag = Option.some q) (same : stream.toNat = q.stream.code.val) (three : code = 3) :
    let t := s.act .sound (·.reply (.verdict code stream held))
    let r := s.dev.record a
    let entry := s.dev.entry q.index
    (s.heardFrom t a false ∧ s.dev.entriesKept t.dev (Option.some q.index) ∧ t.dev.htq.queue <:+ s.dev.htq.queue ∧
      (t.dev.transfers a).byTag q.tag = none) ∧ (t.dev.record a).learned = (r.answeredAt s.dev.fck.seconds).learned ∧
      (entry.state = .ready →
        (t.dev.entry q.index).state = .reverifying ∧ (∀ b, (t.dev.entry q.index).rejecters.has b = decide (b = a)) ∧
          t.dev.vfy = { s.dev.vfy with queue := s.dev.vfy.queue ++ [q.index] } ∧
          ((t.dev.record a).cell q.stream).rejects = min 3 ((r.cell q.stream).rejects + 1) ∧
          t.dev.port.causes.getLsbD 3 = true) ∧
      (entry.state = .reverifying →
        (t.dev.entry q.index).state = .reverifying ∧
          (∀ b, (t.dev.entry q.index).rejecters.has b = (entry.rejecters.has b || decide (b = a))) ∧ t.dev.vfy = s.dev.vfy ∧
          ((t.dev.record a).cell q.stream).rejects = min 3 ((r.cell q.stream).rejects + 1)) ∧
      (entry.state = .retiring →
        t.dev.vfy = s.dev.vfy ∧ ((t.dev.record a).cell q.stream).rejects = min 3 ((r.cell q.stream).rejects + 1) - 1 ∧
          t.dev.port.rosCounts[a] = s.dev.port.rosCounts[a] + 1) := by
  intro t r entry
  obtain ⟨mem, -⟩ := Transfers.byTag_mem some
  have mem : q ∈ (s.dev.clearExchange.transfers a).records := mem
  have accepts : s.Accepts a e (.verdict code stream held) (s.dev.clearExchange.rejectedCheck a q) := h.checkAccepted some same three
  have moves : Moves (.catalogue (· = q.index)) s.dev.clearExchange false (s.dev.clearExchange.rejectedCheck a q) :=
    Device.moves_rejectedCheck rfl trivial mem .start
  have learned : ((s.dev.clearExchange.rejectedCheck a q).record a).learned = (s.dev.clearExchange.record a).learned :=
    (moves.recordStep a).learned.resolve_left id
  rw [Device.record_clearExchange] at learned
  have heard := accepts.heard
  have entries (j : CatIndex) : t.dev.entry j = (s.dev.clearExchange.rejectedCheck a q).entry j := by
    show (s.act .sound _).dev.entry j = _
    rw [heard.blocks]; rfl
  have vfy : t.dev.vfy = (s.dev.clearExchange.rejectedCheck a q).vfy := by
    show (s.act .sound _).dev.vfy = _
    rw [heard.blocks]
  have cell := heard.cell q.stream
  have gone := Device.byTag_rejectedCheck mem
  refine ⟨accepts.closed moves (fun _ k => k.elim) (fun _ k => congrArg Option.some k.symm) gone, heard.learned learned,
    fun state => ?_, fun state => ?_, fun state => ?_⟩
  · obtain ⟨⟨reverifying, rejecters, queue, rejects, cause⟩, -⟩ := Device.rejectedCheck_ready (a := a) mem state
    rw [entries, vfy, cell]
    refine ⟨reverifying, rejecters, queue, rejects, ?_⟩
    show (s.act .sound _).dev.port.causes.getLsbD 3 = true
    rw [accepts.dev]
    exact Device.causes_concluded (by rw [accepts.port_heard]; exact cause) _
  · obtain ⟨⟨reverifying, rejecters, queue, rejects⟩, -⟩ := Device.rejectedCheck_reverifying (a := a) mem state
    rw [entries, vfy, cell]
    exact ⟨reverifying, rejecters, queue, rejects⟩
  · obtain ⟨⟨queue, rejects, rewritten⟩, -⟩ := Device.rejectedCheck_retiring (a := a) mem state
    rw [vfy, cell]
    refine ⟨queue, rejects, ?_⟩
    show (s.act .sound _).dev.port.rosCounts[a] = _
    rw [accepts.dev]
    exact accepts.counted (accepts.grows_heard rewritten)

end State.Sealed

/-! ## O60 -/

/-- Settles O60: the owner's part for each code is a chain of moves from the closing of the record, and a clean reply adds to it what
ROS counts. -/
theorem verdictApplied : Obligations.VerdictApplied := by
  unfold Obligations.VerdictApplied
  intro code stream held s a e safe awaits kind present low high r answered verdict
  have h : s.Sealed a e code := { safe, awaits, kind, present, low, high }
  refine ⟨fun none => h.dropped none, fun q some => ?_⟩
  intro entry closed
  refine ⟨fun wrong => h.refused some wrong, fun same => ⟨fun one => ?_, fun two fare => ?_, fun three => ?_, fun four => ?_, fun five => ?_⟩⟩
  · exact ⟨_, rfl, h.stored some same one⟩
  · exact ⟨_, rfl, h.storedPending some same two fare⟩
  · exact ⟨_, rfl, h.checkRejected some same three⟩
  · exact ⟨_, rfl, h.baseRejected some same four⟩
  · exact ⟨_, rfl, h.roomRejected some same five⟩

end Sys2Proof.Machine
end

