-- ==== Sys2Proof/Proofs/Acknowledging.lean ====
section
/-! An ACK to a frame of the Transfer Engine, of the Planner's DROPs and of the hot queue (R15, R28, R55, R128, R132, R134, R142, R143,
R157). -/

namespace Sys2Proof.Machine

variable {s : State} {a : Addr} {e : Exchange} {c d g : Device} {b : Bool} {st : Stream} {r : ValRecord} {q : TransferRecord}
  {offset : BitVec 24}

/-! ## An ACK from a PRESENT validator -/

/-- A frame to which an ACK is a valid reply, and the ACK awaited from a PRESENT validator. -/
structure State.Acked (s : State) (a : Addr) (e : Exchange) (offset : BitVec 24) : Prop where
  safe : s.safe
  awaits : s.awaits a e
  present : (s.dev.record a).presence = .present
  valid : replyValid e.kind (.ack offset) = true

/-- What every clean reply leaves that frees and verifies no entry: the validator heard out, the entries and the verify queue kept, and
the hot queue shorter by retirement alone. -/
def State.cleanly (s t : State) (a : Addr) : Prop :=
  s.heardFrom t a false ∧ s.dev.entriesKept t.dev none ∧ t.dev.vfy = s.dev.vfy ∧ t.dev.htq.queue <:+ s.dev.htq.queue

/-- The record after a clean reply that told nothing else. -/
def State.recordHeard (s t : State) (a : Addr) : Prop :=
  t.dev.record a = { (s.dev.record a).answeredAt s.dev.fck.seconds with replyTime := (t.dev.record a).replyTime }

theorem eq_of_mem_rewriteOf {α : Type} [BEq α] {x y : α} {p p' : Publication} (h : p' ∈ rewriteOf x y p) : p' = p := by
  unfold rewriteOf at h
  split at h
  · exact List.mem_singleton.1 h
  · cases h

/-- The owner has changed the transfer records, HTQ or ACT alone, and handed over rewritings alone. -/
structure Device.Within (d g : Device) : Prop where
  parts : g = { d with port := g.port, ros := g.ros, xfr := g.xfr, htq := g.htq, act := g.act, lnc := g.lnc, outbox := g.outbox,
                       exitEvent := g.exitEvent }
  rewrites : ∀ p ∈ g.outbox, p ∈ d.outbox ∨ p.isRewrite = true

/-- The owner of an exchange other than a CONT or a COMMIT does nothing on a miss. -/
theorem Device.ownerMissed_kept (cont : e.kind ≠ .cont) (commit : e.kind ≠ .commit) : d.ownerMissed e a = d := by
  have back : d.burstBack e = d := by
    unfold Device.burstBack
    split
    · exact if_neg cont
    · rfl
  unfold Device.ownerMissed
  rw [back]
  exact if_neg fun k => commit k.1

/-- A missed CONT burst goes back (R130). -/
theorem Device.ownerMissed_cont (dest : e.dest = some a) (cont : e.kind = .cont) :
    d.ownerMissed e a = d.changeRecord a e.tag (·.goBack) := by
  have back : d.burstBack e = d.changeRecord a e.tag (·.goBack) := by
    unfold Device.burstBack
    rw [dest]
    exact if_pos cont
  unfold Device.ownerMissed
  rw [back]
  exact if_neg fun k => by rw [cont] at k; cases k.1

namespace State.Acked

variable (h : s.Acked a e offset)
include h

theorem accepts (judged : s.dev.verdictOf e a (.ack offset) = accepted g) (line : g.lnc = s.dev.clearExchange.lnc)
    (still : (g.record a).presence = .present) : s.Accepts a e (.ack offset) g :=
  { safe := h.safe, awaits := h.awaits, present := h.present, valid := h.valid, judged, line, still }

omit h in
theorem moves (judged : s.dev.verdictOf e a (.ack offset) = accepted g) : Moves (.replied a) s.dev.clearExchange false g := by
  have moves : Moves (.replied a) s.dev.clearExchange false (s.dev.verdictOf e a (.ack offset)).device :=
    Device.moves_ackJudged (S := .replied a) trivial trivial rfl .start
  rw [judged] at moves
  exact moves

omit h in
theorem cleanly (accepts : s.Accepts a e (.ack offset) g) : s.cleanly (s.act .sound (·.reply (.ack offset))) a :=
  ⟨accepts.heardFrom (moves accepts.judged) fun _ => id, accepts.entriesKept (moves accepts.judged) fun _ k => k.elim,
    accepts.vfy (moves accepts.judged) id, accepts.queue⟩

omit h in
/-- What is left where the owner took the ACK in its own records. -/
theorem within (accepts : s.Accepts a e (.ack offset) g) (within : s.dev.Within g) :
    let t := s.act .sound (·.reply (.ack offset))
    s.cleanly t a ∧ s.dev.slotsKept t.dev ∧
      t.dev = { s.dev with port := t.dev.port, ros := t.dev.ros, xfr := g.xfr, htq := g.htq, act := g.act, lnc := t.dev.lnc } := by
  refine ⟨cleanly accepts, accepts.slotsKept fun p hp => ?_, ?_⟩
  · refine (within.rewrites p hp).resolve_left fun old => ?_
    rw [accepts.safe.outbox] at old; cases old
  · exact Device.eq_of_blocks accepts.safe.outbox accepts.safe.exitEvent within.parts accepts.heard.blocks

/-- An ACK refused is a miss. -/
theorem refused (judged : s.dev.verdictOf e a (.ack offset) = refusedReply (s.dev.clearExchange.ownerMissed e a)) :
    exec (.ack offset) s = exec .frameIncomplete s :=
  congrArg Host.Outcome.next (h.awaits.refused h.present h.valid judged)

theorem refused_kept (cont : e.kind ≠ .cont) (commit : e.kind ≠ .commit)
    (judged : s.dev.verdictOf e a (.ack offset) = refusedReply s.dev.clearExchange) :
    exec (.ack offset) s = exec .frameIncomplete s :=
  h.refused (judged.trans (congrArg refusedReply (Device.ownerMissed_kept cont commit).symm))

end State.Acked

/-! ## Blocks that an owner has left alone -/

section
variable {t : Device} {x : TransferEngine} {y : HotQueue} {z : Coordinator}

theorem Device.eq_of_xfr (h : t = { d with port := t.port, ros := t.ros, xfr := x, htq := y, act := z, lnc := t.lnc }) (htq : y = d.htq)
    (act : z = d.act) : t = { d with port := t.port, ros := t.ros, xfr := t.xfr, lnc := t.lnc } := by
  have same : t.xfr = x := by rw [h]
  subst htq act
  rw [same]; exact h

theorem Device.eq_of_htq (h : t = { d with port := t.port, ros := t.ros, xfr := x, htq := y, act := z, lnc := t.lnc }) (xfr : x = d.xfr)
    (act : z = d.act) : t = { d with port := t.port, ros := t.ros, htq := t.htq, lnc := t.lnc } := by
  have same : t.htq = y := by rw [h]
  subst xfr act
  rw [same]; exact h

theorem Device.eq_of_act (h : t = { d with port := t.port, ros := t.ros, xfr := x, htq := y, act := z, lnc := t.lnc }) (xfr : x = d.xfr)
    (htq : y = d.htq) : t = { d with port := t.port, ros := t.ros, act := t.act, lnc := t.lnc } := by
  have same : t.act = z := by rw [h]
  subst xfr htq
  rw [same]; exact h

end

/-! ## OPEN and CONT (R132, R134) -/

/-- The highest offset that an ACK to an OPEN or a CONT may carry. -/
def ExchangeKind.ackLimit (k : ExchangeKind) (q : TransferRecord) : Nat := if k = .openSegment then q.size else q.sent

theorem State.ackOf_none (kind : e.kind = .openSegment ∨ e.kind = .cont) (none : (s.dev.transfers a).byTag e.tag = none) :
    s.dev.verdictOf e a (.ack offset) = accepted s.dev.clearExchange := by
  have none : (s.dev.clearExchange.transfers a).byTag e.tag = Option.none := none
  show s.dev.clearExchange.ackJudged e a _ = _
  unfold Device.ackJudged
  rcases kind with kind | kind
  · rw [kind]; dsimp only; rw [none]
  · rw [kind]; dsimp only; rw [none]

theorem State.ackOf_some (dest : e.dest = Option.some a) (kind : e.kind = .openSegment ∨ e.kind = .cont)
    (some : (s.dev.transfers a).byTag e.tag = some q) :
    s.dev.verdictOf e a (.ack offset) =
      if offset.toNat ≤ e.kind.ackLimit q then accepted (s.dev.clearExchange.changeRecord a q.tag (·.at offset.toNat))
      else refusedReply (s.dev.clearExchange.ownerMissed e a) := by
  obtain ⟨-, tag⟩ := Transfers.byTag_mem some
  have some : (s.dev.clearExchange.transfers a).byTag e.tag = Option.some q := some
  show s.dev.clearExchange.ackJudged e a _ = _
  unfold Device.ackJudged
  rcases kind with kind | kind
  · rw [Device.ownerMissed_kept (by simp [kind]) (by simp [kind]), kind]
    dsimp only
    rw [some]; rfl
  · rw [Device.ownerMissed_cont dest kind, ← tag, kind]
    dsimp only
    rw [tag, some]
    dsimp only
    unfold Device.contAcked
    rw [tag]; rfl

namespace State.Acked

variable (h : s.Acked a e offset)
include h

/-- An offset out of range. -/
theorem offsetRefused (kind : e.kind = .openSegment ∨ e.kind = .cont) (some : (s.dev.transfers a).byTag e.tag = some q)
    (beyond : e.kind.ackLimit q < offset.toNat) : exec (.ack offset) s = exec .frameIncomplete s := by
  obtain ⟨-, dest, -⟩ := h.awaits
  refine h.refused ?_
  rw [State.ackOf_some dest kind some, if_neg (Nat.not_le.2 beyond)]

/-- The offsets of the record are set. -/
theorem offsetsSet (kind : e.kind = .openSegment ∨ e.kind = .cont) (some : (s.dev.transfers a).byTag e.tag = some q)
    (within : offset.toNat ≤ e.kind.ackLimit q) :
    let t := s.act .sound (·.reply (.ack offset))
    s.cleanly t a ∧
      t.dev.transfers a = (s.dev.transfers a).change (·.tag == q.tag) (fun p =>
        { p with sent := offset.toNat, acked := offset.toNat, phase := if offset.toNat = p.size then .sealing else .sending }) ∧
      s.recordHeard t a ∧ s.dev.slotsKept t.dev ∧
      t.dev = { s.dev with port := t.dev.port, ros := t.dev.ros, xfr := t.dev.xfr, lnc := t.dev.lnc } := by
  obtain ⟨-, dest, -⟩ := h.awaits
  have accepts := h.accepts ((State.ackOf_some dest kind some).trans (if_pos within)) rfl h.present
  obtain ⟨clean, slots, parts⟩ := Acked.within accepts ⟨rfl, fun _ => .inl⟩
  refine ⟨clean, ?_, accepts.heard.record, slots, Device.eq_of_xfr parts rfl rfl⟩
  rw [accepts.heard.transfers]
  exact Device.transfers_setTransfers_self _ _ _

/-- The record has been dropped (R146). -/
theorem offsetDropped (kind : e.kind = .openSegment ∨ e.kind = .cont) (none : (s.dev.transfers a).byTag e.tag = none) :
    let t := s.act .sound (·.reply (.ack offset))
    s.cleanly t a ∧ s.recordHeard t a ∧ s.dev.slotsKept t.dev ∧
      t.dev = { s.dev with port := t.dev.port, ros := t.dev.ros, lnc := t.dev.lnc } := by
  have accepts := h.accepts (State.ackOf_none kind none) rfl h.present
  obtain ⟨clean, slots, parts⟩ := Acked.within accepts ⟨rfl, fun _ => .inl⟩
  exact ⟨clean, accepts.heard.record, slots, parts⟩

/-! ## ABANDON-all (R143) -/

theorem allAbandoned (kind : e.kind = .abandonAll) :
    let t := s.act .sound (·.reply (.ack offset))
    s.cleanly t a ∧ t.dev.transfers a = { s.dev.transfers a with abandonAll := false } ∧ s.recordHeard t a ∧ s.dev.slotsKept t.dev ∧
      t.dev = { s.dev with port := t.dev.port, ros := t.dev.ros, xfr := t.dev.xfr, lnc := t.dev.lnc } := by
  have judged : s.dev.verdictOf e a (.ack offset) = accepted (s.dev.clearExchange.abandonAllDone a) := by
    show s.dev.clearExchange.ackJudged e a _ = _
    unfold Device.ackJudged
    rw [kind]
  have accepts := h.accepts judged rfl h.present
  obtain ⟨clean, slots, parts⟩ := Acked.within accepts ⟨rfl, fun _ => .inl⟩
  refine ⟨clean, ?_, accepts.heard.record, slots, Device.eq_of_xfr parts rfl rfl⟩
  rw [accepts.heard.transfers]
  exact Device.transfers_setTransfers_self _ _ _

end State.Acked

end Sys2Proof.Machine
end

