-- ==== Sys2Proof/Proofs/Releasing.lean ====
section
/-! An ACK to an ABANDON, to a DROP and to a HOT (R15, R28, R55, R128, R142, R153, R157). -/

namespace Sys2Proof.Machine

variable {s : State} {a : Addr} {e : Exchange} {c d g : Device} {b : Bool} {st : Stream} {r : ValRecord} {q : TransferRecord}
  {offset : BitVec 24} {slot : Slot} {i : CatIndex}

/-! ## The entry whose record closes (R15) -/

/-- An entry whose last record has closed. -/
def Entry.released (x : Entry) : Prop := x.state = .retiring ∧ x.inUse ≤ 1

theorem Device.entry_freeIfRetired_self (d : Device) (i : CatIndex) :
    ((d.entry i).state = .retiring → (d.entry i).inUse = 0 → (d.freeIfRetired i).entry i = (d.entry i).freedAs (d.entry i).fault) ∧
      (¬((d.entry i).state = .retiring ∧ (d.entry i).inUse = 0) → (d.freeIfRetired i).entry i = d.entry i) := by
  refine ⟨fun retiring unused => ?_, fun k => by rw [Device.freeIfRetired_neg k]⟩
  have freed : (d.freeEntry i (d.entry i).fault).entry i = (d.entry i).freedAs (d.entry i).fault := Device.entry_setEntry_self _ _ _
  rw [Device.freeIfRetired_pos ⟨retiring, unused⟩, Device.withdrawDone_eq]
  split
  · exact freed
  · exact freed

/-- The entry that a closed record named: FREE if this was its last and it is RETIRING, and else with one record less. -/
theorem Device.entry_closeRecord_self (d : Device) (a : Addr) (q : TransferRecord) :
    ((d.entry q.index).released →
        (d.closeRecord a q).entry q.index = (d.entry q.index).freedAs (d.entry q.index).fault) ∧
      (¬(d.entry q.index).released →
        (d.closeRecord a q).entry q.index = { d.entry q.index with inUse := (d.entry q.index).inUse - 1 }) := by
  let x : Entry := { d.entry q.index with inUse := (d.entry q.index).inUse - 1 }
  let fewer := (d.setTransfers a ((d.transfers a).remove q.tag)).setEntry q.index x
  have here : fewer.entry q.index = x := Device.entry_setEntry_self _ _ _
  obtain ⟨freed, kept⟩ := fewer.entry_freeIfRetired_self q.index
  rw [here] at freed kept
  refine ⟨fun ⟨retiring, last⟩ => freed retiring (Nat.sub_eq_zero_of_le last), fun more => kept fun k => more ?_⟩
  obtain ⟨retiring, last⟩ := k
  exact ⟨retiring, Nat.le_of_sub_eq_zero last⟩

/-- What a clean reply hands over beside what its owner did are rewritings. -/
theorem State.Accepts.closes {reply : Reply} (h : s.Accepts a e reply g) : g.Closes ((g.heard a).takeExit s.dev) := by
  have same : ((g.heard a).takeExit s.dev).port = g.port ∧ ((g.heard a).takeExit s.dev).cat = g.cat := by
    rw [h.taken, h.heard_eq, h.answered.parts]; exact ⟨rfl, rfl⟩
  obtain ⟨port, cat⟩ := same
  have outbox : ((g.heard a).takeExit s.dev).outbox = (g.heard a).outbox := by rw [h.taken]
  have entry (i : CatIndex) : ((g.heard a).takeExit s.dev).entry i = g.entry i := by rw [Device.entry, cat]; rfl
  refine { held := congrArg Port.held port, entry := fun i => by rw [entry]; exact .refl _, out := fun p hp => ?_
           grows := outbox ▸ h.grows_heard, freed := fun i slot k w free => ?_ }
  · exact (h.out_heard (outbox ▸ hp)).imp_right .inl
  · obtain ⟨retiring, -⟩ := w
    rw [entry, retiring] at free; cases free

namespace State.Acked

variable (h : s.Acked a e offset)
include h

/-- The record is closed (R15, R128, R142). -/
theorem abandoned (kind : e.kind = .abandon) (some : (s.dev.transfers a).byTag e.tag = some q) :
    let t := s.act .sound (·.reply (.ack offset))
    let x := s.dev.entry q.index
    s.cleanly t a ∧ t.dev.transfers a = (s.dev.transfers a).remove q.tag ∧
      (t.dev.record a).learned = ((s.dev.record a).answeredAt s.dev.fck.seconds).learned ∧
      (¬x.released → t.dev.entry q.index = { x with inUse := x.inUse - 1 }) ∧
      (x.released → t.dev.entry q.index = x.freedAs x.fault ∧
        ∀ slot k, x.pendingSlot = Option.some slot → s.dev.port.held[slot] = Option.some k → t.returned slot .done .done 0 k.kind k.ref) ∧
      (∀ i, i ≠ q.index → t.dev.entry i = s.dev.entry i) := by
  intro t x
  obtain ⟨mem, -⟩ := Transfers.byTag_mem some
  have mem : q ∈ (s.dev.clearExchange.transfers a).records := mem
  have judged : s.dev.verdictOf e a (.ack offset) = accepted (s.dev.clearExchange.closeRecord a q) := by
    show s.dev.clearExchange.ackJudged e a _ = _
    have some : (s.dev.clearExchange.transfers a).byTag e.tag = Option.some q := some
    unfold Device.ackJudged
    rw [kind]
    dsimp only
    unfold Device.abandoned
    rw [some]
  have learned := Device.learned_closed mem a
  rw [Device.record_clearExchange] at learned
  obtain ⟨presence, -⟩ := ValRecord.of_learned learned
  have accepts := h.accepts judged ((Device.eases_closeRecord _ mem).line rfl) (presence.trans h.present)
  have heard := accepts.heard
  have entries (j : CatIndex) : t.dev.entry j = (s.dev.clearExchange.closeRecord a q).entry j := by
    show (s.act .sound _).dev.entry j = _
    rw [heard.blocks]; rfl
  obtain ⟨freed, kept⟩ := s.dev.clearExchange.entry_closeRecord_self a q
  refine ⟨cleanly accepts, ?_, heard.learned learned, fun more => ?_, fun last => ⟨?_, fun slot k pending held => ?_⟩, fun i other => ?_⟩
  · show (s.act .sound _).dev.transfers a = _
    rw [heard.transfers, Device.transfers_closeRecord, if_pos rfl]; rfl
  · rw [entries]; exact kept more
  · rw [entries]; exact freed last
  · have closes : s.dev.clearExchange.Closes (((s.dev.clearExchange.closeRecord a q).heard a).takeExit s.dev) :=
      (Device.tidied_closeRecord _ a q).toCloses.trans accepts.closes
    have still : (((s.dev.clearExchange.closeRecord a q).heard a).takeExit s.dev).entry q.index = x.freedAs x.fault :=
      Entry.Tidied.freedAs (by rw [← show _ = x.freedAs x.fault from freed last]; exact accepts.closes.entry q.index)
    obtain ⟨retiring, -⟩ := last
    have w : s.dev.clearExchange.Withdrawal q.index slot k := ⟨retiring, pending, held⟩
    have same := accepts.reply_eq
    show (s.act .sound (·.reply (.ack offset))).returned _ _ _ _ _ _
    refine State.returned_act (by rw [same]; exact accepts.opened) ?_ ?_
    · rw [same]; exact closes.freed _ slot k w (by rw [still]; rfl)
    · rw [same]
      refine closes.returnsAs held fun y hy => ?_
      have hy : .slotReturn y ∈ s.dev.outbox := hy
      rw [h.safe.outbox] at hy; cases hy
  · rw [entries]; exact Device.entry_closeRecord _ _ (Ne.symm other)

end State.Acked

/-! ## The reach that a replan writes (R34, R68) -/

theorem Device.reach_fixStatus (d : Device) (a x : Addr) (st : Stream) : ((d.fixStatus a st).record x).reach = (d.record x).reach := by
  unfold Device.fixStatus
  rw [Device.record_setRecord]
  split
  · rename_i same; subst same; rfl
  · rfl

theorem Device.ros_entryClosed (d : Device) (i : CatIndex) : (d.entryClosed i).ros = d.ros := by
  unfold Device.entryClosed
  by_cases k : ((d.setEntry i { d.entry i with inUse := (d.entry i).inUse - 1 }).entry i).state = .retiring ∧
      ((d.setEntry i { d.entry i with inUse := (d.entry i).inUse - 1 }).entry i).inUse = 0
  · rw [Device.freeIfRetired_pos k, Device.withdrawDone_eq]
    split
    · rfl
    · rfl
  · rw [Device.freeIfRetired_neg k]; rfl

theorem Device.reach_closeRecord (d : Device) (a x : Addr) (q : TransferRecord) :
    ((d.closeRecord a q).record x).reach = (d.record x).reach := by
  unfold Device.closeRecord
  rw [Device.reach_fixStatus, Device.record, Device.ros_entryClosed]; rfl

theorem Device.reach_foldl {α : Type} {f : Device → α → Device} {x : Addr} (l : List α)
    (hf : ∀ d y, ((f d y).record x).reach = (d.record x).reach) (d : Device) : ((l.foldl f d).record x).reach = (d.record x).reach := by
  induction l generalizing d with
  | nil => rfl
  | cons y l ih => exact (ih _).trans (hf d y)

theorem Device.reach_takePlan (d : Device) (a x : Addr) : ((d.takePlan a).record x).reach = (d.record x).reach := by
  have put (d : Device) (q : TransferRecord) :
      ((d.putRecord a ((d.record a).setStatus q.stream (d.statusByRecord a q.stream))).record x).reach = (d.record x).reach := by
    rw [Device.record_putRecord]
    split
    · rename_i same; subst same; rfl
    · rfl
  have closed (d : Device) (q : TransferRecord) : ((d.closeRecord a q).record x).reach = (d.record x).reach := d.reach_closeRecord a x q
  have fixed (d : Device) (q : TransferRecord) : ((d.fixStatus a q.stream).record x).reach = (d.record x).reach :=
    d.reach_fixStatus a x q.stream
  have away (d : Device) : ((d.dropMarkedIfAway a).record x).reach = (d.record x).reach := by
    unfold Device.dropMarkedIfAway
    split
    · rfl
    · rw [Device.dropRecords, Device.reach_foldl _ closed]
  have marked (pick : TransferRecord → Bool) : ((d.markRecords a pick).record x).reach = (d.record x).reach := by
    unfold Device.markRecords
    dsimp only
    rw [away, Device.reach_foldl _ fixed]; rfl
  unfold Device.takePlan
  dsimp only
  rw [Device.reach_foldl _ put, marked]

/-- The reach of a PRESENT validator after its replan. -/
theorem Device.reach_replan (present : (d.record a).presence = .present) : ((d.replan a).record a).reach = (d.computeReach a).1 := by
  have handed (x : Device) (r : ValRecord) : (x.rosterChanged a r).record a = x.record a := rfl
  have written (r : ValRecord) (n : Nat) (l : List StreamStatus) : (r.planned n l).reach = n := rfl
  have replanned : ((d.replanned a).record a).reach = (d.computeReach a).1 := by
    rw [Device.replanned, handed, Device.reach_takePlan, Device.record_putRecord_self, written, Device.computePlan]
  have reported (x : Device) : x.reportExit.record a = x.record a := rfl
  rw [Device.replan_pos (.inl present)]
  split
  · rw [reported, replanned]
  · rw [replanned]

/-- A target footprint looks at READY entries alone, which the closing of records leaves (R33). -/
theorem Device.targetFootprint_congr (entry : ∀ i, (d.entry i).Tidied (g.entry i)) (block : g.tgt.block = d.tgt.block) (k : Nat) :
    g.targetFootprint k = d.targetFootprint k := by
  have fits (x y : Entry) (h : x.Tidied y) :
      (y.state == .ready && y.stream == tierStream k && y.edition == d.tgt.block) =
        (x.state == .ready && x.stream == tierStream k && x.edition == d.tgt.block) := by
    rcases h with ⟨-, -, same⟩ | ⟨retiring, freed⟩
    · rw [same]
    · have free : y.state = .free := by rw [freed]; rfl
      rw [free, retiring]; rfl
  have picks := funext fun i => fits _ _ (entry i)
  unfold Device.targetFootprint
  rw [block]
  dsimp only
  rw [picks]
  refine if_congr Iff.rfl rfl ?_
  cases found : allIndices.find? fun i =>
      (d.entry i).state == .ready && (d.entry i).stream == tierStream k && (d.entry i).edition == d.tgt.block with
  | none => rfl
  | some i =>
    have ready := List.find?_some found
    simp only [Bool.and_eq_true, beq_iff_eq] at ready
    obtain ⟨⟨ready, -⟩, -⟩ := ready
    have kept := (entry i).kept (by rw [ready]; simp)
    show some (g.entry i).footprint = some (d.entry i).footprint
    rw [kept]

theorem Device.computeReach_congr (entry : ∀ i, (d.entry i).Tidied (g.entry i)) (block : g.tgt.block = d.tgt.block)
    (capacity : (g.record a).blockCapacity = (d.record a).blockCapacity) : g.computeReach a = d.computeReach a := by
  unfold Device.computeReach
  rw [block, capacity, show g.targetFootprint = d.targetFootprint from funext (Device.targetFootprint_congr entry block)]

/-- Two parts of one catalogue, BLOCK target and record capacity reach equally far. -/
theorem Device.computeReach_of_same (cat : g.cat = d.cat) (block : g.tgt.block = d.tgt.block)
    (capacity : (g.record a).blockCapacity = (d.record a).blockCapacity) : g.computeReach a = d.computeReach a :=
  Device.computeReach_congr (fun i => by rw [show g.entry i = d.entry i by rw [Device.entry, cat]; rfl]; exact .refl _) block capacity

theorem State.Heard.reach {t : State} (h : s.Heard t a g) : (t.dev.record a).reach = (g.record a).reach := by
  have record := congrArg ValRecord.reach h.record
  exact record

theorem State.Heard.computeReach {t : State} (h : s.Heard t a g) : t.dev.computeReach a = g.computeReach a := by
  have capacity := congrArg ValRecord.blockCapacity h.record
  have capacity : (t.dev.record a).blockCapacity = (g.record a).blockCapacity := capacity
  have blocks := h.blocks
  refine Device.computeReach_of_same ?_ ?_ capacity
  · rw [blocks]
  · rw [blocks]

/-! ## DROP (R28, R55) -/

theorem Device.cat_heldChanged (d : Device) (a : Addr) (st : Stream) (old : Nat) :
    (d.heldChanged a st old).cat = d.cat ∧ (d.heldChanged a st old).tgt = d.tgt := by
  unfold Device.heldChanged Device.heldBlockChanged Device.setHotStatus
  split
  · split
    · dsimp only
      split
      · exact ⟨rfl, rfl⟩
      · exact ⟨rfl, rfl⟩
    · exact ⟨rfl, rfl⟩
  · exact ⟨rfl, rfl⟩

/-- What ROS has learned of a tier dropped, and the reach of the replan (R28, R55, R153). -/
theorem Device.learned_tierDropped (tier : st ≠ .fare) (h : (d.record a).learned = r.learned) (present : (d.record a).presence = .present) :
    let g := d.tierDropped a st
    (g.record a).learned = { r.setHeld st 0 with
        hotStatus := if r.heldOf st ≠ 0 ∧ r.hotStatus = HotStatus.short then HotStatus.ok else r.hotStatus }.learned ∧
      (g.record a).reach = (g.computeReach a).1 ∧ d.Eases g := by
  intro g
  obtain ⟨held, -⟩ := ValRecord.parts_of_learned h
  let set := d.setRecord a ((d.record a).setHeld st 0)
  have done : g = (set.replan a).heldChanged a st ((d.record a).heldOf st) := rfl
  have replanned : ((set.replan a).record a).learned = (set.record a).learned :=
    ((Device.moves_replan (S := .narrow) (b := false) .start).recordStep a).learned.resolve_left id
  have base : ((d.record a).setHeld st 0).learned = (r.setHeld st 0).learned := ValRecord.learned_setCell_congr h rfl
  have mine : ((set.replan a).record a).learned = (r.setHeld st 0).learned := by
    rw [replanned, Device.record_setRecord_self]; exact base
  have now : (r.setHeld st 0).heldOf st = 0 := by
    rw [ValRecord.heldOf, ValRecord.setHeld, ValRecord.cell_setCell_self]
  have setPresent : (set.record a).presence = .present := by rw [Device.record_setRecord_self]; exact present
  have cells (t : Stream) : ((d.record a).cell t).Eased (((d.record a).setHeld st 0).cell t) := by
    rw [ValRecord.setHeld, ValRecord.cell_setCell]
    split
    · rename_i same; subst same; exact ⟨id, id, id⟩
    · exact ⟨id, id, id⟩
  refine ⟨?_, ?_, ((Device.eases_setRecord cells).trans (set.eases_replan a)).trans (Device.eases_heldChanged _ a st _)⟩
  · rw [done, Device.record_heldChanged, ValRecord.learned_heldMoved mine, held st]
    have moved := if_congr (x := HotStatus.ok) (y := r.hotStatus)
      (show st ≠ .fare ∧ 0 ≠ r.heldOf st ∧ r.hotStatus = .short ↔ r.heldOf st ≠ 0 ∧ r.hotStatus = .short by
        rw [ne_comm (a := 0)]; exact and_iff_right tier) rfl rfl
    rw [ValRecord.heldMoved, now]
    exact congrArg (fun x : HotStatus => { r.setHeld st 0 with hotStatus := x }.learned) moved
  · obtain ⟨cat, tgt⟩ := (set.replan a).cat_heldChanged a st ((d.record a).heldOf st)
    have record : (g.record a) = ((set.replan a).record a).heldMoved st ((d.record a).heldOf st) := by
      rw [done, Device.record_heldChanged]
    have capacity : (g.record a).blockCapacity = (set.record a).blockCapacity := by
      have same := congrArg ValRecord.blockCapacity replanned
      rw [record]; exact same
    have block : g.tgt.block = set.tgt.block := by
      have still := (Device.moves_replan (S := .narrow) (b := false) (d := set) (a := a) .start).framed.tgt.resolve_left id
      rw [done, tgt, still]
    have entry (i : CatIndex) : (set.entry i).Tidied (g.entry i) := by
      have same : g.entry i = (set.replan a).entry i := by rw [done, Device.entry, cat]; rfl
      rw [same]; exact (set.tidied_replan a).entry i
    rw [Device.computeReach_congr entry block capacity, record, ← Device.reach_replan setPresent]; rfl

namespace State.Acked

variable (h : s.Acked a e offset)
include h

/-- The tier is dropped (R28, R55). -/
theorem dropped (kind : e.kind = .drop st) (tier : st ≠ .fare) :
    let t := s.act .sound (·.reply (.ack offset))
    s.cleanly t a ∧
      (t.dev.record a).learned =
        { ((s.dev.record a).answeredAt s.dev.fck.seconds).setHeld st 0 with
          hotStatus :=
            if (s.dev.record a).heldOf st ≠ 0 ∧ (s.dev.record a).hotStatus = HotStatus.short then HotStatus.ok
            else (s.dev.record a).hotStatus }.learned ∧
      (t.dev.record a).reach = (t.dev.computeReach a).1 := by
  have judged : s.dev.verdictOf e a (.ack offset) = accepted ((s.dev.clearExchange.removeDrop a st).tierDropped a st) := by
    show s.dev.clearExchange.ackJudged e a _ = _
    unfold Device.ackJudged
    rw [kind]
  have same : (s.dev.clearExchange.removeDrop a st).record a = s.dev.record a := rfl
  obtain ⟨learned, reach, eases⟩ :=
    Device.learned_tierDropped (d := s.dev.clearExchange.removeDrop a st) tier (congrArg ValRecord.learned same) h.present
  obtain ⟨presence, -⟩ := ValRecord.of_learned learned
  have accepts := h.accepts judged (eases.line rfl) (presence.trans h.present)
  have heard := accepts.heard
  refine ⟨cleanly accepts, heard.learned learned, ?_⟩
  rw [heard.reach, heard.computeReach]
  exact reach

end State.Acked

/-! ## HOT (R157) -/

theorem seqBetween_iff {first last x : Nat} :
    seqBetween first last x = true ↔ 1 ≤ x ∧ x ≤ 65535 ∧ seqDistance first x ≤ seqDistance first last := by
  simp [seqBetween, and_assoc]

/-- A validator record with what a HOT acknowledged tells of it. -/
def ValRecord.hotHeard (r : ValRecord) (epoch : Option Nat) (x : Nat) : ValRecord :=
  { r with hotHighWater := x, hotEpochSeen := epoch.getD r.hotEpochSeen }

/-- A HOT queue with an address out of restart owed, if its HOT brought the restart. -/
def HotQueue.restarted (q : HotQueue) (restart : Bool) (a : Addr) : HotQueue :=
  { q with restartOwed := if restart then q.restartOwed.erase a else q.restartOwed }

/-- The part once a HOT is acknowledged, before retirement is judged. -/
def Device.hotHeard (d : Device) (a : Addr) (restart : Bool) (x : Nat) : Device :=
  { d.setRecord a ((d.record a).hotHeard d.htq.epoch x) with htq := d.htq.restarted restart a }

theorem Device.hotAcked_between {first last x : Nat} {restart : Bool} (h : seqBetween first last x = true) :
    d.hotAcked a first last restart x = accepted (d.hotHeard a restart x).judgeRetirement := by
  unfold Device.hotAcked
  rw [if_pos h]
  cases restart
  · rfl
  · rfl

theorem Device.hotAcked_refused {first last x : Nat} {restart : Bool} (h : ¬seqBetween first last x = true) :
    d.hotAcked a first last restart x = refusedReply d := if_neg h

/-- Retirement judged changes the queue alone, and hands the summary over. -/
theorem Device.judgeRetirement_eq (d : Device) : d.judgeRetirement =
    { d with htq := { d.htq with queue := d.judgeRetirement.htq.queue }, outbox := d.judgeRetirement.outbox } := rfl

theorem Device.within_hotHeard (d : Device) (a : Addr) (restart : Bool) (x : Nat) :
    d.Within (d.clearExchange.hotHeard a restart x).judgeRetirement := by
  refine ⟨rfl, fun p hp => ?_⟩
  rcases List.mem_append.1 hp with hp | hp
  · exact Device.out_setRecord hp
  · rw [eq_of_mem_rewriteOf hp]; exact .inr rfl

namespace State.Acked

variable {first last : Nat} {restart : Bool} (h : s.Acked a e offset)

theorem hotOf (kind : e.kind = .hot first last restart) :
    s.dev.verdictOf e a (.ack offset) = s.dev.clearExchange.hotAcked a first last restart offset.toNat := by
  show s.dev.clearExchange.ackJudged e a _ = _
  unfold Device.ackJudged
  rw [kind]

include h

theorem hotRefused (kind : e.kind = .hot first last restart) (outside : ¬seqBetween first last offset.toNat = true) :
    exec (.ack offset) s = exec .frameIncomplete s :=
  h.refused_kept (by simp [kind]) (by simp [kind]) ((hotOf kind).trans (Device.hotAcked_refused outside))

theorem hotTaken (kind : e.kind = .hot first last restart) (between : seqBetween first last offset.toNat = true) :
    let t := s.act .sound (·.reply (.ack offset))
    s.cleanly t a ∧
      t.dev.record a =
        { (s.dev.record a).answeredAt s.dev.fck.seconds with
          hotHighWater := offset.toNat, hotEpochSeen := s.dev.htq.epoch.getD (s.dev.record a).hotEpochSeen
          replyTime := (t.dev.record a).replyTime } ∧
      t.dev.htq =
        { s.dev.htq with
          queue := t.dev.htq.queue
          restartOwed := if restart then s.dev.htq.restartOwed.erase a else s.dev.htq.restartOwed } ∧
      s.dev.slotsKept t.dev ∧ t.dev = { s.dev with port := t.dev.port, ros := t.dev.ros, htq := t.dev.htq, lnc := t.dev.lnc } := by
  have judged := (hotOf (s := s) (a := a) (offset := offset) kind).trans (Device.hotAcked_between between)
  have mine (d : Device) : (d.hotHeard a restart offset.toNat).judgeRetirement.record a =
      (d.record a).hotHeard d.htq.epoch offset.toNat := Device.record_setRecord_self _ _ _
  have accepts := h.accepts judged rfl (by rw [mine]; exact h.present)
  obtain ⟨clean, slots, parts⟩ := Acked.within accepts (s.dev.within_hotHeard a restart offset.toNat)
  have record := accepts.heard.record
  rw [mine] at record
  have htq := congrArg Device.htq parts
  refine ⟨clean, record, ?_, slots, Device.eq_of_htq parts rfl rfl⟩
  generalize (s.act .sound (·.reply (.ack offset))).dev = t at htq
  rw [htq]; rfl

end State.Acked

end Sys2Proof.Machine
end

