-- ==== Sys2Proof/Proofs/Confirming.lean ====
section
/-! What ACT makes of the ACKs to its exchanges: the standing changed, the commit and the settling judged on it (R165, R167 to R169,
R172, R173). -/

namespace Sys2Proof.Machine

variable {s : State} {a : Addr} {e : Exchange} {c d g : Device} {offset : BitVec 24}

/-- A clean reply leaves the presences to its owner (R47). -/
theorem State.Heard.presence {t : State} (h : s.Heard t a g) (b : Addr) : (t.dev.record b).presence = (g.record b).presence := by
  by_cases same : b = a
  · subst same
    have presence := congrArg ValRecord.presence h.record
    exact presence
  · have presence := congrArg ValRecord.presence (h.others b same)
    exact presence

/-! ## Changes of the coordinator alone -/

/-- A part in which ACT has changed its record, raised causes and handed over rewritings, and nothing else has changed. -/
structure Device.Acts (d g : Device) : Prop where
  parts : g = { d with port := g.port, act := g.act, outbox := g.outbox }
  rewrites : ∀ p ∈ g.outbox, p ∈ d.outbox ∨ p.isRewrite = true

namespace Device.Acts

theorem refl (d : Device) : d.Acts d := ⟨rfl, fun _ => .inl⟩

theorem trans (h : c.Acts d) (k : d.Acts g) : c.Acts g := by
  have first := h.parts
  have second := k.parts
  refine ⟨?_, fun p hp => (k.rewrites p hp).elim (h.rewrites p) .inr⟩
  generalize g.port = p, g.act = z, g.outbox = o at second
  generalize d.port = p', d.act = z', d.outbox = o' at first
  subst first second
  rfl

theorem setAct (d : Device) (x : Coordinator) : d.Acts (d.setAct x) :=
  ⟨rfl, fun _ hp => (List.mem_append.1 hp).imp_right fun k => by rw [eq_of_mem_rewriteOf k]; rfl⟩

theorem raise (d : Device) (x : Cause) : d.Acts (d.raise x) := ⟨rfl, fun _ => .inl⟩

theorem within (h : s.dev.clearExchange.Acts g) : s.dev.Within g := by
  have parts := h.parts
  refine ⟨?_, h.rewrites⟩
  generalize g.port = p, g.act = z, g.outbox = o at parts
  subst parts
  rfl

theorem record (h : d.Acts g) (b : Addr) : g.record b = d.record b := by rw [h.parts]; rfl
theorem lnc (h : d.Acts g) : g.lnc = d.lnc := by rw [h.parts]
theorem xfr (h : d.Acts g) : g.xfr = d.xfr := by rw [h.parts]
theorem htq (h : d.Acts g) : g.htq = d.htq := by rw [h.parts]
theorem tgt (h : d.Acts g) : g.tgt = d.tgt := by rw [h.parts]
theorem fck (h : d.Acts g) : g.fck = d.fck := by rw [h.parts]

end Device.Acts

theorem Device.acts_decideCommit (d : Device) (x : CommitCause) : d.Acts (d.decideCommit x) := (Device.Acts.setAct d _).trans (.raise _ _)

/-- The commit is decided in ARMING alone. -/
theorem Device.judgeCommit_cases (d : Device) : d.judgeCommit = d ∨ d.act.state = .arming ∧ ∃ x, d.judgeCommit = d.decideCommit x := by
  unfold Device.judgeCommit
  dsimp only
  split
  · rename_i arming
    split
    · exact .inr ⟨arming, _, rfl⟩
    · split
      · exact .inr ⟨arming, _, rfl⟩
      · exact .inl rfl
  · exact .inl rfl

theorem Device.acts_judgeCommit (d : Device) : d.Acts d.judgeCommit := by
  rcases d.judgeCommit_cases with same | ⟨-, x, same⟩
  · rw [same]; exact .refl d
  · rw [same]; exact d.acts_decideCommit x

theorem Device.standings_judgeCommit (d : Device) : d.judgeCommit.act.standings = d.act.standings := by
  rcases d.judgeCommit_cases with same | ⟨-, x, same⟩
  · rw [same]
  · rw [same]; rfl

/-! ## The commit judged (R167) -/

theorem Device.clockReached_iff (d : Device) (moment : Nat) : d.clockReached moment = true ↔ d.fck.reached moment := by
  simp [Device.clockReached, FleetClock.reached]

/-- Every PRESENT address is ARMED (R167). -/
def Device.allArmed (d : Device) : Prop := ∀ a, (d.record a).presence = .present → (d.standing a).standing = .armed

theorem Device.allArmed_iff (d : Device) :
    (allAddrs.all fun a => (d.record a).presence != .present || (d.standing a).standing == .armed) = true ↔ d.allArmed := by
  rw [List.all_eq_true]
  refine ⟨fun h a present => ?_, fun h a _ => ?_⟩
  · have mine := h a (List.mem_finRange a)
    rw [present] at mine
    simpa using mine
  · by_cases present : (d.record a).presence = .present
    · simp [h a present]
    · simp [present]

theorem Device.judgeCommit_still (h : d.act.state ≠ .arming) : d.judgeCommit = d := if_neg h

/-- The three outcomes of the judgement in ARMING. -/
theorem Device.judgeCommit_arming (h : d.act.state = .arming) :
    (d.allArmed ∧ d.fck.reached d.act.activation → d.judgeCommit = d.decideCommit .allArmed) ∧
      (¬d.allArmed ∧ d.fck.reached d.act.holdEnds → d.judgeCommit = d.decideCommit .holdExpired) ∧
      (¬(d.allArmed ∧ d.fck.reached d.act.activation) → ¬(¬d.allArmed ∧ d.fck.reached d.act.holdEnds) → d.judgeCommit = d) := by
  have all := d.allArmed_iff
  have activation := d.clockReached_iff d.act.activation
  have holdEnds := d.clockReached_iff d.act.holdEnds
  unfold Device.judgeCommit
  rw [if_pos h]
  generalize (allAddrs.all fun a => (d.record a).presence != .present || (d.standing a).standing == .armed) = armed at all
  generalize d.clockReached d.act.activation = due at activation
  generalize d.clockReached d.act.holdEnds = expired at holdEnds
  rw [← all, ← activation, ← holdEnds]
  have first : (due && armed) = true ↔ armed = true ∧ due = true := by rw [Bool.and_eq_true, and_comm]
  have second : (expired && !armed) = true ↔ ¬armed = true ∧ expired = true := by simp [and_comm]
  rw [← first, ← second]
  refine ⟨fun k => if_pos k, fun k => ?_, fun early waiting => (if_neg early).trans (if_neg waiting)⟩
  rw [if_neg fun l => (second.1 k).1 (first.1 l).1, if_pos k]

/-- The coordinator once the commit is judged in ARMING. -/
theorem Device.judged_judgeCommit (h : d.act.state = .arming) : d.act.Judged d.record d.fck d.judgeCommit.act := by
  obtain ⟨armed, expired, still⟩ := Device.judgeCommit_arming h
  refine ⟨fun k => by rw [armed k]; rfl, fun k => by rw [expired k]; rfl, fun k l => ?_⟩
  rw [still k l, ← h]

/-- The judgement reads the presences of the roster alone. -/
theorem Coordinator.Judged.congr {x y : Coordinator} {roster roster' : Addr → ValRecord} {clock : FleetClock}
    (h : x.Judged roster clock y) (same : ∀ a, (roster' a).presence = (roster a).presence) : x.Judged roster' clock y := by
  have all : (∀ a, (roster' a).presence = .present → x.standings[a].standing = .armed) ↔
      ∀ a, (roster a).presence = .present → x.standings[a].standing = .armed := forall_congr' fun a => by rw [same]
  unfold Coordinator.Judged
  rw [all]
  exact h

theorem Device.made_iff (d : Device) : d.made = true ↔ d.act.broadcast = .made := by simp [Device.made]

/-! ## The settling judged (R173) -/

/-- Every address counted is CONFIRMED or LAGGING (R173). -/
def Device.concludes (d : Device) : Prop :=
  ∀ a, (d.record a).presence ≠ .unused → (d.record a).presence ≠ .excluded →
    (d.standing a).standing = .confirmed ∨ (d.standing a).standing = .lagging

theorem Device.concludes_iff (d : Device) :
    (allAddrs.all fun a => !presenceCounted (d.record a).presence || (d.standing a).standing == .confirmed ||
      (d.standing a).standing == .lagging) = true ↔ d.concludes := by
  have counted (p : Presence) : presenceCounted p = true ↔ p ≠ .unused ∧ p ≠ .excluded := by cases p <;> simp [presenceCounted]
  rw [List.all_eq_true]
  refine ⟨fun h a unused excluded => ?_, fun h a _ => ?_⟩
  · have mine := h a (List.mem_finRange a)
    rw [(counted _).2 ⟨unused, excluded⟩] at mine
    simpa using mine
  · by_cases c : presenceCounted (d.record a).presence = true
    · obtain ⟨unused, excluded⟩ := (counted _).1 c
      rcases h a unused excluded with k | k
      · simp [k]
      · simp [k]
    · simp [c]

/-- The coordinator SETTLED, its cause raised. -/
def Device.settled (d : Device) : Device := (d.setAct { d.act with state := .settled }).raise .activation

theorem Device.judgeSettled_pos (state : d.act.state = .committing) (made : d.act.broadcast = .made) (done : d.concludes) :
    d.judgeSettled = d.settled.applyHeldTarget := if_pos ⟨state, d.made_iff.2 made, d.concludes_iff.2 done⟩

theorem Device.judgeSettled_neg (h : d.act.state = .committing → d.act.broadcast = .made → ¬d.concludes) : d.judgeSettled = d :=
  if_neg fun ⟨state, made, done⟩ => h state (d.made_iff.1 made) (d.concludes_iff.1 done)

theorem Device.applyHeldTarget_none (h : d.tgt.heldFare = none) : d.applyHeldTarget = d := by
  unfold Device.applyHeldTarget
  rw [h]

theorem Device.acts_settled (d : Device) : d.Acts d.settled := (Device.Acts.setAct d _).trans (.raise _ _)

theorem Cause.getLsbD_activation (x : BitVec 7) : (x ||| Cause.activation.flag).getLsbD 4 = true := by
  simp [Cause.flag]

/-- While no FARE target is held, or outside COMMITTING, the judgements change ACT alone. -/
theorem Device.judgeActivation_cases (h : d.act.state ≠ .committing ∨ d.tgt.heldFare = none) :
    d.judgeActivation = d.judgeCommit ∧ (d.act.state = .committing → d.act.broadcast = .made → ¬d.concludes) ∨
      d.judgeActivation = d.settled ∧ d.act.state = .committing ∧ d.act.broadcast = .made ∧ d.concludes := by
  by_cases committing : d.act.state = .committing
  · have still : d.judgeCommit = d := Device.judgeCommit_still (by rw [committing]; simp)
    have unheld := h.resolve_left fun k => k committing
    by_cases done : d.act.broadcast = .made ∧ d.concludes
    · obtain ⟨made, done⟩ := done
      refine .inr ⟨?_, committing, made, done⟩
      rw [Device.judgeActivation, still, Device.judgeSettled_pos committing made done, Device.applyHeldTarget_none (d := d.settled) unheld]
    · have waits : d.act.state = .committing → d.act.broadcast = .made → ¬d.concludes := fun _ made k => done ⟨made, k⟩
      refine .inl ⟨?_, waits⟩
      rw [Device.judgeActivation, still, Device.judgeSettled_neg waits]
  · refine .inl ⟨Device.judgeSettled_neg fun state made => ?_, fun k => absurd k committing⟩
    rcases d.judgeCommit_cases with same | ⟨-, x, same⟩
    · rw [same] at state
      exact absurd state committing
    · rw [same] at made; cases made

/-- What the judgements leave while no FARE target is held. -/
theorem Device.judgeActivation_quiet (h : d.act.state ≠ .committing ∨ d.tgt.heldFare = none) :
    d.Acts d.judgeActivation ∧ d.judgeActivation.act.standings = d.act.standings ∧
      (d.act.state = .committing → d.act.broadcast = .made → d.concludes →
        d.judgeActivation.act.state = .settled ∧ d.judgeActivation.port.causes.getLsbD 4 = true) ∧
      (d.act.state = .committing → ¬d.concludes → d.judgeActivation.act.state = .committing) := by
  rcases Device.judgeActivation_cases h with ⟨same, waits⟩ | ⟨same, committing, made, done⟩
  · rw [same]
    refine ⟨d.acts_judgeCommit, d.standings_judgeCommit, fun state made done => absurd done (waits state made), fun state _ => ?_⟩
    rw [Device.judgeCommit_still (by rw [state]; simp), state]
  · rw [same]
    exact ⟨d.acts_settled, rfl, fun _ _ _ => ⟨rfl, Cause.getLsbD_activation _⟩, fun _ k => absurd done k⟩

/-! ## ACKs to ARM and disarm (R168, R169) -/

theorem Device.acts_setStanding (d : Device) (a : Addr) (x : StandingRecord) : d.Acts (d.setStanding a x) := .setAct d _

/-- What an ACK leaves that ACT alone takes. -/
def State.actHeard (s t : State) (a : Addr) : Prop :=
  s.cleanly t a ∧ s.recordHeard t a ∧ s.dev.slotsKept t.dev ∧
    t.dev = { s.dev with port := t.dev.port, ros := t.dev.ros, act := t.dev.act, lnc := t.dev.lnc }

theorem Device.armAck_armed {x : Nat} (h : x = d.act.edition) (opened : d.armingOpen = true)
    (unarmed : (d.standing a).standing = .unarmed) :
    d.armAck a x = accepted (d.setStanding a { d.standing a with standing := .armed }).judgeActivation := by
  unfold Device.armAck Device.armAcked
  rw [if_pos h, if_pos ⟨opened, unarmed⟩]

theorem Device.armAck_zero (h : d.act.edition ≠ 0) : d.armAck a 0 = accepted (d.armRefusedBy a) := by
  unfold Device.armAck
  rw [if_neg (Ne.symm h), if_pos rfl]

theorem Device.armAck_other {x : Nat} (zero : x ≠ 0) (other : x ≠ d.act.edition) : d.armAck a x = refusedReply d := by
  unfold Device.armAck
  rw [if_neg other, if_neg zero]

namespace State.Acked

variable (h : s.Acked a e offset)

theorem armOf (current : e.actStale = false) (kind : e.kind = .arm) :
    s.dev.verdictOf e a (.ack offset) = s.dev.clearExchange.armAck a offset.toNat := by
  show s.dev.clearExchange.ackJudged e a _ = _
  unfold Device.ackJudged
  rw [kind, current]; rfl

theorem disarmOf (current : e.actStale = false) (kind : e.kind = .disarm) :
    s.dev.verdictOf e a (.ack offset) = s.dev.clearExchange.disarmAck a offset.toNat := by
  show s.dev.clearExchange.ackJudged e a _ = _
  unfold Device.ackJudged
  rw [kind, current]; rfl

theorem commitOf (current : e.actStale = false) (kind : e.kind = .commit) :
    s.dev.verdictOf e a (.ack offset) = s.dev.clearExchange.commitAck a offset.toNat := by
  show s.dev.clearExchange.ackJudged e a _ = _
  unfold Device.ackJudged
  rw [kind, current]; rfl

include h

theorem current : e.actStale = false := by
  obtain ⟨-, -, -, -, current, -⟩ := h.awaits
  exact current

/-- An ACK that changes ACT alone. -/
theorem acted (judged : s.dev.verdictOf e a (.ack offset) = accepted g) (acts : s.dev.clearExchange.Acts g) :
    s.actHeard (s.act .sound (·.reply (.ack offset))) a ∧ s.Accepts a e (.ack offset) g := by
  have record : g.record a = s.dev.record a := acts.record a
  have accepts := h.accepts judged acts.lnc (by rw [record]; exact h.present)
  obtain ⟨clean, slots, parts⟩ := Acked.within accepts acts.within
  have heard := accepts.heard.record
  rw [record] at heard
  exact ⟨⟨clean, heard, slots, Device.eq_of_act parts acts.xfr acts.htq⟩, accepts⟩

omit h in
theorem act_eq (accepts : s.Accepts a e (.ack offset) g) : (s.act .sound (·.reply (.ack offset))).dev.act = g.act := by
  rw [accepts.heard.blocks]

omit h in
theorem standing_eq (accepts : s.Accepts a e (.ack offset) g) (b : Addr) :
    (s.act .sound (·.reply (.ack offset))).dev.standing b = g.standing b :=
  congrArg (fun x : Coordinator => x.standings[b]) (act_eq accepts)

theorem armMissed (kind : e.kind = .arm) (zero : offset.toNat ≠ 0) (other : offset.toNat ≠ s.dev.act.edition) :
    exec (.ack offset) s = exec .frameIncomplete s :=
  h.refused_kept (by simp [kind]) (by simp [kind])
    ((armOf h.current kind).trans (Device.armAck_other (d := s.dev.clearExchange) zero other))

theorem armDeclined (kind : e.kind = .arm) (zero : offset.toNat = 0) (edition : s.dev.act.edition ≠ 0) :
    let t := s.act .sound (·.reply (.ack offset))
    s.actHeard t a ∧ t.dev.standing a = { s.dev.standing a with armRefused := true } := by
  have judged := armOf (s := s) (a := a) (offset := offset) h.current kind
  rw [zero, Device.armAck_zero (d := s.dev.clearExchange) edition] at judged
  obtain ⟨heard, accepts⟩ := h.acted judged (Device.acts_setStanding _ a _)
  exact ⟨heard, (standing_eq accepts a).trans (Device.standing_setStanding_self _ a _)⟩

/-- An ACK of the edition while arming is open. -/
theorem armTaken (kind : e.kind = .arm) (edition : offset.toNat = s.dev.act.edition) (opened : s.dev.armingOpen = true)
    (unarmed : (s.dev.standing a).standing = .unarmed) (d : Device)
    (set : d = s.dev.clearExchange.setStanding a { s.dev.standing a with standing := .armed })
    (unsettled : d.act.state = .committing → d.act.broadcast ≠ .made) :
    let t := s.act .sound (·.reply (.ack offset))
    s.actHeard t a ∧ t.dev.act = d.judgeCommit.act := by
  have judged : s.dev.verdictOf e a (.ack offset) = accepted d.judgeActivation := by
    rw [armOf h.current kind, Device.armAck_armed (d := s.dev.clearExchange) edition opened unarmed, set]; rfl
  have settled : d.judgeActivation = d.judgeCommit := by
    refine Device.judgeSettled_neg fun state made => ?_
    rcases d.judgeCommit_cases with same | ⟨-, x, same⟩
    · rw [same] at state made
      exact absurd made (unsettled state)
    · rw [same] at made; cases made
  rw [settled] at judged
  have acts : s.dev.clearExchange.Acts d := by rw [set]; exact Device.acts_setStanding _ a _
  obtain ⟨heard, accepts⟩ := h.acted judged (acts.trans d.acts_judgeCommit)
  exact ⟨heard, act_eq accepts⟩

theorem armArming (kind : e.kind = .arm) (edition : offset.toNat = s.dev.act.edition) (arming : s.dev.act.state = .arming)
    (unarmed : (s.dev.standing a).standing = .unarmed) :
    let t := s.act .sound (·.reply (.ack offset))
    s.actHeard t a ∧
      { s.dev.act with standings := s.dev.act.standings.set a { s.dev.standing a with standing := .armed } }.Judged
        s.dev.record s.dev.fck t.dev.act := by
  have opened : s.dev.armingOpen = true := by simp [Device.armingOpen, arming]
  obtain ⟨heard, act⟩ := h.armTaken kind edition opened unarmed _ rfl fun state => absurd (arming.symm.trans state) (by simp)
  refine ⟨heard, ?_⟩
  rw [act]
  exact Device.judged_judgeCommit (d := s.dev.clearExchange.setStanding a { s.dev.standing a with standing := .armed }) arming

theorem armCommitting (kind : e.kind = .arm) (edition : offset.toNat = s.dev.act.edition) (committing : s.dev.act.state = .committing)
    (unmade : s.dev.act.broadcast ≠ .made) (unarmed : (s.dev.standing a).standing = .unarmed) :
    let t := s.act .sound (·.reply (.ack offset))
    s.actHeard t a ∧
      t.dev.act = { s.dev.act with standings := s.dev.act.standings.set a { s.dev.standing a with standing := .armed } } := by
  have opened : s.dev.armingOpen = true := by simp [Device.armingOpen, committing, Device.made, unmade]
  obtain ⟨heard, act⟩ := h.armTaken kind edition opened unarmed _ rfl fun _ => unmade
  refine ⟨heard, act.trans ?_⟩
  have still : (s.dev.clearExchange.setStanding a { s.dev.standing a with standing := .armed }).act.state ≠ .arming := by
    show s.dev.act.state ≠ .arming
    rw [committing]; simp
  rw [Device.judgeCommit_still still]; rfl

theorem disarmMissed (kind : e.kind = .disarm) (zero : offset.toNat ≠ 0) : exec (.ack offset) s = exec .frameIncomplete s :=
  h.refused_kept (by simp [kind]) (by simp [kind]) ((disarmOf h.current kind).trans (if_neg zero))

theorem disarmed (kind : e.kind = .disarm) (zero : offset.toNat = 0) :
    let t := s.act .sound (·.reply (.ack offset))
    s.actHeard t a ∧ t.dev.standing a = { s.dev.standing a with disarmOwed := false } := by
  have judged : s.dev.verdictOf e a (.ack offset) = accepted (s.dev.clearExchange.disarmAcked a) :=
    (disarmOf h.current kind).trans (if_pos zero)
  obtain ⟨heard, accepts⟩ := h.acted judged (Device.acts_setStanding _ a _)
  exact ⟨heard, (standing_eq accepts a).trans (Device.standing_setStanding_self _ a _)⟩

end State.Acked

/-! ## ACK to an addressed COMMIT (R172) -/

/-- The standing that an ACK to an addressed COMMIT gives (R172). -/
def Device.commitHeard (d : Device) (a : Addr) (x : Nat) : StandingRecord :=
  let st := d.standing a
  if x = d.act.edition then { st with standing := if d.act.state = .idle then .unarmed else .confirmed }
  else
    { st with
      attempts := st.attempts + 1
      standing := if st.attempts + 1 < d.lnc.config.retryLimit then .late else if d.act.state = .idle then .unarmed else .lagging }

theorem Device.commitAck_late {x : Nat} (late : (d.standing a).standing = .late) :
    d.commitAck a x = accepted (d.setStanding a (d.commitHeard a x)).judgeActivation := by
  unfold Device.commitAck Device.commitAcked Device.commitFailed Device.commitHeard
  dsimp only
  rw [if_pos late, if_pos late]
  split
  · rfl
  · rfl

namespace State.Acked

variable (h : s.Acked a e offset)
include h

theorem committed (kind : e.kind = .commit) (late : (s.dev.standing a).standing = .late)
    (free : s.dev.act.state ≠ .committing ∨ s.dev.tgt.heldFare = none) :
    let t := s.act .sound (·.reply (.ack offset))
    s.actHeard t a ∧ s.settlesInto t ∧ t.dev.standing a = s.dev.commitHeard a offset.toNat := by
  intro t
  have judged := (commitOf (s := s) (a := a) (offset := offset) h.current kind).trans
    (Device.commitAck_late (d := s.dev.clearExchange) late)
  have first := Device.acts_setStanding s.dev.clearExchange a (s.dev.clearExchange.commitHeard a offset.toNat)
  have same (b : Addr) : (s.dev.clearExchange.setStanding a (s.dev.clearExchange.commitHeard a offset.toNat)).standing b =
      if a = b then s.dev.commitHeard a offset.toNat else s.dev.standing b := Device.standing_setStanding _ a b _
  have state : (s.dev.clearExchange.setStanding a (s.dev.clearExchange.commitHeard a offset.toNat)).act.state = s.dev.act.state := rfl
  have broadcast : (s.dev.clearExchange.setStanding a (s.dev.clearExchange.commitHeard a offset.toNat)).act.broadcast =
      s.dev.act.broadcast := rfl
  have held : (s.dev.clearExchange.setStanding a (s.dev.clearExchange.commitHeard a offset.toNat)).tgt.heldFare = s.dev.tgt.heldFare :=
    rfl
  generalize s.dev.clearExchange.setStanding a (s.dev.clearExchange.commitHeard a offset.toNat) = d at judged first same state broadcast held
  rw [← state, ← held] at free
  obtain ⟨acts, standings, settles, waits⟩ := Device.judgeActivation_quiet free
  obtain ⟨heard, accepts⟩ := h.acted judged (first.trans acts)
  have act : t.dev.act = d.judgeActivation.act := act_eq accepts
  have standing (b : Addr) : t.dev.standing b = d.standing b := by
    show t.dev.act.standings[b] = d.act.standings[b]
    rw [act, standings]
  have presence (b : Addr) : (t.dev.record b).presence = (d.record b).presence := by
    rw [← acts.record b]
    exact accepts.heard.presence b
  have done : t.dev.concludes ↔ d.concludes := by
    unfold Device.concludes
    exact forall_congr' fun b => by rw [standing, presence]
  refine ⟨heard, ⟨fun committing made finished => ?_, fun committing _ unfinished => ?_⟩, ?_⟩
  · obtain ⟨settled, cause⟩ := settles (state.trans committing) (broadcast.trans made) (done.1 finished)
    refine ⟨by rw [act]; exact settled, ?_⟩
    show (s.act .sound _).dev.port.causes.getLsbD 4 = true
    rw [accepts.dev]
    exact Device.causes_concluded (by rw [accepts.port_heard]; exact cause) _
  · rw [act]
    exact waits (state.trans committing) fun k => unfinished (done.2 k)
  · rw [standing, same, if_pos rfl]

end State.Acked

end Sys2Proof.Machine
end

