-- ==== Sys2Proof/Proofs/StartingOver.lean ====
section
/-! A FARE target held until the coordinator settles: discarded when it equals the target, and else in its place, the coordinator
starting over (R28, R30, R166, R167, R173). -/

namespace Sys2Proof.Machine

variable {s : State} {a : Addr} {e : Exchange} {c d g : Device} {offset : BitVec 24} {t : FareTarget}

/-! ## Starting over (R166) -/

/-- The coordinator as it starts over, before the time is judged. -/
def Device.startAct (d : Device) : Coordinator :=
  ({ d.act with standings := Vector.ofFn fun a => startOverStanding (d.record a) (d.standing a) } : Coordinator).startedOver d.tgt.fare

/-- The part as ACT starts over, before the time is judged. -/
def Device.startBlocks (d : Device) : Device :=
  { d with
    act := d.startAct
    lnc.exchange := d.lnc.exchange.map fun (e : Exchange) => if e.kind.actAddressed then { e with actStale := true } else e }

/-- The part as ACT starts over, its record handed over and its cause raised. -/
def Device.startPart (d : Device) : Device := (d.startBlocks.handOver .coordRewrite).raise .activation

theorem Device.startOver_eq (d : Device) : d.startOver = d.startPart.judgeTime.actWorkReported d.startBlocks := rfl

theorem Coordinator.standings_startedOver (x : Coordinator) (t : FareTarget) : (x.startedOver t).standings = x.standings := by
  unfold Coordinator.startedOver
  split
  · split
    · rfl
    · rfl
  · rfl

/-- Starting over for an untimed target or edition 0. -/
theorem Coordinator.startedOver_idle (x : Coordinator) (h : t.timing = none ∨ t.edition = 0) :
    x.startedOver t =
      { state := .idle, edition := t.edition, activation := 0, lead := 0, hold := 0, opens := 0, holdEnds := 0,
        broadcast := .notOwed, commitCause := .none, commitTime := 0, armedKept := 0, standings := x.standings } := by
  unfold Coordinator.startedOver
  split
  · rename_i timed
    have zero := h.resolve_left (by rw [timed]; simp)
    rw [if_pos zero, zero]
  · rfl

/-- Starting over for a timed target. -/
theorem Coordinator.startedOver_loading {w : Timing} (x : Coordinator) (h : t.timing = some w) (k : t.edition ≠ 0) :
    x.startedOver t =
      { state := .loading, edition := t.edition, activation := w.activation, lead := w.lead, hold := w.hold,
        opens := w.activation - w.lead, holdEnds := min 4294967295 (w.activation + w.hold), broadcast := .notOwed,
        commitCause := .none, commitTime := 0, armedKept := 0, standings := x.standings } := by
  unfold Coordinator.startedOver
  rw [h]
  exact if_neg k

/-- The part at the end of LOADING. -/
def Device.nowArming (d : Device) : Device := (d.setAct { d.act with state := .arming }).raise .activation

theorem Device.judgeTime_idle (h : d.act.state = .idle) : d.judgeTime = d := by
  unfold Device.judgeTime
  rw [h]

theorem Device.judgeTime_loading (h : d.act.state = .loading) :
    (¬d.fck.reached d.act.opens → d.judgeTime = d) ∧ (d.fck.reached d.act.opens → d.judgeTime = d.nowArming.judgeCommit) := by
  have opens := d.clockReached_iff d.act.opens
  unfold Device.judgeTime
  rw [h]
  exact ⟨fun k => if_neg fun l => k (opens.1 l), fun k => if_pos (opens.2 k)⟩

/-- The time judgement where the coordinator has just started over. -/
theorem Device.judgeTime_started (h : d.act.state = .idle ∨ d.act.state = .loading) :
    (d.act.state = .idle → d.judgeTime.act = d.act) ∧
      (d.act.state = .loading → (¬d.fck.reached d.act.opens → d.judgeTime.act = d.act) ∧
        (d.fck.reached d.act.opens → d.act.Judged d.record d.fck d.judgeTime.act)) ∧
      d.judgeTime.act.standings = d.act.standings ∧ d.Acts d.judgeTime := by
  have arming : d.Acts d.nowArming := (Device.Acts.setAct d _).trans (.raise _ _)
  rcases h with idle | loading
  · rw [Device.judgeTime_idle idle]
    exact ⟨fun _ => rfl, fun k => absurd (idle.symm.trans k) (by simp), rfl, .refl d⟩
  · obtain ⟨waits, opens⟩ := Device.judgeTime_loading loading
    refine ⟨fun k => absurd (loading.symm.trans k) (by simp), fun _ => ⟨fun k => by rw [waits k], fun k => ?_⟩, ?_⟩
    · rw [opens k]
      exact Device.judged_judgeCommit (d := d.nowArming) rfl
    · by_cases k : d.fck.reached d.act.opens
      · rw [opens k]
        exact ⟨d.nowArming.standings_judgeCommit, arming.trans d.nowArming.acts_judgeCommit⟩
      · rw [waits k]; exact ⟨rfl, .refl d⟩

theorem Device.startAct_state (d : Device) : d.startAct.state = .idle ∨ d.startAct.state = .loading := by
  unfold Device.startAct Coordinator.startedOver
  split
  · split
    · exact .inl rfl
    · exact .inr rfl
  · exact .inl rfl

theorem Device.actWorkReported_blocks (d x : Device) :
    (d.actWorkReported x).act = d.act ∧ (d.actWorkReported x).tgt = d.tgt ∧ (d.actWorkReported x).port = d.port ∧
      (d.actWorkReported x).ros = d.ros := by
  unfold Device.actWorkReported
  split
  · exact ⟨rfl, rfl, rfl, rfl⟩
  · exact ⟨rfl, rfl, rfl, rfl⟩

/-- The coordinator started over, by the target that the part holds. -/
theorem Device.startedOver_startOver (d : Device) : d.startedOver d.startOver d.tgt.fare ∧ d.startOver.tgt = d.tgt := by
  obtain ⟨act, tgt, -⟩ := Device.actWorkReported_blocks d.startPart.judgeTime d.startBlocks
  obtain ⟨idle, loading, standings, acts⟩ := Device.judgeTime_started (d := d.startPart) d.startAct_state
  rw [← Device.startOver_eq] at act tgt
  rw [← act] at idle loading standings
  have each : d.startOver.act.standings = Vector.ofFn fun a => startOverStanding (d.record a) (d.standing a) :=
    standings.trans (Coordinator.standings_startedOver _ _)
  refine ⟨⟨fun a => ?_, fun untimed => ?_, fun w timed edition => ?_⟩, tgt.trans acts.tgt⟩
  · show d.startOver.act.standings[a] = _
    rw [each]
    exact Vector.getElem_ofFn _
  · have started : d.startPart.act = _ := Coordinator.startedOver_idle _ untimed
    have still := idle (by rw [started])
    rw [each, still, started]
  · have started : d.startPart.act = _ := Coordinator.startedOver_loading _ timed edition
    obtain ⟨waits, judged⟩ := loading (by rw [started])
    rw [started] at waits judged
    rw [each]
    exact ⟨waits, judged⟩

/-! ### Cause ACTIVATION -/

theorem Device.activation_judgeCommit (h : d.port.causes.getLsbD 4 = true) : d.judgeCommit.port.causes.getLsbD 4 = true := by
  rcases d.judgeCommit_cases with same | ⟨-, x, same⟩
  · rw [same]; exact h
  · rw [same]; exact Cause.getLsbD_activation _

theorem Device.activation_judgeTime (h : d.port.causes.getLsbD 4 = true) (k : d.act.state = .idle ∨ d.act.state = .loading) :
    d.judgeTime.port.causes.getLsbD 4 = true := by
  rcases k with idle | loading
  · rw [Device.judgeTime_idle idle]; exact h
  · obtain ⟨waits, opens⟩ := Device.judgeTime_loading loading
    by_cases due : d.fck.reached d.act.opens
    · rw [opens due]
      exact Device.activation_judgeCommit (Cause.getLsbD_activation _)
    · rw [waits due]; exact h

theorem Device.activation_startOver (d : Device) : d.startOver.port.causes.getLsbD 4 = true := by
  obtain ⟨-, -, port, -⟩ := Device.actWorkReported_blocks d.startPart.judgeTime d.startBlocks
  rw [Device.startOver_eq, port]
  exact Device.activation_judgeTime (Cause.getLsbD_activation _) d.startAct_state

/-! ## The FARE target replaced (R26, R30) -/

/-- Starting over reads of the rest what ROS has learned, the flags of the standings and the clock. -/
theorem Device.startedOver.congr (h : d.startedOver g t) (learned : ∀ b, (d.record b).learned = (c.record b).learned)
    (standing : ∀ b, (d.standing b).disarmOwed = (c.standing b).disarmOwed ∧
      ((d.standing b).standing == .armed) = ((c.standing b).standing == .armed)) (clock : d.fck = c.fck) : c.startedOver g t := by
  have presence (b : Addr) : (d.record b).presence = (c.record b).presence := (ValRecord.of_learned (learned b)).1
  have armed (b : Addr) : (d.record b).armedEdition = (c.record b).armedEdition := by
    have same := congrArg ValRecord.armedEdition (learned b)
    exact same
  obtain ⟨each, idle, loading⟩ := h
  refine ⟨fun b => ?_, idle, fun w timed edition => ?_⟩
  · obtain ⟨owed, was⟩ := standing b
    rw [each b, presence b, armed b, owed, was]
  · obtain ⟨waits, judged⟩ := loading w timed edition
    rw [clock] at waits judged
    exact ⟨waits, fun due => (judged due).congr fun b => (presence b).symm⟩

/-- What ROS and PLN make of another FARE target. -/
def Device.fareChanged (d : Device) (t : FareTarget) : Device := ({ d with tgt.fare := t }.targetChanged [.fare]).replanAll

theorem Device.setFareTarget_eq (d : Device) (t : FareTarget) : d.setFareTarget t = (d.fareChanged t).startOver := rfl

theorem Device.moves_fareChanged (d : Device) (t : FareTarget) : Moves .narrow { d with tgt.fare := t } false (d.fareChanged t) :=
  Device.moves_replanAll (Device.moves_targetChanged .start)

/-- Another FARE target takes rejects, holds and shortfalls off the FARE cells (R30). -/
theorem Device.cell_setFareTarget (d : Device) (t : FareTarget) (b : Addr) :
    let x := ((d.setFareTarget t).record b).cell .fare
    x.rejects = 0 ∧ x.hold = false ∧ x.room = false := by
  let aimed : Device := { d with tgt.fare := t }
  let clear : Device := aimed.mapRecords fun _ r => r.retargeted [.fare]
  have lifted : clear.Eases (aimed.targetChanged [.fare]) :=
    .foldl _ (fun x y => x.eases_replanLifted y (aimed.record y) [.fare]) (.refl clear)
  have eases : clear.Eases (d.setFareTarget t) := (lifted.trans (Device.eases_replanAll _)).trans (Device.eases_startOver _)
  obtain ⟨rejects, hold, room⟩ := eases.cells b .fare
  have off : (clear.record b).cell .fare =
      { (aimed.record b).cell .fare with rejects := 0, hold := false, room := false } := by
    rw [Device.record_mapRecords, ValRecord.cell_retargeted]
    exact if_pos (List.mem_singleton.2 rfl)
  rw [off] at rejects hold room
  exact ⟨rejects rfl, hold rfl, room rfl⟩

/-- The FARE target in its place, the coordinator started over (R26, R166). -/
theorem Device.setFareTarget_started (d : Device) (t : FareTarget) :
    (d.setFareTarget t).tgt = { d.tgt with fare := t } ∧ d.startedOver (d.setFareTarget t) t ∧
      (d.setFareTarget t).port.causes.getLsbD 4 = true := by
  have moves := d.moves_fareChanged t
  have framed := moves.framed
  have tgt := framed.tgt.resolve_left id
  have act := framed.act.resolve_left id
  obtain ⟨started, kept⟩ := (d.fareChanged t).startedOver_startOver
  rw [Device.setFareTarget_eq]
  refine ⟨kept.trans tgt, ?_, Device.activation_startOver _⟩
  rw [tgt] at started
  have standings := congrArg Coordinator.standings act
  refine started.congr (fun b => (moves.recordStep b).learned.resolve_left id) (fun b => ?_) (framed.fck.resolve_left id)
  have same : (d.fareChanged t).standing b = d.standing b := congrArg (fun x : Vector StandingRecord 12 => x[b]) standings
  rw [same]; exact ⟨rfl, rfl⟩

/-! ## A held target applied (R28) -/

/-- The part with no FARE target held. -/
def Device.unheld (d : Device) : Device := { d with tgt.heldFare := none }

theorem Device.applyHeldTarget_equal (held : d.tgt.heldFare = some t) (same : t = d.tgt.fare) :
    d.applyHeldTarget = d.unheld := by
  unfold Device.applyHeldTarget
  rw [held]
  exact if_pos same

theorem Device.applyHeldTarget_other (held : d.tgt.heldFare = some t) (other : t ≠ d.tgt.fare) :
    d.applyHeldTarget = d.unheld.setFareTarget t := by
  unfold Device.applyHeldTarget
  rw [held]
  exact if_neg other

theorem State.Heard.cells {t : State} (h : s.Heard t a g) (b : Addr) (st : Stream) : (t.dev.record b).cell st = (g.record b).cell st := by
  by_cases same : b = a
  · subst same; exact h.cell st
  · have cells := congrArg (ValRecord.cell · st) (h.others b same)
    exact cells

theorem Device.learned_judgeActivation (d : Device) (b : Addr) : (d.judgeActivation.record b).learned = (d.record b).learned :=
  ((Device.moves_judgeActivation (S := .acting) (b := false) trivial .start).recordStep b).learned.resolve_left id

/-- The part once the last address has confirmed, the coordinator SETTLED and the held target not yet applied. -/
theorem Device.judgeActivation_held (committing : d.act.state = .committing) (made : d.act.broadcast = .made) (done : d.concludes) :
    d.judgeActivation = d.settled.applyHeldTarget := by
  rw [Device.judgeActivation, Device.judgeCommit_still (by rw [committing]; simp), Device.judgeSettled_pos committing made done]

namespace State.Acked

variable (h : s.Acked a e offset)
include h

theorem heldApplied (kind : e.kind = .commit) (late : (s.dev.standing a).standing = .late) (held : s.dev.tgt.heldFare = some t)
    (committing : s.dev.act.state = .committing) (made : s.dev.act.broadcast = .made) (edition : offset.toNat = s.dev.act.edition)
    (others : ∀ b, b ≠ a → (s.dev.record b).presence ≠ .unused → (s.dev.record b).presence ≠ .excluded →
      (s.dev.standing b).standing = .confirmed ∨ (s.dev.standing b).standing = .lagging) :
    let t' := s.act .sound (·.reply (.ack offset))
    s.cleanly t' a ∧ t'.dev.port.causes.getLsbD 4 = true ∧
      (t = s.dev.tgt.fare →
        t'.dev.tgt = { s.dev.tgt with heldFare := none } ∧ t'.dev.act.state = .settled ∧
          t'.dev.standing a = { s.dev.standing a with standing := .confirmed }) ∧
      (t ≠ s.dev.tgt.fare →
        t'.dev.tgt = { s.dev.tgt with fare := t, heldFare := none } ∧ s.dev.startedOver t'.dev t ∧
          ∀ b, ((t'.dev.record b).cell .fare).rejects = 0 ∧ ((t'.dev.record b).cell .fare).hold = false ∧
            ((t'.dev.record b).cell .fare).room = false) := by
  intro t'
  have judged := (commitOf (s := s) (a := a) (offset := offset) h.current kind).trans
    (Device.commitAck_late (d := s.dev.clearExchange) late)
  have confirmed : s.dev.clearExchange.commitHeard a offset.toNat = { s.dev.standing a with standing := .confirmed } := by
    have idle : s.dev.act.state ≠ .idle := by rw [committing]; simp
    show s.dev.commitHeard a offset.toNat = _
    unfold Device.commitHeard
    dsimp only
    rw [if_pos edition, if_neg idle]
  rw [confirmed] at judged
  have acts := Device.acts_setStanding s.dev.clearExchange a { s.dev.standing a with standing := .confirmed }
  have standing (b : Addr) := Device.standing_setStanding s.dev.clearExchange a b { s.dev.standing a with standing := .confirmed }
  have state : (s.dev.clearExchange.setStanding a { s.dev.standing a with standing := .confirmed }).act.state = .committing := committing
  have broadcast : (s.dev.clearExchange.setStanding a { s.dev.standing a with standing := .confirmed }).act.broadcast = .made := made
  generalize s.dev.clearExchange.setStanding a { s.dev.standing a with standing := .confirmed } = d at judged acts standing state broadcast
  have record (b : Addr) : d.record b = s.dev.record b := acts.record b
  have tgt : d.tgt = s.dev.tgt := acts.tgt
  have done : d.concludes := by
    intro b unused excluded
    rw [record] at unused excluded
    rw [standing]
    split
    · exact .inl rfl
    · rename_i other
      exact others b (Ne.symm other) unused excluded
  have eases := (d.eases_judgeActivation).line (by rw [acts.lnc]; rfl)
  have learned := d.learned_judgeActivation a
  rw [record] at learned
  obtain ⟨presence, -⟩ := ValRecord.of_learned learned
  have accepts := h.accepts judged (eases.trans acts.lnc) (presence.trans h.present)
  have heard := accepts.heard
  have settled := Device.judgeActivation_held state broadcast done
  have act : t'.dev.act = d.judgeActivation.act := act_eq accepts
  have aims : t'.dev.tgt = d.judgeActivation.tgt := by
    show (s.act .sound _).dev.tgt = _
    rw [heard.blocks]
  have cause (k : d.judgeActivation.port.causes.getLsbD 4 = true) : t'.dev.port.causes.getLsbD 4 = true := by
    show (s.act .sound _).dev.port.causes.getLsbD 4 = true
    rw [accepts.dev]
    exact Device.causes_concluded (by rw [accepts.port_heard]; exact k) _
  have held : d.settled.tgt.heldFare = some t := (congrArg TargetTable.heldFare tgt).trans held
  have fare : d.settled.tgt.fare = s.dev.tgt.fare := congrArg TargetTable.fare tgt
  refine ⟨cleanly accepts, ?_, fun same => ?_, fun other => ?_⟩
  · refine cause ?_
    rw [settled]
    by_cases same : t = s.dev.tgt.fare
    · rw [Device.applyHeldTarget_equal held (same.trans fare.symm)]
      exact Cause.getLsbD_activation _
    · rw [Device.applyHeldTarget_other held fun k => same (k.trans fare)]
      obtain ⟨-, -, raised⟩ := d.settled.unheld.setFareTarget_started t
      exact raised
  · have mine : t'.dev.standing a = d.judgeActivation.standing a := standing_eq accepts a
    rw [aims, act, mine, settled, Device.applyHeldTarget_equal held (same.trans fare.symm)]
    refine ⟨congrArg (fun x : TargetTable => { x with heldFare := none }) tgt, rfl, ?_⟩
    exact (standing a).trans (if_pos rfl)
  · rw [Device.applyHeldTarget_other held fun k => other (k.trans fare)] at settled
    obtain ⟨placed, started, -⟩ := d.settled.unheld.setFareTarget_started t
    rw [← settled] at placed started
    refine ⟨?_, ?_, fun b => ?_⟩
    · rw [aims, placed]
      exact congrArg (fun x : TargetTable => { x with fare := t, heldFare := none }) tgt
    · have begun : s.dev.startedOver d.judgeActivation t := by
        refine started.congr (fun b => congrArg ValRecord.learned (record b)) (fun b => ?_) acts.fck
        have flags := standing b
        have same : d.settled.unheld.standing b = d.standing b := rfl
        rw [same, flags]
        split
        · rename_i mine
          subst mine
          exact ⟨rfl, by rw [late]; rfl⟩
        · exact ⟨rfl, rfl⟩
      unfold Device.startedOver Device.standing
      rw [act]
      exact begun
    · have cells := d.settled.unheld.cell_setFareTarget t b
      rw [← settled, ← heard.cells b .fare] at cells
      exact cells

end State.Acked

end Sys2Proof.Machine
end

