-- ==== Sys2Proof/Proofs/Acknowledged.lean ====
section
/-! An ACK by the frame it answers. -/

namespace Sys2Proof.Machine

/-- Settles O58: by the kind of the frame answered, the owner's part for each being told by the lemmas on ACKs, and a clean reply adding
to it what ROS counts. -/
theorem ackApplied : Obligations.AckApplied := by
  unfold Obligations.AckApplied
  intro offset s a e safe awaits present x r answered missed clean
  have acked (valid : replyValid e.kind (.ack offset) = true) : s.Acked a e offset := ⟨safe, awaits, present, valid⟩
  refine ⟨fun kind => ?_, fun kind q some => ?_, fun kind => ?_, fun k kind tier => ?_, fun first last restart kind => ?_, fun kind => ?_⟩
  · have h : s.Acked a e offset := acked (by rcases kind with kind | kind <;> (rw [kind]; rfl))
    refine ⟨fun q some => ⟨fun beyond => h.offsetRefused kind some beyond, fun within => ?_⟩, fun none => ?_⟩
    · exact ⟨_, rfl, h.offsetsSet kind some within⟩
    · exact ⟨_, rfl, h.offsetDropped kind none⟩
  · have h : s.Acked a e offset := acked (by rw [kind]; rfl)
    obtain ⟨cleanly, transfers, learned, kept, freed, others⟩ := h.abandoned kind some
    refine ⟨_, rfl, cleanly, transfers, learned, ?_, kept, fun retiring last => freed ⟨retiring, last⟩, others⟩
    split
    · rename_i last
      obtain ⟨entry, -⟩ := freed last
      exact congrArg Entry.generation entry
    · rename_i more
      have same := congrArg Entry.generation (kept more)
      exact same
  · exact ⟨_, rfl, (acked (by rw [kind]; rfl)).allAbandoned kind⟩
  · exact ⟨_, rfl, (acked (by rw [kind]; rfl)).dropped kind tier⟩
  · have h : s.Acked a e offset := acked (by rw [kind]; rfl)
    exact ⟨fun outside => h.hotRefused kind fun k => outside (seqBetween_iff.1 k),
      fun between => ⟨_, rfl, h.hotTaken kind (seqBetween_iff.2 between)⟩⟩
  · have h : s.Acked a e offset := acked (by rcases kind with kind | kind | kind <;> (rw [kind]; rfl))
    refine ⟨fun kind => ⟨fun zero other => h.armMissed kind zero other, fun zero edition => ?_, fun edition arming unarmed => ?_,
      fun edition committing unmade unarmed => ?_⟩, fun kind => ⟨fun zero => h.disarmMissed kind zero, fun zero => ?_⟩,
      fun kind late free => ?_, fun held target kind late committing made edition others => ?_⟩
    · exact ⟨_, rfl, h.armDeclined kind zero edition⟩
    · exact ⟨_, rfl, h.armArming kind edition arming unarmed⟩
    · exact ⟨_, rfl, h.armCommitting kind edition committing unmade unarmed⟩
    · exact ⟨_, rfl, h.disarmed kind zero⟩
    · exact ⟨_, rfl, h.committed kind late free⟩
    · exact ⟨_, rfl, h.heldApplied kind late target committing made edition others⟩

end Sys2Proof.Machine
end

