-- ==== Sys2Proof/Proofs/Misaddressed.lean ====
section
/-! The statement on the exchange area's octets fails where the exchange in flight is a COMMIT to ALL with an address. Such a state is
settled, and safe. The statement leaves out a broadcast by its missing address, but the model tells one by its kind: CANCEL cuts
it, the broadcast becomes MADE, and the coordinator record is handed over whatever has changed (R103, R170). No grant begins
such an exchange: what the statement lacks is the premise that kind and address agree. -/

namespace Sys2Proof.Machine

/-- RUNNING, the broadcast MADE, with a COMMIT to ALL in flight that bears address 1. -/
def misaddressedBroadcast : State :=
  { State.reset with
    dev :=
      { State.reset.dev with
        port.device := .running
        act.broadcast := .made
        lnc.line := .cycle
        lnc.exchange := some (exchangeTo (some 0) .commitAll 0 0 2 false []) } }

theorem misaddressedBroadcast_safe : misaddressedBroadcast.safe := by decide +kernel

/-- CANCEL makes the broadcast again, which changes nothing that the coordinator record shows. -/
theorem misaddressedBroadcast_shown :
    coordBody (doCancel .sound misaddressedBroadcast).dev.act = coordBody misaddressedBroadcast.dev.act := by decide +kernel

/-- The coordinator record is rewritten all the same, its update count stepped. -/
theorem misaddressedBroadcast_rewritten :
    (doCancel .sound misaddressedBroadcast).ram.octets (misaddressedBroadcast.dev.areaBase + coordOffset) 64 ≠
      misaddressedBroadcast.ram.octets (misaddressedBroadcast.dev.areaBase + coordOffset) 64 := by decide +kernel

/-- CANCEL is no reply. -/
theorem Reply.command_ne_cancel (reply : Reply) : Instr.cancel ≠ reply.command := by
  cases reply <;> simp [Reply.command]

/-- Refutes O31: CANCEL, with a COMMIT to ALL in flight that bears an address, rewrites the coordinator record though what it shows
stays and no exchange without an address is in flight. -/
theorem not_areaFollowsChanges : ¬ Obligations.AreaFollowsChanges := by
  unfold Obligations.AreaFollowsChanges
  intro h
  have settled : misaddressedBroadcast.settled := ⟨misaddressedBroadcast_safe.outbox, misaddressedBroadcast_safe.exitEvent⟩
  obtain ⟨-, -, coord, -⟩ :=
    h .cancel misaddressedBroadcast settled rfl rfl (fun _ => ⟨nofun, nofun⟩) (doCancel .sound misaddressedBroadcast) rfl
  refine misaddressedBroadcast_rewritten (coord (.inr ⟨misaddressedBroadcast_shown, rfl, nofun, fun a replied => ?_, fun e inFlight => ?_⟩))
  · obtain ⟨-, ⟨octets, cancel⟩ | ⟨reply, cancel⟩⟩ := replied
    · cases cancel
    · exact Reply.command_ne_cancel reply cancel
  · cases inFlight
    exact Option.some_ne_none _

end Sys2Proof.Machine
end
